-- ==== Sys2Proof/Word.lean ====
section
/-! DEFINITION. The word types of the Sniurn S4 (spec/00_scope.md R4, R5): a byte is 8 bits, a half 16, a word 32,
a dword 64 and a quad 128. Only the types and the plainest field helpers stand here. -/

namespace Sys2Proof

/-- A byte (R5). -/
abbrev Byte := BitVec 8
/-- A 32-bit word (R5). -/
abbrev W32 := BitVec 32
/-- A 64-bit dword (R5). -/
abbrev W64 := BitVec 64

/-- `bits(x, hi, lo)` of R10 on a natural number. -/
def natBits (x hi lo : Nat) : Nat := (x >>> lo) % 2 ^ (hi + 1 - lo)

/-- Bit `i` of a natural number, as a Bool. -/
def natBit (x i : Nat) : Bool := x.testBit i

end Sys2Proof
end

