-- ==== Sys2Proof/Syntax.lean ====
section
/-! DEFINITION. The one inductive `Instr`: a constructor for every row of the opcode table. A row of the table is either
a 64-bit instruction word (spec/03_instruction_words_and_assembly.md) or one of the device's other steps: what an
engine, a dispatcher, management, the host or a link does (spec/95_what_each_step_holds.md). A word carries the fields
of its form (R58 to R62); a step carries the data that names it or that arrives with it from outside the device. -/

namespace Sys2Proof

/-- The four issue ports of a core (R99). -/
inductive PortId where
  | c | m | v0 | v1
  deriving DecidableEq, Repr

/-- The R form (R58, R59). -/
structure RForm where
  e : Bool
  stall : BitVec 4
  gn : Bool
  gp : BitVec 3
  d : BitVec 10
  s1 : BitVec 10
  s2 : BitVec 10
  eh : BitVec 3
  ew : BitVec 3
  mod : BitVec 9
  deriving DecidableEq, Repr

/-- The I form (R58, R60). -/
structure IForm where
  e : Bool
  stall : BitVec 4
  gn : Bool
  gp : BitVec 3
  d : BitVec 10
  mod3 : BitVec 3
  imm : BitVec 32
  deriving DecidableEq, Repr

/-- The M form (R58, R61). -/
structure MForm where
  e : Bool
  stall : BitVec 4
  gn : Bool
  gp : BitVec 3
  d : BitVec 10
  s1 : BitVec 10
  off : BitVec 16
  mod : BitVec 9
  deriving DecidableEq, Repr

/-- One half of a paired word (R62). -/
structure Half where
  op : BitVec 6
  d : BitVec 10
  s : BitVec 10
  g : BitVec 3
  deriving DecidableEq, Repr

/-- The paired form (R58, R62). -/
structure PForm where
  e : Bool
  stall : BitVec 4
  a : Half
  b : Half
  deriving DecidableEq, Repr

/-- What one device sends another over a UALink port (R428): PEER traffic, ATQ commands and replies, agreement
reports and collective messages. Each carries what the rules give it. -/
inductive LinkMsg where
  /-- a write of bytes to a PEER line (R371) -/
  | peerWrite (pa : Nat) (bytes : List (BitVec 8))
  /-- a read of the 128-byte PEER line at a physical address (R371) -/
  | peerRead (pa : Nat)
  /-- the 128 bytes of a PEER line that was asked for (R371) -/
  | peerData (pa : Nat) (bytes : List (BitVec 8))
  /-- an ATQ command of R396 for a queue of the target -/
  | atqCommand (queue : Nat) (cmd : BitVec 256)
  /-- an ATQ reply of R397 -/
  | atqReply (tag : Nat) (status : Nat) (old : BitVec 32)
  /-- a member's report of its link rows, in a round from a generation that has restarted so often (R439) -/
  | report (dom gen attempt member : Nat) (rows : List (BitVec 128))
  /-- the compared fields of a COLL (R445): its record fields and the header bytes of its tiles -/
  | collHeader (dom gen coll member : Nat) (fields : List Nat) (headers : List (BitVec 128))
  /-- a partial sum going up, or a result going down, of one chunk (R446) -/
  | collChunk (dom gen coll chunk member : Nat) (up : Bool) (data : List (BitVec 8))
  /-- a mark vector (R449) -/
  | marks (dom gen coll member : Nat) (m : List Nat)
  /-- a member has every chunk at mark 2 (R451) -/
  | collDone (dom gen coll member : Nat)
  /-- a member's COLL stopped (R452) -/
  | stopped (dom gen coll member : Nat)
  deriving DecidableEq, Repr

/-- The opcode table, row by row. -/
inductive Instr where
  -- class 0: integer, logic and moves (06 R160)
  | iadd (w : RForm) | isub (w : RForm) | iaddc (w : RForm) | imul (w : RForm) | imulh (w : RForm) | imad (w : RForm)
  | imin (w : RForm) | imax (w : RForm) | iabs (w : RForm) | idiv (w : RForm) | irem (w : RForm) | icmp (w : RForm)
  | sel (w : RForm) | and (w : RForm) | or (w : RForm) | xor (w : RForm) | andn (w : RForm) | not (w : RForm)
  | shl (w : RForm) | shr (w : RForm) | sar (w : RForm) | rol (w : RForm) | fshl (w : RForm) | fshr (w : RForm)
  | bfx (w : RForm) | bfi (w : RForm) | popc (w : RForm) | clz (w : RForm) | brev (w : RForm) | mov (w : RForm)
  | movi (w : IForm) | movhi (w : IForm) | iadd64 (w : RForm) | lea (w : RForm)
  -- class 1: float, conversion, codebook, checksum (07 R181 to R202)
  | fadd (w : RForm) | fsub (w : RForm) | fmul (w : RForm) | ffma (w : RForm) | fmin (w : RForm) | fmax (w : RForm)
  | fcmp (w : RForm) | fclass (w : RForm) | frnd (w : RForm) | frcp (w : RForm) | frsq (w : RForm) | fsqrt (w : RForm)
  | fex2 (w : RForm) | flg2 (w : RForm) | fsin (w : RForm) | fcos (w : RForm) | ftanh (w : RForm)
  | hadd2 (w : RForm) | hmul2 (w : RForm) | hfma2 (w : RForm) | cvt (w : RForm) | cvtblk (w : RForm)
  | unblk (w : RForm) | cbxp (w : RForm) | cbq (w : RForm) | ckacc (w : RForm) | cktest (w : RForm)
  -- class 2: cross-lane, predicates, system registers (08 R206, 06 R173, 05 R129)
  | shfl (w : RForm) | shflp (w : RForm) | vote (w : RForm) | red (w : RForm) | scan (w : RForm) | lgset (w : RForm)
  | matchLanes (w : RForm) | bcast (w : RForm) | pand (w : RForm) | por (w : RForm) | pxor (w : RForm)
  | pnot (w : RForm) | pmov (w : RForm) | mfsr (w : RForm) | mtsr (w : RForm)
  | pairedWord (w : PForm)
  -- class 3: matrix, press and seed (09 R223, 10 R254, 11 R278); the .L forms are rows of their own
  | mset (w : RForm) | mma (w : RForm) | mmaL (w : RForm) | mmar (w : RForm) | mmarL (w : RForm) | mmas (w : RForm)
  | mmasL (w : RForm) | mzero (w : RForm) | mldr (w : RForm) | mstr (w : RForm) | macc (w : RForm) | mscl (w : RForm)
  | mdrain (w : RForm) | mdraina (w : RForm) | mchk (w : RForm) | mbnd (w : RForm) | mrel (w : RForm)
  | maxsc (w : RForm) | seedscan (w : RForm) | seedfit (w : RForm) | seedx (w : RForm)
  -- class 4: scratchpads (13 R327 to R338)
  | lds (w : MForm) | sts (w : MForm) | ldsb (w : MForm) | stsb (w : MForm) | ats (w : MForm) | cass (w : RForm)
  | strm (w : RForm) | ldrm (w : RForm) | atrm (w : RForm)
  -- class 5: buffers, copies, caches, fences (13 R339 to R361)
  | brset (w : RForm) | brget (w : RForm) | ldb (w : RForm) | stb (w : RForm) | atb (w : RForm) | casb (w : RForm)
  | atq (w : RForm) | copy (w : RForm) | pref (w : RForm) | cflush (w : RForm) | cinv (w : RForm)
  | fence (w : RForm) | lfence (w : RForm)
  -- class 6: barriers, rings, events, tables (18 R459, R472; 15 R388, R392; 16 R417, R425; 17 R441, R454)
  | binit (w : RForm) | barv (w : RForm) | bexp (w : RForm) | bwait (w : RForm) | btest (w : RForm) | binv (w : RForm)
  | racq (w : RForm) | rcom (w : RForm) | rtake (w : RForm) | rrel (w : RForm) | evpost (w : RForm) | lnch (w : RForm)
  | ctw (w : RForm) | ctswap (w : RForm) | kval (w : RForm) | kvfr (w : RForm) | kvsh (w : RForm) | kvmap (w : RForm)
  | coll (w : RForm) | ltrd (w : RForm) | admitTok (w : RForm)
  -- class 7: control (05 R131)
  | nop (w : RForm) | bra (w : IForm) | brx (w : RForm) | call (w : IForm) | ret (w : RForm) | exit (w : RForm)
  | yield (w : RForm) | sleep (w : IForm) | trap (w : IForm) | rett (w : RForm) | bkpt (w : IForm) | snap (w : RForm)
  | halt (w : RForm) | tlbi (w : RForm)
  -- steps of a core outside its words
  | portBoundary (d : Nat) (p : PortId)
  | deferredTrapDelivery (d slot lane : Nat)
  | sleepExpire (d slot lane : Nat)
  | bankToggle (d slot : Nat)
  | coreHalt (d : Nat)
  | plateExecute (d : Nat)
  | pressOperation (d : Nat)
  | pressComplete (d : Nat)
  | seedExecute (d : Nat)
  | maxscComplete (d op : Nat)
  | ldbLaneLand (d op lane : Nat)
  | bufferLanePerform (d op lane : Nat)
  | strmLaneWrite (d op lane : Nat)
  | ldrmGranule (d op g : Nat)
  | atrmLaneApply (d op lane : Nat)
  | atqSend (d op lane : Nat)
  | atqApply (queue : Nat)
  | atqReply (tag : Nat) (status : Nat) (old : BitVec 32)
  | copyElement (d op : Nat)
  | cacheMaintComplete (d op : Nat)
  | evpostApply (d op : Nat)
  | lnchEnqueue (d op : Nat)
  | cadastrePerform (d op : Nat)
  | ltrdRead (d op : Nat)
  | admissionGrant (t bucket : Nat)
  -- memory outside the cores
  | lineMigrate (pa tower : Nat)
  | leaseExpire (key : Nat)
  | peerWriteApply (port : Nat)
  | peerReadServe (port : Nat)
  -- page faults
  | warpSuspend (d slot : Nat)
  | warpRestore (d slot : Nat)
  -- launches
  | doorbell (q : Nat) (tail : BitVec 32)
  | queueEnable (q : Nat) (desc : BitVec 512)
  | queueDisable (q : Nat)
  | dependenceMet (key : Nat)
  | mapChoice (key : Nat)
  | thermalForced (key : Nat)
  | launchSeed (key : Nat)
  | preempt (key : Nat)
  | preemptSave (key : Nat)
  | launchResume (key : Nat)
  | launchEnd (key : Nat)
  | launchAbort (key : Nat)
  | eventRecordCopy (t : Nat)
  -- host writes
  | evsignal (v : BitVec 64)
  | abort (id : BitVec 32)
  | hflheadWrite (v : BitVec 64)
  | configRegisterWrite (bar off size : Nat) (v : BitVec 512)
  | ctxadd (v : BitVec 64)
  | resumeAction0 (seq : BitVec 32)
  | resumeFrameexh (seq : BitVec 32)
  | linkClr (p : Nat)
  | domainEnable (d : Nat)
  | domainDisable (d : Nat)
  | bar2Write (off : Nat) (bytes : List (BitVec 8))
  | bar2Read (off size : Nat)
  -- links and collectives
  | flitReceive (port : Nat) (crcOk : Bool) (m : LinkMsg)
  | flitAck (port n : Nat)
  | replayLimit (port : Nat)
  | retrainLock (port : Nat) (rate : Nat) (peerId : BitVec 32) (peerPort : Nat)
  | retrainTimeout (port : Nat)
  | lossOfSignal (port : Nat)
  | ackTimeout (port : Nat)
  | managementRetrain (port : Nat)
  | agreementReport (dom member : Nat) (rows : List (BitVec 128))
  | agreementReportTimeout (dom : Nat)
  | agreementCommit (dom : Nat)
  | markVectorMessage (dom coll member : Nat) (marks : List Nat)
  | collHeaderExchange (dom coll member : Nat) (fields : List Nat) (headers : List (BitVec 128))
  | collChunkMessage (dom coll chunk member : Nat) (up : Bool) (data : List (BitVec 8))
  | collCompletionRound (dom coll : Nat)
  | memberStopped (dom coll member : Nat)
  -- management
  | riserTimingApply (d ch : Nat)
  | riserRepair (d ch : Nat)
  | coreOutOfService (d : Nat)
  | channelFenceThreshold (t ch : Nat)
  | sensorSample (col layer : Nat) (reading : BitVec 16)
  | loopLost (top : Bool)
  | loopRestored (top : Bool)
  | unassignedOpcode (w : BitVec 64)
  | bar2Resize (log2GiB : Nat)
  | layerClockGating (d layer : Nat) (asleep denied : Bool)
  | memoryError (unit : Nat) (pa : Nat) (uncorrectable : Bool)
  | channelDieFault (d acc ch row col : Nat) (mask : BitVec 9)
  -- steps that carry no data of their own
  | snapshotLatch
  | tokenRefill
  | faultRecordWrite
  | packetTake
  | sync
  | kvenEnable
  | kvenDisable
  | shutdownGraceExpire
  | powerOnReset
  | sensor
  | logread
  | riserset
  | mbFence
  | inject
  | checkbits
  | snapctlArm
  | snapctlProgen
  | snapctlReadctl
  | snapctlReadblock
  | corectlHalt
  | corectlResume
  | corectlDebugen
  | corectlReadreg
  | fwupdate
  | attest
  | mailboxComplete
  | overrun
  | badcmd
  | powerLoss
  deriving DecidableEq, Repr

end Sys2Proof
end

