-- ==== Sys2Proof/Machine/Encoding.lean ====
section
/-! DEFINITION. The encoding tables of the manual: for every opcode its form, the operand classes each position accepts,
whether it takes blocks, which modifier bits it assigns, and the values it reserves (03 R58 to R84 and the encoding
tables of chapters 05 to 18). Checks 3 (RESFIELD) and 4 (ILLOPND) of R84 that depend on the word alone are read off
these tables; the decoder and WellFormed both use them. -/

namespace Sys2Proof.Machine

/-- The register classes of the operand space (R67). -/
inductive Cls where
  | v | w | p | b | a | c | k | sp | rsv
  deriving DecidableEq, Repr

/-- The class that a value of an operand field names (R67). -/
def classOf (x : BitVec 10) : Cls :=
  let n := x.toNat
  if n < 768 then .v else if n < 832 then .w else if n < 840 then .p else if n < 856 then .b
  else if n < 864 then .a else if n < 880 then .c else if n < 884 then .k
  else if n < 896 then .rsv else if n < 909 then .sp else .rsv

/-- What an operand position of an instruction holds. -/
inductive Slot where
  /-- not used: the field must be zero (R83) -/
  | unused
  /-- a register of one of these classes -/
  | cls (l : List Cls)
  /-- a field that is no operand -/
  | raw
  deriving DecidableEq, Repr

/-- Bit `n` of a modifier field. -/
def mbit (m : BitVec 9) (n : Nat) : Bool := m.getLsbD n

/-- Bits `[hi:lo]` of a modifier field. -/
def mfld (m : BitVec 9) (hi lo : Nat) : Nat := natBits m.toNat hi lo

/-- The encoding of one R-form opcode. -/
structure RSpec where
  d : Slot := .unused
  s1 : Slot := .unused
  s2 : Slot := .unused
  /-- accepts block operands (R71) -/
  block : Bool := false
  /-- the assigned bits of MOD; the others are reserved (R83) -/
  mask : Nat := 0
  /-- no reserved modifier value or field (RESFIELD otherwise) -/
  res : RForm → Bool := fun _ => true
  /-- the operand rules of the description (ILLOPND otherwise) -/
  opn : RForm → Bool := fun _ => true

/-- The operand position is zero where unused (R83). -/
def Slot.zeroOk (s : Slot) (x : BitVec 10) : Bool :=
  match s with
  | .unused => x == 0
  | _ => true

/-- The operand position names an accepted class (R69). -/
def Slot.clsOk (s : Slot) (x : BitVec 10) : Bool :=
  match s with
  | .cls l => l.contains (classOf x)
  | _ => true

/-- A v block at `base` of `h` rows and `w` columns lies in the grid (R70). -/
def blockOk (base h w : Nat) : Bool := base / 32 + h ≤ 24 && base % 32 + w ≤ 32

def RForm.h (w : RForm) : Nat := w.eh.toNat + 1
def RForm.wd (w : RForm) : Nat := w.ew.toNat + 1
/-- The word has a block extent other than 1x1. -/
def RForm.isBlock (w : RForm) : Bool := w.eh != 0 || w.ew != 0

/-- Check 3 of R84 for an R-form word (R71, R83). -/
def RSpec.resOk (sp : RSpec) (w : RForm) : Bool :=
  sp.d.zeroOk w.d && sp.s1.zeroOk w.s1 && sp.s2.zeroOk w.s2 &&
  (w.mod.toNat &&& (511 - sp.mask)) == 0 &&
  (if sp.block then
      (!(mbit w.mod 8) || (RForm.isBlock w && classOf w.s1 == .v)) &&
      (sp.mask &&& 128 == 0 || !(mbit w.mod 7) || (RForm.isBlock w && classOf w.s2 == .v))
    else !(RForm.isBlock w)) &&
  sp.res w

/-- A v source of a block word that is not broadcast lies in the grid. -/
def srcBlockOk (s : Slot) (x : BitVec 10) (bc : Bool) (w : RForm) : Bool :=
  match s with
  | .cls _ => classOf x != .v || bc || blockOk x.toNat (RForm.h w) (RForm.wd w)
  | _ => true

/-- Check 4 of R84 for an R-form word, as far as it does not depend on the thread's allocation (R69 to R71). -/
def RSpec.opnOk (sp : RSpec) (w : RForm) : Bool :=
  sp.d.clsOk w.d && sp.s1.clsOk w.s1 && sp.s2.clsOk w.s2 &&
  (!(RForm.isBlock w) ||
    (classOf w.d == .v && blockOk w.d.toNat (RForm.h w) (RForm.wd w) &&
     srcBlockOk sp.s1 w.s1 (mbit w.mod 8) w && srcBlockOk sp.s2 w.s2 (mbit w.mod 7) w)) &&
  sp.opn w

def dI : Slot := .cls [.v, .w, .p]
def sI : Slot := .cls [.v, .w, .p, .sp]
def dF : Slot := .cls [.v, .w]
def sF : Slot := .cls [.v, .w, .sp]
def oW : Slot := .cls [.w]
def oP : Slot := .cls [.p]
def oV : Slot := .cls [.v]
def oA : Slot := .cls [.a]
def oC : Slot := .cls [.c]
def oB : Slot := .cls [.b]
def oK : Slot := .cls [.k]

/-- A 64-bit operand: a v register must be even (R172). -/
def even64 (x : BitVec 10) : Bool := classOf x != .v || x.toNat % 2 == 0
/-- A 128-bit operand of LDS and STS: a v register whose index is a multiple of 4 (R328). -/
def quad128 (x : BitVec 10) : Bool := classOf x == .v && x.toNat % 4 == 0

/-- RO = 0 leaves RM zero, RO in MOD[6] and RM in MOD[5:4] (R180). -/
def rmOk (w : RForm) : Bool := mbit w.mod 6 || mfld w.mod 5 4 == 0

/-- SHL, SHR, SAR, ROL: with I = 1 S2 and BC2 are zero, with I = 0 the amount field is zero (R160). -/
def shiftRes (w : RForm) : Bool :=
  if mbit w.mod 5 then w.s2 == 0 && !(mbit w.mod 7) else mfld w.mod 4 0 == 0

def alu2 : RSpec := { d := dI, s1 := sI, s2 := sI, block := true, mask := 0x180 }
def alu2U : RSpec := { alu2 with mask := 0x1C0 }
def alu1 : RSpec := { d := dI, s1 := sI, block := true, mask := 0x100 }
def shiftSp : RSpec := { alu2 with mask := 0x1BF, res := shiftRes }
def float2 : RSpec := { d := dF, s1 := sF, s2 := sF, block := true, mask := 0x1F0, res := rmOk }
def float1 : RSpec := { d := dF, s1 := sF, block := true, mask := 0x100 }
def float1R : RSpec := { float1 with mask := 0x170, res := rmOk }

/-- The fields that CVT keeps in its S2 field (R189): SF, SO, SV, RO, RM, reserved. -/
def cvtSF (w : RForm) : Nat := natBits w.s2.toNat 9 6
def cvtSO (w : RForm) : Bool := w.s2.getLsbD 5
def cvtSV (w : RForm) : Bool := w.s2.getLsbD 4
def cvtRO (w : RForm) : Bool := w.s2.getLsbD 3
def cvtRM (w : RForm) : Nat := natBits w.s2.toNat 2 1
def cvtDF (w : RForm) : Nat := mfld w.mod 3 0

/-- RESFIELD conditions of CVT (R189, R190). -/
def cvtRes (w : RForm) : Bool :=
  cvtDF w < 12 && cvtSF w < 12 && (cvtSO w || !(cvtSV w)) && (cvtRO w || cvtRM w == 0) && !(w.s2.getLsbD 0) &&
  ((cvtDF w < 10 && cvtSF w < 10) || (!(RForm.isBlock w) && !(mbit w.mod 8)))

/-- A 64-bit operand of CVT (R190): a w register or an even v pair. -/
def cvt64 (x : BitVec 10) : Bool := classOf x == .w || (classOf x == .v && even64 x)
def cvtOpn (w : RForm) : Bool :=
  (cvtDF w < 10 || cvt64 w.d) && (cvtSF w < 10 || cvt64 w.s1)

/-- MOV accepts a k register only beside a k or w register (R170). -/
def movOpn (w : RForm) : Bool :=
  let kd := classOf w.d == .k
  let ks := classOf w.s1 == .k
  (!kd || ks || classOf w.s1 == .w) && (!ks || kd || classOf w.d == .w)

/-- SHFL and SHFLP: an immediate selector keeps the rest of S2 and BC2 zero (R206). -/
def shflRes (w : RForm) : Bool := !(mbit w.mod 4) || (natBits w.s2.toNat 9 5 == 0 && !(mbit w.mod 7))
def shflOpn (w : RForm) : Bool :=
  mbit w.mod 4 ||
  ([Cls.v, .w, .sp].contains (classOf w.s2) &&
    (!(RForm.isBlock w) || classOf w.s2 != .v || mbit w.mod 7 || blockOk w.s2.toNat (RForm.h w) (RForm.wd w)))

def voteOpn (w : RForm) : Bool :=
  let m := mfld w.mod 1 0
  let dOk := if m == 2 then [Cls.v, .w].contains (classOf w.d) else classOf w.d == .p
  let sOk := if m == 3 then [Cls.v, .w, .sp].contains (classOf w.s1) else classOf w.s1 == .p
  dOk && sOk

/-- RED and SCAN: OPC 0 to 8, U only with MIN and MAX (R206). -/
def redRes (w : RForm) : Bool :=
  let opc := mfld w.mod 6 3
  opc < 9 && (!(mbit w.mod 7) || opc == 1 || opc == 2)

/-- The width of a system register (R123): true for 64 bits. -/
def srnWide (n : Nat) : Bool := [2, 4, 5, 8, 12, 13, 14, 15].contains n

/-- MFSR and MTSR (R130): SRN assigned; HI only on a 64-bit register and not with a w operand. -/
def srnRes (op : BitVec 10) (w : RForm) : Bool :=
  let srn := mfld w.mod 7 0
  srn < 0x12 && (!(mbit w.mod 8) || (srnWide srn && classOf op != .w))

/-- MMA, MMAR and MMAS: S2 is zero exactly with L (R223). -/
def mmaRes (w : RForm) : Bool := if mbit w.mod 7 then w.s2 == 0 else w.s2 != 0
def mmaSp : RSpec :=
  { d := oA, s1 := oC, s2 := .raw, mask := 0xFF, res := mmaRes, opn := fun w => mbit w.mod 7 || classOf w.s2 == .v }

/-- The R-form rows of the opcode map (R81) with the instruction each one makes. -/
structure RRow where
  op : Nat
  sp : RSpec
  ins : RForm → Instr

def rRowsInt : List RRow := [
  ⟨0x000, alu2, .iadd⟩, ⟨0x001, alu2, .isub⟩,
  ⟨0x002, { d := dI, s1 := sI, s2 := sI, mask := 0x00F, opn := fun w => w.d.toNat != 832 + mfld w.mod 2 0 }, .iaddc⟩,
  ⟨0x003, alu2, .imul⟩, ⟨0x004, alu2U, .imulh⟩, ⟨0x005, alu2, .imad⟩, ⟨0x006, alu2U, .imin⟩, ⟨0x007, alu2U, .imax⟩,
  ⟨0x008, alu1, .iabs⟩, ⟨0x009, alu2U, .idiv⟩, ⟨0x00A, alu2U, .irem⟩,
  ⟨0x00B, { d := oP, s1 := sI, s2 := sI, mask := 0x05F, res := fun w => mfld w.mod 2 0 < 6 && mfld w.mod 4 3 != 3 }, .icmp⟩,
  ⟨0x00C, { alu2 with mask := 0x18F }, .sel⟩,
  ⟨0x00D, alu2, .and⟩, ⟨0x00E, alu2, .or⟩, ⟨0x00F, alu2, .xor⟩, ⟨0x010, alu2, .andn⟩, ⟨0x011, alu1, .not⟩,
  ⟨0x012, shiftSp, .shl⟩, ⟨0x013, shiftSp, .shr⟩, ⟨0x014, shiftSp, .sar⟩, ⟨0x015, shiftSp, .rol⟩,
  ⟨0x016, { alu2 with mask := 0x19F }, .fshl⟩, ⟨0x017, { alu2 with mask := 0x19F }, .fshr⟩,
  ⟨0x018, alu2U, .bfx⟩, ⟨0x019, alu2, .bfi⟩, ⟨0x01A, alu1, .popc⟩, ⟨0x01B, alu1, .clz⟩, ⟨0x01C, alu1, .brev⟩,
  ⟨0x01D, { alu1 with d := .cls [.v, .w, .p, .k], s1 := .cls [.v, .w, .p, .sp, .k], opn := movOpn }, .mov⟩,
  ⟨0x020, { d := dF, s1 := sF, s2 := sF, opn := fun w => even64 w.d && even64 w.s1 && even64 w.s2 }, .iadd64⟩,
  ⟨0x021, { d := dF, s1 := sF, s2 := sI, mask := 0x047, opn := fun w => even64 w.d && even64 w.s1 }, .lea⟩]

def rRowsFloat : List RRow := [
  ⟨0x040, float2, .fadd⟩, ⟨0x041, float2, .fsub⟩, ⟨0x042, float2, .fmul⟩, ⟨0x043, float2, .ffma⟩,
  ⟨0x044, { float2 with mask := 0x180 }, .fmin⟩, ⟨0x045, { float2 with mask := 0x180 }, .fmax⟩,
  ⟨0x046, { d := oP, s1 := sF, s2 := sF, mask := 0x01F, res := fun w => mfld w.mod 4 3 != 3 }, .fcmp⟩,
  ⟨0x047, float1, .fclass⟩, ⟨0x048, float1R, .frnd⟩, ⟨0x049, float1R, .frcp⟩, ⟨0x04A, float1, .frsq⟩,
  ⟨0x04B, float1R, .fsqrt⟩, ⟨0x04C, float1, .fex2⟩, ⟨0x04D, float1, .flg2⟩, ⟨0x04E, float1, .fsin⟩,
  ⟨0x04F, float1, .fcos⟩, ⟨0x050, float1, .ftanh⟩, ⟨0x051, float2, .hadd2⟩, ⟨0x052, float2, .hmul2⟩,
  ⟨0x053, float2, .hfma2⟩,
  ⟨0x054, { d := dF, s1 := sF, s2 := .raw, block := true, mask := 0x10F, res := cvtRes, opn := cvtOpn }, .cvt⟩,
  ⟨0x055, { d := oV, s1 := oV, mask := 0x073, res := rmOk }, .cvtblk⟩,
  ⟨0x056, { d := oV, s1 := oV, mask := 0x073, res := rmOk }, .unblk⟩,
  ⟨0x057, { float1 with mask := 0x103 }, .cbxp⟩, ⟨0x058, { float1 with mask := 0x103 }, .cbq⟩,
  ⟨0x059, { d := oK, s1 := sF, s2 := .raw, mask := 0x045, res := fun w => mbit w.mod 0 || w.s2 == 0,
            opn := fun w => !(mbit w.mod 0) || [Cls.v, .w, .sp].contains (classOf w.s2) }, .ckacc⟩,
  ⟨0x05A, { d := .raw, s1 := oK, s2 := .raw, mask := 0x001, res := fun w => mbit w.mod 0 || w.d == 0,
            opn := fun w => (!(mbit w.mod 0) || [Cls.v, .w].contains (classOf w.d)) &&
              (w.s2 == 896#10 || classOf w.s2 == .k || classOf w.s2 == .w) }, .cktest⟩]

def rRowsLane : List RRow := [
  ⟨0x080, { d := oV, s1 := oV, s2 := .raw, block := true, mask := 0x1F0, res := shflRes, opn := shflOpn }, .shfl⟩,
  ⟨0x081, { d := oV, s1 := oV, s2 := .raw, block := true, mask := 0x1F0, res := shflRes, opn := shflOpn }, .shflp⟩,
  ⟨0x082, { d := .raw, s1 := .raw, mask := 0x003, opn := voteOpn }, .vote⟩,
  ⟨0x083, { d := dF, s1 := sF, s2 := oP, mask := 0x0FF, res := redRes }, .red⟩,
  ⟨0x084, { d := dF, s1 := sF, s2 := oP, mask := 0x1FF, res := redRes }, .scan⟩,
  ⟨0x085, { mask := 0x007, res := fun w => 1 ≤ mfld w.mod 2 0 && mfld w.mod 2 0 ≤ 5 }, .lgset⟩,
  ⟨0x086, { d := dF, s1 := sF, mask := 0x007 }, .matchLanes⟩,
  ⟨0x08E, { d := oW, s1 := oV, mask := 0x03F, opn := fun w => !(mbit w.mod 5) || even64 w.s1 }, .bcast⟩,
  ⟨0x087, { d := oP, s1 := oP, s2 := oP, mask := 0x003 }, .pand⟩,
  ⟨0x088, { d := oP, s1 := oP, s2 := oP, mask := 0x003 }, .por⟩,
  ⟨0x089, { d := oP, s1 := oP, s2 := oP }, .pxor⟩, ⟨0x08A, { d := oP, s1 := oP }, .pnot⟩,
  ⟨0x08B, { d := oP, s1 := sI }, .pmov⟩,
  ⟨0x08C, { d := dF, mask := 0x1FF, res := fun w => srnRes w.d w }, .mfsr⟩,
  ⟨0x08D, { s1 := sF, mask := 0x1FF, res := fun w => srnRes w.s1 w, opn := fun w => mfld w.mod 7 0 ≤ 4 }, .mtsr⟩]

def rRowsMatrix : List RRow := [
  ⟨0x0C0, { d := oC, s1 := oW, s2 := oW }, .mset⟩,
  ⟨0x0C1, mmaSp, fun w => if mbit w.mod 7 then .mmaL w else .mma w⟩,
  ⟨0x0C2, mmaSp, fun w => if mbit w.mod 7 then .mmarL w else .mmar w⟩,
  ⟨0x0C3, mmaSp, fun w => if mbit w.mod 7 then .mmasL w else .mmas w⟩,
  ⟨0x0C4, { d := oA }, .mzero⟩,
  ⟨0x0C5, { d := oA, s1 := sF, s2 := sF, mask := 0x1F7,
            res := fun w => mfld w.mod 2 0 < 6 && rmOk w && (mbit w.mod 8 || !(mbit w.mod 7)) }, .mdrain⟩,
  ⟨0x0C6, { d := oA, s1 := oC, s2 := sF }, .mdraina⟩,
  ⟨0x0C7, { d := oA, s1 := sF, s2 := sF }, .mldr⟩, ⟨0x0C8, { d := oA, s1 := sF, s2 := sF, mask := 0x03F }, .mstr⟩,
  ⟨0x0C9, { d := oA, s1 := oA, s2 := oA }, .macc⟩, ⟨0x0CA, { d := oA, s1 := oA, s2 := sF }, .mscl⟩,
  ⟨0x0CB, { d := oW, s1 := oA, s2 := sF }, .mchk⟩, ⟨0x0CC, { d := oW, s1 := oA, mask := 1 }, .mbnd⟩,
  ⟨0x0CD, { s1 := oC }, .mrel⟩, ⟨0x0CE, { d := oW, s1 := oW, s2 := sF, mask := 1 }, .maxsc⟩,
  ⟨0x0CF, { s1 := sF, s2 := sF }, .seedscan⟩, ⟨0x0D0, { s1 := sF, s2 := sF }, .seedfit⟩,
  ⟨0x0D1, { s1 := oW, s2 := sF, mask := 7 }, .seedx⟩]

/-- The modifier rules of ATS and ATRM: width 2, U only with MIN and MAX (R330). -/
def atsRes (m : BitVec 9) : Bool :=
  mfld m 2 0 == 2 && (!(mbit m 6) || mfld m 5 3 == 1 || mfld m 5 3 == 2)

def rRowsMem : List RRow := [
  ⟨0x105, { d := dF, s1 := sF, s2 := dF, mask := 0x03F, res := fun w => mfld w.mod 2 0 == 2 || mfld w.mod 2 0 == 3,
            opn := fun w => mfld w.mod 2 0 == 2 || (even64 w.d && even64 w.s2) }, .cass⟩,
  ⟨0x106, { d := sF, s1 := oV, s2 := oW, mask := 7, res := fun w => mfld w.mod 2 0 ≤ 3,
            opn := fun w => mfld w.mod 2 0 != 3 || even64 w.d }, .strm⟩,
  ⟨0x107, { s1 := oW, s2 := oW }, .ldrm⟩,
  ⟨0x108, { d := dF, s1 := oV, s2 := oW, mask := 0x1FF, res := fun w => atsRes w.mod }, .atrm⟩,
  ⟨0x140, { d := oB, s1 := sF }, .brset⟩, ⟨0x141, { d := oW, s1 := oB, mask := 3 }, .brget⟩,
  ⟨0x142, { s1 := oV, s2 := oW, mask := 0x00F }, .ldb⟩, ⟨0x143, { d := sF, s1 := oV, s2 := oW, mask := 0x00F }, .stb⟩,
  ⟨0x144, { d := oV, s1 := oV, s2 := oW, mask := 0x1FF }, .atb⟩,
  ⟨0x145, { d := oV, s1 := oV, s2 := oW, mask := 0x07F }, .casb⟩,
  ⟨0x146, { d := oV, s1 := oV, s2 := oW, mask := 0x1FF }, .atq⟩, ⟨0x147, { s1 := oW }, .copy⟩,
  ⟨0x148, { s1 := oV, mask := 0x01F }, .pref⟩, ⟨0x149, { s1 := oW, s2 := oW, mask := 0x00F }, .cflush⟩,
  ⟨0x14A, { s1 := oW, s2 := oW, mask := 0x00F }, .cinv⟩, ⟨0x14B, {}, .fence⟩, ⟨0x14C, {}, .lfence⟩]

def rRowsSync : List RRow := [
  ⟨0x180, { s1 := sF, s2 := sF, mask := 3, res := fun w => mfld w.mod 1 0 != 3 }, .binit⟩,
  ⟨0x181, { s1 := sF, s2 := sF, mask := 1 }, .barv⟩, ⟨0x182, { s1 := sF, s2 := sF }, .bexp⟩,
  ⟨0x183, { d := oP, s1 := sF, s2 := sF }, .bwait⟩, ⟨0x184, { d := dI, s1 := sF, s2 := sF }, .btest⟩,
  ⟨0x185, { s1 := sF }, .binv⟩, ⟨0x186, { d := oW, s1 := sF, mask := 7 }, .racq⟩,
  ⟨0x187, { d := sF, s1 := sF, s2 := oW }, .rcom⟩, ⟨0x188, { d := oW, s1 := sF, mask := 7 }, .rtake⟩,
  ⟨0x189, { s1 := sF, s2 := oW }, .rrel⟩, ⟨0x18A, { s1 := oW, s2 := oW, mask := 1 }, .evpost⟩,
  ⟨0x18B, { d := oW, s1 := oW, s2 := oW, mask := 0x03F }, .lnch⟩, ⟨0x18C, { s1 := oW, mask := 3 }, .ctw⟩,
  ⟨0x18D, {}, .ctswap⟩, ⟨0x18E, { d := oW, s1 := oW, s2 := oW }, .kval⟩, ⟨0x18F, { d := oW, s1 := oW, s2 := oW }, .kvfr⟩,
  ⟨0x190, { d := oW, s1 := oW, s2 := oW }, .kvsh⟩,
  ⟨0x191, { d := oW, s1 := oW, s2 := oW, mask := 0x1FF, res := fun w => mfld w.mod 8 5 < 12 }, .kvmap⟩,
  ⟨0x192, { s1 := oW }, .coll⟩, ⟨0x193, { d := oW, s1 := sF, s2 := oW, mask := 7, res := fun w => mfld w.mod 2 0 < 6 }, .ltrd⟩,
  ⟨0x194, { s1 := sF, s2 := oW, mask := 3, res := fun w => mfld w.mod 1 0 != 3 }, .admitTok⟩]

def rRowsCtl : List RRow := [
  ⟨0x1C0, {}, .nop⟩, ⟨0x1C2, { s1 := dF }, .brx⟩, ⟨0x1C4, { s1 := oW }, .ret⟩, ⟨0x1C5, {}, .exit⟩, ⟨0x1C6, {}, .yield⟩,
  ⟨0x1C9, { mask := 1 }, .rett⟩, ⟨0x1CB, { s1 := sF }, .snap⟩, ⟨0x1CC, {}, .halt⟩, ⟨0x1CD, {}, .tlbi⟩]

/-- Every R-form opcode. -/
def rRows : List RRow := rRowsInt ++ rRowsFloat ++ rRowsLane ++ rRowsMatrix ++ rRowsMem ++ rRowsSync ++ rRowsCtl

/-- The I-form rows (R60): operand position D, assigned MOD3 bits, operand rule. -/
structure IRow where
  op : Nat
  d : Slot
  mask : Nat
  opn : IForm → Bool
  ins : IForm → Instr

def iRows : List IRow := [
  ⟨0x01E, dI, 1, fun w => !(w.mod3.getLsbD 0) || classOf w.d == .w, .movi⟩, ⟨0x01F, oW, 0, fun _ => true, .movhi⟩,
  ⟨0x1C1, .unused, 0, fun _ => true, .bra⟩, ⟨0x1C3, oW, 0, fun _ => true, .call⟩,
  ⟨0x1C7, .unused, 0, fun _ => true, .sleep⟩, ⟨0x1C8, .unused, 0, fun _ => true, .trap⟩,
  ⟨0x1CA, .unused, 0, fun _ => true, .bkpt⟩]

/-- The M-form rows (R61). -/
structure MRow where
  op : Nat
  res : MForm → Bool
  opn : MForm → Bool
  ins : MForm → Instr

/-- The data operand of LDS and STS by width (R328). -/
def ldsOpn (store : Bool) (w : MForm) : Bool :=
  let z := mfld w.mod 2 0
  (if z == 4 then quad128 w.d
    else ([Cls.v, .w].contains (classOf w.d) || (store && classOf w.d == .sp)) && (z != 3 || even64 w.d)) &&
  sF.clsOk w.s1

/-- The block of LDSB and STSB: MOD[8:6] EH, MOD[5:3] EW (R61). -/
def ldsbH (w : MForm) : Nat := mfld w.mod 8 6 + 1
def ldsbW (w : MForm) : Nat := mfld w.mod 5 3 + 1

def ldsbOpn (w : MForm) : Bool :=
  classOf w.d == .v && sF.clsOk w.s1 && blockOk w.d.toNat (ldsbH w) (ldsbW w)

def mRows : List MRow := [
  ⟨0x100, fun w => mfld w.mod 8 4 == 0 && mfld w.mod 2 0 ≤ 4 && (!(mbit w.mod 3) || mfld w.mod 2 0 < 2), ldsOpn false, .lds⟩,
  ⟨0x101, fun w => mfld w.mod 8 3 == 0 && mfld w.mod 2 0 ≤ 4, ldsOpn true, .sts⟩,
  ⟨0x102, fun w => mfld w.mod 2 0 ≤ 2, ldsbOpn, .ldsb⟩, ⟨0x103, fun w => mfld w.mod 2 0 ≤ 2, ldsbOpn, .stsb⟩,
  ⟨0x104, fun w => atsRes w.mod, fun w => dF.clsOk w.d && sF.clsOk w.s1, .ats⟩]

/-- The operations a paired half may name: their R-form opcodes in the order of R63. -/
def pairedOps : List Nat :=
  [0x000, 0x001, 0x003, 0x006, 0x007, 0x00D, 0x00E, 0x00F, 0x010, 0x012, 0x013, 0x014, 0x01D, 0x008, 0x011, 0x01A,
   0x01B, 0x01C, 0x040, 0x041, 0x042, 0x044, 0x045, 0x051, 0x052, 0x049, 0x04A, 0x04C, 0x04D, 0x04B, 0x087, 0x088]

/-- The v register of a half lies in a bank its half may use (R65). -/
def bankOk (second : Bool) (x : BitVec 10) : Bool :=
  classOf x != .v || (decide (2 ≤ x.toNat % 4)) == second

/-- The operand rules of one half (R65). -/
def halfOk (second : Bool) (h : Half) : Bool :=
  bankOk second h.d && bankOk second h.s &&
  (if h.op.toNat == 0x1E || h.op.toNat == 0x1F then classOf h.d == .p && classOf h.s == .p
   else [Cls.v, .w].contains (classOf h.d) && [Cls.v, .w, .sp].contains (classOf h.s))

/-- The halves share no w register in any position and no destination (R65). -/
def pairedOk (w : PForm) : Bool :=
  halfOk false w.a && halfOk true w.b && w.a.d != w.b.d &&
  ([w.a.d, w.a.s].all fun x => classOf x != .w || (x != w.b.d && x != w.b.s))

end Sys2Proof.Machine
end

