-- ==== Sys2Proof/WellFormed.lean ====
section
/-! DEFINITION. When a term of `Instr` is one that a word can stand for: the checks 3 and 4 of R84 that depend on the
word alone pass. The rows of the opcode table that are no words are always well formed. -/

namespace Sys2Proof

open Sys2Proof.Machine

/-- The form of a word with its opcode; `none` for the steps that are no words. -/
inductive WordForm where
  | r (op : Nat) (w : RForm)
  | i (op : Nat) (w : IForm)
  | m (op : Nat) (w : MForm)
  | p (w : PForm)
  | raw (w : BitVec 64)
  deriving DecidableEq, Repr

/-- Opcode (R81) and form of an instruction word. -/
def Instr.form : Instr → Option WordForm
  | .iadd w => some (.r 0x000 w) | .isub w => some (.r 0x001 w) | .iaddc w => some (.r 0x002 w)
  | .imul w => some (.r 0x003 w) | .imulh w => some (.r 0x004 w) | .imad w => some (.r 0x005 w)
  | .imin w => some (.r 0x006 w) | .imax w => some (.r 0x007 w) | .iabs w => some (.r 0x008 w)
  | .idiv w => some (.r 0x009 w) | .irem w => some (.r 0x00A w) | .icmp w => some (.r 0x00B w)
  | .sel w => some (.r 0x00C w) | .and w => some (.r 0x00D w) | .or w => some (.r 0x00E w)
  | .xor w => some (.r 0x00F w) | .andn w => some (.r 0x010 w) | .not w => some (.r 0x011 w)
  | .shl w => some (.r 0x012 w) | .shr w => some (.r 0x013 w) | .sar w => some (.r 0x014 w)
  | .rol w => some (.r 0x015 w) | .fshl w => some (.r 0x016 w) | .fshr w => some (.r 0x017 w)
  | .bfx w => some (.r 0x018 w) | .bfi w => some (.r 0x019 w) | .popc w => some (.r 0x01A w)
  | .clz w => some (.r 0x01B w) | .brev w => some (.r 0x01C w) | .mov w => some (.r 0x01D w)
  | .movi w => some (.i 0x01E w) | .movhi w => some (.i 0x01F w)
  | .iadd64 w => some (.r 0x020 w) | .lea w => some (.r 0x021 w)
  | .fadd w => some (.r 0x040 w) | .fsub w => some (.r 0x041 w) | .fmul w => some (.r 0x042 w)
  | .ffma w => some (.r 0x043 w) | .fmin w => some (.r 0x044 w) | .fmax w => some (.r 0x045 w)
  | .fcmp w => some (.r 0x046 w) | .fclass w => some (.r 0x047 w) | .frnd w => some (.r 0x048 w)
  | .frcp w => some (.r 0x049 w) | .frsq w => some (.r 0x04A w) | .fsqrt w => some (.r 0x04B w)
  | .fex2 w => some (.r 0x04C w) | .flg2 w => some (.r 0x04D w) | .fsin w => some (.r 0x04E w)
  | .fcos w => some (.r 0x04F w) | .ftanh w => some (.r 0x050 w) | .hadd2 w => some (.r 0x051 w)
  | .hmul2 w => some (.r 0x052 w) | .hfma2 w => some (.r 0x053 w) | .cvt w => some (.r 0x054 w)
  | .cvtblk w => some (.r 0x055 w) | .unblk w => some (.r 0x056 w) | .cbxp w => some (.r 0x057 w)
  | .cbq w => some (.r 0x058 w) | .ckacc w => some (.r 0x059 w) | .cktest w => some (.r 0x05A w)
  | .shfl w => some (.r 0x080 w) | .shflp w => some (.r 0x081 w) | .vote w => some (.r 0x082 w)
  | .red w => some (.r 0x083 w) | .scan w => some (.r 0x084 w) | .lgset w => some (.r 0x085 w)
  | .matchLanes w => some (.r 0x086 w) | .bcast w => some (.r 0x08E w) | .pand w => some (.r 0x087 w)
  | .por w => some (.r 0x088 w) | .pxor w => some (.r 0x089 w) | .pnot w => some (.r 0x08A w)
  | .pmov w => some (.r 0x08B w) | .mfsr w => some (.r 0x08C w) | .mtsr w => some (.r 0x08D w)
  | .pairedWord w => some (.p w)
  | .mset w => some (.r 0x0C0 w) | .mma w => some (.r 0x0C1 w) | .mmaL w => some (.r 0x0C1 w)
  | .mmar w => some (.r 0x0C2 w) | .mmarL w => some (.r 0x0C2 w) | .mmas w => some (.r 0x0C3 w)
  | .mmasL w => some (.r 0x0C3 w) | .mzero w => some (.r 0x0C4 w) | .mdrain w => some (.r 0x0C5 w)
  | .mdraina w => some (.r 0x0C6 w) | .mldr w => some (.r 0x0C7 w) | .mstr w => some (.r 0x0C8 w)
  | .macc w => some (.r 0x0C9 w) | .mscl w => some (.r 0x0CA w) | .mchk w => some (.r 0x0CB w)
  | .mbnd w => some (.r 0x0CC w) | .mrel w => some (.r 0x0CD w) | .maxsc w => some (.r 0x0CE w)
  | .seedscan w => some (.r 0x0CF w) | .seedfit w => some (.r 0x0D0 w) | .seedx w => some (.r 0x0D1 w)
  | .lds w => some (.m 0x100 w) | .sts w => some (.m 0x101 w) | .ldsb w => some (.m 0x102 w)
  | .stsb w => some (.m 0x103 w) | .ats w => some (.m 0x104 w) | .cass w => some (.r 0x105 w)
  | .strm w => some (.r 0x106 w) | .ldrm w => some (.r 0x107 w) | .atrm w => some (.r 0x108 w)
  | .brset w => some (.r 0x140 w) | .brget w => some (.r 0x141 w) | .ldb w => some (.r 0x142 w)
  | .stb w => some (.r 0x143 w) | .atb w => some (.r 0x144 w) | .casb w => some (.r 0x145 w)
  | .atq w => some (.r 0x146 w) | .copy w => some (.r 0x147 w) | .pref w => some (.r 0x148 w)
  | .cflush w => some (.r 0x149 w) | .cinv w => some (.r 0x14A w) | .fence w => some (.r 0x14B w)
  | .lfence w => some (.r 0x14C w)
  | .binit w => some (.r 0x180 w) | .barv w => some (.r 0x181 w) | .bexp w => some (.r 0x182 w)
  | .bwait w => some (.r 0x183 w) | .btest w => some (.r 0x184 w) | .binv w => some (.r 0x185 w)
  | .racq w => some (.r 0x186 w) | .rcom w => some (.r 0x187 w) | .rtake w => some (.r 0x188 w)
  | .rrel w => some (.r 0x189 w) | .evpost w => some (.r 0x18A w) | .lnch w => some (.r 0x18B w)
  | .ctw w => some (.r 0x18C w) | .ctswap w => some (.r 0x18D w) | .kval w => some (.r 0x18E w)
  | .kvfr w => some (.r 0x18F w) | .kvsh w => some (.r 0x190 w) | .kvmap w => some (.r 0x191 w)
  | .coll w => some (.r 0x192 w) | .ltrd w => some (.r 0x193 w) | .admitTok w => some (.r 0x194 w)
  | .nop w => some (.r 0x1C0 w) | .bra w => some (.i 0x1C1 w) | .brx w => some (.r 0x1C2 w)
  | .call w => some (.i 0x1C3 w) | .ret w => some (.r 0x1C4 w) | .exit w => some (.r 0x1C5 w)
  | .yield w => some (.r 0x1C6 w) | .sleep w => some (.i 0x1C7 w) | .trap w => some (.i 0x1C8 w)
  | .rett w => some (.r 0x1C9 w) | .bkpt w => some (.i 0x1CA w) | .snap w => some (.r 0x1CB w)
  | .halt w => some (.r 0x1CC w) | .tlbi w => some (.r 0x1CD w)
  | .unassignedOpcode w => some (.raw w)
  | _ => none

/-- The L bit of MMA, MMAR and MMAS separates two rows of the table (R223). -/
def Instr.lBitOk : Instr → Bool
  | .mma w => !(mbit w.mod 7) | .mmar w => !(mbit w.mod 7) | .mmas w => !(mbit w.mod 7)
  | .mmaL w => mbit w.mod 7 | .mmarL w => mbit w.mod 7 | .mmasL w => mbit w.mod 7
  | _ => true

/-- A word has an unassigned opcode (R82): PR = 0 with an OP that no row names, or PR = 1 with OP6 of 0x20 or more. -/
def unassigned (w : BitVec 64) : Bool :=
  if w.getLsbD 58 then 32 ≤ natBits w.toNat 57 52 || 32 ≤ natBits w.toNat 28 23
  else
    let op := natBits w.toNat 57 49
    !(rRows.any (·.op == op)) && !(iRows.any (·.op == op)) && !(mRows.any (·.op == op))

/-- Check 3 of R84 on a form: no reserved field or value is in use. -/
def WordForm.resOk : WordForm → Bool
  | .r op w => (rRows.find? (·.op == op)).all fun r => r.sp.resOk w
  | .i op w => (iRows.find? (·.op == op)).all fun r => r.d.zeroOk w.d && (w.mod3.toNat &&& (7 - r.mask)) == 0
  | .m op w => (mRows.find? (·.op == op)).all fun r => r.res w
  | .p _ => true
  | .raw _ => true

/-- Check 4 of R84 on a form, as far as the word alone decides it. -/
def WordForm.opnOk : WordForm → Bool
  | .r op w => (rRows.find? (·.op == op)).all fun r => r.sp.opnOk w
  | .i op w => (iRows.find? (·.op == op)).all fun r => r.d.clsOk w.d && r.opn w
  | .m op w => (mRows.find? (·.op == op)).all fun r => r.opn w
  | .p w => pairedOk w
  | .raw _ => true

/-- Assigned paired opcodes (R63); an unassigned word carries an unassigned opcode (R82). -/
def WordForm.opOk : WordForm → Bool
  | .p w => w.a.op.toNat < 32 && w.b.op.toNat < 32
  | .raw w => unassigned w
  | _ => true

/-- A term of `Instr` that the device can meet as a word, or any step that is no word. -/
def WellFormed (i : Instr) : Bool :=
  i.lBitOk && (i.form.all fun f => f.opOk && f.resOk && f.opnOk)

end Sys2Proof
end

