-- ==== Sys2Proof/Decode.lean ====
section
/-! DEFINITION. From the bits of a word to an instruction, and back (03 R58 to R65, R81 to R84). Decoding is total: a
word is an instruction, or it is rejected by the check of R84 that fails first, 3 (RESFIELD) or 4 (ILLOPND). A word
with an unassigned opcode (check 2) is the row UNASSIGNED_OPCODE. -/

namespace Sys2Proof

open Sys2Proof.Machine

/-- Why a word is no instruction: the check of R84 that fails first. -/
inductive DecodeErr where
  /-- a reserved field or modifier value is nonzero (R83): trap RESFIELD -/
  | resField
  /-- an operand or a pairing rule is illegal (R65, R69 to R71): trap ILLOPND -/
  | illOpnd
  deriving DecidableEq, Repr

/-- The word of eight bytes, the first at the lowest address (R58, R4). -/
def wordOfBytes : List (BitVec 8) → BitVec 64
  | [] => 0
  | b :: bs => (wordOfBytes bs <<< 8) ||| b.zeroExtend 64

/-- The bytes of a word as the hardware stores them (R58). -/
def bytesOfWord (w : BitVec 64) : List (BitVec 8) :=
  (List.range 8).map fun i => w.extractLsb' (8 * i) 8

/-- The fields of an R-form word (R58, R59). -/
def splitR (w : BitVec 64) : RForm :=
  { e := w.getLsbD 63, stall := w.extractLsb' 59 4, gn := w.getLsbD 48, gp := w.extractLsb' 45 3
    d := w.extractLsb' 35 10, s1 := w.extractLsb' 25 10, s2 := w.extractLsb' 15 10
    eh := w.extractLsb' 12 3, ew := w.extractLsb' 9 3, mod := w.extractLsb' 0 9 }

/-- The fields of an I-form word (R58, R60). -/
def splitI (w : BitVec 64) : IForm :=
  { e := w.getLsbD 63, stall := w.extractLsb' 59 4, gn := w.getLsbD 48, gp := w.extractLsb' 45 3
    d := w.extractLsb' 35 10, mod3 := w.extractLsb' 32 3, imm := w.extractLsb' 0 32 }

/-- The fields of an M-form word (R58, R61). -/
def splitM (w : BitVec 64) : MForm :=
  { e := w.getLsbD 63, stall := w.extractLsb' 59 4, gn := w.getLsbD 48, gp := w.extractLsb' 45 3
    d := w.extractLsb' 35 10, s1 := w.extractLsb' 25 10, off := w.extractLsb' 9 16, mod := w.extractLsb' 0 9 }

/-- The fields of a paired word (R58, R62). -/
def splitP (w : BitVec 64) : PForm :=
  { e := w.getLsbD 63, stall := w.extractLsb' 59 4
    a := { op := w.extractLsb' 52 6, d := w.extractLsb' 42 10, s := w.extractLsb' 32 10, g := w.extractLsb' 29 3 }
    b := { op := w.extractLsb' 23 6, d := w.extractLsb' 13 10, s := w.extractLsb' 3 10, g := w.extractLsb' 0 3 } }

/-- The word of an R-form instruction (R58, R59). -/
def joinR (op : Nat) (w : RForm) : BitVec 64 :=
  BitVec.ofBool w.e ++ w.stall ++ 0#1 ++ BitVec.ofNat 9 op ++ BitVec.ofBool w.gn ++ w.gp ++ w.d ++ w.s1 ++ w.s2 ++
    w.eh ++ w.ew ++ w.mod

/-- The word of an I-form instruction (R58, R60). -/
def joinI (op : Nat) (w : IForm) : BitVec 64 :=
  BitVec.ofBool w.e ++ w.stall ++ 0#1 ++ BitVec.ofNat 9 op ++ BitVec.ofBool w.gn ++ w.gp ++ w.d ++ w.mod3 ++ w.imm

/-- The word of an M-form instruction (R58, R61). -/
def joinM (op : Nat) (w : MForm) : BitVec 64 :=
  BitVec.ofBool w.e ++ w.stall ++ 0#1 ++ BitVec.ofNat 9 op ++ BitVec.ofBool w.gn ++ w.gp ++ w.d ++ w.s1 ++ w.off ++
    w.mod

/-- The 29 bits of one half (R62). -/
def joinHalf (h : Half) : BitVec 29 := h.op ++ h.d ++ h.s ++ h.g

/-- The word of a paired instruction (R58, R62). -/
def joinP (w : PForm) : BitVec 64 :=
  BitVec.ofBool w.e ++ w.stall ++ 1#1 ++ joinHalf w.a ++ joinHalf w.b

/-- The instruction that a word of a given opcode stands for, before checks 3 and 4. -/
def rowInstr (op : Nat) (w : BitVec 64) : Option Instr :=
  match rRows.find? (·.op == op) with
  | some r => some (r.ins (splitR w))
  | none =>
    match iRows.find? (·.op == op) with
    | some r => some (r.ins (splitI w))
    | none =>
      match mRows.find? (·.op == op) with
      | some r => some (r.ins (splitM w))
      | none => none

/-- Decode one 64-bit word (R58 to R65, R81 to R84). -/
def decode (w : BitVec 64) : Except DecodeErr Instr :=
  if unassigned w then .ok (.unassignedOpcode w)
  else
    let i := if w.getLsbD 58 then some (.pairedWord (splitP w)) else rowInstr (natBits w.toNat 57 49) w
    match i with
    | none => .ok (.unassignedOpcode w)
    | some i =>
      match i.form with
      | none => .ok i
      | some f => if !f.resOk then .error .resField else if !f.opnOk then .error .illOpnd else .ok i

/-- Decode the eight bytes of a word, the first at the lowest address. -/
def decodeBytes (bs : List (BitVec 8)) : Except DecodeErr Instr := decode (wordOfBytes bs)

/-- The word that a form stands for. -/
def WordForm.word : WordForm → BitVec 64
  | .r op w => joinR op w
  | .i op w => joinI op w
  | .m op w => joinM op w
  | .p w => joinP w
  | .raw w => w

/-- The word of an instruction; the steps that are no words have none. -/
def encode (i : Instr) : Option (BitVec 64) := i.form.map WordForm.word

/-- The instruction the decoder reads from an instruction whose bits, numbered from the least significant bit of the
first byte, are `w`. Every instruction of this hardware is one 64-bit word. -/
def decodeTableWord (_nbits w : Nat) : Option Instr :=
  match decodeBytes (bytesOfWord (BitVec.ofNat 64 w)) with
  | .ok i => some i
  | .error _ => none

end Sys2Proof
end

