-- ==== Sys2Proof/Config.lean ====
section
/-! DEFINITION. What the architecture or one implementation fixes (the figures of 00_scope.md R2 and the moduli of
02 R44), and the FREE VALUES: what the manual leaves open. A free value is a constant with no body; the model applies
it to the operands it depends on, or to the counter `free` of the state, and nothing can be proved about its value. -/

namespace Sys2Proof.Config

/-- The nine channel moduli (R17, R44). -/
def modulus (j : Nat) : Nat := [256, 255, 253, 251, 247, 241, 239, 257, 263].getD j 1

/-- The information range M (R45). -/
def mInfo : Nat := 58977489938315520

/-- The largest bound, M/2 - 1 (R45, R48, R232). -/
def maxBound : Nat := 29488744969157759

/-- Capacities of the token buckets MATRIX, COPY, LINK (R469). -/
def bucketCap (b : Nat) : Nat := [268800, 65536, 16384].getD b 0

/-- Refill values of R469 for an operating table. -/
def refillOf (ot b : Nat) : Nat :=
  match ot with
  | 0 => [134400, 4096, 400].getD b 0
  | 1 => [53760, 4096, 400].getD b 0
  | 2 => [134400, 2048, 400].getD b 0
  | _ => 0

/-- The low 32 bits of the fused serial number (R435): never 0. DESIGN CHOICE, log 9. -/
def fusedSerial : BitVec 32 := 1

/-- The fused minimum security version at manufacture (R519). DESIGN CHOICE, log 9. -/
def fusedMinSvn : Nat := 0

/-- The value bring-up stage 4 leaves in a byte of HBM4 (R528). FREE VALUE, log 3. -/
opaque hbmInit : Nat → BitVec 8

/-- What a byte of host memory holds before anything has written it. FREE VALUE, log 4. -/
opaque hostInit : Nat → BitVec 8

/-- Whether the early read numbered by a counter and a register of a thread returns the producer's result (R76).
FREE VALUE, log 5. -/
opaque earlyNew : Nat → Nat → Bool

/-- Extra cycles that bank traffic of other ports and engines costs a scratchpad access (R299). FREE VALUE, log 7. -/
opaque extraCycles : Nat → Nat

/-- Which of the element events that are still to come is the next, where the manual keeps no order among them (R365). FREE VALUE,
log 65. -/
opaque nextElement : Nat → Nat

/-- Whether a direct access goes on to a row that SEEDSCAN or SEEDFIT owns, which R366 makes it wait for and R491 allows. FREE VALUE,
log 66. -/
opaque passesSeed : Nat → Bool

/-- Whether the host refuses an AtomicOp (R345). FREE VALUE, log 4. -/
opaque hostRefuses : Nat → Bool

/-- Which line of a full L1 set or which entry of a full TLB is replaced (R300, R405). FREE VALUE, log 13. -/
opaque victim : Nat → Nat

/-- The six approximations of R186, before the bound of R186 is applied to them. FREE VALUES, log 6. -/
opaque frsq : BitVec 32 → BitVec 32
opaque fex2 : BitVec 32 → BitVec 32
opaque flg2 : BitVec 32 → BitVec 32
opaque fsin : BitVec 32 → BitVec 32
opaque fcos : BitVec 32 → BitVec 32
opaque ftanh : BitVec 32 → BitVec 32

/-- The vendor's public key, which bytes of an image its signature covers (header and body), where in the header that signature
stands, and the device's secret key (R519, R520). FREE VALUES, log 16. -/
opaque vendorKey : List (BitVec 8)
opaque signedPart : List (BitVec 8) → List (BitVec 8)
opaque signatureOf : List (BitVec 8) → List (BitVec 8)
opaque identitySecret : List (BitVec 8)
/-- The security version in an image's header, whose layout is stated nowhere (R519), and how the report of R520 packs OT,
STAGE and RECOV into 4 bytes. -/
opaque imageSvn : List (BitVec 8) → Nat
opaque attestState : Nat → Nat → Bool → BitVec 32
/-- The boot ROM and the fuse configuration, whose digests the report of R520 holds. FREE VALUES, log 16. -/
opaque bootRom : List (BitVec 8)
opaque fuses : List (BitVec 8)

/-- The firmware image that flash holds at manufacture (R519). DESIGN CHOICE, log 9: empty, taken as verified. -/
def factoryImage : List (BitVec 8) := []

/-- What riser training finds (R527 stage 3): for a core and a channel the rate (3: it does not lock) and the delay tap.
FREE VALUE, log 10. -/
opaque riserTraining : Nat → Nat → Nat × Nat

/-- What port training finds at bring-up (R527 stage 6): state, rate, peer id, peer port. FREE VALUE, log 10. -/
opaque portTraining : Nat → Nat × Nat × BitVec 32 × Nat

/-- Whether a stage of bring-up other than firmware verification fails (R527): which occurrence, which stage. FREE VALUE, log 10. -/
opaque stageFails : Nat → Nat → Bool

/-- The first reading of a column's sensor at a layer, in 1/16 °C, which bring-up takes (R26, R527). FREE VALUE, log 10. -/
opaque firstReading : Nat → Nat → BitVec 16

/-- Symbol `i` of 16 bits. -/
def symbol (bs : List (BitVec 8)) (i : Nat) : List (BitVec 8) := (bs.drop (2 * i)).take 2
/-- In how many symbols two byte strings differ. -/
def symbolDistance (x y : List (BitVec 8)) : Nat :=
  (List.range (max x.length y.length)).countP fun i => symbol x i != symbol y i

/-- A code of 64 bytes of data and 8 bytes of check symbols that corrects any error in one symbol and detects any in two (R310): two of
its words differ in four symbols or more. -/
structure EccCode where
  check : List (BitVec 8) → List (BitVec 8)
  width : ∀ x, (check x).length = 8
  apart : ∀ x y, x.length = 64 → y.length = 64 → x ≠ y → 4 ≤ symbolDistance x y + symbolDistance (check x) (check y)

/-- The code of HBM4, which is stated nowhere (R310, R526); none stands for `powerSums`. FREE VALUE, log 3. -/
opaque eccCode : Option EccCode

/-- A product of symbols in GF(2^16), by the polynomial x^16 + x^12 + x^3 + x + 1. -/
def symbolMul (a b : BitVec 16) : BitVec 16 :=
  ((List.range 16).foldl (fun (r : BitVec 16 × BitVec 16) i =>
    (if b.getLsbD i then r.1 ^^^ r.2 else r.1, (r.2 <<< 1) ^^^ (if r.2.getLsbD 15 then 0x100B#16 else 0#16))) (0, a)).1
/-- A power of a symbol. -/
def symbolPow (a : BitVec 16) : Nat → BitVec 16
  | 0 => 1
  | n + 1 => symbolMul a (symbolPow a n)
/-- The sums of the symbols of the data, each weighted by a power of its place: a code whose words differ in four symbols or more. -/
def powerSums (data : List (BitVec 8)) : List (BitVec 8) :=
  (List.range 4).flatMap fun j =>
    let sum := (List.range 32).foldl (fun acc i =>
      acc ^^^ symbolMul (symbolPow (BitVec.ofNat 16 (i + 1)) j) (data.getD (2 * i + 1) 0 ++ data.getD (2 * i) 0)) (0#16)
    [sum.setWidth 8, (sum >>> 8).setWidth 8]

/-- The 8 bytes of check symbols that belong to 64 bytes of data (R310, R526). -/
def checkSymbols (data : List (BitVec 8)) : List (BitVec 8) :=
  match eccCode with
  | some c => c.check data
  | none => powerSums data

/-- What the anchor register takes of a sum of anchors outside I16 (R215, R232). FREE VALUE, log 20. -/
opaque anchorWide : Int → BitVec 16

/-- The HBM4 controller of a physical address (R16). FREE VALUE, log 3. -/
opaque hbmController : Nat → Nat

/-- A free bit string for a value the spec states nowhere, numbered by a counter. FREE VALUE, log 5. -/
opaque freeBits : Nat → Nat → Nat

end Sys2Proof.Config
end

