-- ==== Sys2Proof/Machine/State.lean ====
section
/-! DEFINITION. Everything the manual gives the machine, as plain data. Families of registers are sparse lists of
(index, value) pairs in rising index order; an index that is not listed holds the value the manual gives it at reset
or at seeding. Cores, threads and launches exist here while a launch holds them (15 R384). -/

namespace Sys2Proof.Machine

open Sys2Proof

/-- The role of a warp slot (R99). -/
inductive Role where
  | c | m | v
  deriving DecidableEq, Repr

/-- The state of a thread (R101). -/
inductive RunState where
  | ready | waiting | sleeping | suspended | saved | exited
  deriving DecidableEq, Repr

/-- A register result (R74, R155): the operand value of its register (1024 stands for sr.lgp), the value, the ready
cycle, and its place among writes of one cycle (R156): 0 to 3 for the ports C, M, V0, V1, and 4 for an engine. -/
structure Pend where
  reg : Nat
  val : BitVec 256
  ready : Nat
  rank : Nat
  deriving DecidableEq, Repr

/-- What a waiting thread waits for (R394, R464): the object (core and offset), the phase, the predicate that takes the
outcome, and for RACQ and RTAKE the claim register and word; `va` is the waiting word (R145). -/
structure Wait where
  core : Nat
  off : Nat
  phase : BitVec 16
  pq : Nat
  ring : Option (Nat × BitVec 64)
  va : BitVec 64
  deriving DecidableEq, Repr

/-- A pending deferred trap (R145): the number of the operation it comes from, its cause and information. -/
structure DTrap where
  op : Nat
  cause : Nat
  info : BitVec 64
  deriving DecidableEq, Repr

/-- The state a thread owns (R97, R101, R121, R124 to R126, R152). -/
structure Thread where
  pc : BitVec 64
  v : List (Nat × BitVec 32)
  p : BitVec 8
  k : List (Nat × BitVec 64)
  mode : BitVec 32
  status : BitVec 32
  epc : BitVec 64
  ecause : BitVec 32
  einfo : BitVec 64
  run : RunState
  /-- the state a suspended or saved thread returns to (R314) -/
  resume : RunState
  waitCtr : Nat
  yielded : Bool
  wait : Option Wait
  /-- the cycle at which a sleep ends (R136); while saved, the cycles that remain -/
  wake : Nat
  /-- the PC of its entry in the PC table (R420): its PC as of its last run end, trap entry or seeding -/
  tabPc : BitVec 64
  /-- the flags that engines raised in it, and the last cycle in which one did (R125, R147) -/
  lateFlags : Option (Nat × BitVec 32)
  pend : List Pend
  dtraps : List DTrap
  /-- the last cycle at which the thread made an acquire (R370): an .ACQ access, a FENCE, a completed observation -/
  acqAt : Nat
  /-- how its last wait ended, until it issues again: whether no boundary of its port has passed since, the waiting word's VA,
  and whether the phase completed (R147, R314) -/
  freed : Option (Bool × BitVec 64 × Bool)
  /-- its next run begins no earlier than this cycle (R73) -/
  readyAt : Nat
  deriving DecidableEq, Repr

/-- A withdrawn signature (R118, R314): convergence register, signer slot, NaN mark of the row, declaration number. -/
structure Withdrawn where
  creg : Nat
  row : Nat
  rowNan : Bool
  decl : BitVec 32
  lane : Nat
  deriving DecidableEq, Repr

/-- A suspended warp (R117, R412): the fault number, the faulting address, its PTE, the faulting word, and the frame
(0 while resident), and whether the fault record has been posted. -/
structure Susp where
  seq : BitVec 32
  va : BitVec 64
  ptepa : BitVec 64
  pc : BitVec 64
  access : Nat
  frame : BitVec 64
  withdrawn : List Withdrawn
  posted : Bool
  deriving DecidableEq, Repr

/-- The state a warp owns (R97, R121, R416), with its threads in lane order. -/
structure Warp where
  role : Role
  w : List (Nat × BitVec 64)
  b : List (Nat × BitVec 256)
  lgp : BitVec 32
  ctbank : BitVec 32
  /-- entry `16 * bank + i` of the code table -/
  ct : List (Nat × BitVec 16)
  pend : List Pend
  /-- the end cycles of runs that hold a CTSWAP (R418) -/
  toggles : List Nat
  susp : Option Susp
  threads : List Thread
  deriving DecidableEq, Repr

/-- An accumulator (R215): residue `j * 4096 + 64 * i + n`, bound, anchor, NaN mark. -/
structure Acc where
  res : List (Nat × Nat)
  bound : Nat
  anchor : BitVec 16
  nan : Bool
  deriving DecidableEq, Repr

/-- A row of the operand latch: the flags of its expansion (R55), and its elements, each with a NaN mark. -/
structure Row where
  flags : BitVec 32
  elems : List (Int × Bool)
  deriving DecidableEq, Repr

/-- A buffer of the operand latch (R217): its valid rows, and the convergence register that holds it. -/
structure Buf where
  rows : List (Nat × Row)
  holder : Option Nat
  deriving DecidableEq, Repr

/-- The states of a convergence register (R234). -/
inductive CvrState where
  | idle | declared | signing | issued
  deriving DecidableEq, Repr

/-- A convergence register (R218): its state, descriptor and masks, declaration number, and the operation fields,
BW value and word of the first signature. -/
structure Cvr where
  st : CvrState
  desc : BitVec 64
  mask : BitVec 64
  signed : BitVec 64
  decl : BitVec 32
  fD : BitVec 10
  fMod : BitVec 9
  fS2 : BitVec 10
  fBw : BitVec 64
  word : BitVec 64
  buf : Option Nat
  deriving DecidableEq, Repr

/-- The operations of the matrix issue order (R219), each with what it captured when it entered. -/
inductive MatKind where
  /-- MMA (0), MMAR (1), MMAS (2): accumulator, descriptor, signer mask, buffer, address of B, the record as read,
  the bound code table, SAT of the final signer, the signers (R232), and whether the rows were latched (.L, R55) -/
  | mma (kind acc : Nat) (desc mask : BitVec 64) (buf b : Nat) (rec : List (BitVec 8)) (ct : List (BitVec 16))
      (sat : Bool) (signers : List (Nat × Nat)) (lt : Bool)
  | mzero (acc : Nat)
  | mldr (acc addr bar : Nat) (hdr : BitVec 128)
  | mstr (acc addr bar rows cols bound : Nat) (anchor : Int)
  | macc (d a b : Nat)
  | mscl (d a : Nat) (c : Int)
  | mdrain (acc dst bar df mode : Nat) (sat : Bool) (anchor : Int)
  | mdraina (acc buf bar : Nat) (anchor anchA : Int)
  | mchk (acc wreg bar : Nat) (slots : List Nat)
  deriving DecidableEq, Repr

/-- The element events of an operation on scratchpads (R362): the source pieces read so far, each with its first byte; the
destination pieces still to be written, once they are known; the object whose bytes a write would have changed (R466). -/
structure Pieces where
  got : List (Nat × List (BitVec 8))
  todo : Option (List (Nat × List (BitVec 8)))
  clobber : Option (BitVec 64)
  deriving DecidableEq, Repr

/-- An operation of the issue order: number, the cycle in which it entered and the rank of its port (R219), executing thread,
token cost (R470) and whether it holds its tokens. -/
structure MatOp where
  id : Nat
  entered : Nat × Nat
  slot : Nat
  lane : Nat
  /-- every thread on whose behalf it executes (R529) -/
  threads : List (Nat × Nat)
  /-- scratchpad bytes it owns (R366): core, first, end -/
  ownS : List (Nat × Nat × Nat)
  cost : Nat
  granted : Bool
  kind : MatKind
  io : Pieces
  deriving DecidableEq, Repr

/-- Where the bytes of an access lie after translation (R402): memory type, physical or bus address, PEER, PPORT. -/
structure Loc where
  ty : Nat
  pa : Nat
  peer : Nat
  pport : Bool
  deriving DecidableEq, Repr

/-- One lane of a buffer access still to be performed: its address (none when out of bounds) and, where it was translated
at issue, the place it keeps (R409), datum and compare value. -/
structure LaneAcc where
  lane : Nat
  va : Option (BitVec 64)
  loc : Option Loc
  data : BitVec 64
  cmp : BitVec 64
  /-- its page granted writes as it was translated at issue (R346, R409) -/
  wr : Bool
  deriving DecidableEq, Repr

/-- A COPY command as read at issue (R352) with the b records and stream records it names, and its progress. -/
structure CopyCmd where
  recVa : BitVec 64
  record : BitVec 512
  bufs : List (Nat × BitVec 256)
  streams : List (Nat × BitVec 512)
  /-- sr.mode.OOBT of the executing thread (R318) -/
  oobt : Bool
  /-- source bytes read so far; indices of destination elements read so far (none: out of bounds); the bytes of one copy of the
  destination, once they are known; copies written; bytes of this copy written; bytes that a peer has still to take -/
  inp : List (BitVec 8)
  ixs : List (Option Nat)
  out : Option (List (BitVec 8))
  copyIx : Nat
  written : Nat
  owed : Nat
  /-- first uncorrectable element (row, column) -/
  uncorr : Option (Nat × Nat)
  deriving DecidableEq, Repr

/-- What an operation in flight has still to do (R78, R362). Addresses of barriers and slots are scratchpad addresses
of R293 as the issuing core names them. -/
inductive OpBody where
  /-- LDB: element size, slot, barrier, whole-line event (R347), data already read, lanes not yet landed -/
  | bufLoad (z slot bar : Nat) (whole : Bool) (read : List (Nat × BitVec 64)) (lanes : List LaneAcc)
  /-- STB, ATB or CASB lanes already performed: old values (none for STB) to place and to count -/
  | bufCount (z : Nat) (slot : Option Nat) (bar : Nat) (lanes : List (Nat × BitVec 64))
  /-- STB, ATB or CASB lanes that the engine holds back (R333, R371): kind 0 STB, 1 ATB with OP `opc`, 2 CASB, where bit 0 of
  `opc` is .ACQ of the success order and bit 1 of the failure order; then the lanes performed and not yet counted -/
  | bufHeld (kind opc fmt z : Nat) (slot : Option Nat) (bar : Nat) (lanes : List LaneAcc) (done : List (Nat × BitVec 64))
  | strm (z bar : Nat) (lanes : List Nat)
  /-- LDRM: source core and offset, destination offset, barrier, granules not yet landed -/
  | ldrm (srcCore src dst bar : Nat) (granules : List Nat)
  /-- ATRM lanes performed: old values to place and to count -/
  | atrm (slot bar : Nat) (lanes : List (Nat × BitVec 32))
  /-- ATRM lanes held back by .REL, and those performed and not yet counted -/
  | atrmHeld (opc : Nat) (u : Bool) (slot bar : Nat) (lanes : List (Nat × Nat × BitVec 32)) (done : List (Nat × BitVec 32))
  /-- ATQ: lanes not yet sent, lanes sent and not yet answered, each under its tag, and the pages that are missing, each with the
  number of its fault (R349, R411) -/
  | atq (opc fmt ord slot bar : Nat) (tosend : List LaneAcc) (sent : List (Nat × LaneAcc)) (parks : List (Nat × BitVec 32))
  | copy (cmd : CopyCmd) (cost : Nat) (granted : Bool)
  | cache (inv : Bool) (vas : List (BitVec 64)) (bar : Nat)
  | evpost (s1 : BitVec 64) (payload : BitVec 32) (rec : Bool) (bar : Nat)
  | lnch (va : BitVec 64) (q wreg bar : Nat) (slots : List Nat)
  /-- cadastre: 0 KVAL, 1 KVFR, 2 KVSH, 3 KVMAP -/
  | cad (kind : Nat) (key old : BitVec 64) (fmt : Nat) (wr : Bool) (breg wreg bar : Nat) (slots : List Nat)
  | ltrd (sel : Nat) (ix : BitVec 32) (wreg bar : Nat) (slots : List Nat)
  | adm (bucket amount bar : Nat) (granted : Bool)
  | maxsc (addr n : Nat) (bf : Bool) (wreg bar : Nat) (slots : List Nat)
  /-- seed engine: 0 SEEDSCAN, 1 SEEDFIT, 2 SEEDX; once it has begun, its flags and cause, and its writes to come -/
  | seed (kind addr dst j bar : Nat) (begun : Option (BitVec 32 × Option (Nat × BitVec 64))) (io : Pieces)
  /-- COLL: domain, order number on it, record address and record, b records, barrier, cost, granted -/
  | coll (dom ix : Nat) (va : BitVec 64) (record : List (BitVec 8)) (ib ob : BitVec 256) (bar cost : Nat) (granted : Bool)
  deriving DecidableEq, Repr

/-- An operation in flight: its number, the first number of its word's operations (R325) and the word's VA, the thread that takes
its flags and deferred traps, the threads on whose behalf it executes (R529), its ordering fields (R333), whether it is parked on
a fault. -/
structure Op where
  id : Nat
  word : Nat
  va : BitVec 64
  slot : Nat
  lane : Nat
  threads : List (Nat × Nat)
  deferred : Bool
  rel : Bool
  acq : Bool
  parked : Option (BitVec 32)
  /-- scratchpad bytes it owns (R366): core, first, end -/
  ownS : List (Nat × Nat × Nat)
  /-- bytes of VA it owns (R366): first, end -/
  ownV : List (Nat × Nat)
  /-- the object whose bytes an element write would have changed (R466) -/
  clobber : Option (BitVec 64)
  /-- the translations that it keeps (R409): a line of VA (its number), whether for writes, and where the line lies -/
  xlat : List ((Nat × Bool) × Loc)
  body : OpBody
  deriving DecidableEq, Repr

/-- A word that is frozen after its issue (R326): the word, its issue cycle, the number of its free values, and the warps of its
group as its issue cycle found them: what it reads of their registers is of that cycle (R155, R157). -/
structure Issued where
  word : BitVec 64
  clock : Nat
  free : Nat
  warps : List (Nat × Warp)
  deriving DecidableEq, Repr

/-- An issue port (R103, R105): the running group's threads, the PC of its next word, words issued in the run, the
cycle at which the next word or boundary stands, whether a run is under way, the word is frozen, the run holds HALT
(1) or a BKPT that halts (2), the warps that faulted, those that ask for a bank toggle, and the threads that have trapped in
the run. -/
structure Port where
  members : List (Nat × Nat)
  pc : BitVec 64
  count : Nat
  due : Nat
  active : Bool
  frozen : Bool
  haltReq : Nat
  /-- the first of the cycles that bank conflicts add to the last word, and their number (R299, R477) -/
  banked : Nat × Nat
  faulted : List Nat
  swaps : List Nat
  left : List (Nat × Nat)
  /-- the word that is frozen after its issue -/
  issued : Option Issued
  /-- threads that have done their part of a frozen word (R231), with the trap each met -/
  partDone : List ((Nat × Nat) × Option (Nat × BitVec 64))
  deriving DecidableEq, Repr

/-- A TLB entry (R405): the root and level of its walk, the page or table that it translates (the bits of the VA above it), and
the PTE that filled it with its address. A tower TLB holds non-leaf entries too. -/
structure TlbEntry where
  root : Nat
  level : Nat
  page : Nat
  pte : BitVec 64
  ptepa : Nat
  deriving DecidableEq, Repr

/-- A core while a launch holds it (R97, R215 to R218, R468), with what stays behind on it between launches. -/
structure Core where
  launch : Option Nat
  wg : Nat
  warps : List (Nat × Warp)
  scratch : List Host.Cell
  acc : List (Nat × Acc)
  latch : List (Nat × Buf)
  cvr : List (Nat × Cvr)
  ports : List (Nat × Port)
  issueOrder : List MatOp
  /-- the operation on the press, its decode set (R250) -/
  press : Option (Nat × List Nat)
  ops : List Op
  reserve : List (Nat × Nat)
  halted : Bool
  halting : Bool
  /-- what a halt under way triggers the snapshot as: 3 HALT or BKPT, 4 management (R149) -/
  haltSrc : Nat
  debugHalt : Bool
  stopped : Bool
  /-- L1 lines and whether they are modified (R300): by `lineKey` -/
  l1 : List (Nat × Bool)
  tlb : List TlbEntry
  lastPart : Option (Nat × Bool × Nat × Nat × Nat × Nat)
  /-- the entries of the PC table that sit in a way (R420); every other candidate is on the overflow list -/
  pct : List (BitVec 64 × Role)
  /-- 8-byte units of the scratchpad that hold an uncorrectable error (R310) -/
  bad : List Nat
  deriving DecidableEq, Repr

/-- The phases of a launch from its packet to its end (R379 to R384, R114, R134). -/
inductive LaunchPhase where
  | waitDeps | waitMap (since : Nat) | placed | running | preempting | preempted | ending (status cause : Nat)
  deriving DecidableEq, Repr

/-- A launch that has been taken from a queue and has not ended (R380, R381), and what its end reports (R146). -/
structure Launch where
  key : Nat
  queue : Nat
  packet : BitVec 2048
  priv : Bool
  prio : Nat
  ptroot : BitVec 64
  phase : LaunchPhase
  map : Nat
  /-- the cores that each placement map of the packet names (R93) -/
  maps : List (List Nat)
  /-- core of each workgroup under the chosen map -/
  cores : List Nat
  seededAt : Nat
  /-- sr.clock at its first instruction (R385) -/
  firstAt : Option Nat
  report : Option (Nat × Nat × Nat × BitVec 64 × BitVec 64)
  /-- the cycle at which the launch met its abort (R146) -/
  abortAt : Nat
  /-- its threads are exited and what R146 or R524 abandons is dropped -/
  swept : Bool
  saved : List (Nat × Core)
  /-- the 2 MiB pieces of the save pool that hold its context area (R384) -/
  savePieces : List Nat
  /-- RESUME writes held while it is pre-empted (R413): SEQ, and whether ACTION is 1 -/
  heldResume : List (BitVec 32 × Bool)
  deriving DecidableEq, Repr

/-- An outstanding page fault or parked command and its record (R398, R413). -/
structure FaultRec where
  seq : BitVec 32
  record : BitVec 512
  written : Bool
  outstanding : Bool
  core : Nat
  slot : Nat
  op : Option Nat
  launch : Nat
  deriving DecidableEq, Repr

/-- A translation walker that is not idle (R400): the tables and the VA of its walk, and the lines that it holds in-flight marks on
(R408). -/
structure Walker where
  root : Nat
  va : BitVec 64
  marks : List Nat
  deriving DecidableEq, Repr

/-- Per-tower state: containment (R266), channel correction counters and their times (R268, R475), fault injector (R270),
token buckets, refill registers and gates (R468, R471), tower TLB (R400), event queue (R387), ECC counters (R475). -/
structure Tower where
  contain : BitVec 128
  corr : List (Nat × Nat)
  corrTimes : List (Nat × Nat)
  /-- channels whose counter has risen by 64 within a second, until management has dealt with them (R268) -/
  met : List Nat
  secondReported : Bool
  injector : BitVec 64
  /-- operations numbered from here on entered the issue order after the injector was armed (R271) -/
  injFrom : Nat
  tokens : List (Nat × Nat)
  refill : List (Nat × Nat)
  /-- per bucket: requests (cycle of arrival, core, operation) in the order in which they are served (R471) -/
  gates : List (Nat × List (Nat × Nat × Nat))
  tlb : List TlbEntry
  /-- the walkers that are not idle, of 512 (R16, R400) -/
  walkers : List Walker
  /-- the last cycle in which an operation finished on a press of the tower, and the highest tower core id of such (R267) -/
  pressAt : Option (Nat × Nat)
  events : List (BitVec 256)
  /-- records whose posters wait for room in the event queue, oldest first (R387) -/
  posting : List (BitVec 256)
  eventSeq : BitVec 32
  eccBase : BitVec 64
  eccControl : BitVec 64
  deriving DecidableEq, Repr

/-- A UALink port (R431 to R434): its link-table row, flits sent and not acknowledged, messages held, retrain state,
times of recent replays, and the cycle from which the peer owes an acknowledgement. -/
structure Link where
  row : BitVec 128
  replay : List LinkMsg
  held : List LinkMsg
  retraining : Option Nat
  /-- the retrain under way aims at the next lower rate (R432) -/
  lower : Bool
  replayTimes : List Nat
  ackAt : Nat
  deriving DecidableEq, Repr

/-- One COLL in flight on a domain (R445, R446): core and operation that issued it, compared fields of each member,
marks, chunks' partial sums received, completion notices. -/
structure Coll where
  ix : Nat
  core : Nat
  op : Nat
  headers : List (Nat × List Nat × List (BitVec 128))
  agreed : Bool
  marks : List (Nat × Nat)
  peerMarks : List (Nat × List Nat)
  partials : List (Nat × Nat × List (BitVec 8))
  /-- own input chunks, as far as they have been read (R365, R446) -/
  inputs : List (Nat × List (BitVec 8))
  /-- chunks whose result is being written: what is still to be written of it, and the result -/
  writing : List (Nat × List (BitVec 64 × List (BitVec 8)) × List (BitVec 8))
  /-- chunks whose part has gone up, and chunks whose result has gone down through this member (R446) -/
  sentUp : List Nat
  sentDown : List Nat
  doneFrom : List Nat
  doneSent : Bool
  /-- a cause that stops it, while the event queue has no room for its record (R387, R452) -/
  stop : Option Nat
  ended : Option Nat
  /-- RGEN, RT and STATUS are written (R451) -/
  wrote : Bool
  deriving DecidableEq, Repr

/-- A domain table (R436) with its committed live-link table, tree set and agreement round (R438 to R440). -/
structure Domain where
  en : Bool
  n : Nat
  self : Nat
  gen : BitVec 32
  t : Nat
  refused : Bool
  dstate : Nat
  members : List (Nat × BitVec 32)
  /-- live edges (a, b, pa) -/
  live : List (Nat × Nat × Nat)
  /-- tree t: for each member its parent and the edge to it -/
  trees : List (List (Nat × Nat × (Nat × Nat × Nat)))
  round : Option Nat
  /-- the highest generation that the round has heard of: its commit takes the next (R439) -/
  base : BitVec 32
  /-- how often the round from this generation has restarted (R439) -/
  attempt : Nat
  /-- an agreement asked for while a COLL is in flight (R439) -/
  wanted : Bool
  reports : List (Nat × List (BitVec 128))
  nextColl : Nat
  colls : List Coll
  /-- messages that this member cannot take yet, oldest first: of a later generation, of a COLL that has not begun here, or of one
  that waits -/
  early : List LinkMsg
  /-- COLLs that have ended here: number, status, compared fields and own headers (R449, R452) -/
  past : List (Nat × Nat × List Nat × List (BitVec 128))
  deriving DecidableEq, Repr

/-- The queue, event and fault registers of BAR0 (R374, R377, R387, R399). -/
structure QueueRegs where
  desc : List (Nat × BitVec 512)
  evtBase : BitVec 64
  evtSize : BitVec 32
  hev : List (Nat × BitVec 64)
  hfl : List (Nat × BitVec 64)
  saveBase : BitVec 64
  saveSize : BitVec 64
  plThresh : BitVec 32
  cfgIgn : BitVec 32
  lastServed : Nat
  faults : List FaultRec
  faultSeq : BitVec 32
  msix : List Nat
  deriving DecidableEq, Repr

/-- The translation and context registers of BAR0 (R414, R415). -/
structure CtxRegs where
  base : BitVec 64
  cap : BitVec 32
  count : BitVec 32
  err : Bool
  resumeBad : BitVec 32
  /-- the translations that SYNC waits for (core, operation, line, whether for writes); none when PEND is 0 -/
  sync : Option (List (Nat × Nat × Nat × Bool))
  deriving DecidableEq, Repr

/-- The cadastre registers of BAR0 and the unit's head index and count (R423, R427). -/
structure CadRegs where
  en : Bool
  n : BitVec 32
  bkt : BitVec 32
  tab : BitVec 64
  ref : BitVec 64
  fq : BitVec 64
  va : BitVec 64
  free : Nat
  head : Nat
  deriving DecidableEq, Repr

/-- A cooling loop as the management processor reads it (R522): its flow in percent of nominal, its supply temperature in 1/16 °C, the
cycle since which the flow has been below 50 %, and the cycle since which both have been within limits. -/
structure Loop where
  flow : Nat
  supply : Int
  lowSince : Option Nat
  goodSince : Option Nat
  deriving DecidableEq, Repr

/-- The management processor: mailbox (R515), event log (R521), sensors (R26), cooling and operating table (R522),
bring-up (R527), firmware (R519), snapshot (R149, R150), risers (R21, R22), layers (R151). -/
structure Mgmt where
  stage : Nat
  ready : Bool
  recov : Bool
  ot : Nat
  topLost : Bool
  bottomLost : Bool
  /-- the readings of the top and of the bottom loop (R522) -/
  cooling : Loop × Loop
  shutdownAt : Option Nat
  mbReq : BitVec 64
  mbArg : List (Nat × BitVec 8)
  mbRsp : List (Nat × BitVec 8)
  busy : Bool
  overrun : Bool
  result : Nat
  rspLen : Nat
  /-- the request being served, as copied at submission: code, length, arguments; and whether it has been served -/
  serving : Option (Nat × Nat × List (BitVec 8))
  served : Bool
  log : List (Nat × BitVec 256)
  flashLog : List (Nat × BitVec 256)
  logNext : Nat
  sensors : List (Nat × BitVec 16 × Nat)
  flash : List (BitVec 8)
  /-- the image that runs; none before it has been verified, and in recovery (R519, R520) -/
  running : Option (List (BitVec 8))
  minSvn : Nat
  pieces : List (BitVec 8)
  snapCtl : BitVec 64
  /-- a raised trigger that has not latched: source, tag, and the cycle at which it was raised -/
  snapPending : Option (Nat × BitVec 32 × Nat)
  /-- the latched block images of R518: (kind, index) and bytes from byte 16, with the latch cycle -/
  snapImage : List (Nat × Nat × List (BitVec 8))
  snapClock : Nat
  risers : List (Nat × BitVec 32)
  riserHeld : List (Nat × BitVec 32)
  /-- retries of the last second: the riser and the cycle (R525) -/
  retries : List (Nat × Nat)
  asleep : List (Nat × Bool)
  /-- cores that wait to leave service (R525) -/
  marked : List Nat
  /-- refill ticks done since reset (R469) -/
  tick : Nat
  /-- flash holds an image whose write a power loss cut short (R519) -/
  flashBad : Bool
  deriving DecidableEq, Repr

/-- Memory outside the cores (R291, R306) and what the caches and walkers know of it. -/
structure Memories where
  /-- device physical memory that has been written: HBM4 and arcade -/
  dev : List Host.Cell
  host : List Host.Cell
  /-- ECC units that hold an uncorrectable error (R310, R311): first byte and size -/
  bad : List (Nat × Nat)
  /-- half-lines of HBM4 whose check symbols CHECKBITS stored, until an access meets them (R526) -/
  checks : List (Nat × List (BitVec 8))
  /-- L2 lines: `lineKey`, slice that holds it, pinned, dirty (R307 to R309) -/
  l2 : List (Nat × Nat × Bool × Bool)
  /-- lease copies of HOST and PEER lines (R370, R371): key, bytes with the cycle in which they were asked for, expiry -/
  leases : List (Nat × (List (BitVec 8) × Nat) × Nat)
  w2base : BitVec 64
  bar2Log : Nat
  coreSvc : BitVec 512
  hostRead : List (BitVec 8)
  hbmEcc : List (Nat × BitVec 64)
  pcfg : List (Nat × BitVec 64)
  pval : List (Nat × BitVec 64)
  deriving DecidableEq, Repr

/-- A message that waits at this requester for a port that reaches its peer (R429): the launch, operation and lane it comes
from, its route, and the message. -/
structure OutMsg where
  launch : Nat
  op : Nat
  lane : Nat
  peer : Nat
  pport : Bool
  msg : LinkMsg
  deriving DecidableEq, Repr

/-- UALink and domain state (R433, R435, R436). -/
structure Fabric where
  links : List (Nat × Link)
  devid : BitVec 32
  domains : List (Nat × Domain)
  /-- PEER reads and writes and ATQ commands that arrived and wait, oldest first, each with the port it came on (R371, R396) -/
  inbox : List (Nat × LinkMsg)
  nextTag : Nat
  /-- requester side of ATQ: tag, core, operation, target member -/
  tags : List (Nat × Nat × Nat × Nat)
  outbox : List OutMsg
  /-- the PEER lines that have been asked for and have not come, oldest first: key, and the cycle of the request (R371) -/
  peerReads : List (Nat × Nat)
  /-- PEER reads and writes and ATQ commands that a port has taken and its peer has not acknowledged, oldest first (R429, R431) -/
  sent : List (Nat × OutMsg)
  /-- PEER writes of this device that the peer has not yet taken, in order (R371) -/
  unperformed : List OutMsg
  deriving DecidableEq, Repr

/-- What happens next (log 1): the device's own timed turn, a step that engines, management, the host or the links
take, a store of the host to its own memory, or a new reading of a cooling loop (R522). -/
inductive Turn where
  | timed
  | ev (i : Instr)
  | hostStore (addr : Nat) (bytes : List (BitVec 8))
  | loopReading (top : Bool) (flow : Nat) (supply : Int)
  deriving DecidableEq, Repr

/-- The whole machine. -/
structure State where
  clock : Nat
  cores : List (Nat × Core)
  towers : List (Nat × Tower)
  launches : List Launch
  /-- the launch that ended last on a core, whose registers the core still holds (R151, R486) -/
  ran : List (Nat × Launch)
  mem : Memories
  q : QueueRegs
  ctx : CtxRegs
  cad : CadRegs
  mgmt : Mgmt
  fab : Fabric
  /-- MODEL: the asynchronous steps to come, oldest first (log 1) -/
  agenda : List Turn
  /-- MODEL: the core and port whose word is executing (log 1) -/
  cur : Nat × PortId
  /-- MODEL: numbers the free values (log 5) -/
  free : Nat
  /-- MODEL: the next number of an operation or launch (log 1) -/
  nextId : Nat
  deriving DecidableEq, Repr

/-- Why the machine can stop. -/
inductive Fault where
  /-- A translated page or a table names a physical address outside R306: raised by every access to device memory. The
  manual gives such an address no contents. Safe: the run stops. -/
  | badPhysical
  deriving DecidableEq, Repr

/-- Why an instruction has no meaning here. -/
inductive Refusal where
  /-- The instruction has no meaning in this model yet. Safe: the run stops. -/
  | notModelled (mnemonic : String)
  deriving DecidableEq, Repr

/-- A tower after device reset (R266, R270, R468, R469). -/
def Tower.reset : Tower :=
  { contain := 0xFF00#128, corr := [], corrTimes := [], met := [], secondReported := false, injector := 0, injFrom := 0
    tokens := [(0, Config.bucketCap 0), (1, Config.bucketCap 1), (2, Config.bucketCap 2)]
    refill := [(0, Config.refillOf 0 0), (1, Config.refillOf 0 1), (2, Config.refillOf 0 2)]
    gates := [], tlb := [], walkers := [], pressAt := none, events := [], posting := [], eventSeq := 0, eccBase := 0, eccControl := 0 }

/-- A link-table row after reset: PEERM 0x3F, every other field 0 (R434). -/
def Link.reset : Link :=
  { row := 0xFC00000000#128, replay := [], held := [], retraining := none, lower := false, replayTimes := [], ackAt := 0 }

/-- A domain table after reset (R436). -/
def Domain.reset : Domain :=
  { en := false, n := 0, self := 0, gen := 0, t := 0, refused := false, dstate := 0, members := [], live := []
    trees := [], round := none, base := 0, attempt := 0, wanted := false, reports := [], nextColl := 0, colls := []
    early := [], past := [] }

/-- A core that no launch has held since reset. -/
def Core.reset : Core :=
  { launch := none, wg := 0, warps := [], scratch := [], acc := [], latch := [], cvr := [], ports := [], issueOrder := []
    press := none, ops := [], reserve := [], halted := false, halting := false, haltSrc := 3, debugHalt := false, stopped := false
    l1 := [], tlb := [], lastPart := none, pct := [], bad := [] }

def Memories.reset : Memories :=
  { dev := [], host := [], bad := [], checks := [], l2 := [], leases := [], w2base := 0, bar2Log := 0
    coreSvc := BitVec.allOnes 512, hostRead := [], hbmEcc := [], pcfg := [], pval := [] }

def QueueRegs.reset : QueueRegs :=
  { desc := [], evtBase := 0, evtSize := 0, hev := [], hfl := [], saveBase := 0, saveSize := 0
    plThresh := 85, cfgIgn := 0, lastServed := 63, faults := [], faultSeq := 0, msix := [] }

def CtxRegs.reset : CtxRegs := { base := 0, cap := 0, count := 0, err := false, resumeBad := 0, sync := none }

def CadRegs.reset : CadRegs :=
  { en := false, n := 0, bkt := 0, tab := 0, ref := 0, fq := 0, va := 0, free := 0, head := 0 }

/-- A loop within limits, until it is read (DESIGN CHOICE, log 10). -/
def Loop.reset : Loop := { flow := 100, supply := 0, lowSince := none, goodSince := some 0 }

def Mgmt.reset : Mgmt :=
  { stage := 0, ready := false, recov := false, ot := 0, topLost := false, bottomLost := false, cooling := (Loop.reset, Loop.reset), shutdownAt := none
    mbReq := 0, mbArg := [], mbRsp := [], busy := false, overrun := false, result := 0, rspLen := 0, serving := none
    served := false, log := [], flashLog := [], logNext := 0, sensors := [], flash := Config.factoryImage, running := none
    minSvn := Config.fusedMinSvn, pieces := [], snapCtl := 1, snapPending := none, snapImage := [], snapClock := 0
    risers := [], riserHeld := [], retries := [], asleep := [], marked := [], tick := 0, flashBad := false }

def Fabric.reset : Fabric :=
  { links := [], devid := Config.fusedSerial, domains := [], inbox := [], nextTag := 0, tags := []
    outbox := [], peerReads := [], sent := [], unperformed := [] }

/-- The machine right after device reset: bring-up stage 0, every register at the Reset column of its map, or at the
value the log names (entries 8, 9). Sparse families list nothing: an unlisted tower is `Tower.reset`, an unlisted
core `Core.reset`, an unlisted link `Link.reset`, an unlisted domain `Domain.reset`. -/
def State.reset : State :=
  { clock := 0, cores := [], towers := [], launches := [], ran := [], mem := Memories.reset, q := QueueRegs.reset
    ctx := CtxRegs.reset, cad := CadRegs.reset, mgmt := Mgmt.reset, fab := Fabric.reset, agenda := [], cur := (0, .v0)
    free := 0, nextId := 1 }

end Sys2Proof.Machine
end

