-- ==== Sys2Proof/Machine/Ops.lean ====
section
/-! DEFINITION. The named operations over the state: sparse families, geometry, register reads and writes (R74, R155,
R156), records (R385, R398), counters (R477), snapshot triggers (R149), taking a trap (R143) and aborting a launch
(R146). -/

namespace Sys2Proof.Machine

open Sys2Proof

/-- What a step answers. -/
abbrev Out := Host.Outcome State Fault Refusal

/-! ### Sparse families -/

/-- The value listed at `k`. -/
def find? {α : Type} (l : List (Nat × α)) (k : Nat) : Option α :=
  match l with
  | [] => none
  | (k', v) :: r => if k' = k then some v else find? r k

/-- The value at `k`, or `d` where nothing is listed. -/
def findD {α : Type} (l : List (Nat × α)) (k : Nat) (d : α) : α := (find? l k).getD d

/-- List `v` at `k`, keeping rising order. -/
def put {α : Type} (l : List (Nat × α)) (k : Nat) (v : α) : List (Nat × α) :=
  match l with
  | [] => [(k, v)]
  | (k', v') :: r => if k < k' then (k, v) :: (k', v') :: r else if k' = k then (k, v) :: r else (k', v') :: put r k v

/-- List nothing at `k`. -/
def erase {α : Type} (l : List (Nat × α)) (k : Nat) : List (Nat × α) :=
  match l with
  | [] => []
  | (k', v') :: r => if k' = k then erase r k else (k', v') :: erase r k

/-- Write `v` at `k` in a family whose unlisted entries hold `d`: an entry equal to `d` is not listed. -/
def putD {α : Type} [DecidableEq α] (l : List (Nat × α)) (k : Nat) (v d : α) : List (Nat × α) :=
  if v = d then erase l k else put l k v

/-- The keys rise strictly. -/
def rising {α : Type} : List (Nat × α) → Bool
  | [] => true
  | [_] => true
  | (k, _) :: (k', v') :: r => decide (k < k') && rising ((k', v') :: r)

/-- Insert in order of a key, after equal keys. -/
def insertBy {α : Type} (f : α → Nat) (x : α) : List α → List α
  | [] => [x]
  | y :: r => if f x < f y then x :: y :: r else y :: insertBy f x r

/-- Stable sort by a key. -/
def sortBy {α : Type} (f : α → Nat) (l : List α) : List α := l.foldl (fun acc x => insertBy f x acc) []

/-! ### Geometry (R24, R91) -/

def towerOfXY (x y : Nat) : Nat := x / 16 + 2 * (y / 8)
def tcidOfXY (x y : Nat) : Nat := (y % 8) * 16 + x % 16
/-- Device core id of a mesh position (R24). -/
def dcidOf (x y : Nat) : Nat := 128 * towerOfXY x y + tcidOfXY x y
def towerOf (d : Nat) : Nat := d / 128
def tcidOf (d : Nat) : Nat := d % 128
/-- Avenue of a core (R24). -/
def coreX (d : Nat) : Nat := 16 * (towerOf d % 2) + tcidOf d % 16
/-- Street of a core (R24). -/
def coreY (d : Nat) : Nat := 8 * (towerOf d / 2) + tcidOf d / 16

/-- The tower column index of a mesh position (R25). -/
def towerColumn (x y : Nat) : Nat := y % 8 / 2 * 4 + x % 16 / 4
/-- The device column index of a core (R25). -/
def deviceColumn (d : Nat) : Nat := 16 * towerOf d + towerColumn (coreX d) (coreY d)
/-- The block of 8 cores of a thermal column (R25). -/
def columnCores (col : Nat) : List Nat := (List.range 512).filter fun d => deviceColumn d == col
/-- The thermal columns of a tower (R25). -/
def towerColumns (t : Nat) : List Nat := (List.range 64).filter fun col => (columnCores col).any fun d => towerOf d == t

/-! ### Accessors -/

def State.core (s : State) (d : Nat) : Core := findD s.cores d Core.reset
def State.setCore (s : State) (d : Nat) (c : Core) : State := { s with cores := put s.cores d c }
def State.modCore (s : State) (d : Nat) (f : Core → Core) : State := s.setCore d (f (s.core d))
def State.tower (s : State) (t : Nat) : Tower := findD s.towers t Tower.reset
def State.setTower (s : State) (t : Nat) (x : Tower) : State := { s with towers := put s.towers t x }
def State.modTower (s : State) (t : Nat) (f : Tower → Tower) : State := s.setTower t (f (s.tower t))
def Core.warp? (c : Core) (slot : Nat) : Option Warp := find? c.warps slot
def Core.setWarp (c : Core) (slot : Nat) (w : Warp) : Core := { c with warps := put c.warps slot w }
def Core.modWarp (c : Core) (slot : Nat) (f : Warp → Warp) : Core :=
  match c.warp? slot with
  | some w => c.setWarp slot (f w)
  | none => c
def Warp.modThread (w : Warp) (lane : Nat) (f : Thread → Thread) : Warp := { w with threads := w.threads.modify lane f }
def State.warp? (s : State) (d slot : Nat) : Option Warp := (s.core d).warp? slot
def State.modWarp (s : State) (d slot : Nat) (f : Warp → Warp) : State := s.modCore d (·.modWarp slot f)
def State.thread? (s : State) (d slot lane : Nat) : Option Thread := (s.warp? d slot).bind (·.threads[lane]?)
def State.modThread (s : State) (d slot lane : Nat) (f : Thread → Thread) : State :=
  s.modWarp d slot (·.modThread lane f)
/-- A taken launch by its number in the model. -/
def State.launchOf (s : State) (key : Nat) : Option Launch := s.launches.find? (·.key == key)
def State.modLaunch (s : State) (key : Nat) (f : Launch → Launch) : State :=
  { s with launches := s.launches.map fun l => if l.key = key then f l else l }
/-- The launch that holds a core. -/
def State.coreLaunch (s : State) (d : Nat) : Option Launch := (s.core d).launch.bind s.launchOf
def Core.modOp (c : Core) (id : Nat) (f : Op → Op) : Core :=
  { c with ops := c.ops.map fun o => if o.id = id then f o else o }
def Core.op? (c : Core) (id : Nat) : Option Op := c.ops.find? (·.id == id)
def Core.delOp (c : Core) (id : Nat) : Core := { c with ops := c.ops.filter (·.id != id) }

def portRank : PortId → Nat
  | .c => 0 | .m => 1 | .v0 => 2 | .v1 => 3

/-- The role whose threads a port issues (R99). -/
def portRole : PortId → Role
  | .c => .c | .m => .m | .v0 => .v | .v1 => .v

def Role.code : Role → Nat
  | .c => 0 | .m => 1 | .v => 2

def Port.idle : Port :=
  { members := [], pc := 0, count := 0, due := 0, active := false, frozen := false, haltReq := 0, banked := (0, 0)
    faulted := [], swaps := [], left := [], issued := none, partDone := [] }

def Core.port (c : Core) (p : PortId) : Port := findD c.ports (portRank p) Port.idle
def Core.setPort (c : Core) (p : PortId) (x : Port) : Core := { c with ports := put c.ports (portRank p) x }

/-! ### The launch packet (R380) -/

/-- Bits [hi:lo] of a launch packet. -/
def Launch.pk (l : Launch) (hi lo : Nat) : Nat := natBits l.packet.toNat hi lo
def Launch.id (l : Launch) : Nat := l.pk 351 320
def Launch.nregs (l : Launch) : Nat := l.pk 425 416
def Launch.scratchBytes (l : Launch) : Nat := 1024 * l.pk 440 432
def Launch.tvec (l : Launch) : BitVec 64 := BitVec.ofNat 64 (l.pk 191 128)
def Launch.wx (l : Launch) : Nat := l.pk 388 384
def Launch.wy (l : Launch) : Nat := l.pk 395 392
def Launch.ww (l : Launch) : Nat := l.pk 405 400
def Launch.wh (l : Launch) : Nat := l.pk 412 408
def Launch.cev (l : Launch) : Nat := l.pk 371 352
def Launch.originCore (l : Launch) : Nat := dcidOf l.wx l.wy
/-- The core lies in the launch's ward (R91). -/
def Launch.inWard (l : Launch) (d : Nat) : Bool :=
  l.wx ≤ coreX d && coreX d < l.wx + l.ww && l.wy ≤ coreY d && coreY d < l.wy + l.wh

/-! ### Registers -/

/-- The register belongs to the warp, not to the thread (R67, R97). -/
def warpReg (x : Nat) : Bool := (768 ≤ x && x < 832) || (840 ≤ x && x < 856) || x == 1024

/-- The value a register holds at cycle `c`: its base value under every result whose ready cycle has come; later ready
cycles win, and of equal ones the later issued (R155), in a per-warp register the higher rank first (R156). -/
def lookReg (pend : List Pend) (base : BitVec 256) (c x : Nat) : BitVec 256 :=
  let best := pend.foldl (fun (b : Option Pend) p =>
    if p.reg = x ∧ p.ready ≤ c then
      match b with
      | none => some p
      | some q => if q.ready < p.ready ∨ (q.ready = p.ready ∧ (warpReg x = false ∨ q.rank ≤ p.rank)) then some p else some q
    else b) none
  match best with
  | some p => p.val
  | none => base

/-- The result of the last producer of a register, ready or not (R75). -/
def lastPend (pend : List Pend) (x : Nat) : Option Pend :=
  pend.foldl (fun b p => if p.reg = x then some p else b) none

/-- The base value of a v, p or k register of a thread. -/
def Thread.base (t : Thread) (x : Nat) : BitVec 256 :=
  if x < 768 then (findD t.v x 0).zeroExtend 256
  else if x < 840 then if t.p.getLsbD (x - 832) then 1 else 0
  else (findD t.k x 0).zeroExtend 256

/-- The base value of a w register, a b register or sr.lgp (1024) of a warp. -/
def Warp.base (w : Warp) (x : Nat) : BitVec 256 :=
  if x < 832 then (findD w.w x 0).zeroExtend 256
  else if x < 856 then findD w.b x 0
  else w.lgp.zeroExtend 256

/-- A register of a thread at cycle `c`; p7 is 1 (R68). -/
def Thread.at (t : Thread) (c x : Nat) : BitVec 256 := if x = 839 then 1 else lookReg t.pend (t.base x) c x
/-- A register of a warp at cycle `c`. -/
def Warp.at (w : Warp) (c x : Nat) : BitVec 256 := lookReg w.pend (w.base x) c x

/-- Issue a result; writes to p7 are ignored (R68). -/
def Thread.result (t : Thread) (p : Pend) : Thread := if p.reg = 839 then t else { t with pend := t.pend ++ [p] }
def Warp.result (w : Warp) (p : Pend) : Warp := { w with pend := w.pend ++ [p] }

/-- Set the base value of a register of a thread. -/
def Thread.setBase (t : Thread) (x : Nat) (v : BitVec 256) : Thread :=
  if x < 768 then { t with v := putD t.v x (v.setWidth 32) 0 }
  else if x < 840 then
    { t with p := if v.getLsbD 0 then t.p ||| (1#8 <<< (x - 832)) else t.p &&& ~~~(1#8 <<< (x - 832)) }
  else { t with k := putD t.k x (v.setWidth 64) 0 }
def Warp.setBase (w : Warp) (x : Nat) (v : BitVec 256) : Warp :=
  if x < 832 then { w with w := putD w.w x (v.setWidth 64) 0 }
  else if x < 856 then { w with b := putD w.b x v 0 }
  else { w with lgp := v.setWidth 32 }

/-- Fold the results of a register into its base value once all of them are ready at cycle `c`. The register reads as
before at `c` and at every later cycle. -/
def Thread.land (t : Thread) (c : Nat) : Thread :=
  let done := (t.pend.map (·.reg)).eraseDups.filter fun x => t.pend.all fun p => p.reg != x || p.ready ≤ c
  let t' := done.foldl (fun u x => u.setBase x (lookReg t.pend (t.base x) c x)) t
  { t' with pend := t.pend.filter fun p => !(done.contains p.reg) }
def Warp.land (w : Warp) (c : Nat) : Warp :=
  let done := (w.pend.map (·.reg)).eraseDups.filter fun x => w.pend.all fun p => p.reg != x || p.ready ≤ c
  let w' := done.foldl (fun u x => u.setBase x (lookReg w.pend (w.base x) c x)) w
  { w' with pend := w.pend.filter fun p => !(done.contains p.reg) }

/-- A result that an engine or the device writes now, after every other write of the cycle (R156). -/
def State.putThreadReg (s : State) (d slot lane x : Nat) (v : BitVec 256) : State :=
  s.modThread d slot lane (·.result { reg := x, val := v, ready := s.clock, rank := 4 })
def State.putWarpReg (s : State) (d slot x : Nat) (v : BitVec 256) : State :=
  s.modWarp d slot (·.result { reg := x, val := v, ready := s.clock, rank := 4 })

/-- OR flags into sr.status (R125). -/
def Thread.raise (t : Thread) (f : BitVec 32) : Thread := { t with status := t.status ||| f }
def State.raise (s : State) (d slot lane : Nat) (f : BitVec 32) : State := s.modThread d slot lane (·.raise f)
/-- The flags that engines raised in the thread in cycle `c`. -/
def Thread.flagsAt (t : Thread) (c : Nat) : BitVec 32 :=
  match t.lateFlags with
  | some (c', f) => if c' = c then f else 0
  | none => 0
/-- Flags that a variable-latency operation raises (R125): no MTSR of the same cycle loses them (R147). -/
def Thread.raiseLate (t : Thread) (c : Nat) (f : BitVec 32) : Thread :=
  { t with status := t.status ||| f, lateFlags := some (c, t.flagsAt c ||| f) }
def State.raiseLate (s : State) (d slot lane : Nat) (f : BitVec 32) : State :=
  if f = 0 then s else s.modThread d slot lane (·.raiseLate s.clock f)

/-! ### Counters (R475 to R477) -/

/-- An event of the performance counters occurs `n` times on core `d` (R477). -/
def State.count (s : State) (d evt n : Nat) : State :=
  let m := s.mem
  let pv := m.pcfg.foldl (fun acc (kc : Nat × BitVec 64) =>
    if kc.1 / 32 = d ∧ kc.2.getLsbD 8 ∧ natBits kc.2.toNat 7 0 = evt then
      putD acc kc.1 (BitVec.ofNat 64 (((findD acc kc.1 0).toNat + n) % 2 ^ 48)) 0
    else acc) m.pval
  { s with mem := { m with pval := pv } }

/-- Saturating addition. -/
def satAdd (a b m : Nat) : Nat := min (a + b) m

/-! ### Records -/

/-- An event record of R385 with SEQ still 0. -/
def mkEvent (ty status cause launch d slot lane : Nat) (data0 data1 : BitVec 64) : BitVec 256 :=
  data1 ++ data0 ++ 0#32 ++ BitVec.ofNat 32 launch ++ 0#3 ++ BitVec.ofNat 5 lane ++ 0#3 ++ BitVec.ofNat 5 slot ++ 0#7 ++
    BitVec.ofNat 9 d ++ 0#8 ++ BitVec.ofNat 8 cause ++ BitVec.ofNat 8 status ++ BitVec.ofNat 8 ty

/-- The tower's event queue has room (R387). -/
def State.eventRoom (s : State) (t : Nat) : Bool := (s.tower t).events.length < 256

/-- An entry of the event log (R521): its number counts from reset; SRAM keeps the last 4,096 entries and flash 65,536. -/
def State.logEntry (s : State) (r : BitVec 256) : State :=
  let m := s.mgmt
  let e := (m.logNext, r)
  { s with mgmt := { m with log := (m.log ++ [e]).drop (m.log.length + 1 - 4096)
                            flashLog := (m.flashLog ++ [e]).drop (m.flashLog.length + 1 - 65536)
                            logNext := m.logNext + 1 } }

/-- Post a record on a tower's event queue with the next SEQ (R385, R387, R532); the event log copies the types 3, 4
and 5 (R521). -/
def State.post (s : State) (t : Nat) (r : BitVec 256) : State :=
  let x := r ||| ((s.tower t).eventSeq.zeroExtend 256 <<< 96)
  let s1 := s.modTower t fun w => { w with events := w.events ++ [x], eventSeq := w.eventSeq + 1 }
  let ty := (x.setWidth 8).toNat
  if 3 ≤ ty ∧ ty ≤ 5 then s1.logEntry x else s1

/-- Post a record, or where the event queue is full wait with it (R387): what the poster does besides is done. -/
def State.postOrWait (s : State) (t : Nat) (r : BitVec 256) : State :=
  if s.eventRoom t then s.post t r else s.modTower t fun w => { w with posting := w.posting ++ [r] }

/-- Post a fault record (R398); answers the new state and the SEQ. `outstanding` records wait for RESUME (R413). -/
def State.postFault (s : State) (cause access unit d slot launchKey : Nat) (pc va frame ptepa : BitVec 64)
    (op : Option Nat) (outstanding : Bool) : State × BitVec 32 :=
  let seq := s.q.faultSeq
  let lid := ((s.launchOf launchKey).map Launch.id).getD 0
  let r : BitVec 512 := 0#64 ++ ptepa ++ frame ++ va ++ pc ++ BitVec.ofNat 32 lid ++ seq ++ 0#32 ++ BitVec.ofNat 16 d ++
    BitVec.ofNat 8 slot ++ BitVec.ofNat 8 unit ++ 0#12 ++ BitVec.ofNat 4 access ++ 0#8 ++ BitVec.ofNat 8 cause ++ 0#32
  let f : FaultRec := { seq := seq, record := r, written := false, outstanding := outstanding, core := d, slot := slot,
                        op := op, launch := launchKey }
  ({ s with q := { s.q with faults := s.q.faults ++ [f], faultSeq := seq + 1 } }, seq)

/-! ### Snapshot triggers (R149) -/

def State.armed (s : State) : Bool := s.mgmt.snapCtl.getLsbD 0
def State.progen (s : State) : Bool := s.mgmt.snapCtl.getLsbD 2

/-- A trigger (R149, R150): while ARMED is 1 it latches at SNAPSHOT_LATCH, which clears ARMED, unless an earlier one is still
to latch; otherwise it counts as lost. -/
def State.trigger (s : State) (source : Nat) (tag : BitVec 32) : State :=
  if s.armed then
    { s with mgmt := { s.mgmt with snapPending := s.mgmt.snapPending.or (some (source, tag, s.clock)) } }
  else
    let lost := satAdd (natBits s.mgmt.snapCtl.toNat 31 16) 1 65535
    { s with mgmt := { s.mgmt with
        snapCtl := (s.mgmt.snapCtl &&& ~~~(0xFFFF0000#64)) ||| BitVec.ofNat 64 (lost <<< 16) } }

/-! ### Traps (R142 to R147) -/

namespace Cause
def illop := 0x01
def resfield := 0x02
def illopnd := 0x03
def illrun := 0x04
def role := 0x05
def stallshort := 0x06
def priv := 0x07
def brk := 0x08
def swtrap := 0x09
def spaddr := 0x10
def spalign := 0x11
def bufbound := 0x12
def addrform := 0x13
def prot := 0x14
def barclobber := 0x15
def barrange := 0x16
def court := 0x17
def headroom := 0x20
def cvrmismatch := 0x21
def cvrover := 0x22
def shape := 0x23
def uncorr := 0x24
def seedrec := 0x25
def fpexc := 0x30
def ckfail := 0x31
def intdiv := 0x32
def copyoverlap := 0x40
def record := 0x41
def uncmem := 0x50
end Cause

/-- A launch meets a cause that aborts it (R146): its end status is fixed and LAUNCH_ABORT is due. Of the threads that
meet an abort in one cycle, the one with the lowest device core id and tidx is reported. -/
def State.abortBy (s : State) (key status cause d slot lane : Nat) (epc info : BitVec 64) : State :=
  s.modLaunch key fun l =>
    match l.phase with
    | .ending st _ =>
      match l.report with
      | some (d', sl', ln', _, _) =>
        if st = 9 ∧ status = 9 ∧ l.abortAt = s.clock ∧ 1024 * d + 32 * slot + lane < 1024 * d' + 32 * sl' + ln' then
          { l with phase := .ending status cause, report := some (d, slot, lane, epc, info) }
        else l
      | none => l
    | _ => { l with phase := .ending status cause, report := some (d, slot, lane, epc, info), abortAt := s.clock }

/-- Whether a trap of this thread triggers the snapshot (R143): SNAPT and PROGEN. -/
def snapWanted (s : State) (t : Thread) : Bool := t.mode.getLsbD 10 && s.progen

/-- sr.ecause at trap entry (R126, R143). -/
def ecauseOf (cause : Nat) (deferred snapped : Bool) : BitVec 32 :=
  BitVec.ofNat 32 (cause + (if deferred then 256 else 0) + (if snapped then 512 else 0) + 1024)

/-- The trap registers and the PC of a thread that takes a trap; with no vector the thread is exited (R143, R146). -/
def Thread.trapEntry (t : Thread) (evec : BitVec 64) (cause : Nat) (info epc : BitVec 64) (deferred snapped : Bool) :
    Thread :=
  let t' := { t with epc := epc, ecause := ecauseOf cause deferred snapped, einfo := info }
  if evec = 0 then { t' with run := .exited } else { t' with pc := evec, tabPc := evec }

/-- `take_trap` of R143, for thread `lane` of warp `slot` on core `d`. -/
def takeTrap (s : State) (d slot lane cause : Nat) (info epc : BitVec 64) (deferred : Bool) : State :=
  match s.thread? d slot lane with
  | none => s
  | some t =>
    let evec := ((s.coreLaunch d).map Launch.tvec).getD 0
    let want := snapWanted s t
    let s1 := if want then s.trigger 2 0 else s
    let s2 := s1.modThread d slot lane (·.trapEntry evec cause info epc deferred (want && s.armed))
    if evec = 0 then s2.abortBy (((s.core d).launch).getD 0) 9 cause d slot lane epc info else s2

/-- A deferred trap becomes pending on the thread it belongs to (R145); on an exited thread the launch aborts (R146),
with a record of the trap's cause and info and the thread's own sr.epc (DESIGN CHOICE, log 51). -/
def State.defer (s : State) (d slot lane op cause : Nat) (info : BitVec 64) : State :=
  match s.thread? d slot lane with
  | none => s
  | some t =>
    let s1 := s.modThread d slot lane fun t => { t with dtraps := insertBy DTrap.op { op, cause, info } t.dtraps }
    if t.run = .exited ∨ t.resume = .exited then s1.abortBy (((s.core d).launch).getD 0) 9 cause d slot lane t.epc info
    else s1

/-- Return from a trap (R138): HND falls. -/
def Thread.rett (t : Thread) : Thread := { t with ecause := t.ecause &&& ~~~(0x400#32) }

/-! ### The PC table (R419, R420) -/

/-- The set of an entry (R420). -/
def pctSet (pc : BitVec 64) : Nat := natBits pc.toNat 7 3 ^^^ natBits pc.toNat 10 8

/-- The thread belongs to a group that runs. -/
def Core.inGroup (c : Core) (slot lane : Nat) : Bool := c.ports.any fun q => q.2.active && q.2.members.contains (slot, lane)

/-- The (PC, role) pairs of the core's threads that have not exited, as the PC table holds them. -/
def Core.pcs (c : Core) : List (BitVec 64 × Role) :=
  (c.warps.flatMap fun (sw : Nat × Warp) =>
    (sw.2.threads.filter fun t => t.run != .exited).map fun t => (t.tabPc, sw.2.role)).eraseDups

/-- The ways of the PC table after the PCs of one cycle have changed: entries without a thread free their way, and the entries
that have none take the free ways in ascending PC order (R420). -/
def Core.pctUpdate (c : Core) : Core :=
  let all := c.pcs
  let kept := c.pct.filter fun e => all.contains e
  let others := sortBy (fun (e : BitVec 64 × Role) => 4 * e.1.toNat + e.2.code) (all.filter fun e => !(kept.contains e))
  let pct := others.foldl (fun acc e =>
    if (acc.filter fun (q : BitVec 64 × Role) => pctSet q.1 == pctSet e.1).length < 4 then acc ++ [e] else acc) kept
  { c with pct := pct }

/-- A thread whose run has ended by cycle `clock` joins the entry of its PC (R420). -/
def Core.tabled (c : Core) (clock slot lane : Nat) (t : Thread) : Thread :=
  if c.inGroup slot lane || decide (clock < t.readyAt) then t else { t with tabPc := t.pc }
/-- The PC table at the start of cycle `clock` (R419, R420). -/
def Core.pctSettle (clock : Nat) (c : Core) : Core :=
  let warps := c.warps.map fun sw => (sw.1, { sw.2 with threads := sw.2.threads.mapIdx (c.tabled clock sw.1) })
  { c with warps := warps }.pctUpdate

end Sys2Proof.Machine
end

