-- ==== Sys2Proof/Machine/Mem.lean ====
section
/-! DEFINITION. Memory: bytes of the device, the host and the scratchpads (R291, R306, R528), translation and TLBs
(R400 to R409), cache tags (R300 to R309), scratchpad addresses (R293, R294), line ownership (R366) and the ordering of
operations of one thread (R333, R360, R529). -/

namespace Sys2Proof.Machine

open Sys2Proof

/-! ### Bytes -/

/-- Little-endian value of bytes (R4). -/
def leNat (bs : List (BitVec 8)) : Nat := bs.foldr (fun b acc => b.toNat + 256 * acc) 0
/-- The `n` bytes of a value, least significant first (R4). -/
def leBytes (n v : Nat) : List (BitVec 8) := (List.range n).map fun i => BitVec.ofNat 8 (v >>> (8 * i))

def hbmEnd : Nat := 0x006000000000
def arcadeBase (t : Nat) : Nat := 0x010000000000 + t * 0x10000000
/-- The address lies in HBM4 (R306). -/
def inHbm (a : Nat) : Bool := a < hbmEnd
/-- The address lies in an arcade (R306). -/
def inArcade (a : Nat) : Bool := (List.range 4).any fun t => arcadeBase t ≤ a && a < arcadeBase t + 0x0A000000
def devValid (a : Nat) : Bool := inHbm a || inArcade a

/-- What a byte that nothing has written since reset reads as (R528). -/
def devInit (a : Nat) : BitVec 8 := if inHbm a then Config.hbmInit a else 0

def Memories.devByte (m : Memories) (a : Nat) : BitVec 8 :=
  match find? m.dev a with
  | some v => v
  | none => devInit a
def Memories.hostByte (m : Memories) (a : Nat) : BitVec 8 :=
  match find? m.host a with
  | some v => v
  | none => Config.hostInit a

/-- A byte of HBM4 is listed from its first write on; a byte of an arcade is listed while it is not zero (log 3). -/
def Memories.putDev (m : Memories) (a : Nat) (v : BitVec 8) : Memories :=
  { m with dev := if inHbm a then put m.dev a v else putD m.dev a v 0 }
def Memories.putHost (m : Memories) (a : Nat) (v : BitVec 8) : Memories := { m with host := put m.host a v }

/-- The canonical form of a list of bytes: addresses strictly rising, and no entry equal to what an unlisted address
is known to read as. -/
def Memory.wf (l : List Host.Cell) : Bool := rising l && l.all fun c => inHbm c.1 || c.2 != 0
/-- The canonical form of a scratchpad. -/
def Memory.wfScratch (l : List Host.Cell) : Bool := rising l && l.all fun c => c.2 != 0

/-- A unit of memory under one ECC word: its first byte and its size. -/
abbrev EccUnit := Nat × Nat
/-- The ECC unit of an address: 64 bytes in HBM4, 8 elsewhere (R310). -/
def eccUnit (a : Nat) : EccUnit := if inHbm a then (a / 64 * 64, 64) else (a / 8 * 8, 8)
/-- The unit holds a byte of the `n` bytes at `a`. -/
def EccUnit.meets (u : EccUnit) (a n : Nat) : Bool := a < u.1 + u.2 && u.1 < a + n
/-- The `n` bytes at `a` hold the whole unit. -/
def EccUnit.within (u : EccUnit) (a n : Nat) : Bool := a ≤ u.1 && u.1 + u.2 ≤ a + n

/-- The data without its error, where one symbol of data or check symbols is wrong (R310). -/
def eccCorrect (data check : List (BitVec 8)) : Option (List (BitVec 8)) :=
  if Config.symbolDistance check (Config.checkSymbols data) ≤ 1 then some data
  else
    (List.range 32).findSome? fun i => (List.range 65536).findSome? fun v =>
      let data' := data.take (2 * i) ++ leBytes 2 v ++ data.drop (2 * i + 2)
      if Config.checkSymbols data' = check then some data' else none

/-- The bytes of a half-line as they are stored. -/
def Memories.stored (m : Memories) (a n : Nat) : List (BitVec 8) := (List.range n).map fun i => m.devByte (a + i)
/-- What an access to a half-line with stored check symbols meets (R310, R526): its data, or an uncorrectable error. -/
def Memories.checked (m : Memories) (c : Nat × List (BitVec 8)) : Option (List (BitVec 8)) := eccCorrect (m.stored c.1 64) c.2

/-- A byte as an access reads it. -/
def Memories.readByte (m : Memories) (a : Nat) : BitVec 8 :=
  match m.checks.find? fun c => EccUnit.meets (c.1, 64) a 1 with
  | some c => ((m.checked c).getD []).getD (a - c.1) (m.devByte a)
  | none => m.devByte a
def State.devRead (s : State) (a n : Nat) : List (BitVec 8) := (List.range n).map fun i => s.mem.readByte (a + i)
/-- Some byte of the range lies in a unit with an uncorrectable error (R311). -/
def State.devBad (s : State) (a n : Nat) : Bool :=
  s.mem.bad.any (EccUnit.meets · a n) || s.mem.checks.any fun c => EccUnit.meets (c.1, 64) a n && (s.mem.checked c).isNone

/-- An error adds to a unit's counters (R475): [31:0] CORR, [47:32] UNC, saturating. -/
def eccAdd (x : BitVec 64) (unc : Bool) : BitVec 64 :=
  let corr := natBits x.toNat 31 0
  let bad := natBits x.toNat 47 32
  BitVec.ofNat 64 (if unc then corr + satAdd bad 1 65535 * 2 ^ 32 else satAdd corr 1 (2 ^ 32 - 1) + bad * 2 ^ 32)
/-- An error in HBM4 at an address is counted at its controller (R310, R475). -/
def Memories.countHbm (m : Memories) (a : Nat) (unc : Bool) : Memories :=
  let h := Config.hbmController a % 8
  { m with hbmEcc := put m.hbmEcc h (eccAdd (findD m.hbmEcc h 0) unc) }
/-- A unit joins those with an uncorrectable error. -/
def Memories.addBad (m : Memories) (u : EccUnit) : Memories := { m with bad := if m.bad.contains u then m.bad else insertBy (·.1) u m.bad }

/-- An access meets the check symbols stored for a half-line (R310, R526): no error, one that is corrected, written back and
counted, or one that is counted and stays. -/
def Memories.resolve (m : Memories) (c : Nat × List (BitVec 8)) : Memories :=
  let m1 := { m with checks := m.checks.filter (·.1 != c.1) }
  if c.2 = Config.checkSymbols (m.stored c.1 64) then m1
  else
    match m.checked c with
    | some bs => (bs.zipIdx.foldl (fun m (b : BitVec 8 × Nat) => m.putDev (c.1 + b.2) b.1) m1).countHbm c.1 false
    | none => (m1.countHbm c.1 true).addBad (c.1, 64)
/-- An access to `n` bytes meets the check symbols stored for them. -/
def Memories.meet (m : Memories) (a n : Nat) : Memories :=
  (m.checks.filter fun c => EccUnit.meets (c.1, 64) a n).foldl Memories.resolve m
def State.meet (s : State) (a n : Nat) : State := if s.mem.checks.isEmpty then s else { s with mem := s.mem.meet a n }

/-- Entries tagged with a PTE address in a written line fall (R407). -/
def dropLine (a n : Nat) (l : List TlbEntry) : List TlbEntry :=
  l.filter fun e => !(a / 128 ≤ e.ptepa / 128 && e.ptepa / 128 ≤ (a + n - 1) / 128)

/-- A write hits an in-flight mark of a walker (R408). -/
def Walker.hit (w : Walker) (a n : Nat) : Bool := w.marks.any fun l => a / 128 ≤ l && l ≤ (a + n - 1) / 128
/-- Walkers that a write has hit drop their fill: the walk starts again (R408). -/
def dropWalks (a n : Nat) (l : List Walker) : List Walker := l.filter fun w => !(w.hit a n)

def State.invalTlb (s : State) (a n : Nat) : State :=
  { s with cores := s.cores.map fun c => (c.1, { c.2 with tlb := dropLine a n c.2.tlb })
           towers := s.towers.map fun t => (t.1, { t.2 with tlb := dropLine a n t.2.tlb, walkers := dropWalks a n t.2.walkers }) }

/-- The units of a list that a write does not cover: a write that covers a whole unit replaces its data and check bits (R311). -/
def stillBad (bad : List EccUnit) (a n : Nat) : List EccUnit := bad.filter fun u => !(EccUnit.within u a n)
/-- A write of the range leaves part of a unit with an uncorrectable error unwritten (R311). -/
def partBad (bad : List EccUnit) (a n : Nat) : Bool := (stillBad bad a n).any (EccUnit.meets · a n)

/-- Memory with bytes written (R311): what the write covers of stored check symbols is gone, what it meets of them is met. -/
def Memories.write (m : Memories) (a : Nat) (bs : List (BitVec 8)) : Memories :=
  let m1 := if m.checks.isEmpty then m else
    { m with checks := m.checks.filter fun c => !(EccUnit.within (c.1, 64) a bs.length) }.meet a bs.length
  let m2 := bs.zipIdx.foldl (fun m (b : BitVec 8 × Nat) => m.putDev (a + b.2) b.1) m1
  { m2 with bad := stillBad m2.bad a bs.length }
/-- Write bytes of device memory (R291, R311, R407). -/
def State.devWrite (s : State) (a : Nat) (bs : List (BitVec 8)) : State :=
  { s with mem := s.mem.write a bs }.invalTlb a bs.length
/-- A write of device memory leaves part of a unit with an uncorrectable error unwritten (R311). -/
def State.devPartBad (s : State) (a n : Nat) : Bool :=
  partBad s.mem.bad a n || s.mem.checks.any fun c =>
    EccUnit.meets (c.1, 64) a n && !(EccUnit.within (c.1, 64) a n) && (s.mem.checked c).isNone

def State.hostRead (s : State) (a n : Nat) : List (BitVec 8) := (List.range n).map fun i => s.mem.hostByte (a + i)
def State.hostWrite (s : State) (a : Nat) (bs : List (BitVec 8)) : State :=
  { s with mem := bs.zipIdx.foldl (fun m (b : BitVec 8 × Nat) => m.putHost (a + b.2) b.1) s.mem }

/-! ### Translation -/

/-- The kinds of access of R403. -/
inductive Access where
  | read | write | atomic | exec | maint
  deriving DecidableEq, Repr

/-- The ACCESS field of a fault record (R398). -/
def Access.code : Access → Nat
  | .read => 1 | .write => 2 | .atomic => 4 | .exec => 8 | .maint => 0

/-- Why a translation or an access fails. -/
inductive XErr where
  | addrForm | prot | miss (ptepa : Nat) | unc | bad
  deriving DecidableEq, Repr

/-- The trap or status cause of a failed access (R142). -/
def XErr.cause : XErr → Nat
  | .addrForm => 0x13 | .prot => 0x14 | .unc => 0x50 | .miss _ => 0x60 | .bad => 0

/-- A translated VA: where its byte lies (R402), and the leaf and its address. -/
structure Page where
  loc : Loc
  pte : BitVec 64
  ptepa : Nat
  deriving DecidableEq, Repr

/-- Bits [63:54] equal bit 53 (R304). -/
def vaForm (va : BitVec 64) : Bool :=
  va.extractLsb' 54 10 == (if va.getLsbD 53 then 0x3FF#10 else 0#10)
/-- The VA is well formed and in a half that the launch may use (R304). -/
def vaOk (priv : Bool) (va : BitVec 64) : Bool := vaForm va && (priv || !(va.getLsbD 53))
/-- The VA that the low 54 bits of an address name (R316). -/
def vaOf (n : Int) : BitVec 64 := (BitVec.ofInt 54 n).signExtend 64

/-- Index of a VA at a level (R401). -/
def vaIndex (va : BitVec 64) (level : Nat) : Nat :=
  if level = 2 then natBits va.toNat 53 42 else if level = 1 then natBits va.toNat 41 29 else natBits va.toNat 28 16

/-- A malformed entry (R401, R402). -/
def pteMalformed (e : BitVec 64) (level : Nat) : Bool :=
  let leaf := e.getLsbD 10
  let ty := natBits e.toNat 5 3
  natBits e.toNat 61 58 != 0 || natBits e.toNat 15 11 != 0 ||
  (if leaf then
    level == 2 || 5 ≤ ty || (level == 1 && natBits e.toNat 28 16 != 0) ||
    (if ty == 3 then e.getLsbD 62 && natBits e.toNat 57 56 != 0 else e.getLsbD 62 || natBits e.toNat 57 52 != 0)
  else
    level == 0 || e.getLsbD 62 || natBits e.toNat 57 52 != 0 || e.getLsbD 9 || natBits e.toNat 7 0 != 0)

/-- The leaf grants the access (R403). Cache maintenance needs no permission (R359). -/
def pteGrants (e : BitVec 64) (k : Access) : Bool :=
  match k with
  | .read => e.getLsbD 0 | .write => e.getLsbD 1 | .atomic => e.getLsbD 0 && e.getLsbD 1 | .exec => e.getLsbD 2
  | .maint => true

/-- The entry with A, and D for a write or an atomic (R403, R406); maintenance sets neither (R359). -/
def pteMark (e : BitVec 64) (k : Access) : BitVec 64 :=
  match k with
  | .read | .exec => e ||| 0x40#64
  | .write | .atomic => e ||| 0xC0#64
  | .maint => e

/-- The bits of a VA above a page (level 0 or 1) or a table (level 2 or 1) (R401). -/
def vaPage (va : BitVec 64) (level : Nat) : Nat := natBits va.toNat 53 (if level = 2 then 42 else if level = 1 then 29 else 16)
/-- The entry is for this walk. -/
def TlbEntry.serves (e : TlbEntry) (root : Nat) (va : BitVec 64) (leaf : Bool) : Bool :=
  e.root == root && e.page == vaPage va e.level && e.pte.getLsbD 10 == leaf

/-- A walk that has come to its leaf: the leaf, its address and level, the entries that led to it and were read from memory. -/
structure Walk where
  pte : BitVec 64
  ptepa : Nat
  level : Nat
  passed : List TlbEntry
  deriving DecidableEq, Repr

/-- The walk of R403 from the table at `t`, over the levels that remain; a non-leaf entry that the tower TLB holds is not read
again (R405). -/
def walkFrom (s : State) (cache : List TlbEntry) (root : Nat) (va : BitVec 64) (k : Access) (t : Nat) (passed : List TlbEntry)
    (levels : List Nat) : Except XErr Walk :=
  match levels with
  | [] => .error .prot
  | l :: ls =>
    match cache.find? fun e => e.level == l && e.serves root va false with
    | some e => walkFrom s cache root va k (natBits e.pte.toNat 51 16 * 65536) passed ls
    | none =>
      let pa := t + 8 * vaIndex va l
      if !(inHbm pa) then .error .bad
      else if s.devBad pa 8 then .error .unc
      else
        let e := BitVec.ofNat 64 (leNat (s.devRead pa 8))
        if !(e.getLsbD 63) then .error .prot
        else if pteMalformed e l then .error .prot
        else if !(e.getLsbD 8) then .error (.miss pa)
        else if e.getLsbD 10 then
          (if pteGrants e k then .ok { pte := e, ptepa := pa, level := l, passed := passed } else .error .prot)
        else
          walkFrom s cache root va k (natBits e.toNat 51 16 * 65536)
            (passed ++ [{ root := root, level := l, page := vaPage va l, pte := e, ptepa := pa }]) ls

/-- The page that a leaf at a level gives a VA (R401, R402). -/
def pageOf (va : BitVec 64) (e : BitVec 64) (ptepa level : Nat) : Page :=
  let off := if level = 1 then natBits va.toNat 28 0 else natBits va.toNat 15 0
  { loc := { ty := natBits e.toNat 5 3, pa := natBits e.toNat 51 16 * 65536 + off, peer := natBits e.toNat 57 52
             pport := e.getLsbD 62 }
    pte := e, ptepa := ptepa }

/-- The place names memory that exists (R306). -/
def Loc.valid (p : Loc) : Bool :=
  match p.ty with
  | 0 | 4 => inHbm p.pa
  | 1 => inArcade p.pa
  | _ => true

/-! ### Cache tags -/

/-- The home slice of a line (R307). -/
def homeSlice (pa : Nat) : Nat :=
  natBits pa 11 7 ^^^ natBits pa 16 12 ^^^ natBits pa 21 17 ^^^ natBits pa 26 22 ^^^ natBits pa 31 27 ^^^ natBits pa 36 32

/-- The name of a line in the caches: its address, with a mark for a line of the host and for one of a peer. -/
def lineKey (p : Loc) : Nat :=
  (match p.ty with | 2 => 1 | 3 => 2 + p.peer + (if p.pport then 64 else 0) | _ => 0) * 2 ^ 57 + p.pa / 128 * 128
/-- The address of a line within its memory. -/
def keyPa (key : Nat) : Nat := key % 2 ^ 57
/-- The page type is held in L2 (R305). -/
def Loc.inL2 (p : Loc) : Bool := p.ty != 1
/-- The page type is held read-only, with a lease (R305). -/
def Loc.leased (p : Loc) : Bool := p.ty == 2 || p.ty == 3

/-- The lines of an L2 slice: 12 MiB (R291). -/
def sliceLines : Nat := 98304

/-- A line enters a slice, which evicts a line of R309's choosing where it is full. -/
def Memories.l2Enter (m : Memories) (free key slice : Nat) (pinned dirty : Bool) : Memories :=
  let held := m.l2.filter fun e => e.2.1 == slice
  let l2 := if held.length < sliceLines then m.l2 else
    m.l2.filter fun e => some e != held[Config.victim free % sliceLines]?
  { m with l2 := l2 ++ [(key, slice, pinned, dirty)] }
/-- A line is in L2: where it is held, or else in its home slice (R307). A line of an arcade is not held in L2 (R305). -/
def State.l2Fill (s : State) (key : Nat) (dirty : Bool) : State :=
  if inArcade key then s
  else if s.mem.l2.any (·.1 == key) then
    let mark := fun (e : Nat × Nat × Bool × Bool) => if e.1 = key then (e.1, e.2.1, e.2.2.1, true) else e
    if dirty then { s with mem := { s.mem with l2 := s.mem.l2.map mark } } else s
  else { s with mem := s.mem.l2Enter s.free key (homeSlice (keyPa key)) false dirty }
/-- No L1 keeps a line, and what one held modified is in L2, or in its arcade: the recall before a write or an atomic elsewhere (R291, R309). -/
def State.recall (s : State) (key : Nat) (but : Option Nat) : State :=
  let modified := s.cores.any fun c => some c.1 != but && c.2.l1.contains (key, true)
  let drop := fun (c : Nat × Core) => if some c.1 = but then c else (c.1, { c.2 with l1 := erase c.2.l1 key })
  let s1 := { s with cores := s.cores.map drop }
  if modified then s1.l2Fill key true else s1
/-- The L1 lines of a line modified elsewhere are written back before it is read (R291). -/
def State.writeBack (s : State) (key : Nat) : State :=
  let modified := s.cores.any fun c => c.2.l1.contains (key, true)
  let clean := fun (c : Nat × Core) => (c.1, { c.2 with l1 := c.2.l1.map fun e => if e.1 = key then (key, false) else e })
  if modified then { s with cores := s.cores.map clean }.l2Fill key true else s

/-- The cores of a launch in a tower, in ascending tower core id (R302). -/
def Launch.towerCores (l : Launch) (t : Nat) : List Nat :=
  (List.range 128).filterMap fun i => if l.inWard (128 * t + i) then some (128 * t + i) else none

/-- The core and set that hold a line for accesses of core `d` (R300, R302). -/
def l1Place (l : Launch) (d key : Nat) : Nat × Nat :=
  let sets := 32 * (20 - l.pk 440 432 / 16)
  let line := keyPa key / 128
  if l.pk 441 441 = 1 then
    let cs := l.towerCores (towerOf d)
    (cs.getD (line % cs.length) d, line / cs.length % sets)
  else (d, line % sets)

/-- A line enters the L1 set that holds it for core `d`; a full set loses the line of R300's free choice. -/
def State.l1Enter (s : State) (l : Launch) (d key : Nat) (modified : Bool) : State :=
  let (h, set) := l1Place l d key
  let c := s.core h
  if c.l1.any (·.1 == key) then
    if modified then s.modCore h fun c => { c with l1 := put c.l1 key true } else s
  else
    let same := c.l1.filter fun e => (l1Place l d e.1).2 == set
    let out := if same.length < 4 then none else same[Config.victim s.free % 4]?
    let s1 :=
      match out with
      | some e => (if e.2 then s.l2Fill e.1 true else s).modCore h fun c => { c with l1 := erase c.l1 e.1 }
      | none => s
    s1.modCore h fun c => { c with l1 := put c.l1 key modified }

/-- Whether the L1 that serves core `d` holds a line. -/
def State.l1Holds (s : State) (l : Launch) (d key : Nat) : Bool := (s.core (l1Place l d key).1).l1.any (·.1 == key)

/-- Core `d` touches a line of a page (R300 to R307, R498): `hit` is counted as event 7 and a miss as 8 (R477). A store of a line
that is read-only goes through and leaves no copy. The values that accesses return never depend on the tags. -/
def State.touch (s : State) (l : Launch) (d : Nat) (p : Loc) (wr hit : Bool) : State :=
  let key := lineKey p
  let s1 := s.count d (if hit then 7 else 8) 1
  if wr && p.leased then s1
  else
    let s2 := if wr then s1.recall key (some (l1Place l d key).1) else if hit then s1 else s1.writeBack key
    (if p.inL2 then s2.l2Fill key false else s2).l1Enter l d key wr

/-- An atomic on a line of type HBM or CADASTRE recalls it to its home slice and pins it there; no L1 keeps a line on which an
atomic is performed (R309, R498). -/
def State.pin (s : State) (p : Loc) : State :=
  let key := lineKey p
  let s1 := s.recall key none
  if p.ty == 0 || p.ty == 4 then
    let home := homeSlice p.pa
    if s1.mem.l2.any fun e => e.1 == key && e.2.1 == home then
      let mark := fun (e : Nat × Nat × Bool × Bool) => if e.1 = key then (key, home, true, true) else e
      { s1 with mem := { s1.mem with l2 := s1.mem.l2.map mark } }
    else
      { s1 with mem := { s1.mem with l2 := s1.mem.l2.filter (·.1 != key) }.l2Enter s1.free key home true true }
  else s1
/-- The device reads or writes a line of a page past the L1s (R305). -/
def State.l2Pass (s : State) (p : Loc) (wr : Bool) : State :=
  let key := lineKey p
  let s1 := if wr then s.recall key none else s.writeBack key
  if p.inL2 && !(wr && p.leased) then s1.l2Fill key (wr && !p.leased) else s1
/-- No cache holds a line. -/
def State.uncache (s : State) (key : Nat) : State :=
  { s with cores := s.cores.map fun c => (c.1, { c.2 with l1 := erase c.2.l1 key })
           mem := { s.mem with l2 := s.mem.l2.filter (·.1 != key) } }

/-! ### Translation: walks and TLBs -/

/-- A place in the memory of type HBM, where tables lie (R401). -/
def tableLoc (pa : Nat) : Loc := { ty := 0, pa := pa, peer := 0, pport := false }

/-- The walk of R403 with the walker's A and D update, one atomic at the home slice of the PTE (R406): the state and the walk. -/
def walk (s : State) (cache : List TlbEntry) (root : Nat) (va : BitVec 64) (k : Access) : Except XErr (State × Walk) :=
  match walkFrom s cache root va k root [] [2, 1, 0] with
  | .error e => .error e
  | .ok w =>
    let s1 := w.passed.foldl (fun s e => (s.meet e.ptepa 8).l2Pass (tableLoc e.ptepa) false) (s.meet w.ptepa 8)
    let e' := pteMark w.pte k
    let s2 := if k = .maint then s1.l2Pass (tableLoc w.ptepa) false else s1.pin (tableLoc w.ptepa)
    .ok (if e' = w.pte then s2 else s2.devWrite w.ptepa (leBytes 8 e'.toNat), { w with pte := e' })

/-- Fill a TLB of `cap` entries; a full one loses the entry of R405's free choice. -/
def tlbFill (cap free : Nat) (l : List TlbEntry) (e : TlbEntry) : List TlbEntry :=
  let rest := l.filter fun x => !(x.root == e.root && x.level == e.level && x.page == e.page)
  (if rest.length < cap then rest else rest.eraseIdx (Config.victim free % cap)) ++ [e]

/-- The leaf entry of a TLB by which an access may go on: its A and D are set as the access needs (R405, R406). -/
def tlbHit (l : List TlbEntry) (root : Nat) (va : BitVec 64) (k : Access) : Option TlbEntry :=
  l.find? fun e => e.serves root va true && pteMark e.pte k == e.pte

/-- The page of a leaf that grants the access (R403), where it names memory that exists (R306). -/
def leafPage (va : BitVec 64) (k : Access) (e : BitVec 64) (ptepa level : Nat) : Except XErr Page :=
  let p := pageOf va e ptepa level
  if !(pteGrants e k) then .error .prot else if p.loc.valid then .ok p else .error .bad

/-- Translate one VA through the tables at `root` by a walk of its own (R304, R403). -/
def translate (s : State) (root : Nat) (priv : Bool) (va : BitVec 64) (k : Access) : State × Except XErr Page :=
  if !(vaOk priv va) then (s, .error .addrForm)
  else
    match walk s [] root va k with
    | .error e => (s, .error e)
    | .ok (s1, w) => (s1, leafPage va k w.pte w.ptepa w.level)

/-- A walker of a tower is busy with a walk, and holds a mark on each line that it has read (R400, R408). -/
def State.takeWalker (s : State) (t root : Nat) (va : BitVec 64) (w : Walk) : State :=
  s.modTower t fun x => { x with walkers := x.walkers ++ [{ root, va, marks := (w.passed.map (·.ptepa / 128)) ++ [w.ptepa / 128] }] }
/-- It fills the tower TLB and is idle again (R405, R408). -/
def State.walkerFill (s : State) (t : Nat) (es : List TlbEntry) : State :=
  s.modTower t fun x => { x with tlb := es.foldl (tlbFill 32768 s.free) x.tlb, walkers := x.walkers.dropLast }

/-- Translate for core `d` (R400, R405): by its TLB, by the TLB of its tower, or by a walk, which fills both; a miss of the core's
TLB counts as event 9 (R477). No TLB holds an entry that memory has left (R407, R408). -/
def translateOn (s : State) (d root : Nat) (priv : Bool) (va : BitVec 64) (k : Access) : State × Except XErr Page :=
  if !(vaOk priv va) then (s, .error .addrForm)
  else
    match tlbHit (s.core d).tlb root va k with
    | some e => (s, leafPage va k e.pte e.ptepa e.level)
    | none =>
      let s0 := s.count d 9 1
      let t := towerOf d
      match tlbHit (s0.tower t).tlb root va k with
      | some e =>
        (s0.modCore d fun c => { c with tlb := tlbFill 64 s0.free c.tlb e }, leafPage va k e.pte e.ptepa e.level)
      | none =>
        match walk s0 (s0.tower t).tlb root va k with
        | .error e => (s0, .error e)
        | .ok (s1, w) =>
          let e : TlbEntry := { root := root, level := w.level, page := vaPage va w.level, pte := w.pte, ptepa := w.ptepa }
          let s2 := ((s1.takeWalker t root va w).modCore d fun c => { c with tlb := tlbFill 64 s1.free c.tlb e }).walkerFill t
            (w.passed ++ [e])
          (s2, leafPage va k w.pte w.ptepa w.level)

/-! ### Data through a page -/

/-- A copy that a reader with acquire cycle `acq` may use: one that was asked for after that (R370, R371). -/
def State.lease? (s : State) (p : Loc) (acq : Nat) : Option (List (BitVec 8)) :=
  (s.mem.leases.find? fun e => e.1 == lineKey p && decide (s.clock ≤ e.2.2) && decide (acq < e.2.1.2)).map (·.2.1.1)

/-- Hold a copy that was asked for in cycle `asked`, until 2,048 cycles from now (R370). -/
def State.addLease (s : State) (key : Nat) (bs : List (BitVec 8)) (asked : Nat) : State :=
  { s with mem := { s.mem with leases := (s.mem.leases.filter (·.1 != key)) ++ [(key, (bs, asked), s.clock + 2048)] } }

/-- Read `n` bytes within one 128-byte line. A HOST line is served from a lease copy, or by the host and
copied; a PEER line needs a copy (R370, R371); `none` where no copy is there. -/
def State.locRead (s : State) (p : Loc) (acq n : Nat) : Option (State × List (BitVec 8)) :=
  match p.ty with
  | 2 =>
    let line := p.pa / 128 * 128
    match s.lease? p acq with
    | some bs => some (s, (bs.drop (p.pa % 128)).take n)
    | none =>
      let bs := s.hostRead line 128
      some (s.addLease (lineKey p) bs s.clock, (bs.drop (p.pa % 128)).take n)
  | 3 => (s.lease? p acq).map fun bs => (s, (bs.drop (p.pa % 128)).take n)
  | _ => some (s.meet p.pa n, s.devRead p.pa n)

/-- The copies of a line that this device writes through fall, so that its threads see their own writes (R363). -/
def State.dropLease (s : State) (key : Nat) : State :=
  { s with mem := { s.mem with leases := s.mem.leases.filter (·.1 != key) } }.uncache key

/-! ### Scratchpads -/

def Core.scrByte (c : Core) (o : Nat) : BitVec 8 := findD c.scratch o 0
def Core.scrRead (c : Core) (o n : Nat) : List (BitVec 8) := (List.range n).map fun i => c.scrByte (o + i)
def Core.scrWrite (c : Core) (o : Nat) (bs : List (BitVec 8)) : Core :=
  { c with scratch := bs.zipIdx.foldl (fun m (b : BitVec 8 × Nat) => putD m (o + b.2) b.1 0) c.scratch
           bad := c.bad.filter fun u => !(EccUnit.within (u, 8) o bs.length) }
/-- A write of scratchpad leaves part of a unit with an uncorrectable error unwritten (R311). -/
def Core.scrPartBad (c : Core) (o n : Nat) : Bool := partBad (c.bad.map fun u => (u, 8)) o n
def Core.scrBad (c : Core) (o n : Nat) : Bool := c.bad.any fun u => o < u + 8 && u < o + n

/-- The core and offset that a scratchpad address names for core `d` (R293). -/
def scrCore (d : Nat) (a : BitVec 32) : Nat := if a.getLsbD 31 then 128 * towerOf d + natBits a.toNat 30 24 else d
def scrOff (a : BitVec 32) : Nat := natBits a.toNat 17 0

/-- The rectangle of one core as a COURT trap reports it (R142). -/
def courtInfo (x y w h : Nat) : BitVec 64 := BitVec.ofNat 64 (x ||| (y <<< 8) ||| (w <<< 16) ||| (h <<< 24))

/-- The checks of R294 for `n` bytes at `a` with access width `w`; a trap's cause and information. -/
def scrCheck (l : Launch) (d : Nat) (a : BitVec 32) (n w : Nat) : Option (Nat × BitVec 64) :=
  let t := scrCore d a
  if scrOff a % w ≠ 0 then some (Cause.spalign, a.zeroExtend 64)
  else if natBits a.toNat 23 18 ≠ 0 ∨ (!(a.getLsbD 31) ∧ natBits a.toNat 30 24 ≠ 0) then some (Cause.spaddr, a.zeroExtend 64)
  else if a.getLsbD 31 ∧ !(l.inWard t) then some (Cause.court, courtInfo (coreX t) (coreY t) 1 1)
  else if l.scratchBytes < scrOff a + n then some (Cause.spaddr, a.zeroExtend 64)
  else none

/-- As `scrCheck`, for an address that must be local: RMT = 1 is SPADDR. -/
def scrCheckLocal (l : Launch) (a : BitVec 32) (n w : Nat) : Option (Nat × BitVec 64) :=
  if scrOff a % w ≠ 0 then some (Cause.spalign, a.zeroExtend 64)
  else if natBits a.toNat 31 18 ≠ 0 ∨ l.scratchBytes < scrOff a + n then some (Cause.spaddr, a.zeroExtend 64)
  else none

/-- Bytes of a scratchpad that a word or an engine touches: core, first, end. -/
abbrev Span := Nat × Nat × Nat

/-- The rows of a span (R297): core, and number of the row within its scratchpad. -/
def spanRows (r : Span) : List (Nat × Nat) :=
  (List.range ((r.2.2 + 127) / 128 - r.2.1 / 128)).map fun i => (r.1, r.2.1 / 128 + i)

/-- The cycles that an access to these spans takes beyond its first: the largest number of distinct rows that it touches
in one bank of 128 rows, less one (R297, R299). -/
def bankConflict (spans : List Span) : Nat :=
  let rows := (spans.flatMap spanRows).eraseDups
  (rows.map fun r => (rows.filter fun q => q.1 == r.1 && q.2 / 128 == r.2 / 128).length).foldl max 1 - 1

/-! ### Ownership and order of a thread's operations -/

/-- Two byte ranges share a 128-byte row. -/
def shareRow (lo hi lo' hi' : Nat) : Bool := lo / 128 ≤ (hi' - 1) / 128 && lo' / 128 ≤ (hi - 1) / 128 && lo < hi && lo' < hi'

/-- The operation owns a row of the range of core `d`'s scratchpad (R366). -/
def Op.ownsS (o : Op) (d lo hi : Nat) : Bool := o.ownS.any fun r => r.1 == d && shareRow r.2.1 r.2.2 lo hi
def MatOp.ownsS (o : MatOp) (d lo hi : Nat) : Bool := o.ownS.any fun r => r.1 == d && shareRow r.2.1 r.2.2 lo hi
def Op.ownsV (o : Op) (lo hi : Nat) : Bool := o.ownV.any fun r => shareRow r.1 r.2 lo hi

/-- An operation numbered below `before` owns a row of the range (R366). -/
def State.ownedS (s : State) (d lo hi before : Nat) : Bool :=
  s.cores.any fun c => c.2.ops.any (fun o => o.id < before && o.ownsS d lo hi) ||
    c.2.issueOrder.any (fun o => o.id < before && o.ownsS d lo hi)
/-- An operation numbered below `before`, of a launch with the page tables at `root`, owns a virtual line of the range (R366). -/
def State.ownedV (s : State) (root lo hi before : Nat) : Bool :=
  s.cores.any fun c => ((c.2.launch.bind s.launchOf).map (·.ptroot.toNat)) == some root &&
    c.2.ops.any (fun o => o.id < before && o.ownsV lo hi)

/-- The operation is a SEEDSCAN or a SEEDFIT. -/
def Op.scans (o : Op) : Bool := match o.body with | .seed kind .. => kind < 2 | _ => false
/-- A direct access meets a row of the range that an engine owns (R366); a row that SEEDSCAN or SEEDFIT owns may let it pass, as R491
allows (log 66). -/
def State.keepsOut (s : State) (d lo hi : Nat) : Bool :=
  s.ownedS d lo hi s.nextId && !(Config.passesSeed s.free && s.cores.all fun c =>
    c.2.ops.all (fun o => o.scans || !(o.ownsS d lo hi)) && c.2.issueOrder.all fun o => !(o.ownsS d lo hi))

/-- An earlier deferred transfer on behalf of one of these threads has writes to perform (R333, R360, R529). -/
def Core.hasDeferred (c : Core) (ths : List (Nat × Nat)) (before : Nat) : Bool :=
  c.ops.any (fun o => o.deferred && o.id < before && o.threads.any ths.contains) ||
  c.issueOrder.any (fun o => o.id < before && o.threads.any ths.contains)

/-- The operation holds direct accesses that its engine has still to perform (R333). -/
def Op.held (o : Op) : Bool :=
  match o.body with
  | .bufHeld _ _ _ _ _ _ lanes _ => !(lanes.isEmpty)
  | .atrmHeld _ _ _ _ lanes _ => !(lanes.isEmpty)
  | _ => false

/-- An access of one of these threads is held back by its engine (R325, R333). Later direct accesses and barrier
operations of the thread come after it (R364). -/
def Core.hasHeld (c : Core) (ths : List (Nat × Nat)) (before : Nat) : Bool :=
  c.ops.any fun o => o.id < before && o.held && o.threads.any ths.contains

/-- An earlier ATQ of one of these threads has commands that have not left (R371). -/
def Core.hasUnsent (c : Core) (ths : List (Nat × Nat)) (before : Nat) : Bool :=
  c.ops.any fun o => o.id < before && o.threads.any ths.contains &&
    (match o.body with | .atq _ _ _ _ _ tosend _ _ => !(tosend.isEmpty) | _ => false)

/-- The message comes from an operation of core `d`. -/
def OutMsg.isOf (m : OutMsg) (s : State) (d op : Nat) : Bool := m.op == op && some m.launch == (s.core d).launch
/-- A write of the operation has not yet been taken by its peer (R371). -/
def State.unperformed (s : State) (d op : Nat) : Bool := s.fab.unperformed.any (·.isOf s d op)
/-- A write of one lane of the operation has not yet been taken by its peer (R371). -/
def State.laneUnperformed (s : State) (d op lane : Nat) : Bool :=
  s.fab.unperformed.any fun m => m.isOf s d op && m.lane == lane
/-- The message writes a byte of a place of a peer. -/
def OutMsg.writes (m : OutMsg) (p : Loc) (n : Nat) : Bool :=
  m.peer == p.peer && m.pport == p.pport &&
  (match m.msg with | .peerWrite pa bs => decide (p.pa < pa + bs.length ∧ pa < p.pa + n) | _ => false)
/-- The thread has itself written, and its peer not yet taken, a byte of a PEER place (R325). -/
def State.ownWritesLeft (s : State) (d slot lane : Nat) (p : Loc) (n : Nat) : Bool :=
  p.ty == 3 && (s.core d).ops.any fun o => o.slot == slot &&
    s.fab.unperformed.any fun m => m.isOf s d o.id && m.lane == lane && m.writes p n

/-- A later deferred transfer of these threads does not begin before an access that is held back, or an ATQ with .ACQ
that is not performed (R333, R364, R368). -/
def Core.acqBlocks (c : Core) (ths : List (Nat × Nat)) (before : Nat) : Bool :=
  c.ops.any fun o => o.id < before && (o.acq || o.held) && o.threads.any ths.contains

end Sys2Proof.Machine
end

