-- ==== Sys2Proof/Machine/Barrier.lean ====
section
/-! DEFINITION. Barrier objects (18 R455 to R467): their fields, the change that an arrival or a byte count makes, the
phase completion, the release of waiters, and the counts that engines make. -/

namespace Sys2Proof.Machine

open Sys2Proof

/-- A barrier object (R456). -/
abbrev Obj := BitVec 128

def objPhase (o : Obj) : BitVec 16 := o.extractLsb' 0 16
def objExp (o : Obj) : Nat := (o.extractLsb' 16 12).toNat
def objRem (o : Obj) : Nat := (o.extractLsb' 28 12).toNat
def objPend (o : Obj) : Int := (o.extractLsb' 40 24).toInt
def objArmed (o : Obj) : Bool := o.getLsbD 64
def objAbd (o : Obj) : Bool := o.getLsbD 66

/-- The object is valid (R457). -/
def objValid (o : Obj) : Bool :=
  !(o.getLsbD 67) && o.extractLsb' 72 56 == 0 && (o.extractLsb' 68 4).toNat ≤ 2 && 1 ≤ objExp o && objRem o ≤ objExp o

/-- Word 0 of an object from its fields (R456). -/
def objWord0 (phase : BitVec 16) (exp rem : Nat) (pend : Int) : BitVec 64 :=
  BitVec.ofInt 24 pend ++ BitVec.ofNat 12 rem ++ BitVec.ofNat 12 exp ++ phase

/-- Word 1 of an object from its fields (R456). -/
def objWord1 (kind : Nat) (abd wait armed : Bool) : BitVec 64 :=
  0#56 ++ BitVec.ofNat 4 kind ++ 0#1 ++ BitVec.ofBool abd ++ BitVec.ofBool wait ++ BitVec.ofBool armed

/-- The object with new counts, its word 1 kept. -/
def objCounts (o : Obj) (phase : BitVec 16) (exp rem : Nat) (pend : Int) : Obj :=
  o.extractLsb' 64 64 ++ objWord0 phase exp rem pend

def objSetAbd (o : Obj) (b : Bool) : Obj := if b then o ||| (1#128 <<< 66) else o &&& ~~~(1#128 <<< 66)
def objSetWait (o : Obj) (b : Bool) : Obj := if b then o ||| (1#128 <<< 65) else o &&& ~~~(1#128 <<< 65)
def objDisarm (o : Obj) : Obj := o &&& ~~~(1#128 <<< 64)

/-- One change of an armed object (R458, R462): at most one arrival and `b` bytes, and whether the phase completes;
otherwise the cause of the refusal. -/
def objChange (o : Obj) (arrive : Bool) (b : Int) : Except Nat (Obj × Bool) :=
  if !(objValid o && objArmed o) then .error Cause.record
  else if arrive && objRem o == 0 then .error Cause.barrange
  else if objPend o + b < -8388608 ∨ 8388607 < objPend o + b then .error Cause.barrange
  else
    let rem := if arrive then objRem o - 1 else objRem o
    let pend := objPend o + b
    if rem = 0 ∧ pend = 0 then
      .ok (objSetAbd (objCounts o (objPhase o + 1) (objExp o) (objExp o) 0) false, true)
    else .ok (objCounts o (objPhase o) (objExp o) rem pend, false)

/-- The object at offset `off` of core `d`'s scratchpad. -/
def State.obj (s : State) (d off : Nat) : Obj := BitVec.ofNat 128 (leNat ((s.core d).scrRead off 16))
def State.putObj (s : State) (d off : Nat) (o : Obj) : State :=
  s.modCore d fun c => c.scrWrite off (leBytes 16 o.toNat)

/-- The thread waits on the object. -/
def Thread.waitsOn (t : Thread) (d off : Nat) : Bool :=
  match t.wait with
  | some w => w.core == d && w.off == off
  | none => false

/-- At least one thread waits on the object; waiting threads of suspended and saved warps count (R456). -/
def State.hasWaiters (s : State) (d off : Nat) : Bool :=
  s.cores.any fun c => c.2.warps.any fun w => w.2.threads.any (·.waitsOn d off)

/-- The release of this waiting thread by a phase change to `phase`: a wait of RACQ or RTAKE ends only at its target
phase (R394), every other wait ends (R458); an abandonment ends each of them (R460, R461). -/
def Thread.released (t : Thread) (d off : Nat) (phase : BitVec 16) (completed : Bool) : Bool :=
  match t.wait with
  | some w => w.core == d && w.off == off && (!completed || w.ring.isNone || phase == w.phase)
  | none => false

/-- A thread leaves its wait with an outcome (R394, R464): the predicate is written, and the thread is ready, or will be
when it is restored (R314). -/
def Thread.release (t : Thread) (c pq : Nat) (completed : Bool) : Thread :=
  let t' := t.result { reg := 832 + pq, val := if completed then 1 else 0, ready := c, rank := 4 }
  { t' with wait := none, freed := t.wait.map fun w => (true, w.va, completed), acqAt := if completed then c else t.acqAt
            run := if t.run = .waiting then .ready else t.run
            resume := if t.run = .waiting then t.resume else if t.resume = .waiting then .ready else t.resume }

/-- Release the waiters of a warp; a completed claim is written to each register that holds it (R394). -/
def Warp.release (w : Warp) (c d off : Nat) (phase : BitVec 16) (completed : Bool) : Warp :=
  let claims := ((w.threads.filter (·.released d off phase completed)).filterMap fun t => t.wait.bind (·.ring)).eraseDups
  let w' := { w with threads := w.threads.map fun t =>
    match t.wait with
    | some wt => if t.released d off phase completed then t.release c wt.pq completed else t
    | none => t }
  if completed then
    claims.foldl (fun w q =>
      w.result { reg := q.1, val := (q.2 &&& ~~~(1#64 <<< 47)).zeroExtend 256, ready := c, rank := 4 }) w'
  else w'

/-- Release the waiters of an object in every core. -/
def State.release (s : State) (d off : Nat) (phase : BitVec 16) (completed : Bool) : State :=
  { s with cores := s.cores.map fun c => (c.1, { c.2 with warps := c.2.warps.map fun w =>
      (w.1, w.2.release s.clock d off phase completed) }) }

/-- The object holds an uncorrectable error (R311). -/
def State.objBad (s : State) (d off : Nat) : Bool := (s.core d).scrBad off 16

/-- WAIT is 1 while a thread waits (R456); an object with an uncorrectable error stays as it is (R311). -/
def State.syncWait (s : State) (d off : Nat) : State :=
  if s.objBad d off then s else s.putObj d off (objSetWait (s.obj d off) (s.hasWaiters d off))

/-- One arrival and byte count on an object, with its completion and release as part of the same event (R458, R462,
R465). No object with an uncorrectable error is read (R311). -/
def barChange (s : State) (d off : Nat) (arrive : Bool) (b : Int) : Except Nat State :=
  match if s.objBad d off then .error Cause.uncmem else objChange (s.obj d off) arrive b with
  | .error c => .error c
  | .ok (o, completed) =>
    let s1 := s.putObj d off o
    .ok (if completed then (s1.release d off (objPhase o) true).syncWait d off else s1)

/-- An engine counts on the barrier that its operation names: a refusal is a deferred trap of thread `slot`, `lane`
(R457, R462, R463). -/
def engineCount (s : State) (d slot lane op : Nat) (bar : BitVec 32) (arrive : Bool) (b : Int) : State :=
  match barChange s (scrCore d bar) (scrOff bar) arrive b with
  | .ok s' => s'
  | .error c =>
    (if c = Cause.uncmem then
      (s.postFault 0x50 1 0 d slot (((s.core d).launch).getD 0) (bar.zeroExtend 64) (bar.zeroExtend 64) 0 0 none false).1
    else s).defer d slot lane op c (bar.zeroExtend 64)

/-- The waits of a core's threads: the objects that they wait on. -/
def Core.awaited (c : Core) : List (Nat × Nat) :=
  (c.warps.flatMap fun w => w.2.threads.filterMap fun t => t.wait.map fun x => (x.core, x.off)).eraseDups

/-- A plain store of `n` bytes meets an armed object with waiters (R466): its offset. -/
def clobbers (s : State) (d o n : Nat) : Option Nat :=
  ((List.range ((o + n + 15) / 16 - o / 16)).map fun i => 16 * (o / 16 + i)).find? fun off =>
    objArmed (s.obj d off) && s.hasWaiters d off

/-- The scratchpad address of an offset of core `e` as core `d` writes it. -/
def addrFor (d e off : Nat) : BitVec 64 :=
  BitVec.ofNat 64 (off + (if e = d then 0 else 0x80000000 + (tcidOf e <<< 24)))

/-- A granule of the scratchpad that holds a valid armed object which can be read. -/
def State.liveObj (s : State) (core o : Nat) : Bool := !(s.objBad core o) && objValid (s.obj core o) && objArmed (s.obj core o)

/-- Store into a scratchpad: WAIT of an object that was live, or that the store leaves live, ignores the write (R466) and says
whether a thread waits (R456; log 22). -/
def State.plainStore (s : State) (core off : Nat) (bs : List (BitVec 8)) : State :=
  let granules := (List.range ((off + bs.length + 15) / 16 - off / 16)).map fun i => 16 * (off / 16 + i)
  let s1 := s.modCore core (·.scrWrite off bs)
  (granules.filter fun o => s.liveObj core o || s1.liveObj core o).foldl
    (fun s' o => s'.putObj core o (objSetWait (s'.obj core o) (s.hasWaiters core o))) s1

/-- An element write of an engine of core `d` into scratchpad bytes of core `e`: a write into an armed object with
waiters is suppressed (R466), and the object's address is answered for the deferred BARCLOBBER. -/
def engineStore (s : State) (d e o : Nat) (bs : List (BitVec 8)) : State × Option (BitVec 64) :=
  match clobbers s e o bs.length with
  | some off => (s, some (addrFor d e off))
  | none => (s.plainStore e o bs, none)

end Sys2Proof.Machine
end

