-- ==== Sys2Proof/Machine/Issue.lean ====
section
/-! DEFINITION. How a word issues: the checks of R84, guards (R66), what a thread sees when it reads a register (R76,
R155), and how the results of a word reach its threads, its warps and its port (R73, R74, R105 to R108, R122). -/

namespace Sys2Proof.Machine

open Sys2Proof

/-- What every full form and paired word says of its place in the run and of its guard (R58, R66). -/
structure Head where
  e : Bool
  stall : Nat
  gn : Bool
  gp : Nat
  deriving DecidableEq, Repr

def headR (w : RForm) : Head := { e := w.e, stall := w.stall.toNat, gn := w.gn, gp := w.gp.toNat }
def headI (w : IForm) : Head := { e := w.e, stall := w.stall.toNat, gn := w.gn, gp := w.gp.toNat }
def headM (w : MForm) : Head := { e := w.e, stall := w.stall.toNat, gn := w.gn, gp := w.gp.toNat }

/-- A thread of the issuing group, with what it sees: `w` and `t` are its warp and itself as of the issue cycle `at'`, and `num`
numbers the word's free values. -/
structure Env where
  s : State
  at' : Nat
  num : Nat
  d : Nat
  port : PortId
  slot : Nat
  lane : Nat
  l : Launch
  w : Warp
  t : Thread
  va : BitVec 64
  word : BitVec 64

/-- The results of a register that this thread sees: its own, or its warp's (R106). -/
def Env.pend (e : Env) (x : Nat) : List Pend := if warpReg x then e.w.pend else e.t.pend

/-- The last producer of a register, where it is not ready yet (R75). -/
def Env.early (e : Env) (x : Nat) : Option Pend :=
  if x = 839 then none
  else
    match lastPend (e.pend x) x with
    | some p => if e.at' < p.ready then some p else none
    | none => none

/-- A register as a word reads it: what it holds at its issue cycle, or, on an early read, possibly its producer's result
(R76, R155; log 5). The choice is one for a register of a thread in a word, so two operand positions that name it read the same value
(DESIGN CHOICE, log 49). -/
def Env.reg (e : Env) (x : Nat) : BitVec 256 :=
  let held := if warpReg x then e.w.at e.at' x else e.t.at e.at' x
  match e.early x with
  | some p => if Config.earlyNew e.num (x + 1024 * (32 * e.slot + e.lane)) then p.val else held
  | none => held

/-- The guard of a word in a thread (R66). -/
def Env.guard (e : Env) (h : Head) : Bool :=
  if h.gp = 7 then !h.gn else (e.reg (832 + h.gp)).getLsbD 0 != h.gn

/-- sr.einfo of STALLSHORT (R142). -/
def stallInfo (clock x : Nat) (p : Pend) : BitVec 64 := BitVec.ofNat 64 (x ||| ((p.ready - clock) <<< 16))

/-- The STALLSHORT trap of a thread (R76, R84): its guard predicate first, then, with a true guard, the registers that
the word reads in order. -/
def Env.stall (e : Env) (h : Head) (reads : List Nat) : Option (BitVec 64) :=
  if e.t.mode.getLsbD 0 then
    match if h.gp = 7 then none else e.early (832 + h.gp) with
    | some p => some (stallInfo e.at' (832 + h.gp) p)
    | none =>
      if e.guard h then reads.findSome? fun x => (e.early x).map (stallInfo e.at' x) else none
  else none

/-- A register result and its latency (R74). -/
structure RegW where
  reg : Nat
  val : BitVec 256
  lat : Nat
  deriving DecidableEq, Repr

/-- What a word does in one thread: register results, flags, its trap, and the PC where the word moves it. `leaves` are
the per-warp registers that a trap of this thread leaves unwritten in its warp (R106, R107); none stands for every one. -/
structure TRes where
  writes : List RegW := []
  flags : BitVec 32 := 0
  trap : Option (Nat × BitVec 64) := none
  leaves : Option (List Nat) := none
  pc : Option (BitVec 64) := none
  deriving DecidableEq, Repr

def TRes.trapped (cause : Nat) (info : BitVec 64) : TRes := { trap := some (cause, info) }

/-- What a word does: the state after its own effect, the results of its threads whose guard is true, the cycles it is
frozen by bank conflicts (R77) and otherwise (R326), whether it has to wait and issue again, whether it met a physical address that does not exist, the warps
whose part meets a missing page (slot, VA, PTEPA, access), a halt (1 HALT, 2 BKPT) and the warps that swap banks. -/
structure Res where
  s : State
  out : List ((Nat × Nat) × TRes) := []
  freeze : Nat := 0
  other : Nat := 0
  retry : Bool := false
  bad : Bool := false
  faults : List (Nat × BitVec 64 × Nat × Nat) := []
  halt : Nat := 0
  swaps : List Nat := []

/-- What the checks 1 to 7 of R84 need to know of a word. -/
structure WSpec where
  h : Head
  word : BitVec 64
  /-- issue cycles (R73) -/
  n : Nat := 1
  /-- must end its run (R79) -/
  ends : Bool := false
  roles : List Role := [.c, .m, .v]
  priv : Bool := false
  /-- the v registers it names (R69) -/
  vregs : List Nat := []
  /-- the registers it reads, in word order -/
  reads : Env → List Nat := fun _ => []
  /-- the per-warp registers that a thread which traps leaves unwritten; none: every one, once its guard is true (R106) -/
  leaves : Option (Env → List Nat) := none

/-- The issuing group: its threads, and those whose guard is true, in lane order. -/
structure Grp where
  s : State
  d : Nat
  port : PortId
  l : Launch
  h : Head
  va : BitVec 64
  word : BitVec 64
  envs : List Env
  act : List Env

/-- The warps of some threads, in the order in which they first appear, each with its threads. -/
def warpsOf (es : List Env) : List (Nat × List Env) :=
  (es.map (·.slot)).eraseDups.map fun sl => (sl, es.filter (·.slot == sl))

/-- The warps present with an active thread, by ascending lowest lane, each with its active threads (R106). -/
def Grp.warps (g : Grp) : List (Nat × List Env) := warpsOf g.act

/-- A fact of `Env.s` that many meanings use: the group's core. -/
def Grp.core (g : Grp) : Core := g.s.core g.d

/-- A word that acts in each thread by itself, from what the thread sees before any of them writes (R72). -/
def perThread (f : Env → TRes) (g : Grp) : Res := { s := g.s, out := g.act.map fun e => ((e.slot, e.lane), f e) }

/-- What the words of a port read of the registers of core `d`'s warps: those of this cycle, or of the issue cycle of the word
that is frozen there (R155, R326). -/
def State.reading (s : State) (d : Nat) (port : PortId) : Issued :=
  (((s.core d).port port).issued).getD { word := 0, clock := s.clock, free := s.free, warps := (s.core d).warps }

/-- The environments of the group that runs on a port, one for each of its threads. -/
def mkEnvs (s : State) (d : Nat) (port : PortId) (l : Launch) (va word : BitVec 64) : List Env :=
  let i := s.reading d port
  (((s.core d).port port).members).eraseDups.filterMap fun (sl, ln) =>
    match find? i.warps sl with
    | some w =>
      match w.threads[ln]? with
      | some t => some { s := s, at' := i.clock, num := i.free, d := d, port := port, slot := sl, lane := ln, l := l, w := w, t := t
                         va := va, word := word }
      | none => none
    | none => none

/-- The threads of the group that a thread issues in. -/
def Env.group (e : Env) : List Env := mkEnvs e.s e.d e.port e.l e.va e.word
/-- The guard predicate of a thread has a value and it is true (R76, R84). -/
def Env.guarded (e : Env) (h : Head) : Bool :=
  !(e.t.mode.getLsbD 0 && h.gp != 7 && (e.early (832 + h.gp)).isSome) && e.guard h
/-- The active lanes of a thread's warp (R204): those of its group whose guard is true, whatever trap they meet (R107). -/
def Env.active (e : Env) (h : Head) : List Env := e.group.filter fun q => q.slot == e.slot && q.guarded h
/-- The executing thread of a word that executes once for its group (R222): the lowest lane whose guard is true. -/
def Env.isFirst (e : Env) (h : Head) : Bool :=
  ((e.group.find? fun q => q.guarded h).map fun q => (q.slot, q.lane)) == some (e.slot, e.lane)
/-- The thread for which a word executes in its warp (R324): the lowest active lane. -/
def Env.isLowest (e : Env) (h : Head) : Bool := ((e.active h).head?.map (·.lane)) == some e.lane

/-- A word that executes once for its group: its checks are those of the executing thread alone (R222). -/
def WSpec.byFirst (w : WSpec) : WSpec := { w with reads := fun e => if e.isFirst w.h then w.reads e else [] }
/-- The executing thread of a word that executes once for its group, unless it has trapped at the word (R222). -/
def Grp.first? (g : Grp) : Option Env := g.act.head?.filter (·.isFirst g.h)
/-- The warp threads of the group, but for those that have trapped at the word (R324). -/
def Grp.warpThreads (g : Grp) : List Env := g.act.filter (·.isLowest g.h)

/-- Update the issuing port. -/
def State.modPort (s : State) (d : Nat) (port : PortId) (f : Port → Port) : State :=
  s.modCore d fun c => c.setPort port (f (c.port port))

/-- The run of a port ends at cycle `due` (R79, R108): a halt takes effect, unless every thread of the group has trapped (R137,
R140, R147), and the threads' next runs, and the suspension of the warps that faulted in it (R412), come no earlier (R73). -/
def endRun (s : State) (d : Nat) (port : PortId) (left : List (Nat × Nat)) (due : Nat) : State :=
  let p := (s.core d).port port
  let s0 := left.foldl (fun s (m : Nat × Nat) => s.modThread d m.1 m.2 fun t => { t with readyAt := due }) s
  let s1 := p.faulted.foldl (fun s sl => s.modWarp d sl fun w =>
    { w with threads := w.threads.map fun t => { t with readyAt := max t.readyAt due } }) s0
  let s2 := s1.modPort d port fun p =>
    { p with members := [], active := false, frozen := false, count := 0, due := due, haltReq := 0, faulted := []
             swaps := [], left := [], issued := none, partDone := [] }
  let s3 := p.swaps.foldl (fun s sl => s.modWarp d sl fun w => { w with toggles := insertBy id due w.toggles }) s2
  s3.modCore d fun c =>
    let now := p.haltReq == 2 || (p.haltReq == 1 && !(left.isEmpty && p.faulted.isEmpty))
    { c with halting := c.halting || now, haltSrc := if now then 3 else c.haltSrc }

/-- Every thread of the group traps, at its place in R84 before any state changes (R84, R107); `n` is the word's extent (R73). -/
def trapGroup (s : State) (h : Head) (n cause : Nat) (info : BitVec 64) : Out :=
  let (d, port) := s.cur
  let p := (s.core d).port port
  let due := s.clock + n + h.stall
  let s1 := p.members.foldl (fun s (m : Nat × Nat) =>
    (takeTrap s d m.1 m.2 cause info p.pc false).modThread d m.1 m.2 fun t => { t with readyAt := due }) s
  .next (endRun { s1 with free := s1.free + 1 } d port [] due)

/-- The cycle at which a word with `freeze` frozen cycles lets the next word issue (R73, R77). -/
def WSpec.due (w : WSpec) (clock freeze : Nat) : Nat := clock + w.n + w.h.stall + freeze

/-- A result that the word gives a register, as it lands (R74, R326). -/
def RegW.pend (r : RegW) (clock n freeze rank : Nat) : Pend :=
  { reg := r.reg, val := r.val, ready := clock + freeze + n - 1 + r.lat, rank := rank }

/-- What the word does to one thread of the group (R105, R107, R122, R125). `r` is its result, none where the guard is
false. A fall-through at the top of the system half goes on at PC 0 (DESIGN CHOICE, log 50). -/
def applyThread (w : WSpec) (va : BitVec 64) (freeze : Nat) (d rank : Nat) (slot lane : Nat) (r : Option TRes) (s : State) :
    State :=
  match r with
  | none => s.modThread d slot lane fun t => { t with pc := t.pc + 8 }
  | some r =>
    let s1 := if r.flags = 0 then s else s.raise d slot lane r.flags
    match r.trap with
    | some (c, i) =>
      (takeTrap s1 d slot lane c i va false).modThread d slot lane fun t => { t with readyAt := w.due s.clock freeze }
    | none =>
      s1.modThread d slot lane fun t =>
        let t' := (r.writes.filter fun q => !(warpReg q.reg)).foldl
          (fun t q => t.result (q.pend s.clock w.n freeze rank)) t
        { t' with pc := r.pc.getD (t.pc + 8) }

/-- The per-warp registers that the threads of a warp write. -/
def warpRegs (rs : List TRes) : List Nat := ((rs.flatMap (·.writes)).map (·.reg)).eraseDups.filter warpReg

/-- The result that a per-warp register takes from the threads of its warp, in lane order: that of the first whose guard is
true (R106); where that one traps, none (R107). -/
def warpWrite (x : Nat) : List TRes → Option RegW
  | [] => none
  | r :: rs =>
    if r.trap.isSome then
      if (match r.leaves with | none => true | some l => l.contains x) then none else warpWrite x rs
    else
      match r.writes.find? (·.reg == x) with
      | some q => some q
      | none => warpWrite x rs

/-- The per-warp registers that the word writes: once for each warp present (R106). -/
def applyWarps (w : WSpec) (freeze : Nat) (d rank : Nat) (out : List ((Nat × Nat) × TRes)) (s : State) : State :=
  (out.map (·.1.1)).eraseDups.foldl (fun s slot =>
    let rs := (out.filter (·.1.1 == slot)).map (·.2)
    s.modWarp d slot fun x =>
      ((warpRegs rs).filterMap fun r => warpWrite r rs).foldl (fun x q => x.result (q.pend s.clock w.n freeze rank)) x) s

/-- A warp whose part of a word meets a missing page (R117): it keeps its PC at the word, and is suspended at the end of
the run. -/
def markFault (d : Nat) (va : BitVec 64) (f : Nat × BitVec 64 × Nat × Nat) (s : State) : State :=
  s.modWarp d f.1 fun w =>
    match w.susp with
    | some _ => w
    | none => { w with susp := some { seq := 0, va := f.2.1, ptepa := BitVec.ofNat 64 f.2.2.1, pc := va, access := f.2.2.2
                                      frame := 0, withdrawn := [], posted := false } }

/-- The events of the performance counters for one word (R477); the cycles of a bank conflict are counted as they pass. -/
def countWord (s : State) (d : Nat) (port : PortId) : State := (s.count d 2 1).count d (3 + (portRole port).code) 1

/-- After the word's own effect: traps, flags, results, PCs, and the port (R73 to R77, R105 to R108). -/
def finishWord (w : WSpec) (g : Grp) (r : Res) : State :=
  let gone := r.faults.map (·.1)
  let present := g.envs.filter fun e => !(gone.contains e.slot)
  let out := r.out.filter fun q => !(gone.contains q.1.1)
  let frozen := r.freeze + r.other
  let resOf := fun (e : Env) => (out.find? fun q => q.1 == (e.slot, e.lane)).map (·.2)
  let s1 := present.foldl (fun s e =>
    applyThread w g.va frozen g.d (portRank g.port) e.slot e.lane (resOf e) s) r.s
  let s2 := applyWarps w frozen g.d (portRank g.port) out s1
  let s3 := r.faults.foldl (fun s f => markFault g.d g.va f s) s2
  let left := (present.filter fun e => !((resOf e).any (·.trap.isSome))).map fun e => (e.slot, e.lane)
  let quit := (present.filter fun e => (resOf e).any (·.trap.isSome)).map fun e => (e.slot, e.lane)
  let due := w.due g.s.clock frozen
  let s4 := countWord { s3 with free := s3.free + 1 } g.d g.port
  let s5 := s4.modPort g.d g.port fun p =>
    { p with members := left, pc := g.va + 8, count := p.count + 1, due := due, frozen := false
             banked := (g.s.clock + w.n, r.freeze), haltReq := max p.haltReq r.halt, faulted := p.faulted ++ gone
             swaps := p.swaps ++ r.swaps, left := p.left ++ quit, issued := none, partDone := [] }
  if w.h.e || left.isEmpty then endRun s5 g.d g.port left due else s5

/-- The fetch of a word waits: its group is frozen (R77). -/
def freezeWord (s : State) (d : Nat) (port : PortId) : State :=
  s.modPort d port fun p => { p with frozen := true, due := s.clock + 1 }

/-- The word waits and is tried again in the next cycle (R77, R326); what it reads of registers stays what its issue cycle gave
(R155, R157), and the STALLSHORT traps that it has met stay met (R76). -/
def retryWord (s : State) (d : Nat) (port : PortId) (i : Issued) : State :=
  s.modPort d port fun p =>
    { p with frozen := true, due := s.clock + 1
             issued := some { i with warps := i.warps.filter fun w => p.members.any (·.1 == w.1) } }

/-- The first of the checks 1 and 4 to 7 of R84 that fails, with its trap cause; checks 2 and 3 are the decoder's. -/
def wordCheck (w : WSpec) (p : Port) (port : PortId) (l : Launch) : Option Nat :=
  if 24 ≤ p.count then some Cause.illrun
  else if w.vregs.any fun x => decide (l.nregs ≤ x) then some Cause.illopnd
  else if w.ends && !w.h.e then some Cause.illrun
  else if !(w.roles.contains (portRole port)) then some Cause.role
  else if w.priv && !l.priv then some Cause.priv
  else none

/-- The group of the word: STALLSHORT traps of its threads, and its threads whose guard is true. -/
def mkGrp (w : WSpec) (s : State) (d : Nat) (port : PortId) (l : Launch) :
    Grp × List ((Nat × Nat) × TRes) :=
  let va := ((s.core d).port port).pc
  let envs := mkEnvs s d port l va w.word
  let leaves := fun (e : Env) =>
    match w.leaves with
    | some f => some (f e)
    | none => if w.h.gp != 7 && (e.early (832 + w.h.gp)).isSome then some [] else none
  let stalls := envs.filterMap fun e => (e.stall w.h (w.reads e)).map fun i =>
    ((e.slot, e.lane), { TRes.trapped Cause.stallshort i with leaves := leaves e })
  let act := envs.filter fun e => !(stalls.any fun q => q.1 == (e.slot, e.lane)) && e.guard w.h
  ({ s := s, d := d, port := port, l := l, h := w.h, va := va, word := w.word, envs := envs, act := act }, stalls)

/-- The results of the stalled threads and of the others, in the group's order. -/
def Grp.inOrder (g : Grp) (out : List ((Nat × Nat) × TRes)) : List ((Nat × Nat) × TRes) :=
  g.envs.filterMap fun e => out.find? fun q => q.1 == (e.slot, e.lane)

/-- Issue a word of the group that runs on the current port: the checks of R84, then its effect. Where no run is under
way on the current port, no word issues. -/
def issueWord (w : WSpec) (body : Grp → Res) (s : State) : Out :=
  let (d, port) := s.cur
  let p := (s.core d).port port
  match s.coreLaunch d with
  | none => .next s
  | some l =>
    if !p.active then .next s
    else
      match wordCheck w p port l with
      | some cause => trapGroup s w.h w.n cause w.word
      | none =>
        let (g, stalls) := mkGrp w s d port l
        let r := body g
        if r.bad then .fault .badPhysical
        else if r.retry then .next (retryWord r.s d port { s.reading d port with word := w.word })
        else
          .next (finishWord w g { r with out := if stalls.isEmpty then r.out else g.inOrder (stalls ++ r.out) })

/-- The word of an R-form, I-form, M-form or paired instruction, as traps report it (R142). -/
def wordR (op : Nat) (w : RForm) : BitVec 64 := joinR op w
def wordI (op : Nat) (w : IForm) : BitVec 64 := joinI op w
def wordM (op : Nat) (w : MForm) : BitVec 64 := joinM op w

end Sys2Proof.Machine
end

