-- ==== Sys2Proof/Machine/Operands.lean ====
section
/-! DEFINITION. The operand forms: the specials (R67), 32-bit and 64-bit reads and writes (R68, R172), blocks and
broadcast sources (R70, R71), data operands of LDS and STS (R328). -/

namespace Sys2Proof.Machine

open Sys2Proof

/-- A special 896 to 908, read as 64 bits (R67, R68, R172). -/
def Env.special (e : Env) (x : Nat) : BitVec 64 :=
  match x - 896 with
  | 0 => 0
  | 1 => BitVec.ofNat 64 e.lane
  | 2 => BitVec.ofNat 64 e.slot
  | 3 => BitVec.ofNat 64 (coreX e.d)
  | 4 => BitVec.ofNat 64 (coreY e.d)
  | 5 => BitVec.ofNat 64 e.l.wx
  | 6 => BitVec.ofNat 64 e.l.wy
  | 7 => BitVec.ofNat 64 e.l.ww
  | 8 => BitVec.ofNat 64 e.l.wh
  | 9 => BitVec.ofNat 64 e.l.id
  | 10 => BitVec.ofNat 64 e.at'
  | 11 => BitVec.ofNat 64 (e.at' >>> 32 % 2 ^ 32)
  | 12 => BitVec.ofNat 64 (32 * e.slot + e.lane)
  | _ => 0

/-- An operand read as 32 bits (R68). -/
def Env.r32 (e : Env) (x : Nat) : W32 :=
  if x < 832 then (e.reg x).setWidth 32
  else if x < 840 then if (e.reg x).getLsbD 0 then 1 else 0
  else if x < 896 then (e.reg x).setWidth 32
  else (e.special x).setWidth 32

/-- An operand read as 64 bits (R172): a w, k or special whole, a v register with its successor. -/
def Env.r64 (e : Env) (x : Nat) : W64 :=
  if x < 768 then (e.reg (x + 1)).setWidth 32 ++ (e.reg x).setWidth 32
  else if x < 896 then (e.reg x).setWidth 64
  else e.special x

/-- A predicate (R68). -/
def Env.pred (e : Env) (n : Nat) : Bool := (e.reg (832 + n)).getLsbD 0

/-- A 32-bit result (R68): a w register takes it zero-extended, a predicate its bit 0. -/
def wr32 (x : Nat) (v : W32) (lat : Nat) : RegW :=
  { reg := x, val := if 832 ≤ x ∧ x < 840 then (if v.getLsbD 0 then 1 else 0) else v.zeroExtend 256, lat := lat }

/-- A predicate result. -/
def wrP (x : Nat) (b : Bool) (lat : Nat) : RegW := { reg := x, val := if b then 1 else 0, lat := lat }

/-- A 64-bit result (R172): a pair of v registers, or a w or k register whole. -/
def wr64 (x : Nat) (v : W64) (lat : Nat) : List RegW :=
  if x < 768 then
    [{ reg := x, val := (v.setWidth 32).zeroExtend 256, lat := lat },
     { reg := x + 1, val := (v.extractLsb' 32 32).zeroExtend 256, lat := lat }]
  else [{ reg := x, val := v.zeroExtend 256, lat := lat }]

/-- The registers of a 64-bit operand. -/
def regs64 (x : Nat) : List Nat := if x < 768 then [x, x + 1] else [x]

/-- The register at element `i` of a block `w` columns wide (R70). -/
def blockReg (base wd i : Nat) : Nat := base + i / wd * 32 + i % wd

/-- The registers of a block, row-major (R70). -/
def blockRegs (base h wd : Nat) : List Nat := (List.range (h * wd)).map (blockReg base wd)

/-- The number of elements of a word (R73). -/
def elems (w : RForm) : Nat := RForm.h w * RForm.wd w

/-- The register that a source supplies to element `i` (R71). -/
def srcReg (w : RForm) (x : Nat) (bc : Bool) (i : Nat) : Nat := if x < 768 ∧ !bc then blockReg x (RForm.wd w) i else x
def dstReg (w : RForm) (i : Nat) : Nat := if w.d.toNat < 768 then blockReg w.d.toNat (RForm.wd w) i else w.d.toNat

def src1 (w : RForm) (i : Nat) : Nat := srcReg w w.s1.toNat (mbit w.mod 8) i
def src2 (w : RForm) (i : Nat) : Nat := srcReg w w.s2.toNat (mbit w.mod 7) i

/-- The registers that a source position reads. -/
def srcRegs (w : RForm) (x : Nat) (bc : Bool) : List Nat :=
  if x < 768 ∧ !bc then blockRegs x (RForm.h w) (RForm.wd w) else [x]
def dstRegs (w : RForm) : List Nat :=
  if w.d.toNat < 768 then blockRegs w.d.toNat (RForm.h w) (RForm.wd w) else [w.d.toNat]
def src1Regs (w : RForm) : List Nat := srcRegs w w.s1.toNat (mbit w.mod 8)
def src2Regs (w : RForm) : List Nat := srcRegs w w.s2.toNat (mbit w.mod 7)

/-- The issue data of an R-form word that reads `srcs` and writes `dsts`. -/
def rWord (op : Nat) (w : RForm) (srcs dsts : List Nat) : WSpec :=
  { h := headR w, word := wordR op w, n := elems w, vregs := (srcs ++ dsts).filter (· < 768), reads := fun _ => srcs }

/-- Only V warps issue the word (R100). -/
def WSpec.vOnly (w : WSpec) : WSpec := { w with roles := [.v] }
def WSpec.cOnly (w : WSpec) : WSpec := { w with roles := [.c] }
def WSpec.mOnly (w : WSpec) : WSpec := { w with roles := [.m] }
def WSpec.mvOnly (w : WSpec) : WSpec := { w with roles := [.m, .v] }
def WSpec.cmOnly (w : WSpec) : WSpec := { w with roles := [.c, .m] }
/-- The word must end its run (R79). -/
def WSpec.ending (w : WSpec) : WSpec := { w with ends := true }

/-- A block instruction with two sources that gives each element a 32-bit result. -/
def binary (w : RForm) (lat : Nat) (f : Env → W32 → W32 → W32) (e : Env) : TRes :=
  { writes := (List.range (elems w)).map fun i => wr32 (dstReg w i) (f e (e.r32 (src1 w i)) (e.r32 (src2 w i))) lat }

/-- As `binary`, with the old value of the destination as a third source (R72). -/
def ternary (w : RForm) (lat : Nat) (f : Env → W32 → W32 → W32 → W32) (e : Env) : TRes :=
  { writes := (List.range (elems w)).map fun i =>
      wr32 (dstReg w i) (f e (e.r32 (src1 w i)) (e.r32 (src2 w i)) (e.r32 (dstReg w i))) lat }

/-- A block instruction with one source. -/
def unary (w : RForm) (lat : Nat) (f : Env → W32 → W32) (e : Env) : TRes :=
  { writes := (List.range (elems w)).map fun i => wr32 (dstReg w i) (f e (e.r32 (src1 w i))) lat }

/-- The results and flags of a block of elements that may raise flags; a flag whose trap is enabled in sr.mode traps
with FPEXC before any destination is written (R177). -/
def flagged (rs : List (RegW × BitVec 32)) (e : Env) : TRes :=
  let fl := rs.foldl (fun a r => a ||| r.2) 0
  let en := fl &&& ((e.t.mode >>> 1) &&& 0x78#32)
  if en = 0 then { writes := rs.map (·.1), flags := fl }
  else { flags := fl, trap := some (Cause.fpexc, fl.zeroExtend 64) }

/-- Read the bytes of a data operand of access size `z` (R328). -/
def Env.dataBytes (e : Env) (x z : Nat) : List (BitVec 8) :=
  if z = 16 then (List.range 4).flatMap fun k => leBytes 4 (e.r32 (x + k)).toNat
  else if z = 8 then leBytes 8 (e.r64 x).toNat
  else leBytes z (e.r32 x).toNat

/-- The registers of a data operand (R328). -/
def dataRegs (x z : Nat) : List Nat :=
  if z = 16 then [x, x + 1, x + 2, x + 3] else if z = 8 then regs64 x else [x]

/-- The results of a load of bytes into a data operand (R328): `sx` sign-extends a byte or a half. -/
def loadRegs (x z : Nat) (sx : Bool) (bs : List (BitVec 8)) (lat : Nat) : List RegW :=
  if z = 16 then (List.range 4).map fun k => wr32 (x + k) (BitVec.ofNat 32 (leNat ((bs.drop (4 * k)).take 4))) lat
  else if z = 8 then wr64 x (BitVec.ofNat 64 (leNat bs)) lat
  else
    let n := leNat bs
    let v : W64 := if z = 1 then (if sx then (BitVec.ofNat 8 n).signExtend 64 else BitVec.ofNat 64 n)
      else if z = 2 then (if sx then (BitVec.ofNat 16 n).signExtend 64 else BitVec.ofNat 64 n) else BitVec.ofNat 64 n
    [{ reg := x, val := if x < 768 then (v.setWidth 32).zeroExtend 256 else v.zeroExtend 256, lat := lat }]

end Sys2Proof.Machine
end

