-- ==== Sys2Proof/Machine/Flags.lean ====
section
/-! DEFINITION. Exact values of the element formats (02 R31 to R34, R40), rounding and its flags (R41, R42, R179), the
operations of class 1 on exact values (07 R182 to R188), and the six approximations with the bounds of R186. Flags are
in the bit positions of sr.status (R125). -/

namespace Sys2Proof.Machine

open Sys2Proof

/-! ### The flags of sr.status (R125) -/
def flOOB : W32 := 0x100
def flEMPTY : W32 := 0x80
def flDIVZ : W32 := 0x40
def flINX : W32 := 0x20
def flOVF : W32 := 0x10
def flINV : W32 := 0x08
def flINFSAT : W32 := 0x04
def flCLIP : W32 := 0x02
def flSHED : W32 := 0x01

def flagIf (b : Bool) (f : W32) : W32 := if b then f else 0

/-- The value of an element: NaN, an infinity, or the exact value ±m·2^e. -/
inductive FV where
  | nan
  | inf (neg : Bool)
  | fin (neg : Bool) (m : Nat) (e : Int)
  deriving DecidableEq, Repr

/-- A floating-point format (R31, R32): fraction bits, bias, the code of the largest finite value, whether it has
infinities (their code is the next one), the canonical NaN (R34), and its width. -/
structure FFmt where
  mb : Nat
  bias : Nat
  maxFin : Nat
  hasInf : Bool
  nan : Nat
  bits : Nat
  deriving DecidableEq, Repr

def f32 : FFmt := { mb := 23, bias := 127, maxFin := 0x7F7FFFFF, hasInf := true, nan := 0x7FC00000, bits := 32 }
def bf16 : FFmt := { mb := 7, bias := 127, maxFin := 0x7F7F, hasInf := true, nan := 0x7FC0, bits := 16 }
def e4m3 : FFmt := { mb := 3, bias := 7, maxFin := 0x7E, hasInf := false, nan := 0x7F, bits := 8 }
def e5m2 : FFmt := { mb := 2, bias := 15, maxFin := 0x7B, hasInf := true, nan := 0x7E, bits := 8 }

/-- The exact value of a code (R32, R33, R178). -/
def FFmt.value (f : FFmt) (x : Nat) : FV :=
  let neg := x.testBit (f.bits - 1)
  let mag := x % 2 ^ (f.bits - 1)
  if mag ≤ f.maxFin then
    let ex := mag / 2 ^ f.mb
    let fr := mag % 2 ^ f.mb
    if ex = 0 then .fin neg fr (1 - (f.bias : Int) - f.mb) else .fin neg (2 ^ f.mb + fr) ((ex : Int) - f.bias - f.mb)
  else if f.hasInf ∧ mag = f.maxFin + 1 then .inf neg
  else .nan

/-- A sign and a magnitude code. -/
def FFmt.code (f : FFmt) (neg : Bool) (mag : Nat) : Nat := mag + if neg then 2 ^ (f.bits - 1) else 0

/-! ### Rounding -/

/-- Round m·2^(-k) to an integer by a mode of R41; `st`: the value lies strictly above m·2^(-k) and below the next step.
Answers the integer and whether it is inexact. -/
def roundShift (mode : Nat) (neg : Bool) (m k : Nat) (st : Bool) : Nat × Bool :=
  let hi := m >>> k
  let rem := m % 2 ^ k
  let half := 2 ^ k / 2
  let inx := rem != 0 || st
  let up :=
    match mode with
    | 0 => if k = 0 then false else half < rem || (rem == half && (st || hi % 2 == 1))
    | 1 => false
    | 2 => inx && !neg
    | _ => inx && neg
  (if up then hi + 1 else hi, inx)

/-- Round m·2^e to an integer (R42). -/
def roundInt (mode : Nat) (neg : Bool) (m : Nat) (e : Int) : Nat × Bool :=
  if 0 ≤ e then (m * 2 ^ e.toNat, false) else roundShift mode neg m (-e).toNat false

/-- The overflow result of a mode is the infinity (R42). -/
def overflowsToInf (mode : Nat) (neg : Bool) : Bool :=
  match mode with
  | 0 => true | 1 => false | 2 => !neg | _ => neg

/-- Round an exact finite value into a format (R42, R179): its code and its flags. `sat` is SAT of R42. -/
def FFmt.round (f : FFmt) (mode : Nat) (sat : Bool) (neg : Bool) (m : Nat) (e : Int) (st : Bool) : Nat × W32 :=
  if m = 0 ∧ !st then (f.code neg 0, 0)
  else
    let emin : Int := 1 - (f.bias : Int) - f.mb
    let q := max emin ((Nat.log2 m : Int) + e - f.mb)
    let (n, inx) := if q ≤ e then (m * 2 ^ (e - q).toNat, st) else roundShift mode neg m (q - e).toNat st
    let mag := ((q - emin).toNat <<< f.mb) + n
    if f.maxFin < mag then
      if sat || !(overflowsToInf mode neg) then (f.code neg f.maxFin, flOVF ||| flINX)
      else if f.hasInf then (f.code neg (f.maxFin + 1), flOVF ||| flINX)
      else (f.nan, flOVF ||| flINX)
    else (f.code neg mag, flagIf inx flINX)

/-- A conversion into a format (R42). -/
def FFmt.convert (f : FFmt) (mode : Nat) (sat : Bool) (v : FV) : Nat × W32 :=
  match v with
  | .nan => (f.nan, 0)
  | .inf neg =>
    if sat then (f.code neg f.maxFin, flINFSAT)
    else if f.hasInf then (f.code neg (f.maxFin + 1), 0)
    else (f.nan, flINV)
  | .fin neg m e => f.round mode sat neg m e false

/-- A conversion into an integer type of `n` bits (R40, R42): the code and the flags. -/
def intConvert (signed : Bool) (n mode : Nat) (v : FV) : Nat × W32 :=
  let hi : Nat := if signed then 2 ^ (n - 1) - 1 else 2 ^ n - 1
  let lo : Nat := if signed then hi else 0
  let code := fun (neg : Bool) (x : Nat) => if neg then (2 ^ n - x) % 2 ^ n else x
  match v with
  | .nan => (if signed then 2 ^ (n - 1) else 0, flINV)
  | .inf neg => (if neg then code true lo else hi, flINFSAT)
  | .fin neg m e =>
    let (x, inx) := roundInt mode neg m e
    if neg then (if lo < x then (code true lo, flOVF ||| flINX) else (code true x, flagIf inx flINX))
    else if hi < x then (hi, flOVF ||| flINX)
    else (x, flagIf inx flINX)

/-! ### Arithmetic on exact values (R182) -/

def FV.isNan : FV → Bool
  | .nan => true
  | _ => false

def FV.negate : FV → FV
  | .nan => .nan
  | .inf s => .inf (!s)
  | .fin s m e => .fin (!s) m e

/-- The signed significand of a finite value at a lower exponent. -/
def alignTo (neg : Bool) (m : Nat) (e lo : Int) : Int :=
  let x : Int := m * 2 ^ (e - lo).toNat
  if neg then -x else x

/-- The exact sum, its flags, and the sign of an exact zero (R179, R182). -/
def FV.add (mode : Nat) (a b : FV) : FV × W32 :=
  match a, b with
  | .nan, _ => (.nan, 0)
  | _, .nan => (.nan, 0)
  | .inf s, .inf t => if s = t then (.inf s, 0) else (.nan, flINV)
  | .inf s, .fin .. => (.inf s, 0)
  | .fin .., .inf t => (.inf t, 0)
  | .fin s m e, .fin t n g =>
    let lo := min e g
    let x := alignTo s m e lo + alignTo t n g lo
    if x = 0 then (.fin (if m = 0 ∧ n = 0 ∧ s = t then s else mode == 3) 0 0, 0)
    else (.fin (decide (x < 0)) x.natAbs lo, 0)

/-- The exact product (R182). -/
def FV.mul (a b : FV) : FV × W32 :=
  match a, b with
  | .nan, _ => (.nan, 0)
  | _, .nan => (.nan, 0)
  | .inf s, .inf t => (.inf (s != t), 0)
  | .inf s, .fin t n _ => if n = 0 then (.nan, flINV) else (.inf (s != t), 0)
  | .fin s m _, .inf t => if m = 0 then (.nan, flINV) else (.inf (s != t), 0)
  | .fin s m e, .fin t n g => (.fin (s != t) (m * n) (e + g), 0)

/-- The exact product and sum (R182): 0·∞ is invalid whatever the addend. -/
def FV.fma (mode : Nat) (a b c : FV) : FV × W32 :=
  let (p, f) := a.mul b
  if f ≠ 0 then (.nan, f) else p.add mode c

/-- Round an arithmetic result into a format; sr.mode.SAT has no effect (R179). -/
def FFmt.result (f : FFmt) (mode : Nat) (r : FV × W32) : Nat × W32 :=
  match r.1 with
  | .nan => (f.nan, r.2)
  | .inf neg => (f.code neg (f.maxFin + 1), r.2)
  | .fin neg m e => let (c, g) := f.round mode false neg m e false; (c, r.2 ||| g)

def FFmt.add (f : FFmt) (mode a b : Nat) : Nat × W32 := f.result mode ((f.value a).add mode (f.value b))
def FFmt.sub (f : FFmt) (mode a b : Nat) : Nat × W32 := f.result mode ((f.value a).add mode (f.value b).negate)
def FFmt.mul (f : FFmt) (mode a b : Nat) : Nat × W32 := f.result mode ((f.value a).mul (f.value b))
def FFmt.fma (f : FFmt) (mode a b c : Nat) : Nat × W32 := f.result mode ((f.value a).fma mode (f.value b) (f.value c))

/-- a < b, with -0 below +0 where `zeros` (R182), on codes that are not NaN. -/
def FV.lt (zeros : Bool) (a b : FV) : Bool :=
  match a, b with
  | .nan, _ => false
  | _, .nan => false
  | .inf s, .inf t => s && !t
  | .inf s, .fin .. => s
  | .fin .., .inf t => !t
  | .fin s m e, .fin t n g =>
    let lo := min e g
    let x := alignTo s m e lo
    let y := alignTo t n g lo
    x < y || (zeros && x == y && m == 0 && n == 0 && s && !t)

/-- FMIN and FMAX (R182): the code of the smaller or larger operand; NaN only when both are. -/
def fminmax (isMax : Bool) (a b : Nat) : Nat :=
  let va := f32.value a
  let vb := f32.value b
  if va.isNan then (if vb.isNan then f32.nan else b)
  else if vb.isNan then a
  else if isMax then (if va.lt true vb then b else a) else (if vb.lt true va then b else a)

/-- FCMP (R183). -/
def fcmp (cc a b : Nat) : Bool :=
  let va := f32.value a
  let vb := f32.value b
  let unord := va.isNan || vb.isNan
  let lt := va.lt false vb
  let gt := vb.lt false va
  match cc with
  | 0 => !unord && !lt && !gt
  | 1 => unord || lt || gt
  | 2 => !unord && lt
  | 3 => !unord && !gt
  | 4 => !unord && gt
  | 5 => !unord && !lt
  | 6 => unord
  | _ => !unord

/-- FCLASS (R184). -/
def fclass (a : Nat) : Nat :=
  match f32.value a with
  | .nan => 256
  | .inf neg => if neg then 1 else 128
  | .fin neg m _ =>
    if m = 0 then (if neg then 8 else 16)
    else if m < 2 ^ 23 then (if neg then 4 else 32)
    else if neg then 2 else 64

/-- FRND (R182): the integral value by the mode, no flag. -/
def frnd (mode a : Nat) : Nat :=
  match f32.value a with
  | .nan => f32.nan
  | .inf neg => f32.code neg (f32.maxFin + 1)
  | .fin neg m e => (f32.round 0 false neg (roundInt mode neg m e).1 0 false).1

/-! ### Special functions (R185 to R187) -/

/-- Integer square root by bits, from bit `k` down. -/
def isqrtFrom (n : Nat) (k r : Nat) : Nat :=
  match k with
  | 0 => if (r + 1) * (r + 1) ≤ n then r + 1 else r
  | k + 1 => let r' := r + 2 ^ (k + 1); isqrtFrom n k (if r' * r' ≤ n then r' else r)
def isqrt (n : Nat) : Nat := isqrtFrom n (Nat.log2 n / 2 + 1) 0

/-- FRCP of a finite nonzero value, correctly rounded (R186). -/
def frcpFin (mode : Nat) (neg : Bool) (m : Nat) (e : Int) : Nat × W32 :=
  let k := Nat.log2 m + 60
  f32.round mode false neg (2 ^ k / m) (-(k : Int) - e) (2 ^ k % m != 0)

/-- FSQRT of a finite positive value, correctly rounded (R186). -/
def fsqrtFin (mode : Nat) (m : Nat) (e : Int) : Nat × W32 :=
  let h : Int := e / 2
  let n := m * 2 ^ (e - 2 * h).toNat * 2 ^ 80
  let r := isqrt n
  f32.round mode false false r (h - 40) (r * r != n)

/-- FRCP (R186, R187). -/
def frcp (mode a : Nat) : Nat × W32 :=
  match f32.value a with
  | .nan => (f32.nan, 0)
  | .inf neg => (f32.code neg 0, 0)
  | .fin neg m e => if m = 0 then (f32.code neg (f32.maxFin + 1), flDIVZ) else frcpFin mode neg m e

/-- FSQRT (R186, R187). -/
def fsqrt (mode a : Nat) : Nat × W32 :=
  match f32.value a with
  | .nan => (f32.nan, 0)
  | .inf neg => if neg then (f32.nan, flINV) else (f32.maxFin + 1, 0)
  | .fin neg m e => if m = 0 then (f32.code neg 0, 0) else if neg then (f32.nan, flINV) else fsqrtFin mode m e

/-- The ulp exponent of F32 at the magnitude x·2^(-s). -/
def ulpExp (x s : Nat) : Int := max ((Nat.log2 x : Int) - s - 23) (-149)

/-- The code `c` lies within the bound b·2^be of the value x·2^(-s) (log 6). -/
def nearCode (c : Nat) (x : Int) (s : Nat) (b : Nat) (be : Int) : Bool :=
  match f32.value c with
  | .fin neg m e =>
    let lo := min (min e (-(s : Int))) be
    let d := alignTo neg m e lo - alignTo false 1 (-(s : Int)) lo * x
    decide ((d.natAbs : Int) ≤ b * 2 ^ (be - lo).toNat)
  | _ => false

/-- The fixed function of R186: the implementation's code where it keeps the bound, and the nearest value otherwise. -/
def approx (c : BitVec 32) (x : Int) (s : Nat) (b : Nat) (be : Int) (ok : Nat → Bool) : Nat :=
  if nearCode c.toNat x s b be && ok c.toNat then c.toNat
  else (f32.round 0 false (decide (x < 0)) x.natAbs (-(s : Int)) (x != 0)).1

/-- The magnitude is at most 1 (R186). -/
def atMostOne (c : Nat) : Bool := c % 2 ^ 31 ≤ 0x3F800000

/-- 2^y for y = n·2^(-s), 0 ≤ y < 1, with `s` fraction bits: the exponential series of y·ln 2. -/
def expSeries (x s : Nat) (k : Nat) (n : Nat) (term acc : Nat) : Nat :=
  match k with
  | 0 => acc
  | k + 1 => let t := term * x / 2 ^ s / n; expSeries x s k (n + 1) t (acc + t)

/-- exp of x·2^(-s), 0 ≤ x·2^(-s) ≤ 21, by the series at x/256 and eight squarings. -/
def expFix (x s : Nat) : Nat :=
  let y := expSeries (x / 256) s 60 1 (2 ^ s) (2 ^ s)
  (List.range 8).foldl (fun a _ => a * a / 2 ^ s) y

/-- ln 2 with 200 fraction bits. -/
def ln2 : Nat := 1113844574712631719546256151097547306333272293549090750737802

/-- log2 of m/2^200 in [1, 2), by repeated squaring, `k` bits. -/
def log2Bits (k : Nat) (m acc : Nat) : Nat :=
  match k with
  | 0 => acc
  | k + 1 =>
    let m2 := m * m / 2 ^ 200
    if 2 ^ 201 ≤ m2 then log2Bits k (m2 / 2) (2 * acc + 1) else log2Bits k m2 (2 * acc)

/-- 2·pi with 330 fraction bits. -/
def twoPi : Nat :=
  13742901617074521938239162315202566637166989495146801051089113957072308671839857418443776796495953394

/-- sin and cos of r·2^(-100), 0 ≤ r·2^(-100) < 7, by their series. -/
def sinSeries (r : Nat) (k n : Nat) (term acc : Int) : Int :=
  match k with
  | 0 => acc
  | k + 1 =>
    let t := -(term * r / 2 ^ 100 * r / 2 ^ 100 / ((n : Int) * (n + 1)))
    sinSeries r k (n + 2) t (acc + t)

/-- The argument modulo 2·pi with 100 fraction bits, exactly reduced (R186). -/
def reduceArg (m : Nat) (e : Int) : Nat :=
  let a := if 0 ≤ e + 330 then m * 2 ^ (e + 330).toNat else m / 2 ^ (-(e + 330)).toNat
  a % twoPi / 2 ^ 230

def sinFix (m : Nat) (e : Int) : Int := let r := reduceArg m e; sinSeries r 40 2 r r
def cosFix (m : Nat) (e : Int) : Int := sinSeries (reduceArg m e) 40 1 (2 ^ 100) (2 ^ 100)

/-- FRSQ (R186, R187). -/
def frsq (a : Nat) : Nat × W32 :=
  match f32.value a with
  | .nan => (f32.nan, 0)
  | .inf neg => if neg then (f32.nan, flINV) else (0, 0)
  | .fin neg m e =>
    if m = 0 then (f32.code neg (f32.maxFin + 1), flDIVZ)
    else if neg then (f32.nan, flINV)
    else
      -- 1/sqrt(m·2^e) = sqrt(2^320 / (m·2^(e-2h))) · 2^(-160-h)
      let h : Int := e / 2
      let n := m * 2 ^ (e - 2 * h).toNat
      let r := isqrt (2 ^ 320 / n)
      let exact := r * r * n == 2 ^ 320
      let sh : Int := 160 + h
      let (x, s) : Int × Nat := if 0 ≤ sh then ((r : Int), sh.toNat) else ((r : Int) * 2 ^ (-sh).toNat, 0)
      if exact then ((f32.round 0 false false r (-sh) false).1, 0)
      else (approx (Config.frsq (BitVec.ofNat 32 a)) x s 1 (ulpExp x.natAbs s) (fun _ => true), 0)

/-- FEX2 (R186, R187). -/
def fex2 (a : Nat) : Nat × W32 :=
  match f32.value a with
  | .nan => (f32.nan, 0)
  | .inf neg => if neg then (0, 0) else (f32.maxFin + 1, 0)
  | .fin neg m e =>
    if m = 0 then (0x3F800000, 0)
    else if !neg && (decide (0 ≤ e + 200) && decide (128 * 2 ^ 200 ≤ m * 2 ^ (e + 200).toNat)) then
      (f32.maxFin + 1, flOVF ||| flINX)
    else if neg && (decide (0 ≤ e + 200) && decide (200 * 2 ^ 200 ≤ m * 2 ^ (e + 200).toNat)) then
      let c := approx (Config.fex2 (BitVec.ofNat 32 a)) 0 0 2 (-149) (fun c => c < 2 ^ 31)
      (c, flagIf (c == 0) flINX)
    else
      -- y = a·2^200, split into an integral part and a fraction
      let y : Int := alignTo neg (if 0 ≤ e + 200 then m * 2 ^ (e + 200).toNat else m / 2 ^ (-(e + 200)).toNat) 0 0
      let i := y / 2 ^ 200
      let f := (y % 2 ^ 200).toNat
      if f = 0 ∧ 0 ≤ e + 200 then
        let c := (f32.round 0 false false 1 i false).1
        let c' := if c = 0 then approx (Config.fex2 (BitVec.ofNat 32 a)) 1 (-i).toNat 2 (-149) (fun c => c < 2 ^ 31) else c
        (c', flagIf (c' == 0) flINX)
      else
        let p := expFix (f * ln2 / 2 ^ 200) 200
        let sh : Int := 200 - i
        let (x, s) : Int × Nat := if 0 ≤ sh then ((p : Int), sh.toNat) else ((p : Int) * 2 ^ (-sh).toNat, 0)
        let c := approx (Config.fex2 (BitVec.ofNat 32 a)) x s 2 (ulpExp x.natAbs s) (fun c => c < 2 ^ 31)
        (c, flagIf (c == 0) flINX)

/-- FLG2 (R186, R187). -/
def flg2 (a : Nat) : Nat × W32 :=
  match f32.value a with
  | .nan => (f32.nan, 0)
  | .inf neg => if neg then (f32.nan, flINV) else (f32.maxFin + 1, 0)
  | .fin neg m e =>
    if m = 0 then (f32.code true (f32.maxFin + 1), flDIVZ)
    else if neg then (f32.nan, flINV)
    else
      let k := Nat.log2 m
      let n : Int := k + e
      if m = 2 ^ k then ((f32.round 0 false (decide (n < 0)) n.natAbs 0 false).1, 0)
      else
        let x : Int := n * 2 ^ 120 + log2Bits 120 (m * 2 ^ (200 - k)) 0
        let near := f32.value a == .fin false m e && (decide (0x3F000000 ≤ a) && decide (a ≤ 0x40000000))
        if near then (approx (Config.flg2 (BitVec.ofNat 32 a)) x 120 1 (-22) (fun _ => true), 0)
        else (approx (Config.flg2 (BitVec.ofNat 32 a)) x 120 2 (ulpExp x.natAbs 120) (fun _ => true), 0)

/-- FSIN and FCOS (R186, R187). -/
def fsincos (isCos : Bool) (a : Nat) : Nat × W32 :=
  match f32.value a with
  | .nan => (f32.nan, 0)
  | .inf _ => (f32.nan, flINV)
  | .fin neg m e =>
    if m = 0 then (if isCos then (0x3F800000, 0) else (f32.code neg 0, 0))
    else if isCos then (approx (Config.fcos (BitVec.ofNat 32 a)) (cosFix m e) 100 1 (-21) atMostOne, 0)
    else
      let x := sinFix m e
      (approx (Config.fsin (BitVec.ofNat 32 a)) (if neg then -x else x) 100 1 (-21) atMostOne, 0)

/-- FTANH (R186, R187): exactly ±1 from |a| = 10 on. -/
def ftanh (a : Nat) : Nat × W32 :=
  match f32.value a with
  | .nan => (f32.nan, 0)
  | .inf neg => (f32.code neg 0x3F800000, 0)
  | .fin neg m e =>
    if m = 0 then (f32.code neg 0, 0)
    else if 0x41200000 ≤ a % 2 ^ 31 then (f32.code neg 0x3F800000, 0)
    else
      let y := if 0 ≤ e + 401 then m * 2 ^ (e + 401).toNat else m / 2 ^ (-(e + 401)).toNat
      let p := expFix y 400
      let t : Int := ((p - 2 ^ 400) * 2 ^ 400 / (p + 2 ^ 400) : Nat)
      (approx (Config.ftanh (BitVec.ofNat 32 a)) (if neg then -t else t) 400 2 (ulpExp t.natAbs 400) atMostOne, 0)

/-! ### Formats by code (R190) -/

/-- The exact value of an element in the format of a CVT code. -/
def fmtValue (code x : Nat) : FV :=
  let sint := fun (n : Nat) => let y := (BitVec.ofNat n x).toInt; FV.fin (decide (y < 0)) y.natAbs 0
  match code with
  | 0 => f32.value (x % 2 ^ 32)
  | 1 => bf16.value (x % 2 ^ 16)
  | 2 => e4m3.value (x % 2 ^ 8)
  | 3 => e5m2.value (x % 2 ^ 8)
  | 4 => sint 8 | 5 => .fin false (x % 2 ^ 8) 0
  | 6 => sint 16 | 7 => .fin false (x % 2 ^ 16) 0
  | 8 => sint 32 | 9 => .fin false (x % 2 ^ 32) 0
  | 10 => sint 64 | _ => .fin false (x % 2 ^ 64) 0

/-- A conversion into the format of a CVT code (R42, R191). -/
def fmtConvert (code mode : Nat) (sat : Bool) (v : FV) : Nat × W32 :=
  match code with
  | 0 => f32.convert mode sat v
  | 1 => bf16.convert mode sat v
  | 2 => e4m3.convert mode sat v
  | 3 => e5m2.convert mode sat v
  | 4 => intConvert true 8 mode v | 5 => intConvert false 8 mode v
  | 6 => intConvert true 16 mode v | 7 => intConvert false 16 mode v
  | 8 => intConvert true 32 mode v | 9 => intConvert false 32 mode v
  | 10 => intConvert true 64 mode v | _ => intConvert false 64 mode v

/-- The element size of a format code in bytes (R190, R341). -/
def fmtSize (code : Nat) : Nat := [4, 2, 1, 1, 1, 1, 2, 2, 4, 4, 8, 8].getD code 4

/-- ±x·2^e as a value. -/
def FV.ofInt (x : Int) (e : Int) : FV := .fin (decide (x < 0)) x.natAbs e

/-- Multiply by a power of two. -/
def FV.scale (k : Int) : FV → FV
  | .nan => .nan
  | .inf s => .inf s
  | .fin s m e => .fin s m (e + k)

/-- The rounding mode of a word: RM of the word where RO = 1, of sr.mode otherwise (R180). -/
def roundMode (ro : Bool) (rm : Nat) (e : Env) : Nat := if ro then rm else natBits e.t.mode.toNat 3 2
/-- The mode of an instruction that carries MOD[6] RO and MOD[5:4] RM (R180). -/
def modeOf (w : RForm) (e : Env) : Nat := roundMode (mbit w.mod 6) (mfld w.mod 5 4) e
/-- sr.mode.SAT (R124). -/
def satOf (e : Env) : Bool := e.t.mode.getLsbD 1

end Sys2Proof.Machine
end

