-- ==== Sys2Proof/Machine/Blocks.lean ====
section
/-! DEFINITION. The block formats E2M1B and E4M3B: decoding (02 R35 to R38) and encoding (07 R195, R196, with the limits
of 10 R259). -/

namespace Sys2Proof.Machine

open Sys2Proof

/-! ### Decoding -/

/-- The doubled magnitude of an E2M1 code (R36). -/
def e2m1Mag (c : Nat) : Nat := [0, 1, 2, 3, 4, 6, 8, 12].getD (c % 8) 0

/-- The 32 values of an E2M1B block of 18 bytes (R35 to R37). -/
def decE2m1b (bs : List (BitVec 8)) : List FV :=
  let tr := leNat (bs.drop 16)
  let sc := tr % 1024
  (List.range 32).map fun i =>
    let c := natBits (bs.getD (i / 2) 0).toNat (4 * (i % 2) + 3) (4 * (i % 2))
    if sc = 0x3FF then .nan
    else if sc = 0 then .fin false 0 0
    else if c = 8 then .fin (tr.testBit 15) ((4 + natBits tr 11 10) * 2 ^ natBits tr 14 12) ((sc : Int) - 512)
    else .fin (c.testBit 3) (e2m1Mag c) ((sc : Int) - 512)

/-- The 32 values of an E4M3B block of 34 bytes (R38). -/
def decE4m3b (bs : List (BitVec 8)) : List FV :=
  let sc := leNat (bs.drop 32) % 1024
  (List.range 32).map fun i =>
    if sc = 0x3FF then .nan else (e4m3.value (bs.getD i 0).toNat).scale ((sc : Int) - 511)

/-! ### Encoding -/

def FV.isInf : FV → Bool
  | .inf _ => true
  | _ => false

/-- Magnitude of a finite value, 0 otherwise. -/
def FV.mag : FV → Nat × Int
  | .fin _ m e => (m, e)
  | _ => (0, 0)

/-- Magnitude comparison. -/
def magLt (a b : Nat × Int) : Bool :=
  let lo := min a.2 b.2
  a.1 * 2 ^ (a.2 - lo).toNat < b.1 * 2 ^ (b.2 - lo).toNat

/-- The smallest c with a ≤ g·2^c, for a > 0. -/
def ceilExp (a : Nat × Int) (g : Nat) : Int :=
  let c0 : Int := (Nat.log2 a.1 : Int) + a.2 - Nat.log2 g - 1
  let ok := fun (c : Int) => !(magLt (g, c) a)
  if ok c0 then c0 else if ok (c0 + 1) then c0 + 1 else c0 + 2

/-- A value that an element may take: its doubled value, its code, whether it is the escape, and whether it stands for a
value beyond the grid (R42, R259). -/
structure Cand where
  v : Int
  code : Nat
  esc : Bool
  ovf : Bool
  deriving DecidableEq, Repr

/-- Nearest candidate to ±m·2^e by a mode (R195): of equal distances a code before the escape, then bit 0 of the code
zero. The last candidate stands for what lies beyond the grid: a value beyond it too rounds there (R42, R259). -/
def pickCand (mode : Nat) (neg : Bool) (m : Nat) (e : Int) (cs : List Cand) : Cand :=
  let lo := min e 0
  let t := alignTo neg m e lo
  let at' := fun (c : Cand) => c.v * 2 ^ (-lo).toNat
  let ok := fun (c : Cand) =>
    match mode with
    | 0 => true
    | 1 => (at' c).natAbs ≤ t.natAbs && (c.v == 0 || (decide (c.v < 0) == neg))
    | 2 => t ≤ at' c
    | _ => at' c ≤ t
  let key := fun (c : Cand) => 4 * (at' c - t).natAbs + (if c.esc then 2 else 0) + c.code % 2
  (cs.filter ok).foldl (fun best c => if key c < key best then c else best)
    ((cs.filter ok).headD (cs.getLastD { v := 0, code := 0, esc := false, ovf := true }))

/-- The escape values of one sign, with the value beyond the largest. -/
def escCands (neg : Bool) : List Cand :=
  ((List.range 8).flatMap fun ex => (List.range 4).map fun mm =>
    ({ v := (if neg then -1 else 1) * ((4 + mm) * 2 ^ ex : Nat), code := 4 * ex + mm, esc := true, ovf := false } : Cand)) ++
  [{ v := (if neg then -1 else 1) * 1024, code := 32, esc := true, ovf := true }]

/-- The values of the E2M1 codes of one sign. -/
def codeCands (neg : Bool) : List Cand :=
  ((List.range 7).map fun i => ({ v := (if neg then -1 else 1) * (e2m1Mag (i + 1) : Nat), code := (i + 1) + (if neg then 8 else 0),
                                  esc := false, ovf := false } : Cand))

/-- Index and magnitude of the first largest finite element. -/
def firstMax (xs : List FV) : Nat × (Nat × Int) :=
  (xs.zipIdx.foldl (fun (best : Nat × (Nat × Int)) p => if magLt best.2 p.1.mag then (p.2, p.1.mag) else best) (0, (0, 0)))

/-- An E2M1B block of 32 values (R195, R259): 18 bytes and the flags. An element beyond the grid makes a NaN block at SAT = 0 in
every mode (R259; log 24). -/
def encE2m1b (mode : Nat) (sat : Bool) (xs : List FV) : List (BitVec 8) × W32 :=
  let nanBlock : List (BitVec 8) := List.replicate 16 0 ++ [0xFF#8, 0x03#8]
  let infs := xs.any FV.isInf
  if infs && !sat then (nanBlock, flINV)
  else if xs.any FV.isNan then (nanBlock, 0)
  else
    let (k, amax) := firstMax xs
    if amax.1 = 0 ∧ !infs then (List.replicate 18 0, 0)
    else
      let a2 := (firstMax (xs.set k (.fin false 0 0))).2
      let sc := fun (a : Nat × Int) (g : Nat) => if a.1 = 0 then (1 : Int) else 512 + ceilExp a g
      let s : Int := if amax.1 = 0 then 0x3FE else max 1 (min 0x3FE (max (sc a2 12) (sc amax 896)))
      let t := fun (x : FV) => x.scale (512 - s)
      let big := !(magLt (t (xs.getD k .nan)).mag (4, 0))
      let dX : Option Cand :=
        if amax.1 ≠ 0 ∧ big then
          match t (xs.getD k .nan) with
          | .fin neg m e =>
            let c := pickCand mode neg m e (escCands neg)
            some (if c.ovf then { v := (if neg then -1 else 1) * 896, code := 31, esc := true, ovf := false } else c)
          | _ => none
        else none
      let vs : List Cand := [{ v := 0, code := 0, esc := false, ovf := false }] ++ codeCands false ++ codeCands true ++
        (match dX with
         | some c => [{ c with code := 8 }]
         | none => [])
      let top := fun (neg : Bool) =>
        match dX with
        | some c => if decide (c.v < 0) = neg ∧ 12 < c.v.natAbs then { c with code := 8 }
                    else { v := if neg then -12 else 12, code := if neg then 15 else 7, esc := false, ovf := false }
        | none => { v := if neg then -12 else 12, code := if neg then 15 else 7, esc := false, ovf := false }
      let beyond := fun (neg : Bool) => ({ v := (if neg then -1 else 1) * (if (top neg).v.natAbs = 12 then 16 else 1024),
                                            code := 0, esc := false, ovf := true } : Cand)
      let one := fun (x : FV) =>
        match x with
        | .inf neg => ((top neg).code, flINFSAT)
        | .nan => (0, 0)
        | .fin .. =>
          match t x with
          | .fin neg m e =>
            let c := pickCand mode neg m e (vs ++ [beyond neg])
            if c.ovf then ((top neg).code, flOVF ||| flINX)
            else (c.code, flagIf (alignTo neg m e (min e 0) != c.v * 2 ^ (-(min e 0)).toNat) flINX)
          | _ => (0, 0)
      let cs := xs.map one
      let fl := cs.foldl (fun a c => a ||| c.2) 0
      if fl &&& flOVF ≠ 0 ∧ !sat then (nanBlock, fl)
      else
        let x := match dX with
          | some c => (if c.v < 0 then 0x8000 else 0) + c.code * 1024
          | none => 0
        ((List.range 16).map (fun i => BitVec.ofNat 8 ((cs.getD (2 * i) (0, 0)).1 + 16 * (cs.getD (2 * i + 1) (0, 0)).1)) ++
          leBytes 2 (x + s.toNat), fl)

/-- An E4M3B block of 32 values (R196, R259): 34 bytes and the flags. -/
def encE4m3b (mode : Nat) (sat : Bool) (xs : List FV) : List (BitVec 8) × W32 :=
  let nanBlock : List (BitVec 8) := List.replicate 32 0x7F#8 ++ [0xFF#8, 0x03#8]
  let infs := xs.any FV.isInf
  if infs && !sat then (nanBlock, flINV)
  else if xs.any FV.isNan then (nanBlock, 0)
  else
    let amax := (firstMax xs).2
    let s : Int := if amax.1 = 0 then (if infs then 0x3FE else 0x1FF) else max 0 (min 0x3FE (511 + ceilExp amax 448))
    let cs := xs.map fun x => e4m3.convert mode sat (x.scale (511 - s))
    let fl := cs.foldl (fun a c => a ||| c.2) 0
    if fl &&& flOVF ≠ 0 ∧ cs.any (fun c => c.1 % 128 == 0x7F) then (nanBlock, fl)
    else (cs.map (fun c => BitVec.ofNat 8 c.1) ++ leBytes 2 s.toNat, fl)

end Sys2Proof.Machine
end

