-- ==== Sys2Proof/Machine/Integer.lean ====
section
/-! DEFINITION. Class 0 (06 R158 to R172) and the predicate instructions (R173, R174): one meaning per instruction. -/

namespace Sys2Proof.Machine

open Sys2Proof

/-- Issue data of a two-source block instruction. -/
def aluWord (op : Nat) (w : RForm) : WSpec := rWord op w (src1Regs w ++ src2Regs w) (dstRegs w)
/-- Issue data of a one-source block instruction. -/
def aluWord1 (op : Nat) (w : RForm) : WSpec := rWord op w (src1Regs w) (dstRegs w)
/-- Issue data of an instruction that also reads its old destination (R72). -/
def aluWord3 (op : Nat) (w : RForm) : WSpec := rWord op w (src1Regs w ++ src2Regs w ++ dstRegs w) (dstRegs w)

/-- A 32-bit source extended by U (R161). -/
def extU (u : Bool) (a : W32) : Int := if u then a.toNat else a.toInt

def fImulh (u : Bool) (a b : W32) : W32 := (BitVec.ofInt 64 (extU u a * extU u b)).extractLsb' 32 32
def fImin (u : Bool) (a b : W32) : W32 := if extU u a ≤ extU u b then a else b
def fImax (u : Bool) (a b : W32) : W32 := if extU u b ≤ extU u a then a else b
def fIabs (a : W32) : W32 := BitVec.ofNat 32 a.toInt.natAbs

/-- Division truncating toward zero; by zero the quotient is all ones (R163). -/
def fIdiv (u : Bool) (a b : W32) : W32 :=
  if b = 0 then 0xFFFFFFFF
  else if u then BitVec.ofNat 32 (a.toNat / b.toNat)
  else BitVec.ofInt 32 (Int.tdiv a.toInt b.toInt)
/-- The remainder with the sign of the dividend; by zero it is the dividend (R163). -/
def fIrem (u : Bool) (a b : W32) : W32 :=
  if b = 0 then a
  else if u then BitVec.ofNat 32 (a.toNat % b.toNat)
  else BitVec.ofInt 32 (Int.tmod a.toInt b.toInt)

/-- The comparisons of ICMP (R164). -/
def fIcmp (cc : Nat) (u : Bool) (a b : W32) : Bool :=
  let x := extU u a
  let y := extU u b
  match cc with
  | 0 => x == y | 1 => x != y | 2 => x < y | 3 => x ≤ y | 4 => y < x | _ => y ≤ x

/-- COMB of a compare (R164, R183): 0 set, 1 and, 2 or. -/
def combine (comb : Nat) (old t : Bool) : Bool :=
  match comb with
  | 0 => t | 1 => old && t | _ => old || t

def fShl (a : W32) (k : Nat) : W32 := if 32 ≤ k then 0 else a <<< k
def fShr (a : W32) (k : Nat) : W32 := if 32 ≤ k then 0 else a >>> k
def fSar (a : W32) (k : Nat) : W32 := a.sshiftRight (min k 31)
def fRol (a : W32) (k : Nat) : W32 := a.rotateLeft (k % 32)
def fFshl (k : Nat) (a b : W32) : W32 := ((a ++ b) <<< k).extractLsb' 32 32
def fFshr (k : Nat) (a b : W32) : W32 := ((a ++ b) >>> k).setWidth 32

/-- The number of 1 bits (R166). -/
def fPopc (a : W32) : W32 := BitVec.ofNat 32 ((List.range 32).filter fun i => a.getLsbD i).length
/-- The number of 0 bits above the highest 1 bit (R166). -/
def fClz (a : W32) : W32 := if a = 0 then 32 else BitVec.ofNat 32 (31 - Nat.log2 a.toNat)
/-- Bit i moves to bit 31 - i (R166). -/
def fBrev (a : W32) : W32 := BitVec.ofNat 32 ((List.range 32).foldl (fun n i => 2 * n + (if a.getLsbD i then 1 else 0)) 0)

/-- Position and length of BFX and BFI (R169). -/
def bfPos (b : W32) : Nat := natBits b.toNat 4 0
def bfLen (b : W32) : Nat := min (natBits b.toNat 13 8) (32 - bfPos b)
def fBfx (u : Bool) (a b : W32) : W32 :=
  let len := bfLen b
  let f := (a.toNat >>> bfPos b) % 2 ^ len
  if len = 0 then 0 else if u then BitVec.ofNat 32 f else (BitVec.ofNat len f).signExtend 32
def fBfi (a b old : W32) : W32 :=
  let mask : W32 := BitVec.ofNat 32 ((2 ^ bfLen b - 1) <<< bfPos b)
  (old &&& ~~~mask) ||| ((a <<< bfPos b) &&& mask)

/-- The shift amount (R167): MOD[4:0] with I = 1, the register otherwise. -/
def shiftAmt (w : RForm) (b : W32) : Nat := if mbit w.mod 5 then mfld w.mod 4 0 else b.toNat

/-- Issue data of a shift: with I = 1 there is no second source. -/
def shiftWord (op : Nat) (w : RForm) : WSpec := if mbit w.mod 5 then aluWord1 op w else aluWord op w
/-- A shift of every element. -/
def shiftBy (w : RForm) (f : W32 → Nat → W32) (e : Env) : TRes :=
  { writes := (List.range (elems w)).map fun i =>
      wr32 (dstReg w i) (f (e.r32 (src1 w i)) (shiftAmt w (if mbit w.mod 5 then 0 else e.r32 (src2 w i)))) 2 }

/-- IDIV and IREM (R158, R163): a zero divisor in any element raises DIVZ, and traps before any write where TDIVI = 1. -/
def divide (w : RForm) (f : W32 → W32 → W32) (e : Env) : TRes :=
  let z := (List.range (elems w)).any fun i => e.r32 (src2 w i) == 0
  if z && e.t.mode.getLsbD 8 then { flags := flDIVZ, trap := some (Cause.intdiv, 0) }
  else { (binary w 10 (fun _ => f) e) with flags := flagIf z flDIVZ }

/-- IADD (R161). -/
def execIadd (w : RForm) (s : State) : Out := issueWord (aluWord 0x000 w) (perThread (binary w 2 fun _ a b => a + b)) s
/-- ISUB (R161). -/
def execIsub (w : RForm) (s : State) : Out := issueWord (aluWord 0x001 w) (perThread (binary w 2 fun _ a b => a - b)) s

/-- The sum and the carry of IADDC (R162). -/
def addCarry (w : RForm) (e : Env) : TRes :=
  let n := mfld w.mod 2 0
  let cin := if mbit w.mod 3 then 0 else if e.pred n then 1 else 0
  let sum := (e.r32 w.s1.toNat).toNat + (e.r32 w.s2.toNat).toNat + cin
  { writes := [wr32 w.d.toNat (BitVec.ofNat 32 sum) 2, wrP (832 + n) (decide (2 ^ 32 ≤ sum)) 2] }
/-- IADDC (R162). -/
def execIaddc (w : RForm) (s : State) : Out :=
  let carry := if mbit w.mod 3 then [] else [832 + mfld w.mod 2 0]
  issueWord (rWord 0x002 w (src1Regs w ++ src2Regs w ++ carry) (dstRegs w)) (perThread (addCarry w)) s
/-- IMUL (R161). -/
def execImul (w : RForm) (s : State) : Out := issueWord (aluWord 0x003 w) (perThread (binary w 4 fun _ a b => a * b)) s
/-- IMULH (R161). -/
def execImulh (w : RForm) (s : State) : Out :=
  issueWord (aluWord 0x004 w) (perThread (binary w 4 fun _ => fImulh (mbit w.mod 6))) s
/-- IMAD (R161). -/
def execImad (w : RForm) (s : State) : Out :=
  issueWord (aluWord3 0x005 w) (perThread (ternary w 4 fun _ a b o => o + a * b)) s
/-- IMIN (R161). -/
def execImin (w : RForm) (s : State) : Out :=
  issueWord (aluWord 0x006 w) (perThread (binary w 2 fun _ => fImin (mbit w.mod 6))) s
/-- IMAX (R161). -/
def execImax (w : RForm) (s : State) : Out :=
  issueWord (aluWord 0x007 w) (perThread (binary w 2 fun _ => fImax (mbit w.mod 6))) s
/-- IABS (R161). -/
def execIabs (w : RForm) (s : State) : Out := issueWord (aluWord1 0x008 w) (perThread (unary w 2 fun _ => fIabs)) s
/-- IDIV (R163). -/
def execIdiv (w : RForm) (s : State) : Out := issueWord (aluWord 0x009 w) (perThread (divide w (fIdiv (mbit w.mod 6)))) s
/-- IREM (R163). -/
def execIrem (w : RForm) (s : State) : Out := issueWord (aluWord 0x00A w) (perThread (divide w (fIrem (mbit w.mod 6)))) s

/-- The predicate that ICMP writes or combines (R164). -/
def compareInt (w : RForm) (e : Env) : TRes :=
  let t := fIcmp (mfld w.mod 2 0) (mbit w.mod 6) (e.r32 w.s1.toNat) (e.r32 w.s2.toNat)
  { writes := [wrP w.d.toNat (combine (mfld w.mod 4 3) ((e.r32 w.d.toNat).getLsbD 0) t) 2] }
/-- ICMP (R164). -/
def execIcmp (w : RForm) (s : State) : Out :=
  issueWord (if mfld w.mod 4 3 = 0 then aluWord 0x00B w else aluWord3 0x00B w) (perThread (compareInt w)) s
/-- SEL (R165). -/
def execSel (w : RForm) (s : State) : Out :=
  issueWord (rWord 0x00C w (src1Regs w ++ src2Regs w ++ [832 + mfld w.mod 2 0]) (dstRegs w))
    (perThread (binary w 2 fun e a b => if e.pred (mfld w.mod 2 0) != mbit w.mod 3 then a else b)) s
/-- AND (R166). -/
def execAnd (w : RForm) (s : State) : Out := issueWord (aluWord 0x00D w) (perThread (binary w 2 fun _ a b => a &&& b)) s
/-- OR (R166). -/
def execOr (w : RForm) (s : State) : Out := issueWord (aluWord 0x00E w) (perThread (binary w 2 fun _ a b => a ||| b)) s
/-- XOR (R166). -/
def execXor (w : RForm) (s : State) : Out := issueWord (aluWord 0x00F w) (perThread (binary w 2 fun _ a b => a ^^^ b)) s
/-- ANDN (R166). -/
def execAndn (w : RForm) (s : State) : Out :=
  issueWord (aluWord 0x010 w) (perThread (binary w 2 fun _ a b => a &&& ~~~b)) s
/-- NOT (R166). -/
def execNot (w : RForm) (s : State) : Out := issueWord (aluWord1 0x011 w) (perThread (unary w 2 fun _ a => ~~~a)) s
/-- SHL (R167). -/
def execShl (w : RForm) (s : State) : Out := issueWord (shiftWord 0x012 w) (perThread (shiftBy w fShl)) s
/-- SHR (R167). -/
def execShr (w : RForm) (s : State) : Out := issueWord (shiftWord 0x013 w) (perThread (shiftBy w fShr)) s
/-- SAR (R167). -/
def execSar (w : RForm) (s : State) : Out := issueWord (shiftWord 0x014 w) (perThread (shiftBy w fSar)) s
/-- ROL (R167). -/
def execRol (w : RForm) (s : State) : Out := issueWord (shiftWord 0x015 w) (perThread (shiftBy w fRol)) s
/-- FSHL (R168). -/
def execFshl (w : RForm) (s : State) : Out :=
  issueWord (aluWord 0x016 w) (perThread (binary w 2 fun _ => fFshl (mfld w.mod 4 0))) s
/-- FSHR (R168). -/
def execFshr (w : RForm) (s : State) : Out :=
  issueWord (aluWord 0x017 w) (perThread (binary w 2 fun _ => fFshr (mfld w.mod 4 0))) s
/-- BFX (R169). -/
def execBfx (w : RForm) (s : State) : Out :=
  issueWord (aluWord 0x018 w) (perThread (binary w 2 fun _ => fBfx (mbit w.mod 6))) s
/-- BFI (R169). -/
def execBfi (w : RForm) (s : State) : Out := issueWord (aluWord3 0x019 w) (perThread (ternary w 2 fun _ => fBfi)) s
/-- POPC (R166). -/
def execPopc (w : RForm) (s : State) : Out := issueWord (aluWord1 0x01A w) (perThread (unary w 2 fun _ => fPopc)) s
/-- CLZ (R166). -/
def execClz (w : RForm) (s : State) : Out := issueWord (aluWord1 0x01B w) (perThread (unary w 2 fun _ => fClz)) s
/-- BREV (R166). -/
def execBrev (w : RForm) (s : State) : Out := issueWord (aluWord1 0x01C w) (perThread (unary w 2 fun _ => fBrev)) s

/-- MOV: all 64 bits beside a k register, 32 bits otherwise (R170). -/
def move (w : RForm) (e : Env) : TRes :=
  if classOf w.d == .k || classOf w.s1 == .k then { writes := wr64 w.d.toNat (e.r64 w.s1.toNat) 2 }
  else unary w 2 (fun _ a => a) e
/-- MOV (R170). -/
def execMov (w : RForm) (s : State) : Out := issueWord (aluWord1 0x01D w) (perThread (move w)) s

/-- Issue data of an I-form word. -/
def iWord (op : Nat) (w : IForm) (srcs dsts : List Nat) : WSpec :=
  { h := headI w, word := wordI op w, vregs := (srcs ++ dsts).filter (· < 768), reads := fun _ => srcs }
/-- MOVI (R171): a w register is zero-extended, or sign-extended with SX. -/
def moveImm (w : IForm) (_ : Env) : TRes :=
  if w.mod3.getLsbD 0 then { writes := wr64 w.d.toNat (w.imm.signExtend 64) 2 } else { writes := [wr32 w.d.toNat w.imm 2] }
def execMovi (w : IForm) (s : State) : Out := issueWord (iWord 0x01E w [] [w.d.toNat]) (perThread (moveImm w)) s
/-- MOVHI (R171): bits [31:0] stay. -/
def execMovhi (w : IForm) (s : State) : Out :=
  issueWord (iWord 0x01F w [w.d.toNat] [w.d.toNat])
    (perThread fun e => { writes := wr64 w.d.toNat (w.imm ++ (e.r64 w.d.toNat).setWidth 32) 2 }) s
/-- IADD64 (R172). -/
def execIadd64 (w : RForm) (s : State) : Out :=
  issueWord (rWord 0x020 w (regs64 w.s1.toNat ++ regs64 w.s2.toNat) (regs64 w.d.toNat))
    (perThread fun e => { writes := wr64 w.d.toNat (e.r64 w.s1.toNat + e.r64 w.s2.toNat) 2 }) s
/-- The sum of LEA (R172). -/
def leaSum (w : RForm) (a : W64) (b : W32) : W64 :=
  a + ((if mbit w.mod 6 then b.zeroExtend 64 else b.signExtend 64) <<< mfld w.mod 2 0)
/-- LEA (R172). -/
def execLea (w : RForm) (s : State) : Out :=
  issueWord (rWord 0x021 w (regs64 w.s1.toNat ++ [w.s2.toNat]) (regs64 w.d.toNat))
    (perThread fun e => { writes := wr64 w.d.toNat (leaSum w (e.r64 w.s1.toNat) (e.r32 w.s2.toNat)) 2 }) s

/-! ### Predicates (R173, R174) -/

/-- Issue data of a predicate instruction. -/
def predWord (op : Nat) (w : RForm) (srcs : List Nat) : WSpec := rWord op w srcs [w.d.toNat]
/-- A predicate operand, negated by a modifier bit. -/
def Env.predAt (e : Env) (x : BitVec 10) (neg : Bool) : Bool := (e.r32 x.toNat).getLsbD 0 != neg
/-- PAND (R174). -/
def execPand (w : RForm) (s : State) : Out :=
  issueWord (predWord 0x087 w [w.s1.toNat, w.s2.toNat])
    (perThread fun e => { writes := [wrP w.d.toNat (e.predAt w.s1 (mbit w.mod 1) && e.predAt w.s2 (mbit w.mod 0)) 2] }) s
/-- POR (R174). -/
def execPor (w : RForm) (s : State) : Out :=
  issueWord (predWord 0x088 w [w.s1.toNat, w.s2.toNat])
    (perThread fun e => { writes := [wrP w.d.toNat (e.predAt w.s1 (mbit w.mod 1) || e.predAt w.s2 (mbit w.mod 0)) 2] }) s
/-- PXOR (R174). -/
def execPxor (w : RForm) (s : State) : Out :=
  issueWord (predWord 0x089 w [w.s1.toNat, w.s2.toNat])
    (perThread fun e => { writes := [wrP w.d.toNat (e.predAt w.s1 false != e.predAt w.s2 false) 2] }) s
/-- PNOT (R174). -/
def execPnot (w : RForm) (s : State) : Out :=
  issueWord (predWord 0x08A w [w.s1.toNat]) (perThread fun e => { writes := [wrP w.d.toNat (e.predAt w.s1 true) 2] }) s
/-- The test of PMOV (R174): a w register in all 64 bits, any other source, `clock` too, as 32 bits (DESIGN CHOICE, log 53). -/
def nonzero (e : Env) (x : BitVec 10) : Bool :=
  if classOf x == .w then e.r64 x.toNat != 0 else e.r32 x.toNat != 0
/-- PMOV (R174). -/
def execPmov (w : RForm) (s : State) : Out :=
  issueWord (predWord 0x08B w [w.s1.toNat]) (perThread fun e => { writes := [wrP w.d.toNat (nonzero e w.s1) 2] }) s

end Sys2Proof.Machine
end

