-- ==== Sys2Proof/Machine/Float.lean ====
section
/-! DEFINITION. Class 1 (07 R175 to R202): float arithmetic, special functions, packed BF16, conversions, blocks laid
across lanes, codebook and checksum instructions. Only V warps issue them (R175). -/

namespace Sys2Proof.Machine

open Sys2Proof

/-- An element operation with a code and flags. -/
def el (x : Nat) (r : Nat × W32) (lat : Nat) : RegW × W32 := (wr32 x (BitVec.ofNat 32 r.1) lat, r.2)

/-- A two-source block of float elements (R177). -/
def fbinary (w : RForm) (lat : Nat) (f : Env → Nat → Nat → Nat × W32) (e : Env) : TRes :=
  flagged ((List.range (elems w)).map fun i =>
    el (dstReg w i) (f e (e.r32 (src1 w i)).toNat (e.r32 (src2 w i)).toNat) lat) e
/-- A two-source block that reads its old destination (R72, R177). -/
def fternary (w : RForm) (lat : Nat) (f : Env → Nat → Nat → Nat → Nat × W32) (e : Env) : TRes :=
  flagged ((List.range (elems w)).map fun i =>
    el (dstReg w i) (f e (e.r32 (src1 w i)).toNat (e.r32 (src2 w i)).toNat (e.r32 (dstReg w i)).toNat) lat) e
/-- A one-source block of float elements (R177). -/
def funary (w : RForm) (lat : Nat) (f : Env → Nat → Nat × W32) (e : Env) : TRes :=
  flagged ((List.range (elems w)).map fun i => el (dstReg w i) (f e (e.r32 (src1 w i)).toNat) lat) e

/-- FADD (R182). -/
def execFadd (w : RForm) (s : State) : Out :=
  issueWord (aluWord 0x040 w).vOnly (perThread (fbinary w 4 fun e => f32.add (modeOf w e))) s
/-- FSUB (R182). -/
def execFsub (w : RForm) (s : State) : Out :=
  issueWord (aluWord 0x041 w).vOnly (perThread (fbinary w 4 fun e => f32.sub (modeOf w e))) s
/-- FMUL (R182). -/
def execFmul (w : RForm) (s : State) : Out :=
  issueWord (aluWord 0x042 w).vOnly (perThread (fbinary w 4 fun e => f32.mul (modeOf w e))) s
/-- FFMA (R182). -/
def execFfma (w : RForm) (s : State) : Out :=
  issueWord (aluWord3 0x043 w).vOnly (perThread (fternary w 4 fun e => f32.fma (modeOf w e))) s
/-- FMIN (R182). -/
def execFmin (w : RForm) (s : State) : Out :=
  issueWord (aluWord 0x044 w).vOnly (perThread (fbinary w 4 fun _ a b => (fminmax false a b, 0))) s
/-- FMAX (R182). -/
def execFmax (w : RForm) (s : State) : Out :=
  issueWord (aluWord 0x045 w).vOnly (perThread (fbinary w 4 fun _ a b => (fminmax true a b, 0))) s

/-- The predicate that FCMP writes or combines (R183). -/
def compareFloat (w : RForm) (e : Env) : TRes :=
  let t := fcmp (mfld w.mod 2 0) (e.r32 w.s1.toNat).toNat (e.r32 w.s2.toNat).toNat
  { writes := [wrP w.d.toNat (combine (mfld w.mod 4 3) ((e.r32 w.d.toNat).getLsbD 0) t) 4] }
/-- FCMP (R183). -/
def execFcmp (w : RForm) (s : State) : Out :=
  issueWord (if mfld w.mod 4 3 = 0 then aluWord 0x046 w else aluWord3 0x046 w).vOnly (perThread (compareFloat w)) s
/-- FCLASS (R184). -/
def execFclass (w : RForm) (s : State) : Out :=
  issueWord (aluWord1 0x047 w).vOnly (perThread (funary w 4 fun _ a => (fclass a, 0))) s
/-- FRND (R182). -/
def execFrnd (w : RForm) (s : State) : Out :=
  issueWord (aluWord1 0x048 w).vOnly (perThread (funary w 4 fun e a => (frnd (modeOf w e) a, 0))) s
/-- FRCP (R186, R187). -/
def execFrcp (w : RForm) (s : State) : Out :=
  issueWord (aluWord1 0x049 w).vOnly (perThread (funary w 10 fun e => frcp (modeOf w e))) s
/-- FRSQ (R186, R187). -/
def execFrsq (w : RForm) (s : State) : Out := issueWord (aluWord1 0x04A w).vOnly (perThread (funary w 10 fun _ => frsq)) s
/-- FSQRT (R186, R187). -/
def execFsqrt (w : RForm) (s : State) : Out :=
  issueWord (aluWord1 0x04B w).vOnly (perThread (funary w 10 fun e => fsqrt (modeOf w e))) s
/-- FEX2 (R186, R187). -/
def execFex2 (w : RForm) (s : State) : Out := issueWord (aluWord1 0x04C w).vOnly (perThread (funary w 10 fun _ => fex2)) s
/-- FLG2 (R186, R187). -/
def execFlg2 (w : RForm) (s : State) : Out := issueWord (aluWord1 0x04D w).vOnly (perThread (funary w 10 fun _ => flg2)) s
/-- FSIN (R186, R187). -/
def execFsin (w : RForm) (s : State) : Out :=
  issueWord (aluWord1 0x04E w).vOnly (perThread (funary w 10 fun _ => fsincos false)) s
/-- FCOS (R186, R187). -/
def execFcos (w : RForm) (s : State) : Out :=
  issueWord (aluWord1 0x04F w).vOnly (perThread (funary w 10 fun _ => fsincos true)) s
/-- FTANH (R186, R187). -/
def execFtanh (w : RForm) (s : State) : Out := issueWord (aluWord1 0x050 w).vOnly (perThread (funary w 10 fun _ => ftanh)) s

/-- Two packed BF16 elements, computed apart (R188). -/
def packed (f : Nat → Nat → Nat × W32) (a b : Nat) : Nat × W32 :=
  let lo := f (a % 65536) (b % 65536)
  let hi := f (a / 65536 % 65536) (b / 65536 % 65536)
  (lo.1 + 65536 * hi.1, lo.2 ||| hi.2)
/-- HADD2 (R188). -/
def execHadd2 (w : RForm) (s : State) : Out :=
  issueWord (aluWord 0x051 w).vOnly (perThread (fbinary w 4 fun e => packed (bf16.add (modeOf w e)))) s
/-- HMUL2 (R188). -/
def execHmul2 (w : RForm) (s : State) : Out :=
  issueWord (aluWord 0x052 w).vOnly (perThread (fbinary w 4 fun e => packed (bf16.mul (modeOf w e)))) s
/-- The two fused products and sums of HFMA2 (R188). -/
def packedFma (mode a b c : Nat) : Nat × W32 :=
  let lo := bf16.fma mode (a % 65536) (b % 65536) (c % 65536)
  let hi := bf16.fma mode (a / 65536 % 65536) (b / 65536 % 65536) (c / 65536 % 65536)
  (lo.1 + 65536 * hi.1, lo.2 ||| hi.2)
/-- HFMA2 (R188). -/
def execHfma2 (w : RForm) (s : State) : Out :=
  issueWord (aluWord3 0x053 w).vOnly (perThread (fternary w 4 fun e => packedFma (modeOf w e))) s

/-! ### CVT (R189 to R191) -/

/-- The registers that CVT reads and writes. -/
def cvtSrc (w : RForm) : List Nat := if 10 ≤ cvtSF w then regs64 w.s1.toNat else src1Regs w
def cvtDst (w : RForm) : List Nat := if 10 ≤ cvtDF w then regs64 w.d.toNat else dstRegs w
/-- One element of CVT (R191). -/
def cvtElem (w : RForm) (e : Env) (i : Nat) : Nat × W32 :=
  let x := if 10 ≤ cvtSF w then (e.r64 w.s1.toNat).toNat else (e.r32 (src1 w i)).toNat
  let sat := if cvtSO w then cvtSV w else satOf e
  fmtConvert (cvtDF w) (roundMode (cvtRO w) (cvtRM w) e) sat (fmtValue (cvtSF w) x)
/-- The results and flags of CVT in one thread. -/
def convert (w : RForm) (e : Env) : TRes :=
  if 10 ≤ cvtDF w then
    let r := cvtElem w e 0
    let t := flagged [(wr32 0 0 4, r.2)] e
    if t.trap.isSome then t else { t with writes := wr64 w.d.toNat (BitVec.ofNat 64 r.1) 4 }
  else flagged ((List.range (elems w)).map fun i => el (dstReg w i) (cvtElem w e i) 4) e
/-- CVT (R191). -/
def execCvt (w : RForm) (s : State) : Out := issueWord (rWord 0x054 w (cvtSrc w) (cvtDst w)).vOnly (perThread (convert w)) s

/-! ### Blocks from lanes (R192 to R197) -/

/-- S1 of all 32 lanes of a warp (R193): a lane that does not execute supplies its register as it stands. -/
def laneWords (es : List Env) (w : Warp) (clock x : Nat) : List Nat :=
  (List.range 32).map fun i =>
    match es.find? (·.lane == i) with
    | some e => (e.r32 x).toNat
    | none => ((w.threads[i]?.map fun t => (t.at clock x).toNat).getD 0) % 2 ^ 32

/-- The element format of CVTBLK and UNBLK: EF (R192). -/
def efFmt (w : RForm) : FFmt := if mbit w.mod 0 then bf16 else f32
def efBits (w : RForm) (x : Nat) : Nat := if mbit w.mod 0 then x % 65536 else x

/-- The word of CVTBLK for each lane and the flags of the block (R194 to R196). -/
def packLane (w : RForm) (es : List Env) (e : Env) : TRes :=
  let xs := (laneWords es e.w e.at' w.s1.toNat).map fun x => (efFmt w).value (efBits w x)
  let (bs, fl) := if mbit w.mod 1 then encE4m3b (modeOf w e) (satOf e) xs else encE2m1b (modeOf w e) (satOf e) xs
  let body := if mbit w.mod 1 then 8 else 4
  let v := if e.lane < body then leNat ((bs.drop (4 * e.lane)).take 4)
    else if e.lane = body then leNat (bs.drop (4 * body)) else 0
  flagged [(wr32 w.d.toNat (BitVec.ofNat 32 v) 6, fl)] e
/-- The element of UNBLK for each lane; a flag of any lane is a flag of the warp's threads (R193, R197). -/
def unpackLane (w : RForm) (es : List Env) (e : Env) : TRes :=
  let ws := laneWords es e.w e.at' w.s1.toNat
  let body := if mbit w.mod 1 then 8 else 4
  let bs := (ws.take body).flatMap (leBytes 4) ++ leBytes 2 (ws.getD body 0)
  let vs := if mbit w.mod 1 then decE4m3b bs else decE2m1b bs
  let rs := vs.map ((efFmt w).convert (modeOf w e) (satOf e))
  let fl := rs.foldl (fun a r => a ||| r.2) 0
  flagged [(wr32 w.d.toNat (BitVec.ofNat 32 (rs.getD e.lane (0, 0)).1) 6, fl)] e
/-- CVTBLK (R193 to R196): SAT and the mode of each thread, and an FPEXC of one is taken by every thread of its warp, with
the flags of the first that raised one (DESIGN CHOICE, log 54). -/
def trapTogether (f : List Env → Env → TRes) (es : List Env) (e : Env) : TRes :=
  let r := f es e
  match r.trap, es.findSome? (fun e' => (f es e').trap) with
  | none, some t => { r with writes := [], trap := some t }
  | _, _ => r
def execCvtblk (w : RForm) (s : State) : Out :=
  issueWord (rWord 0x055 w [w.s1.toNat] [w.d.toNat]).vOnly (perThread fun e => trapTogether (packLane w) (e.active (headR w)) e) s
/-- UNBLK (R193, R194, R197). -/
def execUnblk (w : RForm) (s : State) : Out :=
  issueWord (rWord 0x056 w [w.s1.toNat] [w.d.toNat]).vOnly (perThread fun e => trapTogether (unpackLane w) (e.active (headR w)) e) s

/-! ### Codebook (R198 to R200) -/

/-- Entry `i` of the active bank of a warp's code table (R416). -/
def Warp.ctEntry (w : Warp) (i : Nat) : Nat := (findD w.ct (16 * (w.ctbank.toNat % 2) + i) 0).toNat
/-- CBXP of one element (R199). -/
def cbExpand (w : Warp) (q x : Nat) : Nat := w.ctEntry (x >>> (8 * q) % 16) + 65536 * w.ctEntry (x >>> (8 * q + 4) % 16)
/-- CBXP (R199). -/
def execCbxp (w : RForm) (s : State) : Out :=
  issueWord (aluWord1 0x057 w).vOnly (perThread (funary w 6 fun e a => (cbExpand e.w (mfld w.mod 1 0) a, 0))) s

/-- The distance of a finite value to a finite entry, on a common scale. -/
def fvDist (a b : FV) : Option (Nat × Int) :=
  match a, b with
  | .fin s m e, .fin t n g =>
    let lo := min e g
    some ((alignTo s m e lo - alignTo t n g lo).natAbs, lo)
  | _, _ => none

/-- Whether entry `b` is a better choice for `v` than entry `a` (R200). -/
def cbBetter (v a b : FV) : Bool :=
  match v with
  | .nan => false
  | .fin .. =>
    match b with
    | .nan => false
    | .inf _ => a.isNan
    | .fin .. =>
      match fvDist v a, fvDist v b with
      | some x, some y => magLt y x
      | _, _ => true
  | .inf neg => if b.isNan then false else if a.isNan then true else if neg then b.lt false a else a.lt false b
/-- The index of CBQ for one BF16 element and its flags (R200). -/
def cbIndex (w : Warp) (x : Nat) : Nat × W32 :=
  let v := bf16.value x
  let vals := (List.range 16).map fun i => bf16.value (w.ctEntry i)
  if v.isNan then (0, flINV)
  else
    let best := (List.range 16).foldl (fun i j => if cbBetter v (vals.getD i .nan) (vals.getD j .nan) then j else i) 0
    let b := vals.getD best .nan
    (best, flagIf (b.isNan || v.lt false b || b.lt false v) flINX)
/-- CBQ of one element (R200): the other six nibbles of old D are kept. -/
def cbQuant (w : Warp) (q a old : Nat) : Nat × W32 :=
  let lo := cbIndex w (a % 65536)
  let hi := cbIndex w (a / 65536 % 65536)
  let m := 0xFF <<< (8 * q)
  ((old - (old &&& m)) + ((lo.1 + 16 * hi.1) <<< (8 * q)), lo.2 ||| hi.2)
/-- CBQ (R200). -/
def execCbq (w : RForm) (s : State) : Out :=
  issueWord (rWord 0x058 w (src1Regs w ++ dstRegs w) (dstRegs w)).vOnly
    (perThread fun e => flagged ((List.range (elems w)).map fun i =>
      el (dstReg w i) (cbQuant e.w (mfld w.mod 1 0) (e.r32 (src1 w i)).toNat (e.r32 (dstReg w i)).toNat) 6) e) s

/-! ### Checksums (R201, R202) -/

/-- P = 2^61 - 1 (R202). -/
def ckPrime : Int := 2 ^ 61 - 1
/-- The new value of a k register (R202). -/
def ckFold (w : RForm) (k : W64) (a b : W32) : W64 :=
  let x := extU (mbit w.mod 6) a
  let t := if mbit w.mod 0 then x * extU (mbit w.mod 6) b else x
  BitVec.ofInt 64 (((k.toNat : Int) + (if mbit w.mod 2 then -t else t)) % ckPrime)
/-- CKACC (R202). -/
def execCkacc (w : RForm) (s : State) : Out :=
  let srcs := [w.s1.toNat] ++ (if mbit w.mod 0 then [w.s2.toNat] else []) ++ [w.d.toNat]
  issueWord (rWord 0x059 w srcs []).vOnly
    (perThread fun e => { writes := wr64 w.d.toNat (ckFold w (e.r64 w.d.toNat) (e.r32 w.s1.toNat) (e.r32 w.s2.toNat)) 4 }) s
/-- The comparison of CKTEST (R202). -/
def ckEqual (a b : W64) : Bool := ((a.toNat : Int) % ckPrime) == ((b.toNat : Int) % ckPrime)
/-- CKTEST in one thread (R202). -/
def ckTest (w : RForm) (e : Env) : TRes :=
  let eq := ckEqual (e.r64 w.s1.toNat) (e.r64 w.s2.toNat)
  if mbit w.mod 0 then { writes := [wr32 w.d.toNat (if eq then 0 else 1) 4] }
  else if eq then {} else TRes.trapped Cause.ckfail (BitVec.ofNat 64 (w.s1.toNat - 880))
/-- CKTEST (R202). -/
def execCktest (w : RForm) (s : State) : Out :=
  issueWord (rWord 0x05A w [w.s1.toNat, w.s2.toNat] (if mbit w.mod 0 then [w.d.toNat] else [])).vOnly (perThread (ckTest w)) s

end Sys2Proof.Machine
end

