-- ==== Sys2Proof/Machine/Lane.lean ====
section
/-! DEFINITION. The cross-lane instructions (08 R203 to R214): one meaning per instruction. -/

namespace Sys2Proof.Machine

open Sys2Proof

/-- The register that lane `ln` of a warp supplies (R204). -/
def Warp.supply (w : Warp) (clock ln x : Nat) : W32 :=
  match w.threads[ln]? with
  | some t => (t.at clock x).setWidth 32
  | none => 0

/-- The lane-group size that a word sees (R203, R205). -/
def Env.lgSize (e : Env) : Nat := 2 ^ natBits (e.w.at e.at' 1024).toNat 2 0
/-- The base of the lane group of a lane. -/
def Env.lgBase (e : Env) : Nat := e.lane / e.lgSize * e.lgSize

/-- The active threads `es` of the warp in the thread's lane group (R209). -/
def Env.peers (e : Env) (es : List Env) : List Env := es.filter fun q => q.lane / e.lgSize == e.lane / e.lgSize

/-- The selector of block register `i` (R206). -/
def selector (w : RForm) (e : Env) (i : Nat) : Nat :=
  if mbit w.mod 4 then natBits w.s2.toNat 4 0 else (e.r32 (src2 w i)).toNat

/-- The source lane of a pull, where the selector is valid (R207). -/
def pullLane (mode g b l k : Nat) : Option Nat :=
  match mode with
  | 0 => if k < g then some (b + k) else none
  | 1 => if k ≤ l - b then some (l - k) else none
  | 2 => if l + k ≤ b + g - 1 then some (l + k) else none
  | _ => if k < g then some (l ^^^ k) else none

/-- The target lane of a push, where the selector is valid (R208). -/
def pushLane (mode g b l k : Nat) : Option Nat :=
  match mode with
  | 0 => if k < g then some (b + k) else none
  | 1 => if l + k ≤ b + g - 1 then some (l + k) else none
  | 2 => if k ≤ l - b then some (l - k) else none
  | _ => if k < g then some (l ^^^ k) else none

/-- Issue data of SHFL and SHFLP: CHK covers the lane's own S1 whichever lane it takes its value from (DESIGN CHOICE, log 55). -/
def shflWord (op : Nat) (w : RForm) : WSpec :=
  rWord op w (src1Regs w ++ (if mbit w.mod 4 then [] else src2Regs w)) (dstRegs w)

/-- SHFL in one lane (R207). -/
def pull (w : RForm) (e : Env) : TRes :=
  { writes := (List.range (elems w)).map fun i =>
      let v := match pullLane (mfld w.mod 6 5) e.lgSize e.lgBase e.lane (selector w e i) with
        | some ln => e.w.supply e.at' ln (src1 w i)
        | none => e.r32 (src1 w i)
      wr32 (dstReg w i) v 6 }
/-- SHFL (R207). -/
def execShfl (w : RForm) (s : State) : Out := issueWord (shflWord 0x080 w) (perThread (pull w)) s

/-- SHFLP in one lane: the value of the highest-numbered sender, if any (R208; log 56). -/
def push (w : RForm) (es : List Env) (e : Env) : TRes :=
  { writes := (List.range (elems w)).filterMap fun i =>
      let senders := es.filter fun q =>
        pushLane (mfld w.mod 6 5) q.lgSize q.lgBase q.lane (selector w q i) == some e.lane
      senders.getLast?.map fun q => wr32 (dstReg w i) (q.r32 (src1 w i)) 6 }
/-- SHFLP (R208). -/
def execShflp (w : RForm) (s : State) : Out := issueWord (shflWord 0x081 w) (perThread fun e => push w (e.active (headR w)) e) s

/-- The mask of some lanes. -/
def laneMask (ls : List Nat) : W32 := ls.foldl (fun m l => m ||| (1#32 <<< l)) 0

/-- VOTE in one lane (R209). An early value of an active lane is the same for every receiver (DESIGN CHOICE, log 56). -/
def vote (w : RForm) (es : List Env) (e : Env) : TRes :=
  let a := e.peers es
  let p := fun (q : Env) => (q.r32 w.s1.toNat).getLsbD 0
  match mfld w.mod 1 0 with
  | 0 => { writes := [wrP w.d.toNat (a.any p) 6] }
  | 1 => { writes := [wrP w.d.toNat (a.all p) 6] }
  | 2 => { writes := [wr32 w.d.toNat (laneMask ((a.filter p).map (·.lane))) 6] }
  | _ => { writes := [wrP w.d.toNat (a.all fun q => q.r32 w.s1.toNat == e.r32 w.s1.toNat) 6] }
/-- VOTE (R209). -/
def execVote (w : RForm) (s : State) : Out := issueWord (rWord 0x082 w [w.s1.toNat] [w.d.toNat]) (perThread fun e => vote w (e.active (headR w)) e) s

/-- The identity of a combining operation (R210). -/
def redIdentity (opc : Nat) (u : Bool) : W32 :=
  match opc with
  | 1 => if u then 0xFFFFFFFF else 0x7FFFFFFF
  | 2 => if u then 0 else 0x80000000
  | 3 => 0xFFFFFFFF
  | 7 => 0x7F800000
  | 8 => 0xFF800000
  | _ => 0
/-- One step of a combination, with its flags (R210, R212). -/
def redStep (opc : Nat) (u : Bool) (mode : Nat) (acc x : W32) : W32 × W32 :=
  match opc with
  | 0 => (acc + x, 0)
  | 1 => (fImin u acc x, 0)
  | 2 => (fImax u acc x, 0)
  | 3 => (acc &&& x, 0)
  | 4 => (acc ||| x, 0)
  | 5 => (acc ^^^ x, 0)
  | 6 => let r := f32.add mode acc.toNat x.toNat; (BitVec.ofNat 32 r.1, r.2)
  | 7 => (BitVec.ofNat 32 (fminmax false acc.toNat x.toNat), 0)
  | _ => (BitVec.ofNat 32 (fminmax true acc.toNat x.toNat), 0)

/-- RED (`prefixed` false) and SCAN in one lane (R210 to R212; log 56). -/
def reduce (w : RForm) (prefixed : Bool) (es : List Env) (e : Env) : TRes :=
  let opc := mfld w.mod 6 3
  let u := mbit w.mod 7
  let contributors := (e.peers es).filter fun q => (q.r32 w.s2.toNat).getLsbD 0
  let mine := if prefixed then
      contributors.filter fun q => if mbit w.mod 8 then decide (q.lane < e.lane) else decide (q.lane ≤ e.lane)
    else contributors
  let r := mine.foldl (fun (a : W32 × W32) q =>
    let t := redStep opc u (natBits e.t.mode.toNat 3 2) a.1 (q.r32 w.s1.toNat); (t.1, a.2 ||| t.2)) (redIdentity opc u, 0)
  let fl := flagged [(wr32 w.d.toNat r.1 6, r.2)] e
  if fl.trap.isSome then fl
  else { writes := fl.writes ++ [wrP (832 + mfld w.mod 2 0) (!contributors.isEmpty) 6]
         flags := fl.flags ||| flagIf contributors.isEmpty flEMPTY }
/-- Issue data of RED and SCAN. -/
def redWord (op : Nat) (w : RForm) : WSpec := rWord op w [w.s1.toNat, w.s2.toNat] [w.d.toNat]
/-- RED (R211). -/
def execRed (w : RForm) (s : State) : Out := issueWord (redWord 0x083 w) (perThread fun e => reduce w false (e.active (headR w)) e) s
/-- SCAN (R211). -/
def execScan (w : RForm) (s : State) : Out := issueWord (redWord 0x084 w) (perThread fun e => reduce w true (e.active (headR w)) e) s
/-- LGSET (R213). -/
def execLgset (w : RForm) (s : State) : Out :=
  issueWord (rWord 0x085 w [] [])
    (perThread fun _ => { writes := [{ reg := 1024, val := BitVec.ofNat 256 (mfld w.mod 2 0), lat := 6 }] }) s

/-- MATCH in one lane (R209; log 56). -/
def matchMask (w : RForm) (es : List Env) (e : Env) : TRes :=
  let a := e.peers es
  let same := a.filter fun q => q.r32 w.s1.toNat == e.r32 w.s1.toNat
  { writes := [wr32 w.d.toNat (laneMask (same.map (·.lane))) 6,
               wrP (832 + mfld w.mod 2 0) (same.length == a.length) 6] }
/-- MATCH (R209). -/
def execMatchLanes (w : RForm) (s : State) : Out :=
  issueWord (rWord 0x086 w [w.s1.toNat] [w.d.toNat]) (perThread fun e => matchMask w (e.active (headR w)) e) s

/-- The value that BCAST gives a warp (R214). -/
def bcast (w : RForm) (e : Env) : TRes :=
  let ln := mfld w.mod 4 0
  let lo := e.w.supply e.at' ln w.s1.toNat
  let v : W64 := if mbit w.mod 5 then e.w.supply e.at' ln (w.s1.toNat + 1) ++ lo else lo.zeroExtend 64
  { writes := wr64 w.d.toNat v 6 }
/-- BCAST (R214): the scoreboard never checks what another lane supplies (R204). -/
def execBcast (w : RForm) (s : State) : Out :=
  issueWord { rWord 0x08E w [] [] with
      vregs := if mbit w.mod 5 then [w.s1.toNat, w.s1.toNat + 1] else [w.s1.toNat]
      reads := fun e => if e.lane = mfld w.mod 4 0 then (if mbit w.mod 5 then regs64 w.s1.toNat else [w.s1.toNat]) else [] }
    (perThread (bcast w)) s

end Sys2Proof.Machine
end

