-- ==== Sys2Proof/Machine/Control.lean ====
section
/-! DEFINITION. The system registers (05 R123 to R130), the control-flow and system instructions (R131 to R141), words
with unassigned opcodes (03 R82) and paired words (R62 to R65): one meaning per instruction. -/

namespace Sys2Proof.Machine

open Sys2Proof

/-! ### System registers -/

/-- A token balance of sr.ADMIT (R127). -/
def admitField (t : Tower) (b : Nat) : BitVec 20 := BitVec.ofNat 20 (min (findD t.tokens b 0) 0xFFFFF)

/-- sr.ward of a launch (R127). -/
def srWard (l : Launch) : BitVec 32 :=
  BitVec.ofNat 32 (l.wx ||| (l.wy <<< 8) ||| (l.ww <<< 16) ||| (l.wh <<< 24))

/-- sr.core of a core (R127). -/
def srCore (d : Nat) : BitVec 64 :=
  BitVec.ofNat 64 (coreX d ||| (coreY d <<< 8) ||| (tcidOf d <<< 16) ||| (towerOf d <<< 24) ||| (d <<< 32))

/-- A system register as a thread sees it (R123 to R128). -/
def Env.sysreg (e : Env) (srn : Nat) : W64 :=
  match srn with
  | 0x00 => e.t.mode.zeroExtend 64
  | 0x01 => e.t.status.zeroExtend 64
  | 0x02 => e.t.epc
  | 0x03 => e.t.ecause.zeroExtend 64
  | 0x04 => e.t.einfo
  | 0x05 => e.l.tvec
  | 0x06 => BitVec.ofNat 64 ((if e.l.priv then 256 else 0) + e.w.role.code)
  | 0x07 => (srWard e.l).zeroExtend 64
  | 0x08 => srCore e.d
  | 0x09 => BitVec.ofNat 64 e.lane
  | 0x0A => BitVec.ofNat 64 e.slot
  | 0x0B => BitVec.ofNat 64 e.l.id
  | 0x0C => BitVec.ofNat 64 e.at'
  | 0x0D => (e.s.tower (towerOf e.d)).contain.setWidth 64
  | 0x0E => (e.s.tower (towerOf e.d)).contain.extractLsb' 64 64
  | 0x0F =>
    let t := e.s.tower (towerOf e.d)
    0#4 ++ admitField t 2 ++ admitField t 1 ++ admitField t 0
  | 0x10 => e.w.ctbank.zeroExtend 64
  | _ => (e.w.at e.at' 1024).setWidth 64

/-- The value that MFSR gives (R130): 64 bits for a w register, the half that HI chooses for a v register. -/
def readSys (w : RForm) (e : Env) : TRes :=
  let r := e.sysreg (mfld w.mod 7 0)
  if classOf w.d == .w then { writes := wr64 w.d.toNat r 4 }
  else { writes := [wr32 w.d.toNat (if mbit w.mod 8 then r.extractLsb' 32 32 else r.setWidth 32) 4] }
/-- MFSR (R130). -/
def execMfsr (w : RForm) (s : State) : Out := issueWord (rWord 0x08C w [] [w.d.toNat]) (perThread (readSys w)) s

/-- A system register with a new value at cycle `c`; its reserved fields ignore the write (R13, R124 to R126), and the flags that
an engine raises in that cycle join sr.status (R147). -/
def Thread.setSys (t : Thread) (c srn : Nat) (v : W64) : Thread :=
  match srn with
  | 0x00 => { t with mode := v.setWidth 32 &&& 0x7FF#32 }
  | 0x01 => { t with status := (v.setWidth 32 &&& 0x1FF#32) ||| t.flagsAt c }
  | 0x02 => { t with epc := v }
  | 0x03 => { t with ecause := v.setWidth 32 &&& 0x7FF#32 }
  | 0x04 => { t with einfo := v }
  | _ => t

/-- What MTSR puts into the register (R130). -/
def writtenSys (w : RForm) (e : Env) : W64 :=
  let r := e.sysreg (mfld w.mod 7 0)
  if classOf w.s1 == .w then e.r64 w.s1.toNat
  else if mbit w.mod 8 then e.r32 w.s1.toNat ++ r.setWidth 32
  else r.extractLsb' 32 32 ++ e.r32 w.s1.toNat

/-- Every active thread changes as `f` says before the word ends; it has no register result. -/
def modEach (f : Env → Thread → Thread) (g : Grp) : Res :=
  { s := g.act.foldl (fun s e => s.modThread g.d e.slot e.lane (f e)) g.s
    out := g.act.map fun e => ((e.slot, e.lane), {}) }

/-- MTSR (R130): it takes effect for the next word of the run. -/
def execMtsr (w : RForm) (s : State) : Out :=
  issueWord (rWord 0x08D w [w.s1.toNat] []) (modEach fun e t => t.setSys e.s.clock (mfld w.mod 7 0) (writtenSys w e)) s

/-! ### Control flow -/

/-- Issue data of a class 7 word. -/
def ctlR (op : Nat) (w : RForm) (srcs : List Nat) : WSpec := rWord op w srcs []
def ctlI (op : Nat) (w : IForm) : WSpec := iWord op w [] []

/-- NOP (R131). -/
def execNop (w : RForm) (s : State) : Out := issueWord (ctlR 0x1C0 w []) (perThread fun _ => {}) s

/-- The two checks of R132 on a branch target, and the move of the PC. -/
def jump (e : Env) (target : W64) (writes : List RegW) : TRes :=
  if target.extractLsb' 0 3 = 0 ∧ vaOk e.l.priv target then { writes := writes, pc := some target }
  else TRes.trapped Cause.addrform target

/-- The target of a signed word offset (R132). -/
def wordsFrom (va : W64) (n : W32) : W64 := va + (n.signExtend 64 <<< 3)

/-- BRA (R132). -/
def execBra (w : IForm) (s : State) : Out :=
  issueWord (ctlI 0x1C1 w).ending (perThread fun e => jump e (wordsFrom e.va w.imm) []) s

/-- BRX: an absolute target in a w register, a word offset in a v register (R132). -/
def execBrx (w : RForm) (s : State) : Out :=
  issueWord (ctlR 0x1C2 w [w.s1.toNat]).ending (perThread fun e =>
    jump e (if classOf w.s1 == .w then e.r64 w.s1.toNat else wordsFrom e.va (e.r32 w.s1.toNat)) []) s

/-- CALL (R132): the return address is written under R106. -/
def execCall (w : IForm) (s : State) : Out :=
  issueWord (iWord 0x1C3 w [] [w.d.toNat]).ending (perThread fun e =>
    jump e (wordsFrom e.va w.imm) (wr64 w.d.toNat (e.va + 8) 2)) s

/-- RET (R132). -/
def execRet (w : RForm) (s : State) : Out :=
  issueWord (ctlR 0x1C4 w [w.s1.toNat]).ending (perThread fun e => jump e (e.r64 w.s1.toNat) []) s

/-- EXIT in one thread (R134). A deferred trap that it still holds is due to an exited thread (R145, R146; log 51). -/
def exitThread (d : Nat) (e : Env) (s : State) : State :=
  let s1 := s.modThread d e.slot e.lane fun t => { t with run := .exited }
  match e.t.dtraps with
  | [] => s1
  | x :: _ => s1.abortBy (((s.core d).launch).getD 0) 9 x.cause d e.slot e.lane e.t.epc x.info

/-- EXIT (R134). -/
def execExit (w : RForm) (s : State) : Out :=
  issueWord (ctlR 0x1C5 w []).ending
    (fun g => { s := g.act.foldl (fun s e => exitThread g.d e s) g.s, out := g.act.map fun e => ((e.slot, e.lane), {}) }) s

/-- YIELD (R135). -/
def execYield (w : RForm) (s : State) : Out :=
  issueWord (ctlR 0x1C6 w []).ending (modEach fun _ t => { t with waitCtr := 0, yielded := true }) s

/-- SLEEP (R136); SLEEP #0 leaves the thread ready. -/
def execSleep (w : IForm) (s : State) : Out :=
  issueWord (ctlI 0x1C7 w).ending
    (modEach fun e t => if w.imm = 0 then t else { t with run := .sleeping, wake := e.s.clock + w.imm.toNat }) s

/-- TRAP (R137). -/
def execTrap (w : IForm) (s : State) : Out :=
  issueWord (ctlI 0x1C8 w) (perThread fun _ => TRes.trapped Cause.swtrap (w.imm.zeroExtend 64)) s

/-- RETT in one thread (R138): HND falls and the PC moves to sr.epc, or past it. -/
def returnTo (w : RForm) (e : Env) : TRes := jump e (if mbit w.mod 0 then e.t.epc + 8 else e.t.epc) []

/-- RETT (R138). -/
def execRett (w : RForm) (s : State) : Out :=
  issueWord (ctlR 0x1C9 w []).ending
    (fun g => { modEach (fun e t => if (returnTo w e).trap.isSome then t else t.rett) g with
                out := g.act.map fun e => ((e.slot, e.lane), returnTo w e) }) s

/-- BKPT (R137): it also halts the core where management has set the core's debug-halt enable. -/
def execBkpt (w : IForm) (s : State) : Out :=
  issueWord (ctlI 0x1CA w) (fun g =>
    { perThread (fun _ => TRes.trapped Cause.brk (w.imm.zeroExtend 64)) g with
      halt := if (g.s.core g.d).debugHalt && !(g.act.isEmpty) then 2 else 0 }) s

/-- SNAP (R139): each active thread triggers the snapshot with its own tag, in lane order. -/
def execSnap (w : RForm) (s : State) : Out :=
  issueWord (ctlR 0x1CB w [w.s1.toNat]) (fun g =>
    { s := if g.s.progen then g.act.foldl (fun s e => s.trigger 1 (e.r32 w.s1.toNat)) g.s else g.s
      out := g.act.map fun e => ((e.slot, e.lane), {}) }) s

/-- HALT (R140): it takes effect at the end of its run. -/
def execHalt (w : RForm) (s : State) : Out :=
  issueWord { ctlR 0x1CC w [] with priv := true }
    (fun g => { perThread (fun _ => {}) g with halt := if g.act.isEmpty then 0 else 1 }) s

/-- Every TLB of the device loses its entries (R141). -/
def State.flushTlbs (s : State) : State :=
  { s with cores := s.cores.map fun c => (c.1, { c.2 with tlb := [] })
           towers := s.towers.map fun t => (t.1, { t.2 with tlb := [] }) }

/-- TLBI (R141). -/
def execTlbi (w : RForm) (s : State) : Out :=
  issueWord { ctlR 0x1CD w [] with priv := true }
    (fun g => { perThread (fun _ => {}) g with s := if g.act.isEmpty then g.s else g.s.flushTlbs }) s

/-! ### Words that are no instruction, and paired words -/

/-- A word with an unassigned opcode (R82): ILLOP in every thread of the group, after the 25th-word check of R84. -/
def execUnassignedOpcode (w : BitVec 64) (s : State) : Out :=
  let (d, port) := s.cur
  let p := (s.core d).port port
  match s.coreLaunch d with
  | none => .next s
  | some _ =>
    if !p.active then .next s
    else
      trapGroup s { e := w.getLsbD 63, stall := natBits w.toNat 62 59, gn := false, gp := 7 } 1
        (if 24 ≤ p.count then Cause.illrun else Cause.illop) w

/-- Result, flags and latency of a paired half (R63, R64), from the old D, S and the rounding mode of sr.mode. -/
def halfOp (op : Nat) (rm : Nat) (d x : W32) : (W32 × W32) × Nat :=
  let nat := fun (q : Nat × W32) => (BitVec.ofNat 32 q.1, q.2)
  match op with
  | 0x00 => ((d + x, 0), 2)
  | 0x01 => ((d - x, 0), 2)
  | 0x02 => ((d * x, 0), 4)
  | 0x03 => ((fImin false d x, 0), 2)
  | 0x04 => ((fImax false d x, 0), 2)
  | 0x05 => ((d &&& x, 0), 2)
  | 0x06 => ((d ||| x, 0), 2)
  | 0x07 => ((d ^^^ x, 0), 2)
  | 0x08 => ((d &&& ~~~x, 0), 2)
  | 0x09 => ((fShl d x.toNat, 0), 2)
  | 0x0A => ((fShr d x.toNat, 0), 2)
  | 0x0B => ((fSar d x.toNat, 0), 2)
  | 0x0C => ((x, 0), 2)
  | 0x0D => ((fIabs x, 0), 2)
  | 0x0E => ((~~~x, 0), 2)
  | 0x0F => ((fPopc x, 0), 2)
  | 0x10 => ((fClz x, 0), 2)
  | 0x11 => ((fBrev x, 0), 2)
  | 0x12 => (nat (f32.add rm d.toNat x.toNat), 4)
  | 0x13 => (nat (f32.sub rm d.toNat x.toNat), 4)
  | 0x14 => (nat (f32.mul rm d.toNat x.toNat), 4)
  | 0x15 => ((BitVec.ofNat 32 (fminmax false d.toNat x.toNat), 0), 4)
  | 0x16 => ((BitVec.ofNat 32 (fminmax true d.toNat x.toNat), 0), 4)
  | 0x17 => (nat (packed (bf16.add rm) d.toNat x.toNat), 4)
  | 0x18 => (nat (packed (bf16.mul rm) d.toNat x.toNat), 4)
  | 0x19 => (nat (frcp rm x.toNat), 10)
  | 0x1A => (nat (frsq x.toNat), 10)
  | 0x1B => (nat (fex2 x.toNat), 10)
  | 0x1C => (nat (flg2 x.toNat), 10)
  | 0x1D => (nat (fsqrt rm x.toNat), 10)
  | 0x1E => ((d &&& x, 0), 2)
  | _ => ((d ||| x, 0), 2)

/-- The half is a unary operation (R64). -/
def halfUnary (op : Nat) : Bool := (0x0C ≤ op && op ≤ 0x11) || (0x19 ≤ op && op ≤ 0x1D)
/-- The half is an operation of class 1, which only V warps issue (R100). -/
def halfFloat (op : Nat) : Bool := 0x12 ≤ op && op ≤ 0x1D

/-- The guard of a half (R62, R64). -/
def Env.halfGuard (e : Env) (h : Half) : Bool := h.g == 7 || (e.reg (832 + h.g.toNat)).getLsbD 0

/-- The register that a half writes where its guard is ready and true (R76, R106). -/
def halfLeaves (e : Env) (h : Half) : List Nat :=
  if h.g != 7 && (e.early (832 + h.g.toNat)).isSome then [] else if e.halfGuard h then [h.d.toNat] else []

/-- The registers that a half reads. -/
def halfReads (h : Half) : List Nat := if halfUnary h.op.toNat then [h.s.toNat] else [h.d.toNat, h.s.toNat]

/-- The result of a half whose guard is true. -/
def halfRes (e : Env) (h : Half) : List (RegW × W32) :=
  if e.halfGuard h then
    let r := halfOp h.op.toNat (natBits e.t.mode.toNat 3 2) (e.r32 h.d.toNat) (e.r32 h.s.toNat)
    [(wr32 h.d.toNat r.1.1 r.2, r.1.2)]
  else []

/-- Issue data of a paired word: each half has its own guard. -/
def pairedSpec (w : PForm) : WSpec :=
  { h := { e := w.e, stall := w.stall.toNat, gn := false, gp := 7 }, word := joinP w
    roles := if halfFloat w.a.op.toNat || halfFloat w.b.op.toNat then [.v] else [.c, .m, .v]
    vregs := [w.a.d.toNat, w.a.s.toNat, w.b.d.toNat, w.b.s.toNat].filter (· < 768)
    reads := fun e =>
      (([w.a, w.b].filter fun h => h.g != 7).map fun h => 832 + h.g.toNat) ++
      ([w.a, w.b].filter e.halfGuard).flatMap halfReads
    leaves := some fun e => halfLeaves e w.a ++ halfLeaves e w.b }

/-- A paired word (R64): both halves read before either writes, and a trap of one leaves both unwritten. -/
def execPairedWord (w : PForm) (s : State) : Out :=
  issueWord (pairedSpec w) (perThread fun e =>
    { flagged (halfRes e w.a ++ halfRes e w.b) e with leaves := some (halfLeaves e w.a ++ halfLeaves e w.b) }) s

end Sys2Proof.Machine
end

