-- ==== Sys2Proof/Machine/Scratch.lean ====
section
/-! DEFINITION. Class 4 (13 R323 to R338): scratchpad loads, stores and atomics, local and remote, and the remote
scratchpad operations: one meaning per instruction. Direct accesses take effect when their word issues. -/

namespace Sys2Proof.Machine

open Sys2Proof

/-- A direct access of one thread: its 32-bit address, and the core and bytes it names. -/
structure SAcc where
  env : Env
  addr : BitVec 32
  core : Nat
  off : Nat
  n : Nat

def SAcc.span (a : SAcc) : Span := (a.core, a.off, a.off + a.n)

/-- The access has to wait: an engine owns one of its rows (R366), or an earlier access of the thread is held back
(R325, R364). -/
def SAcc.waits (s : State) (a : SAcc) : Bool :=
  s.keepsOut a.core a.off (a.off + a.n) || (s.core a.env.d).hasHeld [(a.env.slot, a.env.lane)] s.nextId

/-- Other ports or engines of the core may take bank cycles (R299). -/
def Core.otherTraffic (c : Core) (port : PortId) : Bool :=
  c.ports.any (fun q => q.1 != portRank port && q.2.active) || !(c.ops.isEmpty) || !(c.issueOrder.isEmpty)

/-- The frozen cycles of an access to these spans: bank conflicts of the group itself and those of others (log 7). -/
def Grp.bankCycles (g : Grp) (spans : List Span) : Nat :=
  bankConflict spans + (if !(spans.isEmpty) && g.core.otherTraffic g.port then Config.extraCycles g.s.free else 0)

/-- The cycles that remote parts take (R334; log 7). -/
def Grp.remoteCycles (g : Grp) (remote : Bool) : Nat := if remote then Config.extraCycles (g.s.free + 1) else 0

/-- The fault record of an uncorrectable error that a thread meets (R311, R398). -/
def Env.uncRecord (e : Env) (access : Nat) (va : BitVec 64) (s : State) : State :=
  (s.postFault 0x50 access 0 e.d e.slot (((s.core e.d).launch).getD 0) e.va va 0 0 none false).1

/-- An address formed by a thread, with the trap that R294 gives it. -/
def Env.checkS (e : Env) (addr : BitVec 32) (n z : Nat) : Except (Nat × BitVec 64) SAcc :=
  match scrCheck e.l e.d addr n z with
  | some t => .error t
  | none => .ok { env := e, addr := addr, core := scrCore e.d addr, off := scrOff addr, n := n }

/-- The turn of one lane in a word of direct accesses: its result; where `hold` keeps it from its effect, the group waits. -/
def turnAcc (hold : SAcc → State → Bool) (eff : SAcc → State → State × TRes) (p : Env × Except (Nat × BitVec 64) SAcc)
    (s : State) : State × TRes × Bool :=
  match p.2 with
  | .error t => (s, TRes.trapped t.1 t.2, false)
  | .ok a => ((eff a s).1, (eff a s).2, hold a s)

/-- Direct scratchpad accesses of a group: every thread's address is checked, and the accesses take effect in lane order; the
group waits while one of them has to wait, or `hold` says so of one in its turn (R325, R326, R329, R333). -/
def direct (n z : Nat) (addr : Env → BitVec 32) (hold : SAcc → State → Bool) (eff : SAcc → State → State × TRes) (g : Grp) :
    Res :=
  let plan := g.act.map fun e => (e, e.checkS (addr e) n z)
  let accs := plan.filterMap fun p => p.2.toOption
  let r := plan.foldl (fun (acc : State × List ((Nat × Nat) × TRes) × Bool) p =>
    let q := turnAcc hold eff p acc.1
    (q.1, acc.2.1 ++ [((p.1.slot, p.1.lane), q.2.1)], acc.2.2 || q.2.2)) (g.s, [], false)
  if r.2.2 || accs.any (·.waits g.s) then { s := g.s, retry := true }
  else
    { s := r.1, out := r.2.1, freeze := g.bankCycles (accs.map SAcc.span)
      other := g.remoteCycles (accs.any fun a => a.addr.getLsbD 31) }

/-- A load of the bytes of an access (R311). -/
def loadAcc (f : List (BitVec 8) → List RegW) (a : SAcc) (s : State) : State × TRes :=
  let c := s.core a.core
  if c.scrBad a.off a.n then
    (a.env.uncRecord 1 (a.addr.zeroExtend 64) s, TRes.trapped Cause.uncmem (a.addr.zeroExtend 64))
  else (s, { writes := f (c.scrRead a.off a.n) })

/-- What keeps a plain store from its effect: BARCLOBBER (R466), or a unit with an error that it covers in part (R311). -/
def storeTrap (s : State) (addr : BitVec 32) (core off n : Nat) : Option (Nat × BitVec 64) :=
  match clobbers s core off n with
  | some o => some (Cause.barclobber, ((addr &&& 0xFFFC0000#32) ||| BitVec.ofNat 32 o).zeroExtend 64)
  | none => if (s.core core).scrPartBad off n then some (Cause.uncmem, addr.zeroExtend 64) else none

/-- The fault record of a trap, where it is one of R311. -/
def Env.recordOf (e : Env) (access : Nat) (t : Nat × BitVec 64) (s : State) : State :=
  if t.1 = Cause.uncmem then e.uncRecord access t.2 s else s

/-- A plain store of an access. -/
def storeAcc (bytes : Env → List (BitVec 8)) (a : SAcc) (s : State) : State × TRes :=
  match storeTrap s a.addr a.core a.off a.n with
  | some t => (a.env.recordOf 2 t s, TRes.trapped t.1 t.2)
  | none => (s.plainStore a.core a.off (bytes a.env), {})

/-! ### Loads and stores -/

/-- The address of an M-form word (R61, R329). -/
def mAddr (w : MForm) (z : Nat) (e : Env) : BitVec 32 :=
  e.r32 w.s1.toNat + BitVec.ofInt 32 (w.off.toInt * z)
def mSize (w : MForm) : Nat := 2 ^ mfld w.mod 2 0
/-- The registers of the block of LDSB and STSB. -/
def mBlock (w : MForm) : List Nat := blockRegs w.d.toNat (ldsbH w) (ldsbW w)

/-- Issue data of an M-form word. -/
def mWord (op : Nat) (w : MForm) (n : Nat) (srcs dsts : List Nat) : WSpec :=
  { h := headM w, word := wordM op w, n := n, vregs := (srcs ++ dsts).filter (· < 768), reads := fun _ => srcs }

/-- LDS (R327 to R329). -/
def execLds (w : MForm) (s : State) : Out :=
  let z := mSize w
  issueWord (mWord 0x100 w 1 [w.s1.toNat] (dataRegs w.d.toNat z))
    (direct z z (mAddr w z) (fun _ _ => false) (loadAcc fun bs => loadRegs w.d.toNat z (mbit w.mod 3) bs 14)) s

/-- STS (R327 to R329). -/
def execSts (w : MForm) (s : State) : Out :=
  let z := mSize w
  issueWord (mWord 0x101 w 1 (w.s1.toNat :: dataRegs w.d.toNat z) [])
    (direct z z (mAddr w z) (fun _ _ => false) (storeAcc fun e => e.dataBytes w.d.toNat z)) s

/-- The registers of a block take consecutive elements, each zero-extended (R329). -/
def loadBlock (w : MForm) (z : Nat) (bs : List (BitVec 8)) : List RegW :=
  (mBlock w).zipIdx.map fun r => wr32 r.1 (BitVec.ofNat 32 (leNat ((bs.drop (r.2 * z)).take z))) 14

/-- LDSB (R327 to R329). -/
def execLdsb (w : MForm) (s : State) : Out :=
  let z := mSize w
  let n := ldsbH w * ldsbW w
  issueWord (mWord 0x102 w n [w.s1.toNat] (mBlock w))
    (direct (n * z) z (mAddr w z) (fun _ _ => false) (loadAcc (loadBlock w z))) s

/-- STSB (R327 to R329). -/
def execStsb (w : MForm) (s : State) : Out :=
  let z := mSize w
  let n := ldsbH w * ldsbW w
  issueWord (mWord 0x103 w n (w.s1.toNat :: mBlock w) [])
    (direct (n * z) z (mAddr w z) (fun _ _ => false)
      (storeAcc fun e => (mBlock w).flatMap fun r => leBytes z (e.r32 r).toNat)) s

/-! ### Atomics -/

/-- The operation of ATS, ATRM, ATB and ATQ on a word, with the flags of FADD (R330, R331). -/
def atomOp (opc : Nat) (u : Bool) (old x : W32) : W32 × W32 :=
  match opc with
  | 0 => (old + x, 0)
  | 1 => (fImin u old x, 0)
  | 2 => (fImax u old x, 0)
  | 3 => (old &&& x, 0)
  | 4 => (old ||| x, 0)
  | 5 => (old ^^^ x, 0)
  | 6 => (x, 0)
  | _ =>
    let r := f32.add 0 old.toNat x.toNat
    (BitVec.ofNat 32 r.1, r.2)

/-- An ordering field has .ACQ or .REL (R333). -/
def ordAcq (ord : Nat) : Bool := ord == 1 || ord == 3
def ordRel (ord : Nat) : Bool := ord == 2 || ord == 3

/-- An earlier deferred transfer of the thread has writes to perform (R333, R360). -/
def Env.deferredLeft (s : State) (e : Env) : Bool := (s.core e.d).hasDeferred [(e.slot, e.lane)] s.nextId

/-- The thread makes an acquire (R333, R370). -/
def State.acquire (s : State) (d slot lane : Nat) : State := s.modThread d slot lane fun t => { t with acqAt := s.clock }

/-- The word of an atomic access on a scratchpad, and the trap of an uncorrectable error (R311). -/
def State.word (s : State) (core off : Nat) : W32 := BitVec.ofNat 32 (leNat ((s.core core).scrRead off 4))

/-- One ATS (R331). -/
def atsAcc (w : MForm) (a : SAcc) (s : State) : State × TRes :=
  if (s.core a.core).scrBad a.off 4 then
    (a.env.uncRecord 4 (a.addr.zeroExtend 64) s, TRes.trapped Cause.uncmem (a.addr.zeroExtend 64))
  else
    match storeTrap s a.addr a.core a.off 4 with
    | some t => (s, TRes.trapped t.1 t.2)
    | none =>
      let old := s.word a.core a.off
      let r := atomOp (mfld w.mod 5 3) (mbit w.mod 6) old (a.env.r32 w.d.toNat)
      let s1 := s.plainStore a.core a.off (leBytes 4 r.1.toNat)
      (if ordAcq (mfld w.mod 8 7) then s1.acquire a.env.d a.env.slot a.env.lane else s1,
       { writes := [wr32 w.d.toNat old 14], flags := r.2 })

/-- ATS (R330, R331, R333). -/
def execAts (w : MForm) (s : State) : Out :=
  issueWord (mWord 0x104 w 1 [w.s1.toNat, w.d.toNat] [w.d.toNat])
    (direct 4 4 (mAddr w 4) (fun a _ => ordRel (mfld w.mod 8 7) && a.env.deferredLeft a.env.s) (atsAcc w)) s

/-- The 4 or 8 bytes of an operand of CASS. -/
def casOperand (e : Env) (x z : Nat) : W64 := if z = 8 then e.r64 x else (e.r32 x).zeroExtend 64
def casRegs (x z : Nat) : List Nat := if z = 8 then regs64 x else [x]
/-- The compare of CASS succeeds (R332); an uncorrectable error leaves nothing to compare (R311). -/
def cassHit (w : RForm) (z : Nat) (a : SAcc) (s : State) : Bool :=
  !((s.core a.core).scrBad a.off z) && leNat ((s.core a.core).scrRead a.off z) == (casOperand a.env w.d.toNat z).toNat

/-- One CASS (R332): .ACQ by the success order, or by FACQ where the compare fails. -/
def cassAcc (w : RForm) (z : Nat) (a : SAcc) (s : State) : State × TRes :=
  if (s.core a.core).scrBad a.off z then
    (a.env.uncRecord 4 (a.addr.zeroExtend 64) s, TRes.trapped Cause.uncmem (a.addr.zeroExtend 64))
  else
    let old := leNat ((s.core a.core).scrRead a.off z)
    let res : TRes := { writes := if z = 8 then wr64 w.d.toNat (BitVec.ofNat 64 old) 14
                                  else [wr32 w.d.toNat (BitVec.ofNat 32 old) 14] }
    let acq := fun (b : Bool) (s : State) => if b then s.acquire a.env.d a.env.slot a.env.lane else s
    if cassHit w z a s then
      match storeTrap s a.addr a.core a.off z with
      | some t => (s, TRes.trapped t.1 t.2)
      | none =>
        (acq (ordAcq (mfld w.mod 4 3)) (s.plainStore a.core a.off (leBytes z (casOperand a.env w.s2.toNat z).toNat)), res)
    else (acq (mbit w.mod 5) s, res)

/-- CASS (R330, R332, R333): .REL holds the group only where a compare succeeds, in the lane's turn. -/
def execCass (w : RForm) (s : State) : Out :=
  let z := mSize16 w
  issueWord (rWord 0x105 w (w.s1.toNat :: casRegs w.d.toNat z ++ casRegs w.s2.toNat z) (casRegs w.d.toNat z))
    (direct z z (fun e => e.r32 w.s1.toNat)
      (fun a s => ordRel (mfld w.mod 4 3) && cassHit w z a s && a.env.deferredLeft a.env.s) (cassAcc w z)) s
where
  /-- The access size of CASS (R330). -/
  mSize16 (w : RForm) : Nat := if mfld w.mod 2 0 = 3 then 8 else 4

/-! ### Remote scratchpad operations -/

/-- The two halves of a w register operand. -/
def lo32 (x : W64) : BitVec 32 := x.setWidth 32
def hi32 (x : W64) : BitVec 32 := x.extractLsb' 32 32

/-- Every active lane of a warp traps alike. -/
def allTrap (es : List Env) (t : Nat × BitVec 64) : List ((Nat × Nat) × TRes) :=
  es.map fun e => ((e.slot, e.lane), TRes.trapped t.1 t.2)

/-- A new operation in flight of the warp whose active threads are given; the lowest lane is its warp thread (R324, R529). -/
def newOp (s : State) (es : List Env) (deferred : Bool) (body : OpBody) : Op :=
  { id := s.nextId, word := s.nextId, va := (es.head?.map (·.va)).getD 0, slot := (es.head?.map (·.slot)).getD 0, lane := (es.head?.map (·.lane)).getD 0
    threads := es.map fun e => (e.slot, e.lane), deferred := deferred, rel := false, acq := false, parked := none
    ownS := [], ownV := [], clobber := none, xlat := [], body := body }

/-- An operation enters flight (R78). -/
def State.issueOp (s : State) (d : Nat) (o : Op) : State :=
  { s.modCore d (fun c => { c with ops := c.ops ++ [o] }) with nextId := s.nextId + 1 }

/-- A thread of a thread's warp that executes the word: its w and b registers are those of every other (R106). -/
def warpThread (es : List Env) (e : Env) : Env := (es.find? (·.slot == e.slot)).getD e
/-- The active threads of a warp (R204, R529), by those of them that execute the word. -/
def company (h : Head) (es : List Env) : List Env :=
  match es with
  | [] => []
  | e :: _ => e.active h

/-- An address of a thread, and then what its warp meets (R144, R336). -/
def Env.checkBefore (e : Env) (t : Option (Nat × BitVec 64)) (addr : BitVec 32) (n z : Nat) : Except (Nat × BitVec 64) SAcc :=
  match e.checkS addr n z, t with
  | .ok _, some t => .error t
  | r, _ => r

/-- Direct accesses of each lane whose operation counts later on a barrier of its warp (R336, R338): `pre` gives the
trap that all active lanes of a warp take at issue after that of their address, `held` keeps the accesses of the word back in the
engine where a warp's lanes ask for it, `eff` performs one lane and answers its old value, and `mk` makes the warp's operation
from the lanes performed. -/
def counted (n z addrReg : Nat) (pre : Env → Option (Nat × BitVec 64)) (held : List Env → Bool)
    (eff : SAcc → State → State × TRes × Option (BitVec 64))
    (mk : List Env → List (Nat × BitVec 64) → OpBody) (mkHeld : List Env → List SAcc → State → State) (g : Grp) : Res :=
  let isHeld := g.warps.any fun q => held q.2
  let plan := g.act.map fun e =>
    (e, e.checkBefore (pre (warpThread g.act e)) (e.r32 addrReg) n z)
  let accs := plan.filterMap fun p => p.2.toOption
  if !isHeld && accs.any (·.waits g.s) then { s := g.s, retry := true }
  else
    let r := plan.foldl (fun (acc : State × List ((Nat × Nat) × TRes) × List ((Nat × Nat) × BitVec 64)) p =>
      let key := (p.1.slot, p.1.lane)
      match p.2 with
      | .error t => (acc.1, acc.2.1 ++ [(key, TRes.trapped t.1 t.2)], acc.2.2)
      | .ok a =>
        if isHeld then (acc.1, acc.2.1 ++ [(key, ({} : TRes))], acc.2.2)
        else
          let q := eff a acc.1
          (q.1, acc.2.1 ++ [(key, q.2.1)], acc.2.2 ++ (q.2.2.toList.map fun v => (key, v)))) (g.s, [], [])
    let s1 := g.warps.foldl (fun s q =>
      let all := company g.h q.2
      if isHeld then
        let hs := accs.filter fun a => a.env.slot == q.1
        if hs.isEmpty then s else mkHeld all hs s
      else
        let done := r.2.2.filter fun v => v.1.1 == q.1
        if done.isEmpty then s
        else s.issueOp g.d { newOp s all false (mk q.2 (done.map fun v => (v.1.2, v.2))) with word := g.s.nextId }) r.1
    { s := s1, out := r.2.1, freeze := g.bankCycles (accs.map SAcc.span) }

/-- The barrier address of a warp's w register fails its checks: a barrier on any core (R336) or a local one. -/
def barTrap (loc : Bool) (e : Env) (bar : BitVec 32) : Option (Nat × BitVec 64) :=
  if loc then scrCheckLocal e.l bar 16 16 else scrCheck e.l e.d bar 16 16

/-- STRM (R336). -/
def execStrm (w : RForm) (s : State) : Out :=
  let z := 2 ^ mfld w.mod 2 0
  issueWord (rWord 0x106 w (w.s1.toNat :: w.s2.toNat :: dataRegs w.d.toNat z) []).cOnly
    (counted z z w.s1.toNat (fun e => barTrap false e (hi32 (e.r64 w.s2.toNat))) (fun _ => false)
      (fun a s =>
        let r := storeAcc (fun e => e.dataBytes w.d.toNat z) a s
        (r.1, r.2, if r.2.trap.isSome then none else some 0))
      (fun es done => .strm z ((es.head?.map fun e => (hi32 (e.r64 w.s2.toNat)).toNat).getD 0) (done.map (·.1)))
      (fun _ _ s => s)) s

/-- The slot of a warp's old values: 16-byte aligned, `n` bytes in the local partition (R338, R342). -/
def slotTrap (e : Env) (slot : BitVec 32) (n : Nat) : Option (Nat × BitVec 64) := scrCheckLocal e.l slot n 16

/-- One ATRM at its target, with the old value it leaves for the slot (R338). -/
def atrmAcc (w : RForm) (a : SAcc) (s : State) : State × TRes × Option (BitVec 64) :=
  if (s.core a.core).scrBad a.off 4 then
    (a.env.uncRecord 4 (a.addr.zeroExtend 64) s, TRes.trapped Cause.uncmem (a.addr.zeroExtend 64), none)
  else
    match storeTrap s a.addr a.core a.off 4 with
    | some t => (s, TRes.trapped t.1 t.2, none)
    | none =>
      let old := s.word a.core a.off
      let r := atomOp (mfld w.mod 5 3) (mbit w.mod 6) old (a.env.r32 w.d.toNat)
      let s1 := s.plainStore a.core a.off (leBytes 4 r.1.toNat)
      (if ordAcq (mfld w.mod 8 7) then s1.acquire a.env.d a.env.slot a.env.lane else s1, { flags := r.2 },
       some (old.zeroExtend 64))

/-- The lanes of an ATRM that its engine holds back for .REL (R333). -/
def atrmHold (w : RForm) (d word : Nat) (es : List Env) (hs : List SAcc) (s : State) : State :=
  let wx := (es.head?.map fun e => e.r64 w.s2.toNat).getD 0
  let body : OpBody := .atrmHeld (mfld w.mod 5 3) (mbit w.mod 6) (lo32 wx).toNat (hi32 wx).toNat
    (hs.map fun a => (a.env.lane, a.addr.toNat, a.env.r32 w.d.toNat)) []
  s.issueOp d { newOp s es false body with word := word, rel := true, acq := mfld w.mod 8 7 == 3 }

/-- ATRM (R338). With .REL the engine holds the word's accesses back while earlier deferred transfers of its threads have
writes to perform. Its barrier may lie on another core, as R336 has it (DEDUCED, log 62). -/
def execAtrm (w : RForm) (s : State) : Out :=
  issueWord (rWord 0x108 w [w.s1.toNat, w.s2.toNat, w.d.toNat] []).cOnly
    (fun g => counted 4 4 w.s1.toNat
      (fun e =>
        match barTrap false e (hi32 (e.r64 w.s2.toNat)) with
        | some t => some t
        | none => slotTrap e (lo32 (e.r64 w.s2.toNat)) 128)
      (fun es => ordRel (mfld w.mod 8 7) && g.core.hasDeferred (es.map fun e => (e.slot, e.lane)) g.s.nextId)
      (atrmAcc w)
      (fun es done =>
        let wx := (es.head?.map fun e => e.r64 w.s2.toNat).getD 0
        .atrm (lo32 wx).toNat (hi32 wx).toNat (done.map fun v => (v.1, v.2.setWidth 32)))
      (atrmHold w g.d g.s.nextId) g) s

/-- What keeps an LDRM from being issued (R337): source and destination, count and barrier. -/
def ldrmTrap (e : Env) (src dst count bar : BitVec 32) : Option (Nat × BitVec 64) :=
  let n := count.toNat
  match [src, dst, bar, count].find? fun x => x.toNat % 16 ≠ 0 with
  | some x => some (Cause.spalign, x.zeroExtend 64)
  | none =>
    let srcBad := natBits src.toNat 23 18 ≠ 0 ∨ (!(src.getLsbD 31) ∧ natBits src.toNat 30 24 ≠ 0) ∨
      e.l.scratchBytes < scrOff src + n
    let dstBad := natBits dst.toNat 31 18 ≠ 0 ∨ e.l.scratchBytes < scrOff dst + n
    let barBad := natBits bar.toNat 31 18 ≠ 0 ∨ e.l.scratchBytes < scrOff bar + 16
    if n = 0 ∨ 262144 < n then some (Cause.spaddr, count.zeroExtend 64)
    else if dst.getLsbD 31 then some (Cause.spaddr, dst.zeroExtend 64)
    else if bar.getLsbD 31 ∨ barBad then some (Cause.spaddr, bar.zeroExtend 64)
    else if srcBad then some (Cause.spaddr, src.zeroExtend 64)
    else if dstBad then some (Cause.spaddr, dst.zeroExtend 64)
    else if scrCore e.d src = e.d ∧ scrOff src < scrOff dst + n ∧ scrOff dst < scrOff src + n then
      some (Cause.spaddr, src.zeroExtend 64)
    else if src.getLsbD 31 ∧ !(e.l.inWard (scrCore e.d src)) then
      some (Cause.court, courtInfo (coreX (scrCore e.d src)) (coreY (scrCore e.d src)) 1 1)
    else none

/-- LDRM of one warp: the trap of its warp thread, or the transfer, which owns its destination rows (R324, R337, R366). A warp
whose warp thread has trapped at the word issues nothing. -/
def ldrmWarp (w : RForm) (d : Nat) (q : Nat × List Env) (acc : State × List ((Nat × Nat) × TRes)) :
    State × List ((Nat × Nat) × TRes) :=
  match q.2 with
  | [] => acc
  | e :: _ =>
    let h := headR w
    if !(e.isLowest h) then acc else
    let a := e.r64 w.s1.toNat
    let b := e.r64 w.s2.toNat
    match ldrmTrap e (lo32 a) (hi32 a) (lo32 b) (hi32 b) with
    | some t => (acc.1, acc.2 ++ [((e.slot, e.lane), TRes.trapped t.1 t.2)])
    | none =>
      let n := (lo32 b).toNat
      let dst := scrOff (hi32 a)
      let body : OpBody := .ldrm (scrCore d (lo32 a)) (scrOff (lo32 a)) dst (hi32 b).toNat
        (List.range (n / 16))
      (acc.1.issueOp d { newOp acc.1 (e.active h) true body with ownS := [(d, dst, dst + n)] }, acc.2)

/-- The results of a group's threads, in its order: those that `out` gives, and for every other thread that it completes. -/
def Grp.rest (g : Grp) (out : List ((Nat × Nat) × TRes)) : List ((Nat × Nat) × TRes) :=
  g.act.map fun e => ((e.slot, e.lane), ((out.find? fun q => q.1 == (e.slot, e.lane)).map (·.2)).getD {})

/-- LDRM (R337): once for each warp present. -/
def execLdrm (w : RForm) (s : State) : Out :=
  issueWord (rWord 0x107 w [w.s1.toNat, w.s2.toNat] []).cOnly
    (fun g =>
      let r := g.warps.foldl (fun acc q => ldrmWarp w g.d q acc) (g.s, [])
      { s := r.1, out := g.rest r.2 }) s

end Sys2Proof.Machine
end

