-- ==== Sys2Proof/Machine/Access.lean ====
section
/-! DEFINITION. Messages to peers (17 R429, R431), reads and writes of virtual memory by engines and buffer instructions
(16 R403 to R409, 14 R370, R371), and buffer records (12 R316 to R319). -/

namespace Sys2Proof.Machine

open Sys2Proof

/-! ### Ports towards peers -/

def State.link (s : State) (p : Nat) : Link := findD s.fab.links p Link.reset
def State.setLink (s : State) (p : Nat) (x : Link) : State := { s with fab := { s.fab with links := put s.fab.links p x } }
def State.domain (s : State) (d : Nat) : Domain := findD s.fab.domains d Domain.reset
def State.setDomain (s : State) (d : Nat) (x : Domain) : State :=
  { s with fab := { s.fab with domains := put s.fab.domains d x } }

/-- STATE, RATE, PEERPORT, PEERM and PEERID of a link-table row (R434). -/
def rowState (r : BitVec 128) : Nat := natBits r.toNat 1 0
def rowRate (r : BitVec 128) : Nat := natBits r.toNat 29 28
def rowPeerPort (r : BitVec 128) : Nat := natBits r.toNat 33 30
def rowPeerM (r : BitVec 128) : Nat := natBits r.toNat 39 34
def rowReplays (r : BitVec 128) : Nat := natBits r.toNat 63 48
def rowRetrains (r : BitVec 128) : Nat := natBits r.toNat 71 64
def rowPeerId (r : BitVec 128) : BitVec 32 := r.extractLsb' 96 32
/-- STATE is up or degraded (R434). -/
def rowUp (r : BitVec 128) : Bool := rowState r == 1 || rowState r == 2
/-- A row with other values of its fields. -/
def mkRow (state rate peerPort peerM replays retrains : Nat) (peerId : BitVec 32) : BitVec 128 :=
  peerId ++ 0#24 ++ BitVec.ofNat 8 retrains ++ BitVec.ofNat 16 replays ++ 0#8 ++ BitVec.ofNat 6 peerM ++
    BitVec.ofNat 4 peerPort ++ BitVec.ofNat 2 rate ++ 0#26 ++ BitVec.ofNat 2 state

/-- The port of a route, where one is up or degraded (R429). -/
def State.route (s : State) (peer : Nat) (pport : Bool) : Option Nat :=
  if pport then (if rowUp (s.link (peer % 16)).row then some (peer % 16) else none)
  else (List.range 16).find? fun p => rowPeerM (s.link p).row == peer && rowUp (s.link p).row

/-- A PEER page that the device accepts (R429). -/
def State.peerOk (s : State) (peer : Nat) (pport : Bool) : Bool :=
  pport || (let d := s.domain 0; d.en && decide (peer < d.n) && peer != d.self)

/-- A flit leaves on a port, or waits there while the replay buffer is full or the port retrains (R431, R432). -/
def Link.send (l : Link) (m : LinkMsg) : Link :=
  if l.retraining.isNone && l.held.isEmpty && l.replay.length < 256 then { l with replay := l.replay ++ [m] }
  else { l with held := l.held ++ [m] }
/-- The peer owes an acknowledgement from the first flit on (R432). -/
def State.sendOn (s : State) (p : Nat) (m : LinkMsg) : State :=
  let l := s.link p
  s.setLink p { l.send m with ackAt := if l.replay.isEmpty then s.clock else l.ackAt }

/-- A port takes traffic to a peer, and the requester keeps it until the peer has acknowledged it (R429, R431). -/
def State.sendNoted (s : State) (p : Nat) (o : OutMsg) : State :=
  let s1 := s.sendOn p o.msg
  { s1 with fab := { s1.fab with sent := s1.fab.sent ++ [(p, o)] } }

/-- Traffic to a peer (R429): it waits at this requester, in order, while no port of its route is up or degraded. -/
def State.sendPeer (s : State) (o : OutMsg) : State :=
  if s.fab.outbox.any fun q => q.peer == o.peer && q.pport == o.pport then
    { s with fab := { s.fab with outbox := s.fab.outbox ++ [o] } }
  else
    match s.route o.peer o.pport with
    | some p => s.sendNoted p o
    | none => { s with fab := { s.fab with outbox := s.fab.outbox ++ [o] } }

/-- What waits is sent once a port reaches its peer (R429). -/
def State.drainOutbox (s : State) : State :=
  s.fab.outbox.foldl (fun s o => s.sendPeer o) { s with fab := { s.fab with outbox := [] } }

/-- The name in the caches of the PEER line at a physical address of a peer. -/
def peerKey (peer : Nat) (pport : Bool) (pa : Nat) : Nat := lineKey { ty := 3, pa := pa, peer := peer, pport := pport }

/-- Ask the peer for a line that no usable copy holds (R371), unless it has been asked since the reader's last acquire. -/
def State.askPeer (s : State) (key op acq : Nat) (p : Loc) : State :=
  let k := lineKey p
  if s.fab.peerReads.any fun q => q.1 == k && decide (acq < q.2) then s
  else
    ({ s with fab := { s.fab with peerReads := s.fab.peerReads ++ [(k, s.clock)] } }).sendPeer
      { launch := key, op := op, lane := 0, peer := p.peer, pport := p.pport, msg := .peerRead (p.pa / 128 * 128) }

/-! ### Reads and writes of virtual memory -/

/-- On whose behalf an access is made: core, page tables, privilege, launch, operation and lane of it, and the cycle of the
thread's last acquire. -/
structure Who where
  d : Nat
  root : Nat
  priv : Bool
  key : Nat
  op : Nat
  lane : Nat := 0
  acq : Nat
  deriving DecidableEq, Repr

/-- What a read of memory answers: a value, an error, or that a PEER line has still to arrive. -/
inductive Got (α : Type) where
  | ok (s : State) (x : α)
  | err (s : State) (e : XErr)
  | wait (s : State)

/-- The parts of a range of bytes within 128-byte lines. -/
def lineParts (va : BitVec 64) (n : Nat) : List (BitVec 64 × Nat) :=
  let first := va.toNat / 128
  let last := (va.toNat + n - 1) / 128
  (List.range (last + 1 - first)).map fun i =>
    let lo := max va.toNat (128 * (first + i))
    let hi := min (va.toNat + n) (128 * (first + i + 1))
    (BitVec.ofNat 64 lo, hi - lo)

/-- Translate every line of a range before any byte moves (R411). -/
def translateAll (w : Who) (k : Access) : List (BitVec 64 × Nat) → State → State × Except XErr (List (Loc × Nat))
  | [], s => (s, .ok [])
  | (va, n) :: r, s =>
    match translateOn s w.d w.root w.priv va k with
    | (s1, .error e) => (s1, .error e)
    | (s1, .ok p) =>
      if p.loc.ty = 3 ∧ !(s1.peerOk p.loc.peer p.loc.pport) then (s1, .error .prot)
      else
        match translateAll w k r s1 with
        | (s2, .error e) => (s2, .error e)
        | (s2, .ok ps) => (s2, .ok ((p.loc, n) :: ps))

/-- The place lies in this device's own memory. -/
def Loc.own (p : Loc) : Bool := p.ty == 0 || p.ty == 1 || p.ty == 4

/-- Read bytes that lie at translated places (R311, R370, R371). -/
def readLocs (w : Who) : List (Loc × Nat) → State → Got (List (BitVec 8))
  | [], s => .ok s []
  | (p, n) :: r, s =>
    if p.own && s.devBad p.pa n then .err (s.meet p.pa n) .unc
    else
      match s.locRead p w.acq n with
      | none => .wait (s.askPeer w.key w.op w.acq p)
      | some (s1, bs) =>
        match readLocs w r s1 with
        | .ok s2 bs2 => .ok s2 (bs ++ bs2)
        | q => q

/-- A PEER write is not performed until the peer has taken it (R371; log 43). -/
def State.unperform (s : State) (m : OutMsg) : State :=
  { s with fab := { s.fab with unperformed := s.fab.unperformed ++ [m] } }

/-- Write bytes at one translated place (R370, R371, R407). -/
def writeLoc (w : Who) (p : Loc) (bs : List (BitVec 8)) (s : State) : State :=
  match p.ty with
  | 2 => (s.hostWrite p.pa bs).dropLease (lineKey p)
  | 3 =>
    let m : OutMsg := { launch := w.key, op := w.op, lane := w.lane, peer := p.peer, pport := p.pport, msg := .peerWrite p.pa bs }
    ((s.dropLease (lineKey p)).unperform m).sendPeer m
  | _ => s.devWrite p.pa bs

/-- Write bytes at translated places. -/
def writeLocs (w : Who) : List (Loc × Nat) → List (BitVec 8) → State → State
  | [], _, s => s
  | (p, n) :: r, bs, s => writeLocs w r (bs.drop n) (writeLoc w p (bs.take n) s)

/-- A thread's access to memory. -/
def Env.who (e : Env) : Who :=
  { d := e.d, root := e.l.ptroot.toNat, priv := e.l.priv, key := ((e.s.core e.d).launch).getD 0, op := 0, lane := e.lane, acq := e.t.acqAt }

/-! ### Buffer records -/

def brBase (b : BitVec 256) : BitVec 64 := (b.extractLsb' 0 54).signExtend 64
def brExtent (b : BitVec 256) : Nat := natBits b.toNat 103 64
def brStride (b : BitVec 256) : Int := (b.extractLsb' 128 32).toInt
def brSwz (b : BitVec 256) : Nat := natBits b.toNat 163 160
def brFmt (b : BitVec 256) : Nat := natBits b.toNat 171 168
def brR (b : BitVec 256) : Bool := b.getLsbD 176
def brW (b : BitVec 256) : Bool := b.getLsbD 177
def brA (b : BitVec 256) : Bool := b.getLsbD 178
def brOobt (b : BitVec 256) : Bool := b.getLsbD 179
/-- The element size of the record's format (R190, R341). -/
def brSize (b : BitVec 256) : Nat := fmtSize (brFmt b)
/-- The swizzle block (R319). -/
def brBlock (b : BitVec 256) : Nat :=
  match brSwz b with
  | 1 => 1024 | 2 => 2048 | 3 => 64 * brSize b | _ => 1

/-- A valid buffer record (R317). -/
def brValid (b : BitVec 256) : Bool :=
  natBits b.toNat 255 180 == 0 && natBits b.toNat 175 172 == 0 && natBits b.toNat 167 164 == 0 &&
  natBits b.toNat 127 104 == 0 && natBits b.toNat 63 54 == 0 && brFmt b ≤ 11 && brSwz b ≤ 3 &&
  natBits b.toNat 52 0 + brExtent b ≤ 2 ^ 53 &&
  natBits b.toNat 53 0 % brBlock b == 0 && brExtent b % brBlock b == 0

/-- The swizzled offset (R319). -/
def brSwizzle (b : BitVec 256) (o : Nat) : Nat :=
  match brSwz b with
  | 1 => o ^^^ (natBits o 12 10 * 128)
  | 2 => o ^^^ (natBits o 13 11 * 256)
  | 3 =>
    let sz := brSize b
    let t := o % (64 * sz)
    let e := t / sz
    o - t + ((e % 8) * 8 + e / 8) * sz + t % sz
  | _ => o

/-- The VA of an access of `z` bytes at logical offset `o`, where it is in bounds and the record grants it (R318, R319,
R404). -/
def brPlace (b : BitVec 256) (grant : Bool) (o : Int) (z : Nat) : Option (BitVec 64) :=
  if o < 0 ∨ (brExtent b : Int) < o + z ∨ !grant then none
  else
    let va := vaOf ((brBase b).toInt + brSwizzle b o.toNat)
    if 65536 < va.toNat % 65536 + z then none else some va

/-- The logical offset of a lane (R318). -/
def brOffset (b : BitVec 256) (v : BitVec 32) (lane : Nat) : Int := v.toNat + lane * brStride b

end Sys2Proof.Machine
end

