-- ==== Sys2Proof/Machine/Buffer.lean ====
section
/-! DEFINITION. Buffer records in registers, buffer accesses, cache maintenance and fences (13 R339 to R350, R359 to
R361): one meaning per instruction. -/

namespace Sys2Proof.Machine

open Sys2Proof

/-! ### BRSET and BRGET -/

/-- BRSET in one warp (R339): the trap of its warp thread, or the record that its b register takes. -/
def brsetWarp (d x : Nat) (e : Env) (addr : BitVec 32) (s : State) : State × TRes :=
  match scrCheckLocal e.l addr 32 32 with
  | some t => (s, TRes.trapped t.1 t.2)
  | none =>
    let c := s.core d
    let o := scrOff addr
    if c.scrBad o 32 then (e.uncRecord 1 (addr.zeroExtend 64) s, TRes.trapped Cause.uncmem (addr.zeroExtend 64))
    else
      let r := BitVec.ofNat 256 (leNat (c.scrRead o 32))
      if brValid r then (s, { writes := [{ reg := x, val := r, lat := 2 }] })
      else (s, TRes.trapped Cause.record (addr.zeroExtend 64))

/-- BRSET (R339). -/
def execBrset (w : RForm) (s : State) : Out :=
  issueWord (rWord 0x140 w [w.s1.toNat] []).cOnly
    (fun g =>
      let spans := g.warpThreads.map fun e => (g.d, scrOff (e.r32 w.s1.toNat), scrOff (e.r32 w.s1.toNat) + 32)
      if (spans.any fun r => g.s.ownedS r.1 r.2.1 r.2.2 g.s.nextId) ||
          g.warpThreads.any fun e => g.core.hasHeld [(e.slot, e.lane)] g.s.nextId then { s := g.s, retry := true }
      else
        let r := g.warpThreads.foldl (fun (acc : State × List ((Nat × Nat) × TRes)) e =>
          let q := brsetWarp g.d w.d.toNat e (e.r32 w.s1.toNat) acc.1
          (q.1, acc.2 ++ [((e.slot, e.lane), q.2)])) (g.s, [])
        { s := r.1, out := g.rest r.2, freeze := g.bankCycles spans }) s

/-- BRGET (R339). -/
def execBrget (w : RForm) (s : State) : Out :=
  issueWord (rWord 0x141 w [w.s1.toNat] []).cOnly
    (perThread fun e =>
      { writes := wr64 w.d.toNat ((e.reg w.s1.toNat).extractLsb' (64 * mfld w.mod 1 0) 64) 2 }) s

/-! ### Preparing a buffer access -/

/-- The buffer instructions. -/
inductive BufKind where
  | load | store | atomic | cas | queue
  deriving DecidableEq, Repr

/-- What a word of this family asks for (R340): kind, OP, ordering, FACQ, b register, offset and data registers, w
register. -/
structure BufWord where
  kind : BufKind
  opc : Nat
  ord : Nat
  facq : Bool
  b : Nat
  s1 : Nat
  d : Nat
  wx : Nat
  deriving DecidableEq, Repr

/-- The combinations of R341 that are not allowed. -/
def bufIllegal (q : BufWord) (fmt nregs : Nat) : Bool :=
  match q.kind with
  | .load => false
  | .store => fmtSize fmt == 8 && decide (q.d < 768) && (q.d % 2 != 0 || decide (nregs ≤ q.d + 1))
  | .atomic | .queue => !([0, 8, 9].contains fmt) || (fmt == 0 && q.opc ≤ 2) || (q.opc == 7 && fmt != 0)
  | .cas =>
    let al := 2 * (fmtSize fmt / 4)
    !([0, 8, 9, 10, 11].contains fmt) || q.d % al != 0 || decide (nregs < q.d + al)

/-- The record grants the access (R343). -/
def bufGrant (k : BufKind) (r : BitVec 256) : Bool :=
  match k with
  | .load => brR r
  | .store => brW r
  | _ => brA r

/-- The permission that translation checks (R346): a CASB needs W only when its compare succeeds. -/
def bufAccess (k : BufKind) : Access :=
  match k with
  | .load | .cas => .read
  | .store => .write
  | _ => .atomic

/-- ACCESS of a fault record (R398). -/
def bufAccessCode (k : BufKind) : Nat :=
  match k with
  | .load => 1 | .store => 2 | _ => 4

/-- The memory type accepts the access (R345, R429). -/
def bufTypeOk (s : State) (q : BufWord) (p : Loc) : Bool :=
  match q.kind, p.ty with
  | .load, 3 => s.peerOk p.peer p.pport
  | .store, 3 => s.peerOk p.peer p.pport
  | .atomic, 2 => q.opc == 0 || q.opc == 6
  | .atomic, 3 => false
  | .cas, 3 => false
  | _, _ => true

/-- What comes of one lane. -/
inductive LanePlan where
  | oob
  | ok (va : BitVec 64) (loc : Loc)
  | trap (cause : Nat) (info : BitVec 64)
  deriving DecidableEq, Repr

/-- The datum and compare value of a lane (R341). -/
def Env.bufData (e : Env) (q : BufWord) (z : Nat) : BitVec 64 × BitVec 64 :=
  match q.kind with
  | .load => (0, 0)
  | .store => (BitVec.ofNat 64 (leNat (e.dataBytes q.d z)), 0)
  | .atomic | .queue => ((e.r32 q.d).zeroExtend 64, 0)
  | .cas =>
    if z = 8 then (e.r32 (q.d + 3) ++ e.r32 (q.d + 2), e.r32 (q.d + 1) ++ e.r32 q.d)
    else ((e.r32 (q.d + 1)).zeroExtend 64, (e.r32 q.d).zeroExtend 64)

/-- The registers that hold a lane's data. -/
def bufDataRegs (q : BufWord) (z : Nat) : List Nat :=
  match q.kind with
  | .load => []
  | .store => dataRegs q.d z
  | .atomic | .queue => [q.d]
  | .cas => (List.range (2 * (z / 4))).map fun i => q.d + i

/-- Where a lane lies: its VA, or none where it is out of bounds (R318, R343, R404). -/
def laneVa (q : BufWord) (r : BitVec 256) (z : Nat) (e : Env) : Option (BitVec 64) :=
  let o := brOffset r (e.r32 q.s1) e.lane
  let aligned := match q.kind with
    | .load | .store => true
    | _ => o % z == 0
  if aligned then brPlace r (bufGrant q.kind r) o z else none

/-- The lines of some lanes, each once, in the order in which lanes name them (R343). -/
def laneLines (z : Nat) (vas : List (BitVec 64)) : List (BitVec 64) :=
  (vas.flatMap fun va => (lineParts va z).map fun p => BitVec.ofNat 64 (p.1.toNat / 128 * 128)).eraseDups

/-- Translate each line once before any lane applies (R343, R411). -/
def translateLines (w : Who) (k : Access) (lines : List (BitVec 64)) (s : State) :
    State × List (BitVec 64 × Except XErr Loc) :=
  lines.foldl (fun (acc : State × List (BitVec 64 × Except XErr Loc)) va =>
    match translateOn acc.1 w.d w.root w.priv va k with
    | (s1, .ok p) => (s1, acc.2 ++ [(va, .ok p.loc)])
    | (s1, .error e) => (s1, acc.2 ++ [(va, .error e)])) (s, [])

/-- The outcome of one line for a lane. -/
def lineOf (t : List (BitVec 64 × Except XErr Loc)) (va : BitVec 64) : Except XErr Loc :=
  ((t.find? fun q => q.1.toNat == va.toNat / 128 * 128).map (·.2)).getD (.error .prot)

/-- A lane in bounds with its lines translated: the first error of a line it touches, or its place (R345, R346). -/
def lanePlace (s : State) (q : BufWord) (t : List (BitVec 64 × Except XErr Loc)) (z : Nat) (va : BitVec 64) :
    Except XErr Loc :=
  match (lineParts va z).findSome? fun p => match lineOf t p.1 with | .error e => some e | .ok _ => none with
  | some e => .error e
  | none =>
    match lineOf t va with
    | .error e => .error e
    | .ok p =>
      let loc := { p with pa := p.pa + va.toNat % 128 }
      if bufTypeOk s q loc then .ok loc else .error .prot

/-- A warp's access, prepared (R341 to R346): its record, slot, barrier and lanes, or what it meets instead. -/
structure BufPlan where
  es : List Env
  br : BitVec 256
  z : Nat
  slot : Nat
  bar : Nat
  lanes : List (Env × LanePlan)
  miss : Option (BitVec 64 × Nat)
  bad : Bool

/-- Every active lane of the warp traps (R341, R342). -/
def planTrap (es : List Env) (r : BitVec 256) (t : Nat × BitVec 64) : BufPlan :=
  { es := es, br := r, z := 1, slot := 0, bar := 0, lanes := es.map fun e => (e, .trap t.1 t.2), miss := none, bad := false }

/-- The trap that all active lanes take at issue (R341, R342): a wrong format, a wrong slot or barrier. -/
def bufTrap (q : BufWord) (e : Env) (r : BitVec 256) : Option (Nat × BitVec 64) :=
  let z := brSize r
  if bufIllegal q (brFmt r) e.l.nregs then some (Cause.illopnd, e.word)
  else
    let wx := e.r64 q.wx
    let st := match q.kind with
      | .store => none
      | _ => slotTrap e (lo32 wx) (32 * z)
    match st with
    | some t => some t
    | none => barTrap true e (hi32 wx)

/-- An out-of-bounds lane traps (R318). -/
def oobTraps (r : BitVec 256) (e : Env) : Bool := brOobt r || e.t.mode.getLsbD 9

/-- sr.einfo of BUFBOUND (R142). -/
def boundInfo (q : BufWord) (r : BitVec 256) (e : Env) : BitVec 64 :=
  BitVec.ofNat 32 q.b ++ BitVec.ofInt 32 (brOffset r (e.r32 q.s1) e.lane)

/-- Prepare the access of one warp present (R343). -/
def bufPrep (q : BufWord) (es : List Env) (s : State) : State × BufPlan :=
  match es with
  | [] => (s, planTrap [] 0 (0, 0))
  | e0 :: _ =>
    let r := e0.reg (840 + q.b)
    match bufTrap q e0 r with
    | some t => (s, planTrap es r t)
    | none =>
      let z := brSize r
      let wx := e0.r64 q.wx
      let vas := es.map fun e => (e, laneVa q r z e)
      let lines := match q.kind with
        | .queue => []
        | _ => laneLines z (vas.filterMap (·.2))
      let (s1, t) := translateLines e0.who (bufAccess q.kind) lines s
      let miss := vas.findSome? fun v => v.2.bind fun va =>
        match lanePlace s q t z va with | .error (.miss p) => some (va, p) | _ => none
      let lanes := vas.map fun v =>
        match v.2 with
        | none => (v.1, if oobTraps r v.1 then LanePlan.trap Cause.bufbound (boundInfo q r v.1) else .oob)
        | some va =>
          if q.kind = BufKind.queue then (v.1, .ok va { ty := 3, pa := 0, peer := 0, pport := false })
          else
            match lanePlace s q t z va with
            | .ok p => (v.1, .ok va p)
            | .error x => (v.1, .trap x.cause va)
      (s1, { es := es, br := r, z := z, slot := (lo32 wx).toNat, bar := (hi32 wx).toNat, lanes := lanes, miss := miss
             bad := t.any fun x => match x.2 with | .error .bad => true | _ => false })

/-- The lanes of a plan that take part in the access. -/
def BufPlan.live (p : BufPlan) : List (Env × LanePlan) :=
  p.lanes.filter fun x => match x.2 with | .trap _ _ => false | _ => true

/-- The prepared access as lanes for an engine. -/
def BufPlan.accs (q : BufWord) (p : BufPlan) : List LaneAcc :=
  p.live.map fun x =>
    let dt := x.1.bufData q p.z
    match x.2 with
    | .ok va loc => { lane := x.1.lane, va := some va, loc := if q.kind = BufKind.queue then none else some loc, data := dt.1, cmp := dt.2,
                       wr := true }
    | _ => { lane := x.1.lane, va := none, loc := none, data := dt.1, cmp := dt.2, wr := true }

/-- The lines of some places, each once. -/
def locLines (z : Nat) (locs : List Loc) : List Loc :=
  (locs.flatMap fun p => (lineParts (BitVec.ofNat 64 p.pa) z).map fun x => { p with pa := x.1.toNat / 128 * 128 }).eraseDups
/-- A line is found in the L1 that serves a core (R477): there, and where it is read-only, with a copy that may be used (R370). -/
def State.l1Hit (s : State) (l : Launch) (d acq : Nat) (p : Loc) : Bool :=
  s.l1Holds l d (lineKey p) && (!(p.leased) || (s.lease? p acq).isSome)
/-- Tags after a warp's LDB, STB or PREF (R477, R498): each line once. -/
def touchLanes (d : Nat) (l : Launch) (acq : Nat) (wr : Bool) (z : Nat) (locs : List Loc) (s : State) : State :=
  (locLines z locs).foldl (fun s p => s.touch l d p wr (s.l1Hit l d acq p)) s
/-- The lines of a warp's ATB or CASB, counted before it takes them from the L1s (R477). -/
def countLines (d : Nat) (l : Launch) (acq z : Nat) (locs : List Loc) (s : State) : State :=
  (locLines z locs).foldl (fun s p => s.count d (if s.l1Hit l d acq p then 7 else 8) 1) s
def LanePlan.loc? : LanePlan → Option Loc
  | .ok _ p => some p
  | _ => none
/-- The places of the lanes of a plan that are in bounds. -/
def BufPlan.locs (p : BufPlan) : List Loc := p.lanes.filterMap fun x => x.2.loc?

/-! ### What one lane does -/

/-- The outcome of a lane that is performed: the state, the old value, or the cause that keeps it from its effect and
whether the trap is deferred, and the flags of FADD. -/
structure LaneOut where
  s : State
  old : Except (Nat × Bool) (BitVec 64)
  flags : BitVec 32 := 0

/-- The parts of a lane's bytes within lines; a lane lies in one page (R404). -/
def locParts (p : Loc) (n : Nat) : List (Loc × Nat) :=
  (lineParts (BitVec.ofNat 64 p.pa) n).map fun x => ({ p with pa := x.1.toNat }, x.2)

/-- The bytes of a lane on this device or at the host, as an atomic unit reads them. -/
def unitRead (s : State) (p : Loc) (z : Nat) : Nat := leNat (if p.ty = 2 then s.hostRead p.pa z else s.devRead p.pa z)

/-- A lane of STB (R344, R345). -/
def storeLane (w : Who) (p : Loc) (z : Nat) (data : BitVec 64) (s : State) : LaneOut :=
  if p.own && s.devPartBad p.pa z then { s := s, old := .error (Cause.uncmem, true) }
  else { s := writeLocs w (locParts p z) (leBytes z data.toNat) s, old := .ok 0 }

/-- The device's own uncorrectable errors, and a host that refuses an AtomicOp (R345, R346). -/
def unitRefuses (w : Who) (p : Loc) (z lane : Nat) (s : State) : Option Nat :=
  if p.own && s.devBad p.pa z then some Cause.uncmem
  else if p.ty = 2 && Config.hostRefuses (64 * (s.free + w.op) + lane) then some Cause.prot
  else none

/-- A lane of ATB (R331, R344, R345): MIN and MAX compare unsigned for N32 (R341). -/
def atomicLane (w : Who) (opc fmt lane : Nat) (p : Loc) (data : BitVec 64) (s : State) : LaneOut :=
  match unitRefuses w p 4 lane s with
  | some c => { s := s, old := .error (c, true) }
  | none =>
    let old := unitRead s p 4
    let r := atomOp opc (fmt == 9) (BitVec.ofNat 32 old) (lo32 data)
    { s := writeLoc w p (leBytes 4 r.1.toNat) (s.pin p), old := .ok (BitVec.ofNat 64 old), flags := r.2 }

/-- The compare of a lane of CASB succeeds. -/
def casHit (s : State) (p : Loc) (z : Nat) (cmp : BitVec 64) : Bool := unitRead s p z == cmp.toNat

/-- A lane of CASB at issue (R332, R344 to R346): W is checked only when the compare succeeds. -/
def casLane (w : Who) (z lane : Nat) (va : BitVec 64) (p : Loc) (data cmp : BitVec 64) (s : State) : LaneOut :=
  match unitRefuses w p z lane s with
  | some c => { s := s, old := .error (c, true) }
  | none =>
    let old := unitRead s p z
    if old = cmp.toNat then
      match translateOn s w.d w.root w.priv va .atomic with
      | (s1, .error e) => { s := s1, old := .error (e.cause, false) }
      | (s1, .ok _) => { s := writeLoc w p (leBytes z data.toNat) (s1.pin p), old := .ok (BitVec.ofNat 64 old) }
    else { s := s.pin p, old := .ok (BitVec.ofNat 64 old) }

/-- A lane of STB, ATB or CASB is performed (R344). -/
def performLane (w : Who) (q : BufWord) (fmt z lane : Nat) (va : BitVec 64) (p : Loc) (data cmp : BitVec 64) (s : State) :
    LaneOut :=
  match q.kind with
  | .store => storeLane w p z data s
  | .atomic => atomicLane w q.opc fmt lane p data s
  | .cas => casLane w z lane va p data cmp s
  | _ => { s := s, old := .ok 0 }

/-! ### The words -/

/-- Issue data of a buffer word. -/
def bufWord (op : Nat) (w : RForm) (q : BufWord) : WSpec :=
  { (rWord op w [] []).cOnly with
    vregs := ([q.s1] ++ (if q.kind = .load then [] else [q.d])).filter (· < 768)
    reads := fun e => [840 + q.b, q.wx, q.s1] ++ bufDataRegs q (brSize (e.reg (840 + q.b))) }

/-- The traps and flags of the lanes of some plans. -/
def planOut (p : BufPlan) : List ((Nat × Nat) × TRes) :=
  p.lanes.map fun x =>
    ((x.1.slot, x.1.lane), match x.2 with
      | .trap c i => TRes.trapped c i
      | .oob => { flags := flOOB }
      | .ok _ _ => {})

/-- The warps that meet a missing page (R346). -/
def planFaults (q : BufWord) (ps : List BufPlan) : List (Nat × BitVec 64 × Nat × Nat) :=
  ps.filterMap fun p => p.miss.bind fun m => p.es.head?.map fun e => (e.slot, m.1, m.2, bufAccessCode q.kind)

/-- Prepare every warp present. -/
def prepAll (q : BufWord) (es : List Env) (s : State) : State × List BufPlan :=
  (warpsOf es).foldl (fun (acc : State × List BufPlan) wp =>
    let r := bufPrep q wp.2 acc.1
    (r.1, acc.2 ++ [r.2])) (s, [])

/-- The scratchpad bytes of the slots of some lanes. -/
def slotSpans (d slot z : Nat) (lanes : List Nat) : List Span := lanes.map fun l => (d, slot + z * l, slot + z * l + z)

/-- The in-bounds lanes cover every byte of one aligned line exactly once, and it is no HOST or PEER line (R347). -/
def wholeLine (z : Nat) (lanes : List LaneAcc) : Bool :=
  let xs := sortBy id (lanes.filterMap fun a => a.va.map (·.toNat))
  match xs with
  | [] => false
  | x :: _ => x % 128 == 0 && xs == (List.range (128 / z)).map (fun i => x + z * i) &&
      lanes.all fun a => match a.loc with | some p => p.own | none => true

/-- The time of the last acquire of the threads of a plan (R370). -/
def BufPlan.acq (p : BufPlan) : Nat := (p.es.map (·.t.acqAt)).foldl max 0

/-- The fault records of the lanes of a plan that meet an uncorrectable error in a walk (R398). -/
def BufPlan.records (q : BufWord) (p : BufPlan) (s : State) : State :=
  if p.miss.isSome then s
  else
    p.lanes.foldl (fun s x =>
      match x.2 with
      | .trap c i => x.1.recordOf (bufAccessCode q.kind) (c, i) s
      | _ => s) s

/-- An LDB enters flight on behalf of every active thread of its warp (R344, R366, R529). -/
def ldbIssue (q : BufWord) (h : Head) (d : Nat) (l : Launch) (p : BufPlan) (s : State) : State :=
  match p.live with
  | [] => s
  | live =>
    let accs := p.accs q
    let s1 := touchLanes d l p.acq false p.z p.locs s
    s1.issueOp d { newOp s1 (company h p.es) true (.bufLoad p.z p.slot p.bar (wholeLine p.z accs) [] accs) with
                   ownS := slotSpans d p.slot p.z (live.map (·.1.lane)) }

/-- LDB (R340 to R348). -/
def execLdb (w : RForm) (s : State) : Out :=
  let q : BufWord := { kind := .load, opc := 0, ord := 0, facq := false, b := mfld w.mod 3 0, s1 := w.s1.toNat, d := 0, wx := w.s2.toNat }
  issueWord (bufWord 0x142 w q) (fun g =>
    let (s1, ps) := prepAll q g.act g.s
    { s := (ps.filter (·.miss.isNone)).foldl (fun s p => ldbIssue q g.h g.d g.l p (p.records q s)) s1
      out := g.rest (ps.flatMap planOut), bad := ps.any (·.bad), faults := planFaults q ps }) s

/-- A lane of a direct buffer access has to wait (R325, R364, R366); for HOST and PEER no engine makes it wait. -/
def laneWaits (s : State) (e : Env) (va : BitVec 64) (p : Loc) (z : Nat) : Bool :=
  (p.own && s.ownedV e.l.ptroot.toNat va.toNat (va.toNat + z) s.nextId) ||
  (s.core e.d).hasHeld [(e.slot, e.lane)] s.nextId || s.ownWritesLeft e.d e.slot e.lane p z

/-- The engine holds an access back, of every warp of the word (R325) where a warp asks for it: for its .REL (R333), or so that its writes to a peer follow the earlier ATQ commands of
its threads (R371). -/
def planHeld (q : BufWord) (g : Grp) (p : BufPlan) : Bool :=
  let ths := p.live.map fun x => (x.1.slot, x.1.lane)
  (ordRel q.ord && g.core.hasDeferred ths g.s.nextId) ||
  (p.locs.any (·.ty == 3) && g.core.hasUnsent ths g.s.nextId)

/-- The bytes that a warp's STB writes as one event, where its lanes cover a line (R347): in ascending order of their VAs. -/
def BufPlan.lineBytes (q : BufWord) (p : BufPlan) : Option (Nat × Loc × List (BitVec 8)) :=
  if q.kind = .store && wholeLine p.z (p.accs q) then
    let accs := sortBy (fun a => (a.va.map (·.toNat)).getD 0) ((p.accs q).filter (·.va.isSome))
    accs.head?.bind fun a => a.loc.map fun loc =>
      ((((p.accs q).filter (·.va.isSome)).head?.map (·.lane)).getD 0, loc, accs.flatMap fun a => leBytes p.z a.data.toNat)
  else none

/-- The number that OpBody gives a kind of lane. -/
def BufKind.code : BufKind → Nat
  | .store => 0 | .atomic => 1 | .cas => 2 | _ => 3

/-- What an STB of a whole line does in the turn of one lane: the first in bounds writes the line (R347). -/
def lineLane (w : Who) (lane : Nat) (x : Nat × Loc × List (BitVec 8)) (s : State) : LaneOut :=
  { s := if x.1 = lane then writeLoc w x.2.1 x.2.2 s else s, old := .ok 0 }

/-- One lane of a direct buffer access at issue, as part of operation `id`: its old value where it counts, and its result. -/
def directLane (q : BufWord) (id : Nat) (p : BufPlan) (x : Env × LanePlan) (s : State) :
    State × TRes × Option (BitVec 64) :=
  let e := x.1
  match x.2 with
  | .trap c i => (e.recordOf (bufAccessCode q.kind) (c, i) s, TRes.trapped c i, none)
  | .oob => (s, { flags := flOOB }, some 0)
  | .ok va loc =>
    let dt := e.bufData q p.z
    let hit := casHit s loc p.z dt.2
    let w := { e.who with op := id }
    let r := match p.lineBytes q with
      | some b => lineLane w e.lane b s
      | none => performLane w q (brFmt p.br) p.z e.lane va loc dt.1 dt.2 s
    match r.old with
    | .ok old =>
      let acq := if q.kind = .cas && !hit then q.facq else ordAcq q.ord
      (if acq then r.s.acquire e.d e.slot e.lane else r.s, { flags := r.flags }, some old)
    | .error (c, deferred) =>
      let s1 := e.recordOf (bufAccessCode q.kind) (c, va) r.s
      if deferred then (s1.defer e.d e.slot e.lane id c va, {}, none) else (s1, TRes.trapped c va, none)

/-- The old values go to a slot, but for STB. -/
def BufPlan.slot? (q : BufWord) (p : BufPlan) : Option Nat := if q.kind = .store then none else some p.slot

/-- The lanes of a CASB keep at issue whether their pages grant writes (R346, R409). -/
def withGrants (w : Who) (s : State) (l : List LaneAcc) : List LaneAcc :=
  l.map fun a => { a with wr := a.va.all fun va => (translateOn s w.d w.root w.priv va .atomic).2.toOption.isSome }

/-- The lanes held back as operation `id` of the word whose operations begin at `word` (R333, R371), with the tags of an STB's
lines. -/
def heldIssue (q : BufWord) (h : Head) (d word id : Nat) (l : Launch) (p : BufPlan) (s : State) : State :=
  let s1 := if q.kind = .store then touchLanes d l p.acq true p.z p.locs s else s
  match p.live with
  | [] => s1
  | x :: _ =>
    let opc := if q.kind = .cas then (if ordAcq q.ord then 1 else 0) + (if q.facq then 2 else 0) else q.opc
    let accs := if q.kind = .cas then withGrants x.1.who s (p.accs q) else p.accs q
    let body : OpBody := .bufHeld q.kind.code opc (brFmt p.br) p.z (p.slot? q) p.bar accs []
    (p.records q s1).issueOp d { newOp s1 (company h p.es) false body with
      id := id, word := word, rel := ordRel q.ord, acq := ordAcq q.ord || q.facq }

/-- The lanes that a warp performed at issue, as operation `id` that counts them (R348), with the tags of its lines. -/
def countIssue (q : BufWord) (h : Head) (d word id : Nat) (l : Launch) (p : BufPlan) (done : List ((Nat × Nat) × BitVec 64))
    (s : State) : State :=
  let mine := done.filter fun v => some v.1.1 == p.es.head?.map (·.slot)
  let s1 := if q.kind = .store then touchLanes d l p.acq true p.z p.locs s else s
  if mine.isEmpty then s1
  else
    s1.issueOp d { newOp s1 (company h p.es) false (.bufCount p.z (p.slot? q) p.bar (mine.map fun v => (v.1.2, v.2))) with
                   id := id, word := word }

/-- STB, ATB and CASB: the lanes take their places at issue, in lane order (R325, R364), and count later (R348). The warps present
number their operations in order. -/
def directBuffer (q : BufWord) (g : Grp) : Res :=
  let (s1, ps) := prepAll q g.act g.s
  let live := (ps.filter (·.miss.isNone)).zipIdx g.s.nextId
  let held := live.any fun p => planHeld q g p.1
  let now := if held then [] else g.act.filterMap fun e => live.findSome? fun p =>
    (p.1.lanes.find? fun x => x.1.slot == e.slot && x.1.lane == e.lane).map fun x => (p, x)
  let waits := now.any fun x => match x.2.2 with | .ok va loc => laneWaits s1 x.2.1 va loc x.1.1.z | _ => false
  if waits then { s := g.s, retry := true }
  else
    let s2 := if q.kind = .store then s1 else live.foldl (fun s p => countLines g.d g.l p.1.acq p.1.z p.1.locs s) s1
    let r := now.foldl (fun (acc : State × List ((Nat × Nat) × TRes) × List ((Nat × Nat) × BitVec 64)) x =>
      let key := (x.2.1.slot, x.2.1.lane)
      let o := directLane q x.1.2 x.1.1 x.2 acc.1
      (o.1, acc.2.1 ++ [(key, o.2.1)], acc.2.2 ++ (o.2.2.toList.map fun v => (key, v)))) (s2, [], [])
    let s3 := live.foldl (fun s p =>
      if held then heldIssue q g.h g.d g.s.nextId p.2 g.l p.1 s else countIssue q g.h g.d g.s.nextId p.2 g.l p.1 r.2.2 s) r.1
    let heldOut := if held then live.flatMap fun p => planOut p.1 else []
    let missOut := (ps.filter (·.miss.isSome)).flatMap planOut
    { s := { s3 with nextId := g.s.nextId + live.length }, out := g.rest (r.2.1 ++ heldOut ++ missOut)
      bad := ps.any (·.bad), faults := planFaults q ps }

/-- STB (R340 to R348). -/
def execStb (w : RForm) (s : State) : Out :=
  let q : BufWord := { kind := .store, opc := 0, ord := 0, facq := false, b := mfld w.mod 3 0, s1 := w.s1.toNat, d := w.d.toNat, wx := w.s2.toNat }
  issueWord (bufWord 0x143 w q) (directBuffer q) s

/-- ATB (R340 to R348). -/
def execAtb (w : RForm) (s : State) : Out :=
  let q : BufWord := { kind := .atomic, opc := mfld w.mod 8 6, ord := mfld w.mod 5 4, facq := false, b := mfld w.mod 3 0, s1 := w.s1.toNat, d := w.d.toNat, wx := w.s2.toNat }
  issueWord (bufWord 0x144 w q) (directBuffer q) s

/-- CASB (R340 to R348). -/
def execCasb (w : RForm) (s : State) : Out :=
  let q : BufWord := { kind := .cas, opc := 0, ord := mfld w.mod 6 5, facq := mbit w.mod 4, b := mfld w.mod 3 0, s1 := w.s1.toNat, d := w.d.toNat, wx := w.s2.toNat }
  issueWord (bufWord 0x145 w q) (directBuffer q) s

/-- An ATQ enters flight; its engine translates and sends its lanes (R346, R349). -/
def atqIssue (q : BufWord) (h : Head) (d : Nat) (p : BufPlan) (s : State) : State :=
  match p.live with
  | [] => s
  | live =>
    let fmt := if brFmt p.br == 0 then 2 else brFmt p.br - 8
    s.issueOp d { newOp s (company h p.es) true (.atq q.opc fmt q.ord p.slot p.bar (p.accs q) [] []) with
                  rel := ordRel q.ord, acq := ordAcq q.ord, ownS := slotSpans d p.slot 4 (live.map (·.1.lane)) }

/-- ATQ (R340 to R349). -/
def execAtq (w : RForm) (s : State) : Out :=
  let q : BufWord := { kind := .queue, opc := mfld w.mod 8 6, ord := mfld w.mod 5 4, facq := false, b := mfld w.mod 3 0, s1 := w.s1.toNat, d := w.d.toNat, wx := w.s2.toNat }
  issueWord (bufWord 0x146 w q) (fun g =>
    let (s1, ps) := prepAll q g.act g.s
    { s := ps.foldl (fun s p => atqIssue q g.h g.d p s) s1, out := g.rest (ps.flatMap planOut) }) s

/-- A line of a HOST or PEER page is asked for, where no copy may be used (R370, R371). -/
def bringLease (w : Who) (p : Loc) (s : State) : State :=
  match s.locRead p w.acq 1 with
  | some (s1, _) => s1
  | none => s.askPeer w.key w.op w.acq p

/-- PREF of one warp (R350): lanes that are out of bounds, unpermitted or not present are ignored. -/
def prefWarp (w : RForm) (l : Launch) (es : List Env) (s : State) : State :=
  match es with
  | [] => s
  | e0 :: _ =>
    let r := e0.reg (840 + mfld w.mod 3 0)
    let z := brSize r
    let vas := es.filterMap fun e => brPlace r (brR r) (brOffset r (e.r32 w.s1.toNat) e.lane) z
    let (s1, t) := translateLines e0.who .read (laneLines z vas) s
    let locs := (t.filterMap fun x => x.2.toOption).filter fun p => p.ty != 3 || s1.peerOk p.peer p.pport
    let acq := (es.map (·.t.acqAt)).foldl max 0
    let s2 := if mbit w.mod 4 then (locs.filter Loc.inL2).foldl (fun s p => s.l2Fill (lineKey p) false) s1
      else touchLanes e0.d l acq false 1 locs s1
    (locs.filter Loc.leased).foldl (fun s p => bringLease { e0.who with acq := acq } p s) s2

/-- PREF (R350). -/
def execPref (w : RForm) (s : State) : Out :=
  issueWord { (rWord 0x148 w [] []).cOnly with
      vregs := [w.s1.toNat], reads := fun _ => [840 + mfld w.mod 3 0, w.s1.toNat] }
    (fun g => { perThread (fun _ => {}) g with s := g.warps.foldl (fun s q => prefWarp w g.l q.2 s) g.s }) s

/-! ### Cache maintenance and fences -/

/-- The lines of VA that CFLUSH and CINV act on (R359). -/
def maintLines (r : BitVec 256) (off len : Nat) : List (BitVec 64) :=
  let lo := min off (brExtent r)
  let hi := min (off + len) (brExtent r)
  if hi ≤ lo then []
  else
    let lo' := lo / brBlock r * brBlock r
    let hi' := (hi + brBlock r - 1) / brBlock r * brBlock r
    let base := (brBase r).toInt
    let first := (base + lo') / 128
    let last := (base + hi' - 1) / 128
    (List.range (last + 1 - first).toNat).map fun (i : Nat) => vaOf (128 * (first + i))

/-- CFLUSH or CINV for the executing thread: a wrong barrier traps, and the engine takes the lines otherwise (R359). -/
def maintain (inv : Bool) (w : RForm) (g : Grp) : Res :=
  match g.first? with
  | none => { s := g.s, out := g.rest [] }
  | some e =>
    let bar := hi32 (e.r64 w.s2.toNat)
    match barTrap true e bar with
    | some t => { s := g.s, out := g.rest [((e.slot, e.lane), TRes.trapped t.1 t.2)] }
    | none =>
      let r := e.reg (840 + mfld w.mod 3 0)
      let q := e.r64 w.s1.toNat
      let vas := maintLines r (lo32 q).toNat (hi32 q).toNat
      { s := g.s.issueOp g.d (newOp g.s g.act false (.cache inv vas bar.toNat)), out := g.rest [] }

/-- CFLUSH (R359). -/
def execCflush (w : RForm) (s : State) : Out :=
  issueWord (WSpec.byFirst { (rWord 0x149 w [] []).cOnly with
      reads := fun _ => [840 + mfld w.mod 3 0, w.s1.toNat, w.s2.toNat] }) (maintain false w) s
/-- CINV (R359). -/
def execCinv (w : RForm) (s : State) : Out :=
  issueWord (WSpec.byFirst { (rWord 0x14A w [] []).cOnly with
      reads := fun _ => [840 + mfld w.mod 3 0, w.s1.toNat, w.s2.toNat] }) (maintain true w) s

/-- A write that these threads made to a PEER line has not been performed (R360, R371). -/
def State.peerLeft (s : State) (d : Nat) (ths : List (Nat × Nat)) (before : Nat) : Bool :=
  (s.core d).ops.any fun o => o.id < before && o.threads.any ths.contains && s.unperformed d o.id

/-- What FENCE waits for, for its threads: earlier deferred transfers with writes to perform, accesses that an engine holds back,
and writes that a peer has not yet taken (R360). -/
def fenceWaits (g : Grp) : Bool :=
  g.act.any fun e =>
    let th := [(e.slot, e.lane)]
    g.core.hasDeferred th g.s.nextId || g.core.hasHeld th g.s.nextId || g.s.peerLeft g.d th g.s.nextId

/-- A fence: the group is frozen while it waits, and its threads then make an acquire (R360, R370). -/
def fence (g : Grp) : Res :=
  if fenceWaits g then { s := g.s, retry := true }
  else modEach (fun e t => { t with acqAt := e.s.clock }) g

/-- FENCE (R360). -/
def execFence (w : RForm) (s : State) : Out := issueWord (rWord 0x14B w [] []) fence s
/-- LFENCE (R361): a write to stacked SRAM is committed when it is made; the longer freeze is timing (log 7). -/
def execLfence (w : RForm) (s : State) : Out :=
  issueWord (rWord 0x14C w [] []) (fun g => { fence g with other := Config.extraCycles g.s.free }) s

end Sys2Proof.Machine
end

