-- ==== Sys2Proof/Machine/Admission.lean ====
section
/-! DEFINITION. Power admission (18 R468 to R474): the requests of a core, the gate of a tower, the grant; and the
containment register (10 R265 to R268) with the record of an operation on the press. -/

namespace Sys2Proof.Machine

open Sys2Proof

/-! ### Tokens -/

/-- The head of a core's issue order for a bucket that has still to take its tokens, with its cost (R470, R471). -/
def Core.bucketHead (c : Core) (b : Nat) : Option (Nat × Nat) :=
  match b with
  | 0 => (c.issueOrder.find? fun o => o.cost != 0 && !o.granted).map fun o => (o.id, o.cost)
  | _ => c.ops.findSome? fun o =>
    match b, o.body with
    | 1, .copy _ cost granted => if granted then none else some (o.id, cost)
    | 2, .coll _ _ _ _ _ _ _ cost granted => if granted then none else some (o.id, cost)
    | _, _ => none

/-- The operation holds its tokens. -/
def Core.grant (c : Core) (id : Nat) : Core :=
  { c with
    issueOrder := c.issueOrder.map fun o => if o.id = id then { o with granted := true } else o
    ops := c.ops.map fun o =>
      if o.id = id then
        { o with body := match o.body with
            | .copy cmd cost _ => .copy cmd cost true
            | .coll d ix va r ib ob bar cost _ => .coll d ix va r ib ob bar cost true
            | .adm bk n bar _ => .adm bk n bar true
            | x => x }
      else o }

/-- A core's reservation for a bucket (R468). -/
def Core.reserved (c : Core) (b : Nat) : Nat := findD c.reserve b 0

/-- A request of an operation of core `q.1` joins the gate of a bucket at cycle `now` (R471): in arrival order, and within one cycle
by ascending tower core id. -/
def Tower.request (t : Tower) (now b : Nat) (q : Nat × Nat) : Tower :=
  { t with gates := putD t.gates b (insertBy (fun r => 128 * r.1 + tcidOf r.2.1) (now, q) (findD t.gates b [])) [] }

/-- Operations at the head of a core's order for a bucket draw on its reservation, up to the first that the reservation
does not cover, which joins the gate (R471). -/
def admitNext (d b : Nat) : Nat → State → State
  | 0, s => s
  | n + 1, s =>
    match (s.core d).bucketHead b with
    | none => s
    | some (id, cost) =>
      if (findD (s.tower (towerOf d)).gates b []).any (·.2 == (d, id)) then s
      else if cost ≤ (s.core d).reserved b then
        admitNext d b n (s.modCore d fun c => { c.grant id with reserve := putD c.reserve b (c.reserved b - cost) 0 })
      else s.modTower (towerOf d) (·.request s.clock b (d, id))

/-- Every operation of a core that stands at the head of its order for a bucket asks for its tokens. -/
def State.seekTokens (s : State) (d b : Nat) : State :=
  admitNext d b ((s.core d).issueOrder.length + (s.core d).ops.length + 1) s

/-- What the head request of a gate asks for (R471, R473): an ADMIT's tokens, or an operation's cost up to CAP. -/
def requestOf (c : Core) (b id : Nat) : Option (Nat × Bool) :=
  match c.op? id with
  | some o =>
    match o.body with
    | .adm _ n _ _ => some (n, true)
    | .copy _ cost _ => some (min cost (Config.bucketCap b), false)
    | .coll _ _ _ _ _ _ _ cost _ => some (min cost (Config.bucketCap b), false)
    | _ => none
  | none => (c.issueOrder.find? (·.id == id)).map fun o => (min o.cost (Config.bucketCap b), false)

/-- An ADMIT is granted: its tokens join the reservation, and it arrives on its barrier (R473). -/
def admitDone (s : State) (d id : Nat) : State :=
  match (s.core d).op? id with
  | some o =>
    match o.body with
    | .adm b n bar _ =>
      engineCount (s.modCore d fun c => { c.delOp id with reserve := putD c.reserve b (c.reserved b + n) 0 })
        d o.slot o.lane o.id (BitVec.ofNat 32 bar) true 0
    | _ => s
  | none => s

/-- ADMISSION_GRANT (R471): the head request of a tower's gate is granted when the balance allows it, once every request of its
cycle has arrived; a request whose operation is gone leaves the gate. -/
def execAdmissionGrant (t bucket : Nat) (s : State) : Out :=
  let w := s.tower t
  match findD w.gates bucket [] with
  | [] => .next s
  | (at', d, id) :: rest =>
    let pop := fun (n : Nat) (s : State) => s.modTower t fun w =>
      { w with gates := putD w.gates bucket rest [], tokens := put w.tokens bucket (findD w.tokens bucket 0 - n) }
    match requestOf (s.core d) bucket id with
    | none => .next ((pop 0 s).seekTokens d bucket)
    | some (n, adm) =>
      if at' < s.clock ∧ n ≤ findD w.tokens bucket 0 then
        let s1 := pop n s
        .next (if adm then admitDone s1 d id else (s1.modCore d (·.grant id)).seekTokens d bucket)
      else .next s

/-! ### Containment -/

/-- Replace bits [hi:lo] of a register. -/
def setBits {n : Nat} (x : BitVec n) (hi lo v : Nat) : BitVec n :=
  BitVec.ofNat n (x.toNat - natBits x.toNat hi lo * 2 ^ lo + v % 2 ^ (hi + 1 - lo) * 2 ^ lo)

/-- The containment register after one event of core `d` and accumulator `acc` (R266, R267): a correction in channel j,
or an uncorrectable element. -/
def containEvent (d acc : Nat) (r : BitVec 128) (e : Option Nat) : BitVec 128 :=
  let r1 := match e with
    | some j => setBits (setBits (setBits r 63 48 (satAdd (natBits r.toNat 63 48) 1 65535)) 15 12 j) 35 34 1
    | none => setBits (setBits (setBits r 79 64 (satAdd (natBits r.toNat 79 64) 1 65535)) 6 6 1) 35 34 2
  setBits (setBits (setBits r1 47 43 (coreX d)) 42 39 (coreY d)) 38 36 acc

/-- Of the corrections of one channel, the last 64 times are kept: they decide R268. -/
def keepTimes (l : List (Nat × Nat)) (j : Nat) : List (Nat × Nat) :=
  let n := (l.filter (·.1 == j)).length
  if n ≤ 64 then l else l.eraseP (·.1 == j)

/-- A second in cycles (R7). -/
def secondCycles : Nat := 1050000000

/-- The last 64 corrections of a channel lie within one second (R268). -/
def riseMet (l : List (Nat × Nat)) (j : Nat) : Bool :=
  let times := (l.filter (·.1 == j)).map (·.2)
  decide (64 ≤ times.length) && decide (times.getLast?.getD 0 < times.head?.getD 0 + secondCycles)

/-- A correction in a channel counts (R267, R268, R475); a rise that meets the threshold stays met until management has dealt with
it. -/
def Tower.correct (t : Tower) (now j : Nat) : Tower :=
  let times := keepTimes (t.corrTimes ++ [(j, now)]) j
  { t with corr := putD t.corr j (satAdd (findD t.corr j 0) 1 65535) 0
           corrTimes := times
           met := if riseMet times j && !(t.met.contains j) then t.met ++ [j] else t.met }

/-- The events of one operation, in row-major order, reach the containment register and its counters together, and one
record tells of them (R267). -/
def State.containAll (s : State) (d slot lane acc : Nat) (events : List (Option Nat)) : State :=
  if events.isEmpty then s
  else
    let t := towerOf d
    let s1 := s.modTower t fun w =>
      { events.foldl (fun w e => match e with | some j => w.correct s.clock j | none => w) w with
        contain := events.foldl (containEvent d acc) w.contain }
    let s2 := s1.count d 11 (events.filter Option.isSome).length
    let r := (s2.tower t).contain
    let lid := ((s2.coreLaunch d).map Launch.id).getD 0
    s2.post t (mkEvent 4 (if events.contains none then 2 else 1) 0 lid d slot lane (r.setWidth 64) (r.extractLsb' 64 64))

end Sys2Proof.Machine
end

