-- ==== Sys2Proof/Machine/Residue.lean ====
section
/-! DEFINITION. Residues (02 R44 to R50), expansion into plate operands (R51 to R54), mixed-radix decoding (10 R247 to
R251) and the seeded generator (11 R272, R273). -/

namespace Sys2Proof.Machine

open Sys2Proof

/-- The residue of an integer in channel `j` (R46). -/
def residue (x : Int) (j : Nat) : Nat := (x % (Config.modulus j : Int)).toNat

/-! ### RP9 tiles (R48 to R50) -/

/-- Size of a tile in bytes (R49). -/
def rp9Bytes (rows cols : Nat) : Nat := 16 + 11 * (rows * cols)
/-- Offset and width of the residue of channel `j` of element `ix` in a tile of `n` elements (R49). -/
def rp9Place (n j ix : Nat) : Nat × Nat :=
  if j < 7 then (16 + j * n + ix, 1) else (16 + 7 * n + (j - 7) * 2 * n + 2 * ix, 2)
/-- The residue of channel `j` of element `ix`, with the bits that must be zero. -/
def rp9Res (bs : List (BitVec 8)) (n j ix : Nat) : Nat :=
  let p := rp9Place n j ix
  leNat ((bs.drop p.1).take p.2)
/-- Fields of a header (R48). -/
def rp9Bound (h : BitVec 128) : Nat := natBits h.toNat 63 0
def rp9Anchor (h : BitVec 128) : Int := (h.extractLsb' 64 16).toInt
def rp9Rows (h : BitVec 128) : Nat := natBits h.toNat 87 80
def rp9Cols (h : BitVec 128) : Nat := natBits h.toNat 95 88
def rp9Nant (h : BitVec 128) : Bool := h.getLsbD 96
/-- The header passes R50. -/
def rp9HeaderOk (h : BitVec 128) : Bool :=
  natBits h.toNat 127 97 == 0 && 1 ≤ rp9Rows h && rp9Rows h ≤ 64 && 1 ≤ rp9Cols h && rp9Cols h ≤ 64
/-- Every residue of a tile is below its modulus (R50). -/
def rp9PlanesOk (bs : List (BitVec 8)) (n : Nat) : Bool :=
  (List.range 9).all fun j => (List.range n).all fun ix => decide (rp9Res bs n j ix < Config.modulus j)
/-- A header from its fields (R48). -/
def rp9Header (bound : Nat) (anchor : Int) (rows cols : Nat) (nant : Bool) : BitVec 128 :=
  0#31 ++ BitVec.ofBool nant ++ BitVec.ofNat 8 cols ++ BitVec.ofNat 8 rows ++ BitVec.ofInt 16 anchor ++ BitVec.ofNat 64 bound
/-- The bytes of a tile from its header and the residue of each channel and element (R49). -/
def rp9Tile (h : BitVec 128) (n : Nat) (res : Nat → Nat → Nat) : List (BitVec 8) :=
  leBytes 16 h.toNat ++ (List.range 9).flatMap fun j =>
    (List.range n).flatMap fun ix => leBytes (if j < 7 then 1 else 2) (res j ix)

/-! ### Expansion (R51 to R54) -/

/-- An expanded element: its integer, its NaN mark and its flags. -/
structure Plate where
  e : Int
  nan : Bool
  flags : W32

/-- Expand an exact value against an anchor (R51, R54). -/
def expandValue (anchor : Int) (sat : Bool) (v : FV) : Plate :=
  match v with
  | .nan => { e := 0, nan := true, flags := flINV }
  | .inf neg => if sat then { e := if neg then -32767 else 32767, nan := false, flags := flINFSAT }
                else { e := 0, nan := true, flags := flINV }
  | .fin neg m k =>
    let r := roundInt 0 neg m (k - anchor)
    let x := min r.1 32767
    { e := if neg then -(x : Int) else x, nan := false
      flags := flagIf r.2 flSHED ||| flagIf (decide (32767 < r.1)) flCLIP }

/-- Expand an integer element exactly (R53). -/
def expandInt (v : FV) : Plate :=
  match v with
  | .fin neg m _ => { e := if neg then -(m : Int) else m, nan := false, flags := 0 }
  | _ => { e := 0, nan := true, flags := flINV }

/-- The format code of a descriptor is an integer format (R53, R225). -/
def intFormat (f : Nat) : Bool := f == 6 || f == 7 || f == 8
/-- The largest expanded magnitude of a format code (R52). -/
def maxmag (f : Nat) : Nat := match f with | 6 => 128 | 7 => 255 | 8 => 32768 | _ => 32767
/-- Expand an element of a format code (R51, R53). -/
def expandOf (f : Nat) (anchor : Int) (sat : Bool) (v : FV) : Plate :=
  if intFormat f then expandInt v else expandValue anchor sat v

/-- The bytes that `k` elements of a format code take, packed one after another (R228, R229). -/
def packedBytes (f k : Nat) : Nat :=
  match f with
  | 0 => 4 * k | 1 => 2 * k | 2 => k | 3 => 34 * (k / 32) | 4 => 18 * (k / 32) | 5 => k / 2 | 6 => k | 7 => k | 8 => 2 * k
  | _ => 0

/-- The values of `k` packed elements of a format code; CB4 takes its BF16 entries from a code table (R39, R229). -/
def packedValues (f k : Nat) (ct : List (BitVec 16)) (bs : List (BitVec 8)) : List FV :=
  let scalar := fun (z : Nat) (v : Nat → FV) => (List.range k).map fun i => v (leNat ((bs.drop (z * i)).take z))
  match f with
  | 0 => scalar 4 f32.value
  | 1 => scalar 2 bf16.value
  | 2 => scalar 1 e4m3.value
  | 3 => (List.range (k / 32)).flatMap fun b => decE4m3b ((bs.drop (34 * b)).take 34)
  | 4 => (List.range (k / 32)).flatMap fun b => decE2m1b ((bs.drop (18 * b)).take 18)
  | 5 => (List.range k).map fun i =>
      bf16.value ((ct.getD (natBits (bs.getD (i / 2) 0).toNat (4 * (i % 2) + 3) (4 * (i % 2))) 0).toNat)
  | 6 => scalar 1 (fmtValue 4)
  | 7 => scalar 1 (fmtValue 5)
  | _ => scalar 2 (fmtValue 6)

/-! ### Decoding (R247 to R251) -/

/-- inv(m_i, m_j) of R247 for i below j. -/
def inverse (i j : Nat) : Nat :=
  ([[1, 169, 201, 55, 225, 225, 256, 75], [127, 63, 31, 155, 15, 128, 230], [126, 206, 221, 222, 64, 184],
    [62, 217, 20, 214, 241], [201, 30, 77, 115], [120, 16, 251], [157, 252], [219]].getD i []).getD (j - i - 1) 0

/-- The mixed-radix digit of channel `j` from the digits of the lower channels (R248). -/
def digit (j r : Nat) (ds : List (Nat × Nat)) : Nat :=
  ds.foldl (fun t d =>
    let m := Config.modulus j
    (t + m - d.2 % m) * inverse d.1 j % m) r

/-- mrc(S) of R248 with the product of the moduli. -/
def mrc (set : List Nat) (res : Nat → Nat) : Nat × Nat :=
  let r := set.foldl (fun (acc : List (Nat × Nat) × Nat × Nat) j =>
    let d := digit j (res j) acc.1
    (acc.1 ++ [(j, d)], acc.2.1 + d * acc.2.2, acc.2.2 * Config.modulus j)) ([], 0, 1)
  (r.2.1, r.2.2)

/-- The integer that a legitimate value denotes (R249). -/
def legitimate (x : Nat × Nat) : Option Int :=
  if x.1 < Config.mInfo / 2 then some x.1
  else if x.2 ≤ x.1 + Config.mInfo / 2 then some ((x.1 : Int) - x.2)
  else none

/-- The outcome of decoding an element (R251). -/
inductive Decoded where
  | ok (x : Int)
  | corrected (ch : Nat) (x : Int)
  | uncorrectable
  deriving DecidableEq, Repr

/-- decode of R251. -/
def decodeElement (set : List Nat) (res : Nat → Nat) : Decoded :=
  match legitimate (mrc set res) with
  | some x => .ok x
  | none =>
    if set.length = 9 then
      match set.filterMap fun j => (legitimate (mrc (set.filter (· != j)) res)).map fun x => (j, x) with
      | [(j, x)] => .corrected j x
      | _ => .uncorrectable
    else .uncorrectable

/-- The decode set of R250 from a containment register. -/
def decodeSet (contain : BitVec 128) : List Nat :=
  if contain.getLsbD 7 then (List.range 9).filter (· != natBits contain.toNat 11 8) else List.range 9

/-! ### The generator (R272, R273) -/

/-- basis_state of R272. -/
def basisState (seed : BitVec 64) (j : Nat) : BitVec 64 :=
  let s := seed ^^^ BitVec.ofNat 64 (j * 0x9E3779B97F4A7C15)
  if s = 0 then 1 else s
/-- next_bit of R272: the state after a step; its bit is bit 0 of the state before. -/
def lfsrStep (s : BitVec 64) : BitVec 64 := if s.getLsbD 0 then (s >>> 1) ^^^ 0xD800000000000000#64 else s >>> 1
/-- The elements of a basis over its declared shape, in row-major order (R273). -/
def basisElems (tern : Bool) : Nat → BitVec 64 → List Int
  | 0, _ => []
  | n + 1, s =>
    if tern then
      let s1 := lfsrStep s
      (match s.getLsbD 0, s1.getLsbD 0 with
       | false, true => 1 | true, false => -1 | _, _ => 0) :: basisElems tern n (lfsrStep s1)
    else (if s.getLsbD 0 then -1 else 1) :: basisElems tern n (lfsrStep s)
/-- beta of R273 as its elements over the declared shape. -/
def beta (seed : BitVec 64) (j kind h w : Nat) : List Int := basisElems (kind == 1) (h * w) (basisState seed j)
/-- An element of the 64x64 array. -/
def betaAt (b : List Int) (h w r c : Nat) : Int := if r < h ∧ c < w then b.getD (r * w + c) 0 else 0

/-! ### Seeded tile records (R275, R276) -/

def srSeed (r : BitVec 512) : BitVec 64 := r.setWidth 64
def srE (r : BitVec 512) : Int := (r.extractLsb' 64 16).toInt
def srH (r : BitVec 512) : Nat := natBits r.toNat 87 80
def srW (r : BitVec 512) : Nat := natBits r.toNat 95 88
def srC (r : BitVec 512) : Nat := natBits r.toNat 103 96
def srKind (r : BitVec 512) : Nat := natBits r.toNat 111 104
def srAlpha (r : BitVec 512) (j : Nat) : Int := (r.extractLsb' (128 + 16 * j) 16).toInt
/-- A valid record (R276). -/
def srValid (r : BitVec 512) : Bool :=
  1 ≤ srH r && srH r ≤ 64 && 1 ≤ srW r && srW r ≤ 64 && 1 ≤ srC r && srC r ≤ 8 && srKind r ≤ 1 &&
  natBits r.toNat 511 256 == 0 && natBits r.toNat 127 112 == 0 &&
  (List.range 8).all fun j => j < srC r || srAlpha r j == 0
/-- The bound that a record gives an MMAS (R280). -/
def srBound (r : BitVec 512) : Nat := ((List.range (srC r)).map fun j => (srAlpha r j).natAbs).foldl (· + ·) 0
/-- The bases of a record. -/
def srBases (r : BitVec 512) : List (Int × List Int) :=
  (List.range (srC r)).map fun j => (srAlpha r j, beta (srSeed r) j (srKind r) (srH r) (srW r))
/-- An element of the integer tile of a record: 2^(-E) times the weight of R277. -/
def srTile (r : BitVec 512) (bases : List (Int × List Int)) (k n : Nat) : Int :=
  (bases.map fun b => b.1 * betaAt b.2 (srH r) (srW r) k n).foldl (· + ·) 0

end Sys2Proof.Machine
end

