-- ==== Sys2Proof/Machine/Matrix.lean ====
section
/-! DEFINITION. The matrix words (09 R215 to R245): descriptors, signing, the issue order, one meaning per instruction;
and the plates (R235 to R243, 11 R281, 10 R271). -/

namespace Sys2Proof.Machine

open Sys2Proof

/-! ### Descriptors (R224 to R227) -/

def dsAnchA (x : BitVec 64) : Int := (x.extractLsb' 48 16).toInt
def dsAnchB (x : BitVec 64) : Int := (x.extractLsb' 32 16).toInt
def dsFa (x : BitVec 64) : Nat := natBits x.toNat 31 28
def dsFb (x : BitVec 64) : Nat := natBits x.toNat 27 24
def dsTw (x : BitVec 64) : Bool := x.getLsbD 23
def dsWb (x : BitVec 64) : Nat := natBits x.toNat 22 18
def dsWa (x : BitVec 64) : Nat := natBits x.toNat 17 13
def dsKq (x : BitVec 64) : Nat := natBits x.toNat 12 8
def dsK (x : BitVec 64) : Nat := 16 * dsKq x
def dsN (x : BitVec 64) : Nat := natBits x.toNat 5 0 + 1

/-- The anchor of A or B, 0 for an integer format (R53, R232). -/
def anchorOf (f : Nat) (a : Int) : Int := if intFormat f then 0 else a

/-- A slot holds an M warp (R227). -/
def Core.isM (c : Core) (slot : Nat) : Bool :=
  match c.warp? slot with
  | some w => w.role == .m
  | none => false

/-- The first check of MSET that fails (R227). -/
def msetTrap (c : Core) (mask x : BitVec 64) : Option Nat :=
  let fa := dsFa x
  let fb := dsFb x
  let kq := dsKq x
  if [5, 9, 10, 11].contains fa || fb == 10 then some Cause.illopnd
  else if decide (12 ≤ fa) || decide (12 ≤ fb) || kq == 0 || decide (16 < kq) || natBits x.toNat 7 6 != 0 then some Cause.shape
  else if ([3, 4].contains fa || [3, 4].contains fb) && kq % 2 == 1 then some Cause.shape
  else if fb == 9 && decide (4 < kq) then some Cause.shape
  else if mask == 0 || (!(dsTw x) && natBits mask.toNat 63 32 != 0) || (dsTw x && dsWa x == dsWb x) then some Cause.shape
  else if !(c.isM (dsWa x)) || (dsTw x && !(c.isM (dsWb x))) then some Cause.shape
  else none

/-- The slot of the signer set that a thread takes (R226). -/
def signerSlot (x : BitVec 64) (slot lane : Nat) : Option Nat :=
  if slot = dsWa x then some lane else if dsTw x ∧ slot = dsWb x then some (32 + lane) else none

/-- The threads of a signer set (R226). -/
def signersOf (x mask : BitVec 64) : List (Nat × Nat) :=
  (List.range 64).filterMap fun i => if mask.getLsbD i then some (if i < 32 then dsWa x else dsWb x, i % 32) else none

/-! ### Convergence registers and latch buffers (R217, R218, R231) -/

def Cvr.idle : Cvr :=
  { st := .idle, desc := 0, mask := 0, signed := 0, decl := 0, fD := 0, fMod := 0, fS2 := 0, fBw := 0, word := 0, buf := none }
def Acc.zero : Acc := { res := [], bound := 0, anchor := 0, nan := false }
def Core.cv (c : Core) (n : Nat) : Cvr := findD c.cvr n Cvr.idle
def Core.setCv (c : Core) (n : Nat) (x : Cvr) : Core := { c with cvr := put c.cvr n x }
def Core.ac (c : Core) (n : Nat) : Acc := findD c.acc n Acc.zero
def Core.setAc (c : Core) (n : Nat) (x : Acc) : Core := { c with acc := put c.acc n x }
def Core.lb (c : Core) (b : Nat) : Buf := findD c.latch b { rows := [], holder := none }

/-- The latch buffer that an operation of the issue order reads or fills. -/
def MatKind.buf? : MatKind → Option Nat
  | .mma _ _ _ _ b .. => some b
  | .mdraina _ b .. => some b
  | _ => none
def Core.bufUsed (c : Core) (b : Nat) : Bool := c.issueOrder.any fun o => o.kind.buf? == some b
def Core.bufHeld (c : Core) (b : Nat) : Bool := (c.lb b).holder.isSome
def Core.bufFree (c : Core) (b : Nat) : Bool := !(c.bufHeld b) && !(c.bufUsed b)
/-- A free buffer is empty (R217). -/
def Core.tidyLatch (c : Core) : Core := { c with latch := c.latch.filter fun e => e.2.holder.isSome || c.bufUsed e.1 }

/-- Register `n` gives up its buffer. -/
def Core.dropBuf (c : Core) (n : Nat) : Core :=
  let c1 : Core := { c with latch := c.latch.map fun e => if e.2.holder = some n then (e.1, { e.2 with holder := none }) else e }
  ((c1.setCv n { c1.cv n with buf := none })).tidyLatch

/-- Whether a register that needs a buffer gets one (R230, R231, R256, R263). -/
inductive BufChoice where
  | free (b : Nat) | held | wait
  deriving DecidableEq, Repr

/-- `own` is a buffer that the rule does not ask about. -/
def Core.bufChoice (c : Core) (own : Option Nat) : BufChoice :=
  match (List.range 4).find? c.bufFree with
  | some b => .free b
  | none => if (List.range 4).all fun b => c.bufHeld b || own == some b then .held else .wait

/-- Register `n`, without a buffer, takes the lowest free one. -/
def Core.takeBuf (c : Core) (n : Nat) : Core :=
  match (List.range 4).find? c.bufFree with
  | some b => { c.setCv n { c.cv n with buf := some b } with latch := put c.latch b { rows := [], holder := some n } }
  | none => c

/-- Every signature of a register is dropped and its buffer freed (R227, R232, R245). -/
def Core.undo (c : Core) (n : Nat) : Core :=
  let c1 := c.dropBuf n
  c1.setCv n { c1.cv n with st := .declared, signed := 0 }

/-! ### The issue order (R219) -/

/-- No element event has come about yet. -/
def Pieces.none : Pieces := { got := [], todo := .none, clobber := .none }

/-- The place of an operation among those of its cycle: behind the earlier ones and those of lower ports (R219). -/
def enterOrder (o : MatOp) (l : List MatOp) : List MatOp :=
  let later := fun (x : MatOp) => x.entered.1 == o.entered.1 && decide (o.entered.2 < x.entered.2)
  l.filter (!later ·) ++ [o] ++ l.filter later

/-- An operation enters the issue order (R219) and asks for its tokens (R471). -/
def State.enter (s : State) (d slot lane : Nat) (threads : List (Nat × Nat)) (ownS : List Span) (cost : Nat) (k : MatKind) :
    State :=
  let o : MatOp := { id := s.nextId, entered := (s.clock, portRank s.cur.2), slot := slot, lane := lane, threads := threads, ownS := ownS
                     cost := cost, granted := cost == 0, kind := k, io := Pieces.none }
  (({ s.modCore d (fun c => { c with issueOrder := enterOrder o c.issueOrder }) with nextId := s.nextId + 1 }).count d 10 1).seekTokens d 0

/-- What keeps B from being used (R229, R279): `n` bytes at a local address, a multiple of 16. -/
def bTrap (l : Launch) (x : BitVec 64) (kind : Nat) (b : BitVec 32) : Option (Nat × BitVec 64) :=
  scrCheckLocal l b (match kind with
    | 1 => rp9Bytes (dsK x) (dsN x)
    | 2 => 64
    | _ => dsN x * packedBytes (dsFb x) (dsK x)) 16

/-- The word matches the format of B (R230): kind 0 MMA, 1 MMAR, 2 MMAS. -/
def fbMatches (kind fb : Nat) : Bool := (kind == 1) == (fb == 9) && (kind == 2) == (fb == 11)

/-- Anchor and bound factor of B, from the header or record for MMAR and MMAS (R232, R280). -/
def bSide (kind : Nat) (x : BitVec 64) (rec : List (BitVec 8)) : Int × Nat :=
  match kind with
  | 1 => let h := BitVec.ofNat 128 (leNat rec); (rp9Anchor h, rp9Bound h)
  | 2 => let r := BitVec.ofNat 512 (leNat rec); (srE r, srBound r)
  | _ => (anchorOf (dsFb x) (dsAnchB x), maxmag (dsFb x))

/-- The checks of the header or the record before R232 (R232, R280). -/
def recordTrap (kind : Nat) (x : BitVec 64) (b : BitVec 32) (word : BitVec 64) (rec : List (BitVec 8)) :
    Option (Nat × BitVec 64) :=
  match kind with
  | 1 =>
    let h := BitVec.ofNat 128 (leNat rec)
    if !(rp9HeaderOk h) then some (Cause.record, b.zeroExtend 64)
    else if rp9Rows h ≠ dsK x ∨ rp9Cols h ≠ dsN x then some (Cause.shape, word)
    else none
  | 2 =>
    if !(srValid (BitVec.ofNat 512 (leNat rec))) then some (Cause.seedrec, b.zeroExtend 64)
    else if 64 < dsK x then some (Cause.shape, word)
    else none
  | _ => none

/-- Token cost of a signed operation (R470). -/
def mmaCost (kind : Nat) (x : BitVec 64) (rec : List (BitVec 8)) : Nat :=
  if kind = 2 then (srC (BitVec.ofNat 512 (leNat rec)) + 3) / 4 * dsK x + 8 else dsK x

/-- What the issue of an operation needs to know: core, register, kind, accumulator, RU, BW value, SAT, the thread that
issues it, the threads of its group, the word that traps report, and whether it is a .L word. -/
structure IssueReq where
  d : Nat
  n : Nat
  kind : Nat
  acc : Nat
  ru : Bool
  bw : BitVec 64
  sat : Bool
  slot : Nat
  lane : Nat
  threads : List (Nat × Nat)
  word : BitVec 64
  lt : Bool

/-- The anchor register takes a sum of anchors (R215, R232); the manual does not say what it holds of one outside I16 (log 20). -/
def anchorReg (s : Int) : BitVec 16 := if -32768 ≤ s ∧ s ≤ 32767 then BitVec.ofInt 16 s else Config.anchorWide s

/-- issue(cN) of R232: the checks, the bound and anchor, and the operation in the issue order. A sum of anchors is compared as the
register would take it (log 20). Its code table is
the one held at issue (DESIGN CHOICE, log 57). -/
def issueSigned (q : IssueReq) (s : State) : Except (Nat × BitVec 64) State :=
  let c := s.core q.d
  let v := c.cv q.n
  let x := v.desc
  let b := lo32 q.bw
  let o := scrOff b
  let len := match q.kind with | 1 => 16 | 2 => 64 | _ => 0
  let hb := c.scrRead o len
  if c.scrBad o len then .error (Cause.uncmem, b.zeroExtend 64)
  else
    match recordTrap q.kind x b q.word hb with
    | some t => .error t
    | none =>
      let m := bSide q.kind x hb
      let a := c.ac q.acc
      let anchor := anchorOf (dsFa x) (dsAnchA x) + m.1
      let nb := a.bound + dsK x * maxmag (dsFa x) * m.2
      if a.bound ≠ 0 ∧ a.anchor ≠ anchorReg anchor then .error (Cause.shape, q.word)
      else if Config.maxBound < nb then .error (Cause.headroom, BitVec.ofNat 64 q.acc)
      else
        let ct := match c.warp? (dsWa x) with
          | some w => if dsFb x = 5 then (List.range 16).map fun i => BitVec.ofNat 16 (w.ctEntry i) else []
          | none => []
        let who := signersOf x v.mask
        let who' := if q.lt && !(who.contains (q.slot, q.lane)) then who ++ [(q.slot, q.lane)] else who
        let k : MatKind := .mma q.kind q.acc x v.mask (v.buf.getD 0) o hb ct q.sat who' q.lt
        let s1 := (s.modCore q.d fun c => c.setAc q.acc { c.ac q.acc with bound := nb, anchor := anchorReg anchor }).enter
          q.d q.slot q.lane q.threads [] (mmaCost q.kind x hb) k
        .ok (s1.modCore q.d fun c =>
          if q.ru then c.setCv q.n { c.cv q.n with st := .issued, signed := 0 }
          else
            let c1 := c.dropBuf q.n
            c1.setCv q.n { c1.cv q.n with st := .declared, signed := 0 })

/-! ### Signing (R228, R230, R231) -/

/-- The number of registers of an A row (R228). -/
def rowCount (f k : Nat) : Nat :=
  match f with
  | 0 => k | 1 | 8 => k / 2 | 2 | 6 | 7 => k / 4 | 3 => 9 * k / 32 | 4 => 5 * k / 32 | _ => 0

/-- The packed bytes of an A row held from register `base` on (R228). -/
def rowBytes (e : Env) (f k base : Nat) : List (BitVec 8) :=
  let word := fun (i : Nat) => leBytes 4 (e.r32 (base + i)).toNat
  match f with
  | 3 => (List.range (k / 32)).flatMap fun b =>
      (List.range 8).flatMap (fun i => word (9 * b + i)) ++ (word (9 * b + 8)).take 2
  | 4 => (List.range (k / 32)).flatMap fun b =>
      (List.range 4).flatMap (fun i => word (5 * b + i)) ++ (word (5 * b + 4)).take 2
  | _ => (List.range (rowCount f k)).flatMap word

/-- A signer's row, expanded against ANCHA (R51 to R55). -/
def signRow (e : Env) (x : BitVec 64) (base : Nat) : Row :=
  let ps := (packedValues (dsFa x) (dsK x) [] (rowBytes e (dsFa x) (dsK x) base)).map
    (expandOf (dsFa x) (dsAnchA x) (satOf e))
  { flags := ps.foldl (fun f p => f ||| p.flags) 0, elems := ps.map fun p => (p.e, p.nan) }

/-- What comes of one thread's signing word. -/
inductive SignOut where
  | done (s : State) (flags : BitVec 32)
  | trap (s : State) (cause : Nat) (info : BitVec 64)
  | wait (s : State)

/-- The convergence register of a word. -/
def cvrIx (x : BitVec 10) : Nat := x.toNat - 864
/-- The accumulator of a word. -/
def accIx (x : BitVec 10) : Nat := x.toNat - 856
/-- The BW register of a word (R223). -/
def bwReg (w : RForm) : Nat := 768 + mfld w.mod 5 0

/-- The checks 1 to 6 of R230. -/
def signTrap (kind : Nat) (w : RForm) (e : Env) (v : Cvr) : Option (Nat × BitVec 64) :=
  let x := v.desc
  let n := BitVec.ofNat 64 (cvrIx w.s1)
  if v.st = .idle then some (Cause.shape, e.word)
  else if !(fbMatches kind (dsFb x)) then some (Cause.shape, e.word)
  else
    match signerSlot x e.slot e.lane with
    | none => some (Cause.cvrover, n)
    | some i =>
      if !(v.mask.getLsbD i) || v.signed.getLsbD i then some (Cause.cvrover, n)
      else if v.st = .signing ∧ ¬(v.fD = w.d ∧ v.fMod = w.mod ∧ v.fS2 = w.s2 ∧ v.fBw = e.r64 (bwReg w)) then
        some (Cause.cvrmismatch, n)
      else if e.l.nregs < w.s2.toNat + rowCount (dsFa x) (dsK x) then some (Cause.illopnd, e.word)
      else if v.st = .signing then none
      else bTrap e.l x kind (lo32 (e.r64 (bwReg w)))

/-- The first signature of an operation takes a buffer (R231). -/
def firstSign (w : RForm) (e : Env) (n : Nat) (c : Core) : Core :=
  let c1 := (c.dropBuf n).takeBuf n
  c1.setCv n { c1.cv n with st := .signing, fD := w.d, fMod := w.mod, fS2 := w.s2, fBw := e.r64 (bwReg w), word := e.word }

/-- The row enters the buffer and the signer is marked (R231). -/
def putRow (n i : Nat) (row : Row) (c : Core) : Core :=
  let v := c.cv n
  let b := v.buf.getD 0
  { c.setCv n { v with signed := v.signed ||| (1#64 <<< i) } with
    latch := put c.latch b { c.lb b with rows := put (c.lb b).rows i row } }

/-- One thread signs (R230, R231). A first signature releases the buffer that its register retains, and then waits for a free one;
a thread that waits has passed the check 7 of R230 (`waited`). -/
def signOne (kind : Nat) (w : RForm) (waited : Bool) (e : Env) (s : State) : SignOut :=
  let n := cvrIx w.s1
  let c := s.core e.d
  let v := c.cv n
  match signTrap kind w e v with
  | some t => .trap s t.1 t.2
  | none =>
    let first := v.st != .signing
    let c0 := if v.st = .issued then c.dropBuf n else c
    if first && !waited && c.bufChoice none == .held then .trap s Cause.cvrover (BitVec.ofNat 64 n)
    else if first && !((List.range 4).any c0.bufFree) then .wait (s.setCore e.d c0)
    else
      let i := (signerSlot v.desc e.slot e.lane).getD 0
      let row := signRow e v.desc w.s2.toNat
      let s1 := s.modCore e.d fun c => putRow n i row (if first then firstSign w e n c else c)
      let v1 := (s1.core e.d).cv n
      if v1.signed = v1.mask then
        match issueSigned { d := e.d, n := n, kind := kind, acc := accIx w.d, ru := mbit w.mod 6, bw := v1.fBw, sat := satOf e
                            slot := e.slot, lane := e.lane, threads := [(e.slot, e.lane)], word := e.word, lt := false } s1 with
        | .ok s2 => .done s2 row.flags
        | .error t => .trap (e.recordOf 1 t (s1.modCore e.d (·.undo n))) t.1 t.2
      else .done s1 row.flags

/-- The signing threads in lane order, from those that have not signed in an earlier cycle of the frozen word; the
flag tells that a thread has to wait (R231). -/
def signAll (kind : Nat) (w : RForm) (waited : Bool) :
    List Env → State → List ((Nat × Nat) × Option (Nat × BitVec 64)) →
    State × List ((Nat × Nat) × Option (Nat × BitVec 64)) × Bool
  | [], s, done => (s, done, false)
  | e :: es, s, done =>
    match signOne kind w waited e s with
    | .wait s1 => (s1, done, true)
    | .trap s1 c i => signAll kind w false es s1 (done ++ [((e.slot, e.lane), some (c, i))])
    | .done s1 f => signAll kind w false es (if f = 0 then s1 else s1.raise e.d e.slot e.lane f) (done ++ [((e.slot, e.lane), none)])

/-- A signing word of a group. -/
def signGroup (kind : Nat) (w : RForm) (g : Grp) : Res :=
  let before := (g.core.port g.port).partDone
  let todo := g.act.filter fun e => !(before.any fun q => q.1 == (e.slot, e.lane))
  let (s1, done, waits) := signAll kind w (g.core.port g.port).issued.isSome todo g.s before
  if waits then { s := s1.modPort g.d g.port fun p => { p with partDone := done }, retry := true }
  else
    { s := s1
      out := sortBy (fun q => q.1.2) (done.map fun q =>
        (q.1, match q.2 with | some t => TRes.trapped t.1 t.2 | none => {})) }

/-- The registers of the row that a signing word names, where its descriptor tells (R228). -/
def signRegs (w : RForm) (e : Env) : List Nat :=
  let v := (e.s.core e.d).cv (cvrIx w.s1)
  let n := if v.st = .idle then 0 else rowCount (dsFa v.desc) (dsK v.desc)
  if w.s2.toNat + n ≤ e.l.nregs then (List.range n).map (w.s2.toNat + ·) else []

/-- Issue data of a signing word: max(1, ceil(nA/8)) cycles (R228). -/
def signWord (op : Nat) (w : RForm) (s : State) : WSpec :=
  let v := (s.core s.cur.1).cv (cvrIx w.s1)
  let n := if v.st = .idle then 0 else rowCount (dsFa v.desc) (dsK v.desc)
  { (rWord op w [] []).mOnly with
    n := max 1 ((n + 7) / 8), vregs := [w.s2.toNat], reads := fun e => signRegs w e ++ [bwReg w] }

/-- MMA (R223, R230, R231). -/
def execMma (w : RForm) (s : State) : Out := issueWord (signWord 0x0C1 w s) (signGroup 0 w) s
/-- MMAR (R223, R230, R231). -/
def execMmar (w : RForm) (s : State) : Out := issueWord (signWord 0x0C2 w s) (signGroup 1 w) s
/-- MMAS (R278 to R280). -/
def execMmas (w : RForm) (s : State) : Out := issueWord (signWord 0x0C3 w s) (signGroup 2 w) s

/-! ### Words that execute once per issue group (R222) -/

/-- A word that executes for the executing thread: its trap, or the state after it; every thread whose guard is true completes it,
and `writes` go to every warp present. -/
def onceG (f : Env → State → Except (Nat × BitVec 64) (State × List RegW)) (g : Grp) : Res :=
  match g.first? with
  | none => { s := g.s, out := g.rest [] }
  | some e =>
    match f e g.s with
    | .error t => { s := e.recordOf 1 t g.s, out := g.rest [((e.slot, e.lane), TRes.trapped t.1 t.2)] }
    | .ok (s1, ws) => { s := s1, out := g.act.map fun e => ((e.slot, e.lane), { writes := ws }) }

/-- Issue data of a matrix word that executes once per group. -/
def matWord (op : Nat) (w : RForm) (srcs : List Nat) : WSpec := (rWord op w srcs []).byFirst

/-- The threads of a group whose guard is true. -/
def Grp.threads (g : Grp) : List (Nat × Nat) := g.act.map fun e => (e.slot, e.lane)

/-- MSET (R224 to R227). -/
def execMset (w : RForm) (s : State) : Out :=
  issueWord (matWord 0x0C0 w [w.s1.toNat, w.s2.toNat]).mOnly (onceG fun e s =>
    let mask := e.r64 w.s1.toNat
    let x := e.r64 w.s2.toNat
    match msetTrap (s.core e.d) mask x with
    | some c => .error (c, e.word)
    | none =>
      let n := w.d.toNat - 864
      .ok (s.modCore e.d fun c =>
        let c1 := c.undo n
        c1.setCv n { c1.cv n with desc := x, mask := mask, decl := (c1.cv n).decl + 1 }, [])) s

/-- A .L word (R233). -/
def latchedIssue (kind : Nat) (w : RForm) (threads : List (Nat × Nat)) (e : Env) (s : State) :
    Except (Nat × BitVec 64) (State × List RegW) :=
  let n := cvrIx w.s1
  let v := (s.core e.d).cv n
  let cov := (Cause.cvrover, BitVec.ofNat 64 n)
  if v.st ≠ .issued then .error (Cause.shape, e.word)
  else
    match signerSlot v.desc e.slot e.lane with
    | none => .error cov
    | some i =>
      if !(v.mask.getLsbD i) then .error cov
      else if !(fbMatches kind (dsFb v.desc)) then .error (Cause.shape, e.word)
      else
        let bw := e.r64 (bwReg w)
        match bTrap e.l v.desc kind (lo32 bw) with
        | some t => .error t
        | none =>
          (issueSigned { d := e.d, n := n, kind := kind, acc := accIx w.d, ru := mbit w.mod 6, bw := bw, sat := satOf e
                         slot := e.slot, lane := e.lane, threads := threads, word := e.word, lt := true } s).map fun s => (s, [])

/-- Issue data of a .L word. -/
def latchedWord (op : Nat) (w : RForm) : WSpec := (matWord op w [bwReg w]).mOnly

/-- MMA.L (R233). -/
def execMmaL (w : RForm) (s : State) : Out :=
  issueWord (latchedWord 0x0C1 w) (fun g => onceG (latchedIssue 0 w g.threads) g) s
/-- MMAR.L (R233). -/
def execMmarL (w : RForm) (s : State) : Out :=
  issueWord (latchedWord 0x0C2 w) (fun g => onceG (latchedIssue 1 w g.threads) g) s
/-- MMAS.L (R233, R280). -/
def execMmasL (w : RForm) (s : State) : Out :=
  issueWord (latchedWord 0x0C3 w) (fun g => onceG (latchedIssue 2 w g.threads) g) s

/-- MZERO (R238). -/
def execMzero (w : RForm) (s : State) : Out :=
  issueWord (matWord 0x0C4 w []).mOnly (onceG fun e s =>
    let a := accIx w.d
    .ok ((s.modCore e.d fun c => c.setAc a { c.ac a with bound := 0, anchor := 0 }).enter e.d e.slot e.lane [] [] 0 (.mzero a), [])) s

/-- A tile address and a barrier address (R239): their checks, in order. -/
def tileTrap (l : Launch) (tile bar : BitVec 32) : Option (Nat × BitVec 64) :=
  match scrCheckLocal l tile 16 16 with
  | some t => some t
  | none => scrCheckLocal l bar 16 16

/-- The whole tile leaves the partition (R239, R241). -/
def tileBytesTrap (l : Launch) (tile : BitVec 32) (rows cols : Nat) : Option (Nat × BitVec 64) :=
  if l.scratchBytes < scrOff tile + rp9Bytes rows cols then some (Cause.spaddr, tile.zeroExtend 64) else none

/-- What keeps an MLDR from its effect (R239). -/
def mldrTrap (l : Launch) (c : Core) (acc : Nat) (tile bar : BitVec 32) : Option (Nat × BitVec 64) :=
  let h := BitVec.ofNat 128 (leNat (c.scrRead (scrOff tile) 16))
  match tileTrap l tile bar with
  | some t => some t
  | none =>
    if c.scrBad (scrOff tile) 16 then some (Cause.uncmem, tile.zeroExtend 64)
    else if !(rp9HeaderOk h) then some (Cause.record, tile.zeroExtend 64)
    else
      match tileBytesTrap l tile (rp9Rows h) (rp9Cols h) with
      | some t => some t
      | none => if Config.maxBound < rp9Bound h then some (Cause.headroom, BitVec.ofNat 64 acc) else none

/-- MLDR (R239). -/
def execMldr (w : RForm) (s : State) : Out :=
  issueWord (matWord 0x0C7 w [w.s1.toNat, w.s2.toNat]).mOnly (fun g => onceG (fun e s =>
    let a := accIx w.d
    let tile := e.r32 w.s1.toNat
    let bar := e.r32 w.s2.toNat
    match mldrTrap e.l (s.core e.d) a tile bar with
    | some t => .error t
    | none =>
      let h := BitVec.ofNat 128 (leNat ((s.core e.d).scrRead (scrOff tile) 16))
      .ok ((s.modCore e.d fun c => c.setAc a { c.ac a with bound := rp9Bound h, anchor := anchorReg (rp9Anchor h) }).enter
        e.d e.slot e.lane g.threads [] 0 (.mldr a (scrOff tile) bar.toNat h), [])) g) s

/-- Rows and columns that MSTR writes (R223). -/
def mstrRows (w : RForm) : Nat := 64 - 8 * mfld w.mod 5 3
def mstrCols (w : RForm) : Nat := 64 - 8 * mfld w.mod 2 0

/-- MSTR (R241). -/
def execMstr (w : RForm) (s : State) : Out :=
  issueWord (matWord 0x0C8 w [w.s1.toNat, w.s2.toNat]).mvOnly (fun g => onceG (fun e s =>
    let a := accIx w.d
    let tile := e.r32 w.s1.toNat
    let bar := e.r32 w.s2.toNat
    let h := mstrRows w
    let wd := mstrCols w
    match (tileTrap e.l tile bar).or (tileBytesTrap e.l tile h wd) with
    | some t => .error t
    | none =>
      let x := (s.core e.d).ac a
      let o := scrOff tile
      .ok (s.enter e.d e.slot e.lane g.threads [(e.d, o, o + rp9Bytes h wd)] 0
        (.mstr a o bar.toNat h wd x.bound x.anchor.toInt), [])) g) s

/-- MACC (R242). -/
def execMacc (w : RForm) (s : State) : Out :=
  issueWord (matWord 0x0C9 w []).mOnly (onceG fun e s =>
    let x := (s.core e.d).ac (accIx w.s1)
    let y := (s.core e.d).ac (accIx w.s2)
    let a := accIx w.d
    if x.bound ≠ 0 ∧ y.bound ≠ 0 ∧ x.anchor ≠ y.anchor then .error (Cause.shape, e.word)
    else if Config.maxBound < x.bound + y.bound then .error (Cause.headroom, BitVec.ofNat 64 a)
    else
      .ok ((s.modCore e.d fun c => c.setAc a { c.ac a with
              bound := x.bound + y.bound, anchor := if x.bound ≠ 0 then x.anchor else y.anchor }).enter
        e.d e.slot e.lane [] [] 0 (.macc a (accIx w.s1) (accIx w.s2)), [])) s

/-- MSCL (R243). -/
def execMscl (w : RForm) (s : State) : Out :=
  issueWord (matWord 0x0CA w [w.s2.toNat]).mOnly (onceG fun e s =>
    let x := (s.core e.d).ac (accIx w.s1)
    let k := (e.r32 w.s2.toNat).toInt
    let a := accIx w.d
    if Config.maxBound < x.bound * k.natAbs then .error (Cause.headroom, BitVec.ofNat 64 a)
    else
      .ok ((s.modCore e.d fun c => c.setAc a { c.ac a with bound := x.bound * k.natAbs, anchor := x.anchor }).enter
        e.d e.slot e.lane [] [] 0 (.mscl a (accIx w.s1) k), [])) s

/-- MBND (R244). -/
def execMbnd (w : RForm) (s : State) : Out :=
  issueWord { (matWord 0x0CC w []).mOnly with vregs := [] } (onceG fun e s =>
    let a := (s.core e.d).ac (accIx w.s1)
    .ok (s, wr64 w.d.toNat (if mbit w.mod 0 then a.anchor.signExtend 64 else BitVec.ofNat 64 a.bound) 4)) s

/-- MREL (R245): it advances the declaration number of a signing or issued register (R118). -/
def execMrel (w : RForm) (s : State) : Out :=
  issueWord (matWord 0x0CD w []).mOnly (onceG fun e s =>
    let n := cvrIx w.s1
    match ((s.core e.d).cv n).st with
    | .signing | .issued =>
      .ok (s.modCore e.d fun c => let c1 := c.undo n; c1.setCv n { c1.cv n with decl := (c1.cv n).decl + 1 }, [])
    | _ => .ok (s, [])) s

/-- What keeps a MAXSC from being issued (R246). -/
def maxscTrap (e : Env) (n : Nat) (bf : Bool) (addr bar : BitVec 32) : Option (Nat × BitVec 64) :=
  let len := n * (if bf then 34 else 18)
  if n = 0 ∨ 512 < n then some (Cause.shape, e.word)
  else if addr.toNat % 2 ≠ 0 then some (Cause.spalign, addr.zeroExtend 64)
  else if bar.toNat % 16 ≠ 0 then some (Cause.spalign, bar.zeroExtend 64)
  else (scrCheckLocal e.l addr len 1).or (scrCheckLocal e.l bar 16 1)

/-- MAXSC (R246). -/
def execMaxsc (w : RForm) (s : State) : Out :=
  issueWord (matWord 0x0CE w [w.s1.toNat, w.s2.toNat]).mOnly (fun g => onceG (fun e s =>
    let q := e.r64 w.s1.toNat
    let n := (e.r32 w.s2.toNat).toNat
    match maxscTrap e n (mbit w.mod 0) (lo32 q) (hi32 q) with
    | some t => .error t
    | none =>
      .ok (s.issueOp e.d { newOp s g.act false (.maxsc (scrOff (lo32 q)) n (mbit w.mod 0) w.d.toNat (hi32 q).toNat
        (g.warps.map (·.1))) with slot := e.slot, lane := e.lane }, [])) g) s

/-! ### Engines of the core -/

/-- An engine meets an uncorrectable error (R311): a fault record of its unit, and a deferred UNCMEM. -/
def State.engineUnc (s : State) (d slot lane op unit access : Nat) (va pc : BitVec 64) : State :=
  ((s.postFault 0x50 access unit d 0xFF (((s.core d).launch).getD 0) pc va 0 0 none false).1).defer d slot lane op
    Cause.uncmem va

/-- A barrier count of an operation of the issue order. -/
def MatOp.counts (o : MatOp) (d bar : Nat) (arrive : Bool) (b : Int) (s : State) : State :=
  engineCount s d o.slot o.lane o.id (BitVec.ofNat 32 bar) arrive b

/-- The pieces of a write of bytes within 16-byte granules (R369, R466). -/
def granules (o : Nat) (bs : List (BitVec 8)) : List (Nat × List (BitVec 8)) :=
  (List.range ((o + bs.length + 15) / 16 - o / 16)).map fun i =>
    let lo := max o (16 * (o / 16 + i))
    let hi := min (o + bs.length) (16 * (o / 16 + i + 1))
    (lo, (bs.drop (lo - o)).take (hi - lo))

/-- An engine writes many elements; the first object whose bytes it would have changed is answered (R466). -/
def engineStoreAll (s : State) (d e o : Nat) (bs : List (BitVec 8)) : State × Option (BitVec 64) :=
  (granules o bs).foldl (fun (acc : State × Option (BitVec 64)) p =>
    let r := engineStore acc.1 d e p.1 p.2
    (r.1, acc.2.or r.2)) (s, none)

/-- A deferred BARCLOBBER, where an element write was suppressed (R466). -/
def State.deferClobber (s : State) (d slot lane op : Nat) (c : Option (BitVec 64)) : State :=
  match c with
  | some a => s.defer d slot lane op Cause.barclobber a
  | none => s

/-! ### The plates -/

/-- Index of a residue in an accumulator: channel, row, column (R215). -/
def resIx (j i n : Nat) : Nat := j * 4096 + 64 * i + n
def Acc.at (a : Acc) (j i n : Nat) : Nat := findD a.res (resIx j i n) 0
def Acc.setRes (a : Acc) (j i n v : Nat) : Acc := { a with res := putD a.res (resIx j i n) v 0 }

/-- Sum of products. -/
def dot (xs ys : List Int) : Int := (List.zipWith (· * ·) xs ys).foldl (· + ·) 0

/-- Add to the residues of row `i` the products of the row with the columns of B, in channel `j` (R235, R281). -/
def addRow (j i : Nat) (row : List Int) (cols : List (List Int)) (a : Acc) : Acc :=
  cols.zipIdx.foldl (fun a (c : List Int × Nat) =>
    a.setRes j i c.2 (residue (a.at j i c.2 + dot row c.1) j)) a

/-- The sum of R235 in every channel; `colsOf` gives the columns of B that a channel takes. -/
def addProducts (rows : List (Nat × List Int)) (colsOf : Nat → List (List Int)) (a : Acc) : Acc :=
  (List.range 9).foldl (fun a j =>
    let cols := colsOf j
    rows.foldl (fun a r => addRow j r.1 r.2 cols a) a) a

/-- The rows of a buffer that a mask lets through, K elements each (R226, R235). -/
def maskedRows (b : Buf) (mask : BitVec 64) (k : Nat) : List (Nat × List (Int × Bool)) :=
  (b.rows.filter fun r => mask.getLsbD r.1).map fun r => (r.1, r.2.elems.take k)
/-- The flags of the rows that a mask lets through (R55). -/
def maskedFlags (b : Buf) (mask : BitVec 64) : W32 :=
  (b.rows.filter fun r => mask.getLsbD r.1).foldl (fun f r => f ||| r.2.flags) 0

/-- A column of a dense B, expanded (R229, R235). -/
def denseCol (x : BitVec 64) (ct : List (BitVec 16)) (sat : Bool) (bs : List (BitVec 8)) (n : Nat) : List Plate :=
  let cb := packedBytes (dsFb x) (dsK x)
  (packedValues (dsFb x) (dsK x) ct ((bs.drop (n * cb)).take cb)).map (expandOf (dsFb x) (dsAnchB x) sat)

/-- The columns of plane `j` of an RP9 B (R235). -/
def planeCols (x : BitVec 64) (bs : List (BitVec 8)) (j : Nat) : List (List Int) :=
  (List.range (dsN x)).map fun n => (List.range (dsK x)).map fun k =>
    (rp9Res bs (dsK x * dsN x) j (k * dsN x + n) : Int)

/-- The columns of a seeded tile (R281). -/
def seedCols (x : BitVec 64) (r : BitVec 512) : List (List Int) :=
  let bases := srBases r
  (List.range (dsN x)).map fun n => (List.range (dsK x)).map fun k => srTile r bases k n

/-- FAULT_INJECTION (R271). -/
def inject (d id acc : Nat) (s : State) : State :=
  let t := s.tower (towerOf d)
  let v := t.injector
  if v.getLsbD 63 ∧ natBits v.toNat 61 55 = tcidOf d ∧ t.injFrom ≤ id then
    let j := natBits v.toNat 54 51
    let mask := if j < 7 then natBits v.toNat 7 0 else natBits v.toNat 8 0
    let i := natBits v.toNat 47 42
    let n := natBits v.toNat 41 36
    let a := (s.core d).ac acc
    (s.modCore d fun c => c.setAc acc (a.setRes j i n ((a.at j i n ^^^ mask) % Config.modulus j))).modTower (towerOf d) fun t =>
      { t with injector := (v &&& ~~~(1#64 <<< 63)) ||| (1#64 <<< 62) }
  else s

/-- Flags of a B operand or of latched rows reach every signer (R55). -/
def raiseAll (d : Nat) (who : List (Nat × Nat)) (f : W32) (s : State) : State :=
  if f = 0 then s else who.foldl (fun s t => s.raiseLate d t.1 t.2 f) s

/-! Element events (R236, R362, R365): pieces of 16 bytes, in an order that the manual leaves open. -/

/-- The first bytes of the 16-byte pieces of a range. -/
def pieceStarts (addr len : Nat) : List Nat := (List.range ((len + 15) / 16)).map fun i => addr + 16 * i
/-- The pieces of a range that have not been read. -/
def Pieces.unread (p : Pieces) (addr len : Nat) : List Nat := (pieceStarts addr len).filter fun a => !(p.got.any (·.1 == a))
/-- The bytes of a range of which every piece has been read. -/
def Pieces.bytes (p : Pieces) (addr len : Nat) : List (BitVec 8) := (pieceStarts addr len).flatMap fun a => findD p.got a []
/-- The next of several elements (log 65). -/
def State.nextOf {α : Type} (s : State) (l : List α) : Option α := l[Config.nextElement s.free % l.length]?

/-- The head of the issue order changes. -/
def State.modHead (s : State) (d : Nat) (f : MatOp → MatOp) : State :=
  s.modCore d fun c => match c.issueOrder with
    | [] => c
    | o :: r => { c with issueOrder := f o :: r }

/-- An operation of the issue order has been performed. -/
def State.popMat (s : State) (d : Nat) : State :=
  s.modCore d fun c => ({ c with issueOrder := c.issueOrder.drop 1 } : Core).tidyLatch

/-- One piece of what an engine of core `d` writes into its scratchpad, and the pieces that remain. -/
def storePiece (d : Nat) (io : Pieces) (left : List (Nat × List (BitVec 8))) (s : State) : State × Pieces :=
  match s.nextOf left with
  | none => (s, { io with todo := some [] })
  | some p =>
    let r := engineStore s d d p.1 p.2
    ({ r.1 with free := r.1.free + 1 }, { io with todo := some (left.erase p), clobber := io.clobber.or r.2 })

/-- The bytes of core `d` that an operation still owns: those it has to write (R366). -/
def Pieces.owned (d : Nat) (l : List (Nat × List (BitVec 8))) : List Span := l.map fun p => (d, p.1, p.1 + p.2.length)

/-- The head of the issue order writes one of its pieces. -/
def writeHead (d : Nat) (io : Pieces) (left : List (Nat × List (BitVec 8))) (s : State) : State :=
  let r := storePiece d io left s
  r.1.modHead d fun o => { o with io := r.2, ownS := Pieces.owned d (r.2.todo.getD []) }

/-- Bytes of B that the plates read from scratchpad (R235, R281). -/
def bLen (kind : Nat) (x : BitVec 64) : Nat :=
  match kind with
  | 1 => rp9Bytes (dsK x) (dsN x) | 2 => 0 | _ => dsN x * packedBytes (dsFb x) (dsK x)

/-- The plates have read B and execute an MMA, MMAR or MMAS (R235, R237, R281). -/
def runMma (d : Nat) (o : MatOp) (kind acc : Nat) (x mask : BitVec 64) (buf b : Nat) (rec : List (BitVec 8))
    (ct : List (BitVec 16)) (sat : Bool) (who : List (Nat × Nat)) (lt : Bool) (bs : List (BitVec 8)) (s : State) : State :=
  let c := s.core d
  let rows := maskedRows (c.lb buf) mask (dsK x)
  let ints := rows.map fun r => (r.1, r.2.map (·.1))
  let rowNan := rows.any fun r => r.2.any (·.2)
  let s0 := raiseAll d who (if lt then maskedFlags (c.lb buf) mask else 0) s
  let finish := fun (nan : Bool) (flags : W32) (colsOf : Nat → List (List Int)) =>
    let a := addProducts ints colsOf (c.ac acc)
    inject d o.id acc (raiseAll d who flags (s0.modCore d fun c => c.setAc acc { a with nan := a.nan || rowNan || nan }))
  match kind with
  | 1 =>
    if !(rp9PlanesOk bs (dsK x * dsN x)) then s0.defer d o.slot o.lane o.id Cause.record (BitVec.ofNat 64 b)
    else
      let nant := rp9Nant (BitVec.ofNat 128 (leNat rec))
      finish nant (if nant then flINV else 0) (planeCols x bs)
  | 2 => let cols := seedCols x (BitVec.ofNat 512 (leNat rec)); finish false 0 fun _ => cols
  | _ =>
    let ps := (List.range (dsN x)).map (denseCol x ct sat bs)
    let cols := ps.map fun p => p.map (·.e)
    finish (ps.any fun p => p.any (·.nan)) (ps.foldl (fun f p => p.foldl (fun f q => f ||| q.flags) f) 0) fun _ => cols

/-- B meets an uncorrectable error (R311): nothing is added. -/
def badMma (d : Nat) (o : MatOp) (mask : BitVec 64) (buf b : Nat) (who : List (Nat × Nat)) (lt : Bool) (s : State) : State :=
  (raiseAll d who (if lt then maskedFlags ((s.core d).lb buf) mask else 0) s).engineUnc d o.slot o.lane o.id 5 1 (BitVec.ofNat 64 b) 0

/-- The residues of a tile as an accumulator holds them (R239). -/
def tileRes (bs : List (BitVec 8)) (rows cols : Nat) : List (Nat × Nat) :=
  (List.range 9).flatMap fun j => (List.range rows).flatMap fun i => (List.range cols).filterMap fun n =>
    let v := rp9Res bs (rows * cols) j (i * cols + n)
    if v = 0 then none else some (resIx j i n, v)

/-- The plates have read a tile and execute an MLDR (R239, R240). -/
def runMldr (d : Nat) (o : MatOp) (acc addr bar : Nat) (h : BitVec 128) (bs : List (BitVec 8)) (s : State) : State :=
  let s1 :=
    if !(rp9PlanesOk bs (rp9Rows h * rp9Cols h)) then
      (s.modCore d fun c => c.setAc acc { c.ac acc with res := [], nan := true }).defer d o.slot o.lane o.id Cause.record
        (BitVec.ofNat 64 addr)
    else s.modCore d fun c => c.setAc acc { c.ac acc with res := tileRes bs (rp9Rows h) (rp9Cols h), nan := rp9Nant h }
  o.counts d bar true 0 s1

/-- The tile of an MLDR meets an uncorrectable error (R240, R311). -/
def badMldr (d : Nat) (o : MatOp) (acc addr bar : Nat) (s : State) : State :=
  o.counts d bar true 0 ((s.modCore d fun c => c.setAc acc { c.ac acc with res := [], nan := true }).engineUnc d o.slot o.lane o.id 5 1
    (BitVec.ofNat 64 addr) 0)

/-- The tile that an MSTR writes (R241). -/
def mstrTile (a : Acc) (rows cols bound : Nat) (anchor : Int) : List (BitVec 8) :=
  rp9Tile (rp9Header bound anchor rows cols a.nan) (rows * cols) fun j ix => a.at j (ix / cols) (ix % cols)

/-- An MSTR has written its tile (R241). -/
def endMstr (d : Nat) (o : MatOp) (bar rows cols : Nat) (clobber : Option (BitVec 64)) (s : State) : State :=
  o.counts d bar false (-(rp9Bytes rows cols : Int)) (s.deferClobber d o.slot o.lane o.id clobber)

/-- Residues of every element from the sources' (R242, R243). -/
def mapRes (f : Nat → Nat → Nat) (xs ys : Acc) : List (Nat × Nat) :=
  let keys := ((xs.res ++ ys.res).map (·.1)).eraseDups
  keys.foldl (fun acc k => putD acc k (f (k / 4096) k) 0) []

/-- The plates execute an operation that touches no memory (R220, R221, R242, R243). -/
def runPlate (d : Nat) (k : MatKind) (s : State) : State :=
  match k with
  | .mzero a => s.modCore d fun c => c.setAc a { c.ac a with res := [], nan := false }
  | .macc a x y =>
    s.modCore d fun c => c.setAc a { c.ac a with
      res := mapRes (fun j k => (findD (c.ac x).res k 0 + findD (c.ac y).res k 0) % Config.modulus j) (c.ac x) (c.ac y)
      nan := (c.ac x).nan || (c.ac y).nan }
  | .mscl a x k =>
    s.modCore d fun c => c.setAc a { c.ac a with
      res := mapRes (fun j i => findD (c.ac x).res i 0 * residue k j % Config.modulus j) (c.ac x) Acc.zero
      nan := (c.ac x).nan }
  | _ => s

/-- The operation executes on the press (R254). -/
def MatKind.onPress : MatKind → Bool
  | .mdrain .. | .mdraina .. | .mchk .. => true
  | _ => false

/-- The head of the issue order reads one more piece of its source, and performs itself by `run` once it has read all of it; an
uncorrectable error ends it by `bad`. -/
def readThen (d : Nat) (o : MatOp) (addr len : Nat) (run : List (BitVec 8) → State → State) (bad : State → State) (s : State) :
    State :=
  match s.nextOf (o.io.unread addr len) with
  | none => (run (o.io.bytes addr len) s).popMat d
  | some a =>
    let n := min 16 (addr + len - a)
    if (s.core d).scrBad a n then (bad s).popMat d
    else
      { s with free := s.free + 1 }.modHead d fun o => { o with io := { o.io with got := o.io.got ++ [(a, (s.core d).scrRead a n)] } }

/-- The head of the issue order writes one more of its pieces, and performs `fin` with the last. -/
def writeThen (d : Nat) (o : MatOp) (all : Unit → List (Nat × List (BitVec 8))) (fin : Option (BitVec 64) → State → State) (s : State) :
    State :=
  let left := match o.io.todo with
    | some l => l
    | none => all ()
  let s1 := writeHead d o.io left s
  if 1 < left.length then s1 else (fin ((s1.core d).issueOrder.head?.bind (·.io.clobber)) s1).popMat d

/-- The plates go on with an operation (R220, R221, R236, R241). -/
def stepPlate (d : Nat) (o : MatOp) (s : State) : State :=
  match o.kind with
  | .mma kind acc x mask buf b rec ct sat who lt =>
    readThen d o b (bLen kind x) (runMma d o kind acc x mask buf b rec ct sat who lt) (badMma d o mask buf b who lt) s
  | .mldr a addr bar h =>
    readThen d o addr (rp9Bytes (rp9Rows h) (rp9Cols h)) (runMldr d o a addr bar h) (badMldr d o a addr bar) s
  | .mstr a addr bar rows cols bound anchor =>
    writeThen d o (fun _ => granules addr (mstrTile ((s.core d).ac a) rows cols bound anchor)) (endMstr d o bar rows cols) s
  | k => (runPlate d k s).popMat d

/-- PLATE_EXECUTE (R219, R221): the head of the issue order goes on, in a later cycle than it entered, once it holds its tokens and
owns its destination (R366). -/
def execPlateExecute (d : Nat) (s : State) : Out :=
  match (s.core d).issueOrder with
  | [] => .next s
  | o :: _ =>
    if !o.granted || o.kind.onPress || decide (s.clock ≤ o.entered.1) || o.ownS.any (fun r => s.ownedS r.1 r.2.1 r.2.2 o.id) then
      .next s
    else .next (stepPlate d o s)

/-- S of a block from its trailer (R37, R38), and whether it is a NaN block. -/
def blockScale (bf : Bool) (b : List (BitVec 8)) : Nat := leNat (b.drop (if bf then 32 else 16)) % 1024

/-- MAXSC_COMPLETE (R246). -/
def execMaxscComplete (d op : Nat) (s : State) : Out :=
  match (s.core d).op? op with
  | some o =>
    match o.body with
    | .maxsc addr n bf wreg bar slots =>
      let z := if bf then 34 else 18
      let c := s.core d
      let scales := (List.range n).map fun i => blockScale bf (c.scrRead (addr + z * i) z)
      let smax := (scales.filter (· != 0x3FF)).foldl max 0
      let v : W64 := BitVec.ofNat 64 (smax + (if scales.contains 0x3FF then 1024 else 0))
      let s1 :=
        if c.scrBad addr (n * z) then s.engineUnc d o.slot o.lane o.id 5 1 (BitVec.ofNat 64 addr) 0
        else slots.foldl (fun s sl => s.putWarpReg d sl wreg (v.zeroExtend 256)) s
      .next (engineCount (s1.modCore d (·.delOp op)) d o.slot o.lane o.id (BitVec.ofNat 32 bar) true 0)
    | _ => .next s
  | none => .next s

end Sys2Proof.Machine
end

