-- ==== Sys2Proof/Machine/Engine.lean ====
section
/-! DEFINITION. What the engines of a core have in common: reads and writes of memory on behalf of an operation in flight,
parking on a missing page (16 R411), stopping on a cause (13 R358, 15 R398), and the release of owned lines (14 R366). -/

namespace Sys2Proof.Machine

open Sys2Proof

/-- What an engine's access answers: a value, a cause that stops the command, a missing page, or that it has to wait. -/
inductive Eng (α : Type) where
  | ok (s : State) (x : α)
  | stop (s : State) (cause : Nat)
  | miss (s : State) (va : BitVec 64) (ptepa access : Nat)
  | wait (s : State)
  | bad

/-- Go on with what an access answered. -/
def Eng.bind {α β : Type} (x : Eng α) (f : State → α → Eng β) : Eng β :=
  match x with
  | .ok s a => f s a
  | .stop s c => .stop s c
  | .miss s va p k => .miss s va p k
  | .wait s => .wait s
  | .bad => .bad

/-- Take an access where it answers, and end with `a` where it does not: what it met is met again by the step that repeats it. -/
def Eng.orElse {α : Type} (x : Eng α) (s : State) (a : α) : Eng α :=
  match x with
  | .ok s1 a1 => .ok s1 a1
  | _ => .ok s a

/-- The access of an operation in flight: no copy serves it that was filled before an acquire of a thread on whose behalf it
executes (R370, R529). -/
def State.who (s : State) (d : Nat) (o : Op) : Who :=
  let l := s.coreLaunch d
  { d := d, root := (l.map fun l => l.ptroot.toNat).getD 0, priv := (l.map Launch.priv).getD false
    key := ((s.core d).launch).getD 0, op := o.id
    acq := ((o.threads.filterMap fun t => s.thread? d t.1 t.2).map (·.acqAt)).foldl max 0 }

/-- An engine that meets an uncorrectable error posts a fault record with the VA of its command (R311, R398). -/
def State.uncEngine (s : State) (d unit access : Nat) (va pc : BitVec 64) : State :=
  (s.postFault 0x50 access unit d 0xFF (((s.core d).launch).getD 0) pc va 0 0 none false).1

/-- A failed access of an engine at a VA. -/
def engErr {α : Type} (s : State) (d unit access : Nat) (va pc : BitVec 64) (e : XErr) : Eng α :=
  match e with
  | .miss p => .miss s va p access
  | .unc => .stop (s.uncEngine d unit access va pc) Cause.uncmem
  | .bad => .bad
  | e => .stop s e.cause

/-- The translation that an operation keeps of a line (R409). -/
def State.kept (s : State) (d id line : Nat) (wr : Bool) : Option Loc :=
  ((s.core d).op? id).bind fun o => (o.xlat.find? fun x => x.1 == (line, wr)).map (·.2)

/-- Take the line of a byte out of owned ranges (R366). -/
def cutLine (a : Nat) (l : List (Nat × Nat)) : List (Nat × Nat) :=
  let lo := a / 128 * 128
  l.flatMap fun r =>
    if r.2 ≤ lo ∨ lo + 128 ≤ r.1 then [r]
    else (if r.1 < lo then [(r.1, lo)] else []) ++ (if lo + 128 < r.2 then [(lo + 128, r.2)] else [])

/-- An operation translates a line and keeps the translation (R409, R411); a destination line of a HOST or PEER page is owned no
longer (R366). -/
def Op.keep (o : Op) (line : Nat) (wr : Bool) (p : Loc) : Op :=
  { o with xlat := o.xlat ++ [((line, wr), p)], ownV := if wr && !(p.own) then cutLine (128 * line) o.ownV else o.ownV }

/-- Where a byte of a line lies, by the translation that the operation keeps of the line or one that it makes now. -/
def engLine (w : Who) (wr : Bool) (va : BitVec 64) (s : State) : State × Except XErr Loc :=
  let line := va.toNat / 128
  match s.kept w.d w.op line wr with
  | some p => (s, .ok { p with pa := p.pa + va.toNat % 128 })
  | none =>
    match translateOn s w.d w.root w.priv (BitVec.ofNat 64 (128 * line)) (if wr then .write else .read) with
    | (s1, .error e) => (s1, .error e)
    | (s1, .ok p) =>
      if p.loc.ty = 3 ∧ !(s1.peerOk p.loc.peer p.loc.pport) then (s1, .error .prot)
      else
        (s1.modCore w.d fun c => c.modOp w.op (·.keep line wr p.loc), .ok { p.loc with pa := p.loc.pa + va.toNat % 128 })

/-- Where the parts of a range within lines lie. -/
def engLines (w : Who) (wr : Bool) : List (BitVec 64 × Nat) → State → State × Except XErr (List (Loc × Nat))
  | [], s => (s, .ok [])
  | (va, n) :: r, s =>
    match engLine w wr va s with
    | (s1, .error e) => (s1, .error e)
    | (s1, .ok p) =>
      match engLines w wr r s1 with
      | (s2, .error e) => (s2, .error e)
      | (s2, .ok ps) => (s2, .ok ((p, n) :: ps))

/-- The launch of a core has met its abort: an operation that meets a missing page stops where it stands, and does not park (R146). -/
def State.aborting (s : State) (d : Nat) : Bool :=
  match s.coreLaunch d with
  | some l => (match l.phase with | .ending .. => true | _ => false)
  | none => false

/-- A PEER write of an engine leaves only when a port reaches the peer and nothing waits for it (R429). -/
def State.peerReady (s : State) (p : Loc) : Bool :=
  (s.route p.peer p.pport).isSome && !(s.fab.outbox.any fun q => q.peer == p.peer && q.pport == p.pport)

/-- After an abort nothing waits for a peer that no port reaches (R429): the command ends as on a missing page (R146). -/
def State.cutOff (s : State) (d : Nat) (ps : List (Loc × Nat)) : Bool :=
  s.aborting d && ps.any fun p => p.1.ty == 3 && (s.route p.1.peer p.1.pport).isNone

/-- An engine reads `n` bytes at a VA; `pc` is the VA of its command. -/
def engRead (d unit : Nat) (o : Op) (pc va : BitVec 64) (n : Nat) (s : State) : Eng (List (BitVec 8)) :=
  match engLines (s.who d o) false (lineParts va n) s with
  | (s1, .error e) => engErr s1 d unit 1 va pc e
  | (s1, .ok ps) =>
    match readLocs (s1.who d o) ps s1 with
    | .ok s2 bs => .ok (ps.foldl (fun s p => s.l2Pass p.1 false) s2) bs
    | .err s2 e => engErr s2 d unit 1 va pc e
    | .wait s2 => if s2.cutOff d ps then .miss s2 va 0 1 else .wait s2

/-- An engine writes bytes at a VA: the places it wrote are answered. It waits for an earlier owner of their lines (R366), and for
a port towards a peer. -/
def engWrite (d unit : Nat) (o : Op) (pc va : BitVec 64) (bs : List (BitVec 8)) (s : State) : Eng (List (Loc × Nat)) :=
  let w := s.who d o
  match engLines w true (lineParts va bs.length) s with
  | (s1, .error e) => engErr s1 d unit 2 va pc e
  | (s1, .ok ps) =>
    if s1.cutOff d ps then .miss s1 va 0 2
    else if (ps.any fun p => p.1.ty == 3 && !(s1.peerReady p.1)) ||
        (ps.any (·.1.own) && s1.ownedV w.root va.toNat (va.toNat + bs.length) o.id) then .wait s1
    else .ok (ps.foldl (fun s p => s.l2Pass p.1 true) (writeLocs w ps bs s1)) ps

/-- An operation parks on a missing page: a PAGEMISS record, and it waits for RESUME (R411, R413). -/
def State.park (s : State) (d unit id : Nat) (pc va : BitVec 64) (ptepa access : Nat) : State :=
  let r := s.postFault 0x60 access unit d 0xFF (((s.core d).launch).getD 0) pc va 0 (BitVec.ofNat 64 ptepa) (some id) true
  r.1.modCore d fun c => c.modOp id fun o => { o with parked := some r.2 }

/-- An engine error record with status STOPPED (R385, R532). -/
def State.postStopped (s : State) (d slot lane cause : Nat) (va : BitVec 64) : State :=
  s.post (towerOf d) (mkEvent 3 0x10 cause (((s.coreLaunch d).map Launch.id).getD 0) d slot lane va 0)

/-- What an operation that executes counts on its barrier. -/
def Op.counts (o : Op) (d bar : Nat) (arrive : Bool) (b : Int) (s : State) : State :=
  engineCount s d o.slot o.lane o.id (BitVec.ofNat 32 bar) arrive b

/-- An operation leaves flight. -/
def State.endOp (s : State) (d id : Nat) : State := s.modCore d (·.delOp id)

/-- The number of an issuing thread's earlier operations is that of its own: an operation may begin (R366, R368) when no
held .ACQ access precedes it. -/
def State.mayBegin (s : State) (d : Nat) (o : Op) : Bool := !((s.core d).acqBlocks o.threads o.id) && o.parked.isNone

/-- Take the row of a byte out of owned scratchpad bytes (R366). -/
def cutRow (core off : Nat) (l : List Span) : List Span :=
  let lo := off / 128 * 128
  l.flatMap fun r =>
    if r.1 ≠ core ∨ r.2.2 ≤ lo ∨ lo + 128 ≤ r.2.1 then [r]
    else (if r.2.1 < lo then [(core, r.2.1, lo)] else []) ++ (if lo + 128 < r.2.2 then [(core, lo + 128, r.2.2)] else [])

end Sys2Proof.Machine
end

