-- ==== Sys2Proof/Machine/Copy.lean ====
section
/-! DEFINITION. COPY (13 R351 to R358) and the completion of cache maintenance (R359). A command reads its source, converts it
when all of it has been read, and writes its destination; it reads and writes the bytes of one 16-byte granule in one step. -/

namespace Sys2Proof.Machine

open Sys2Proof

/-! ### The command record (R352) -/

abbrev CopyRec := BitVec 512

/-- Bits [hi:lo] of the record. -/
def cpF (r : CopyRec) (hi lo : Nat) : Nat := natBits r.toNat hi lo
def cpConv (r : CopyRec) : Nat := cpF r 83 80
def cpNel (r : CopyRec) : Nat := cpF r 127 96
def cpRows (r : CopyRec) : Nat := cpF r 151 144
def cpCols (r : CopyRec) : Nat := cpF r 159 152
def cpMc (r : CopyRec) : Bool := r.getLsbD 215
def cpStride (r : CopyRec) : Int := (r.extractLsb' 224 32).toInt
def cpBar (r : CopyRec) : BitVec 32 := r.extractLsb' 160 32
/-- Kind, address and b register of the destination (true) or the source. -/
def cpKind (r : CopyRec) (dst : Bool) : Nat := if dst then cpF r 67 66 else cpF r 65 64
def cpAddr (r : CopyRec) (dst : Bool) : BitVec 32 := if dst then r.extractLsb' 32 32 else r.setWidth 32
def cpBuf (r : CopyRec) (dst : Bool) : Nat := if dst then cpF r 79 76 else cpF r 75 72
/-- The conversions on RP9 tiles. -/
def cpTile (r : CopyRec) : Bool := [3, 4, 5, 7].contains (cpConv r)
/-- The cores of the court, row-major (R352). -/
def cpCourt (r : CopyRec) : List Nat :=
  (List.range (2 ^ cpF r 214 212)).flatMap fun y => (List.range (2 ^ cpF r 211 209)).map fun x =>
    dcidOf (cpF r 208 204 + x) (cpF r 203 200 + y)
/-- The number of copies. -/
def cpCopies (r : CopyRec) : Nat := if cpMc r then 2 ^ (cpF r 214 212 + cpF r 211 209) else 1

/-! ### Stream records (R320 to R322) -/

def stIo (t : BitVec 512) (hi lo : Nat) : Nat := natBits t.toNat hi lo
def stEsz (t : BitVec 512) : Nat := stIo t 10 8
def stInd (t : BitVec 512) : Bool := t.getLsbD 16
def stCount (t : BitVec 512) (l : Nat) : Nat := stIo t (16 * l + 143) (16 * l + 128)
def stStride (t : BitVec 512) (l : Nat) : Int := (t.extractLsb' (32 * l + 256) 32).toInt
/-- The elements that the stream yields. -/
def stTotal (t : BitVec 512) : Nat := stCount t 0 * stCount t 1 * stCount t 2 * stCount t 3
/-- A valid stream record (R321). -/
def stValid (t : BitVec 512) : Bool :=
  stIo t 511 384 == 0 && stIo t 255 192 == 0 && stIo t 63 24 == 0 && stIo t 15 11 == 0 && stIo t 7 4 == 0 &&
  stEsz t ≤ 4 && (List.range 4).all (fun l => 1 ≤ stCount t l) && (stInd t || (stIo t 23 17 == 0 && stIo t 127 96 == 0))

/-- The product of the counts of the levels below `l`. -/
def stBelow (t : BitVec 512) (l : Nat) : Nat := ((List.range l).map (stCount t)).foldl (· * ·) 1
/-- Index of element `q` at level `l`. -/
def stIx (t : BitVec 512) (q l : Nat) : Nat := q / stBelow t l % stCount t l
/-- The element of the index buffer that element `q` uses (R322). -/
def stIndexAt (t : BitVec 512) (q : Nat) : Nat :=
  let l := stIo t 19 18
  stIo t 127 96 + stIx t q l + stCount t l * (q / stBelow t (l + 1))
/-- The element offset of element `q`, with the index `idx` where the stream has an indirect level (R322). -/
def stOffset (t : BitVec 512) (q idx : Nat) : Int :=
  ((List.range 4).map fun l =>
    (if stInd t ∧ l = stIo t 19 18 then (idx : Int) else stIx t q l) * stStride t l).foldl (· + ·) (stIo t 95 64)

/-! ### Sizes (R354) -/

/-- Element size of the command for conversion 0: that of its streams, 1 byte without any. -/
def cpSize0 (streams : List (Nat × BitVec 512)) : Nat :=
  match streams with
  | [] => 1
  | x :: _ => 2 ^ stEsz x.2

/-- Pieces in a unit and bytes in a piece, of the source and of the destination (R353, R354). A block or a tile counts as pieces of one
byte, which CSTRIDE moves by where it is the destination (R357; log 73). -/
def cpUnit (r : CopyRec) (z0 : Nat) (dst : Bool) : Nat × Nat :=
  let tile := (rp9Bytes 1 (cpNel r), 1)
  match cpConv r, dst with
  | 0, _ => (1, z0)
  | 1, false => (32, 2) | 1, true => (18, 1)
  | 2, false => (32, 2) | 2, true => (34, 1)
  | 3, false => (cpNel r, 2) | 3, true => tile
  | 4, false => tile | 4, true => (cpNel r, 2)
  | 5, false => tile | 5, true => (cpNel r, 4)
  | 6, false => (18, 1) | 6, true => (32, 2)
  | 7, false => (cpNel r, 1) | 7, true => tile
  | _, false => (1, 4)
  | _, true => (1, 2)

/-- The number of units. -/
def cpUnits (r : CopyRec) : Nat :=
  match cpConv r with
  | 0 | 8 => cpNel r
  | 1 | 2 | 6 => cpNel r / 32
  | _ => 1

/-- Bytes of the source, or of one copy of the destination. -/
def cpBytes (r : CopyRec) (z0 : Nat) (dst : Bool) : Nat :=
  let u := cpUnit r z0 dst
  cpUnits r * u.1 * u.2
/-- The destination byte total (R357). -/
def cpTotal (r : CopyRec) (z0 : Nat) : Nat := cpCopies r * cpBytes r z0 true

/-- The side holds elements, not blocks or a tile; and the size of its element. -/
def cpElemSide (r : CopyRec) (dst : Bool) : Option Nat :=
  match cpConv r, dst with
  | 1, false | 2, false | 3, false => some 2
  | 4, true => some 2 | 5, true => some 4 | 6, true => some 2 | 7, false => some 1
  | 8, false => some 4 | 8, true => some 2
  | 0, _ => none
  | _, _ => none

/-- The alignment of a SPAD address: the element size, 16 for a tile (R48, R355), and for blocks, of which no rule gives one, 2
(log 73). -/
def cpAlign (r : CopyRec) (z0 : Nat) (dst : Bool) : Nat :=
  match cpElemSide r dst with
  | some z => z
  | none => if cpConv r = 0 then z0 else if cpTile r then 16 else 2

/-! ### The checks at issue (R355) -/

/-- R354 and R321 for a stream endpoint. -/
def cpStreamOk (r : CopyRec) (dst : Bool) (t : BitVec 512) : Bool :=
  stValid t && stTotal t == cpNel r &&
  (match cpElemSide r dst with
   | some z => 2 ^ stEsz t == z
   | none => cpConv r == 0)

/-- Check 1, as far as the record alone decides it. -/
def cpRecordOk (r : CopyRec) : Bool :=
  cpF r 511 256 == 0 && cpF r 223 216 == 0 && cpF r 199 192 == 0 && cpF r 95 87 == 0 && cpF r 71 68 == 0 &&
  cpKind r false != 3 && cpKind r true != 3 && cpConv r ≤ 8 && 1 ≤ cpNel r &&
  (!([1, 2, 6].contains (cpConv r)) || cpNel r % 32 == 0) &&
  (!(cpTile r) || (1 ≤ cpRows r && cpRows r ≤ 64 && 1 ≤ cpCols r && cpCols r ≤ 64 && cpNel r == cpRows r * cpCols r)) &&
  (cpConv r == 0 || [false, true].all fun dst => (cpElemSide r dst).isSome || cpKind r dst != 1) &&
  cpF r 214 212 ≤ 4 && cpF r 211 209 ≤ 5 &&
  (cpMc r || (cpF r 214 200 == 0 && cpF r 255 224 == 0)) &&
  (!(cpMc r && cpKind r true == 0) || cpF r 255 224 == 0)

/-- The addresses of the stream records that can be read. -/
def cpStreamAddrs (l : Launch) (r : CopyRec) : List (BitVec 32) :=
  [false, true].filterMap fun dst =>
    if cpKind r dst = 1 ∧ (scrCheckLocal l (cpAddr r dst) 64 64).isNone then some (cpAddr r dst) else none

/-- The stream records that the command names and that can be read, source first: one at a misaligned or an absent address is for checks 3
and 4 to report, and checks 1 and 2 do without it (R355; log 73). -/
def cpStreams (l : Launch) (c : Core) (r : CopyRec) : List (Nat × BitVec 512) :=
  [false, true].filterMap fun dst =>
    let a := cpAddr r dst
    if cpKind r dst = 1 ∧ (scrCheckLocal l a 64 64).isNone then
      some (if dst then 1 else 0, BitVec.ofNat 512 (leNat (c.scrRead (scrOff a) 64)))
    else none

/-- Checks 1 and 2. -/
def cpRecordTrap (r : CopyRec) (streams : List (Nat × BitVec 512)) : Bool :=
  !(cpRecordOk r) || streams.any (fun t => !(cpStreamOk r (t.1 == 1) t.2)) ||
  (match streams with
   | [x, y] => cpConv r == 0 && stEsz x.2 != stEsz y.2
   | _ => false)

/-- The scratchpad addresses of the command with the bytes and the alignment that each takes, in the order in which a failure is reported:
BAR, source, destination (R355; log 73). -/
def cpPlaces (r : CopyRec) (z0 : Nat) : List (BitVec 32 × Nat × Nat) :=
  (cpBar r, 16, 16) :: [false, true].filterMap fun dst =>
    match cpKind r dst with
    | 0 => some (cpAddr r dst, cpBytes r z0 dst, cpAlign r z0 dst)
    | 1 => some (cpAddr r dst, 64, 64)
    | _ => none

/-- Checks 3 and 4. -/
def cpPlaceTrap (l : Launch) (ps : List (BitVec 32 × Nat × Nat)) : Option (Nat × BitVec 64) :=
  match ps.find? fun p => scrOff p.1 % p.2.2 ≠ 0 with
  | some p => some (Cause.spalign, p.1.zeroExtend 64)
  | none => ps.findSome? fun p => scrCheckLocal l p.1 p.2.1 1

/-- Check 5: R92 and R120 for the court. -/
def cpCourtBad (l : Launch) (r : CopyRec) : Bool :=
  let x := cpF r 208 204
  let y := cpF r 203 200
  let w := 2 ^ cpF r 211 209
  let h := 2 ^ cpF r 214 212
  cpMc r && (x % w != 0 || y % h != 0 || !(decide (l.wx ≤ x) && decide (x + w ≤ l.wx + l.ww) && decide (l.wy ≤ y) &&
    decide (y + h ≤ l.wy + l.wh)) ||
    (cpKind r true == 0 && (towerOfXY x y != towerOfXY (x + w - 1) (y + h - 1))))

/-- A range of R356: a scratchpad's bytes, or bytes of VA. -/
inductive CpRange where
  | scr (core lo hi : Nat)
  | va (lo hi : Int)
  deriving DecidableEq, Repr

/-- Two ranges share a byte. -/
def CpRange.meets (a b : CpRange) : Bool :=
  match a, b with
  | .scr c lo hi, .scr c' lo' hi' => c == c' && decide (lo < hi') && decide (lo' < hi)
  | .va lo hi, .va lo' hi' => decide (lo < hi') && decide (lo' < hi)
  | _, _ => false

/-- The b record of number `n` that a command captured. -/
def bufOf (bufs : List (Nat × BitVec 256)) (n : Nat) : BitVec 256 := findD bufs n 0

/-- The byte range of a stream, `shift` elements further on (R356). -/
def stRange (bufs : List (Nat × BitVec 256)) (t : BitVec 512) (shift : Int) : CpRange :=
  let b := bufOf bufs (stIo t 3 0)
  let base := (brBase b).toInt
  if stInd t then .va base (base + brExtent b)
  else
    let ends := (List.range 4).map fun l => ((stCount t l : Int) - 1) * stStride t l
    let lo := ends.foldl (fun a x => a + min 0 x) ((stIo t 95 64 : Int) + shift)
    let hi := ends.foldl (fun a x => a + max 0 x) ((stIo t 95 64 : Int) + shift)
    .va (base + lo * 2 ^ stEsz t) (base + (hi + 1) * 2 ^ stEsz t)

/-- The range of one endpoint; copy `q` of a destination in memory moves by `q·CSTRIDE` pieces (R356, R357). -/
def cpRange (d : Nat) (cmd : CopyCmd) (dst : Bool) (q : Nat) : CpRange :=
  let r := cmd.record
  let z0 := cpSize0 cmd.streams
  let shift : Int := if dst then q * cpStride r else 0
  match cpKind r dst with
  | 0 =>
    let core := if dst && cpMc r then (cpCourt r).getD q d else d
    let o := scrOff (cpAddr r dst)
    .scr core o (o + cpBytes r z0 dst)
  | 1 => stRange cmd.bufs (findD cmd.streams (if dst then 1 else 0) 0) shift
  | _ =>
    let lo := (brBase (bufOf cmd.bufs (cpBuf r dst))).toInt + (cpAddr r dst).toNat + shift * (cpUnit r z0 dst).2
    .va lo (lo + cpBytes r z0 dst)

/-- The command changes nothing: conversion 0, one copy, equal ranges (R356). -/
def cpNoop (d : Nat) (cmd : CopyCmd) : Bool :=
  cpConv cmd.record == 0 && cpCopies cmd.record == 1 && decide (cpRange d cmd false 0 = cpRange d cmd true 0)

/-- Check 6 (R356). -/
def cpOverlap (d : Nat) (cmd : CopyCmd) : Bool :=
  let dsts := (List.range (cpCopies cmd.record)).map (cpRange d cmd true)
  let all := cpRange d cmd false 0 :: dsts
  !(cpNoop d cmd) && (all.zipIdx.any fun x => all.zipIdx.any fun y => decide (x.2 < y.2) && x.1.meets y.1)

/-- The scratchpad bytes and the bytes of VA that a command owns (R366); a swizzled LINEAR endpoint owns whole swizzle
blocks. -/
def cpOwns (d : Nat) (cmd : CopyCmd) : List Span × List (Nat × Nat) :=
  let rs := (List.range (cpCopies cmd.record)).map (cpRange d cmd true)
  let blk : Int := match cpKind cmd.record true with
    | 1 => brBlock (bufOf cmd.bufs (stIo (findD cmd.streams 1 0) 3 0))
    | _ => brBlock (bufOf cmd.bufs (cpBuf cmd.record true))
  let base : Int := match cpKind cmd.record true with
    | 1 => (brBase (bufOf cmd.bufs (stIo (findD cmd.streams 1 0) 3 0))).toInt
    | _ => (brBase (bufOf cmd.bufs (cpBuf cmd.record true))).toInt
  let down := fun (x : Int) => base + (x - base) / blk * blk
  (rs.filterMap fun r => match r with | .scr c lo hi => some (c, lo, hi) | _ => none,
   rs.filterMap fun r => match r with
     | .va lo hi => some ((vaOf (down lo)).toNat, (vaOf (down lo)).toNat + (down (hi + blk - 1) - down lo).toNat)
     | _ => none)

/-- The b registers that a command names (R351). -/
def cpBufs (e : Env) (r : CopyRec) (streams : List (Nat × BitVec 512)) : List (Nat × BitVec 256) :=
  let ns := [false, true].flatMap fun dst =>
    match cpKind r dst with
    | 2 => [cpBuf r dst]
    | 1 => let t := findD streams (if dst then 1 else 0) 0; [stIo t 3 0, stIo t 23 20]
    | _ => []
  ns.eraseDups.foldl (fun l n => put l n (e.reg (840 + n))) []

/-- The address of a stream record that holds an uncorrectable error (R311). -/
def cpStreamBad (l : Launch) (c : Core) (r : CopyRec) : Option (BitVec 32) :=
  (cpStreamAddrs l r).find? fun a => c.scrBad (scrOff a) 64

/-- The checks of R355 on a record as read. -/
def copyCheck (e : Env) (c : Core) (va : BitVec 64) (r : CopyRec) : Except (Nat × BitVec 64) CopyCmd :=
  let streams := cpStreams e.l c r
  let z0 := cpSize0 streams
  let cmd : CopyCmd := { recVa := va, record := r, bufs := cpBufs e r streams, streams := streams, oobt := e.t.mode.getLsbD 9
                         inp := [], ixs := [], out := none, copyIx := 0, written := 0, owed := 0, uncorr := none }
  if cpRecordOk r && (cpStreamBad e.l c r).isSome then .error (Cause.uncmem, ((cpStreamBad e.l c r).getD 0).zeroExtend 64)
  else if cpRecordTrap r streams then .error (Cause.record, va)
  else
    match cpPlaceTrap e.l (cpPlaces r z0) with
    | some t => .error t
    | none =>
      if cpCourtBad e.l r then
        .error (Cause.court, courtInfo (cpF r 208 204) (cpF r 203 200) (2 ^ cpF r 211 209) (2 ^ cpF r 214 212))
      else if cpOverlap e.d cmd then .error (Cause.copyoverlap, va)
      else .ok cmd

/-- The token cost of a COPY (R470). -/
def copyCost (cmd : CopyCmd) : Nat :=
  let n := cpTotal cmd.record (cpSize0 cmd.streams)
  if 65536 ≤ n then (n + 1023) / 1024 else 0

/-- A record that an engine word reads at issue as one direct read (R351): its bytes, or what the group meets instead. -/
inductive RecRead where
  | ok (s : State) (bs : List (BitVec 8))
  | res (r : Res)

/-- The read of `n` bytes at a VA by the executing thread of a word; a missing page suspends its warp. It waits for an owner of its
lines (R366), and for an earlier access of the thread that is held back (R325, R364). -/
def recordRead (g : Grp) (e : Env) (va : BitVec 64) (n : Nat) (s : State) : RecRead :=
  let w := { e.who with op := s.nextId }
  match translateAll w .read (lineParts va n) s with
  | (s1, .ok ps) =>
    if (ps.any (·.1.own) && s1.ownedV w.root va.toNat (va.toNat + n) s.nextId) ||
        (s.core e.d).hasHeld [(e.slot, e.lane)] s.nextId then .res { s := s, retry := true }
    else
      match readLocs w ps s1 with
      | .ok s2 bs => .ok (ps.foldl (fun s p => s.l2Pass p.1 false) s2) bs
      | .wait s2 => .res { s := s2, retry := true }
      | .err s2 x => .res { s := e.recordOf 1 (x.cause, va) s2, out := g.rest [((e.slot, e.lane), TRes.trapped x.cause va)] }
  | (s1, .error (.miss p)) => .res { s := s1, out := g.rest [], faults := [(e.slot, va, p, 1)] }
  | (s1, .error .bad) => .res { s := s1, bad := true }
  | (s1, .error x) =>
    .res { s := e.recordOf 1 (x.cause, va) s1, out := g.rest [((e.slot, e.lane), TRes.trapped x.cause va)] }

/-- COPY at issue (R351, R355); its reads of stream records take the cycles of R299. -/
def copyGroup (w : RForm) (g : Grp) : Res :=
  match g.first? with
  | none => { s := g.s, out := g.rest [] }
  | some e =>
    let va := e.r64 w.s1.toNat
    let fail := fun (s : State) (t : Nat × BitVec 64) =>
      ({ s := e.recordOf 1 t s, out := g.rest [((e.slot, e.lane), TRes.trapped t.1 t.2)] } : Res)
    if !(vaOk e.l.priv va) then fail g.s (Cause.addrform, va)
    else if va.toNat % 64 ≠ 0 then fail g.s (Cause.record, va)
    else
      match recordRead g e va 64 g.s with
      | .res r => r
      | .ok s1 bs =>
        let r := BitVec.ofNat 512 (leNat bs)
        let streams := cpStreamAddrs e.l r
        let banks := g.bankCycles (streams.map fun a => (g.d, scrOff a, scrOff a + 64))
        if streams.any fun a => s1.ownedS g.d (scrOff a) (scrOff a + 64) s1.nextId then { s := s1, retry := true }
        else
          match copyCheck e (s1.core g.d) va r with
          | .error t => { fail s1 t with freeze := banks }
          | .ok cmd =>
            let cost := copyCost cmd
            let own := if cpNoop g.d cmd then ([], []) else cpOwns g.d cmd
            let o := { newOp s1 g.act true (.copy cmd cost (cost == 0)) with ownS := own.1, ownV := own.2 }
            { s := (s1.issueOp g.d o).seekTokens g.d 1, out := g.rest [], freeze := banks }

/-- COPY (R351 to R358). -/
def execCopy (w : RForm) (s : State) : Out :=
  issueWord (rWord 0x147 w [w.s1.toNat] []).byFirst.cOnly (copyGroup w) s

/-! ### The engine -/

/-- Where an element, or a part of one, lies. -/
inductive CpAt where
  | scr (core off : Nat)
  | va (a : BitVec 64)
  | oob
  deriving DecidableEq, Repr

/-- The place `k` bytes further on. -/
def CpAt.plus (p : CpAt) (k : Nat) : CpAt :=
  match p with
  | .scr c off => .scr c (off + k)
  | .va a => .va (a + BitVec.ofNat 64 k)
  | .oob => .oob
/-- The 16-byte granule of a place (R366, R369). -/
def CpAt.granule : CpAt → Option (Nat × Nat)
  | .scr c off => some (c + 1, off / 16)
  | .va a => some (0, a.toNat / 16)
  | .oob => none
/-- How many of the `n` bytes at a place lie in its granule. -/
def CpAt.chunk (p : CpAt) (n : Nat) : Nat :=
  match p with
  | .scr _ off => min n (16 - off % 16)
  | .va a => min n (16 - a.toNat % 16)
  | .oob => n

/-- The stream record of an endpoint. -/
def cpStream (cmd : CopyCmd) (dst : Bool) : BitVec 512 := findD cmd.streams (if dst then 1 else 0) 0
/-- The endpoint is a stream with an indirect level. -/
def cpIndexed (cmd : CopyCmd) (dst : Bool) : Bool := cpKind cmd.record dst == 1 && stInd (cpStream cmd dst)
/-- The size of an element of an endpoint, and the bytes of one copy of it. -/
def CopyCmd.elem (cmd : CopyCmd) (dst : Bool) : Nat := (cpUnit cmd.record (cpSize0 cmd.streams) dst).2
def CopyCmd.size (cmd : CopyCmd) (dst : Bool) : Nat := cpBytes cmd.record (cpSize0 cmd.streams) dst

/-- The index that element `q` of an endpoint uses: none where its index element is out of bounds (R322). -/
def cpIndex (d : Nat) (o : Op) (cmd : CopyCmd) (dst : Bool) (q : Nat) (s : State) : Eng (Option Nat) :=
  let t := cpStream cmd dst
  let ib := bufOf cmd.bufs (stIo t 23 20)
  let iz : Nat := if t.getLsbD 17 then 4 else 2
  if !(cpIndexed cmd dst) then .ok s (some 0)
  else
    match brPlace ib (brR ib) (stIndexAt t q * iz) iz with
    | none => if brOobt ib || cmd.oobt then .stop s Cause.bufbound else .ok s none
    | some va => (engRead d 1 o cmd.recVa va iz s).bind fun s bs => .ok s (some (leNat bs))

/-- Where element `q` of an endpoint lies, by the index that it uses, for a multicast in copy `copy` (R352, R357); none where it is
out of bounds and traps (R318). -/
def cpElem (d : Nat) (cmd : CopyCmd) (dst : Bool) (copy q : Nat) (ix : Option Nat) : Option CpAt :=
  let r := cmd.record
  let z := cmd.elem dst
  let shift : Int := if dst then copy * cpStride r else 0
  let within := fun (b : BitVec 256) (x : Int) =>
    match brPlace b (if dst then brW b else brR b) (x * z) z with
    | some va => some (CpAt.va va)
    | none => if brOobt b || cmd.oobt then none else some .oob
  match cpKind r dst with
  | 0 => some (.scr (if dst && cpMc r then (cpCourt r).getD copy d else d) (scrOff (cpAddr r dst) + q * z))
  | 1 => within (bufOf cmd.bufs (stIo (cpStream cmd dst) 3 0)) (stOffset (cpStream cmd dst) q (ix.getD 0) + shift)
  | _ =>
    let b := bufOf cmd.bufs (cpBuf r dst)
    match brPlace b (if dst then brW b else brR b) ((cpAddr r dst).toNat + ((q : Int) + shift) * z) z with
    | some va => some (.va va)
    | none => if brOobt b || cmd.oobt then none else some .oob

/-- The command with new progress. -/
def Op.withCmd (o : Op) (f : CopyCmd → CopyCmd) : Op :=
  match o.body with
  | .copy cmd cost g => { o with body := .copy (f cmd) cost g }
  | _ => o
def State.modCmd (s : State) (d id : Nat) (f : CopyCmd → CopyCmd) : State := s.modCore d fun c => c.modOp id (·.withCmd f)

/-- An element out of bounds sets OOB (R318). -/
def cpFlag (d : Nat) (o : Op) (p : CpAt) (ix : Option Nat) (s : State) : State :=
  if p = .oob ∨ ix = none then s.raiseLate d o.slot o.lane flOOB else s

/-- Bytes at a place. -/
def cpFetch (d : Nat) (o : Op) (cmd : CopyCmd) (p : CpAt) (n : Nat) (s : State) : Eng (List (BitVec 8)) :=
  match p with
  | .oob => .ok s (List.replicate n 0)
  | .scr c off =>
    if (s.core c).scrBad off n then .stop (s.uncEngine d 1 1 (addrFor d c off) cmd.recVa) Cause.uncmem
    else .ok s ((s.core c).scrRead off n)
  | .va a => engRead d 1 o cmd.recVa a n s

/-- The source bytes from `pos` on that lie in one granule: in that of `only`, where one is given. -/
def cpReadChunk (d : Nat) (o : Op) (cmd : CopyCmd) (pos : Nat) (only : Option (Nat × Nat)) (s : State) :
    Eng (Option (CpAt × List (BitVec 8))) :=
  let z := cmd.elem false
  (cpIndex d o cmd false (pos / z) s).bind fun s1 ix =>
    match cpElem d cmd false 0 (pos / z) ix with
    | none => .stop s1 Cause.bufbound
    | some p0 =>
      let p := p0.plus (pos % z)
      if only.isSome && p.granule != only then .ok s1 none
      else
        (cpFetch d o cmd p (p.chunk (z - pos % z)) (cpFlag d o p ix s1)).bind fun s2 bs => .ok s2 (some (p, bs))

/-- Consecutive source bytes in one granule, at most `n` elements of them: they are read together (R366). -/
def cpReadRun (d : Nat) (o : Op) (cmd : CopyCmd) :
    Nat → Nat → Option (Nat × Nat) → List (BitVec 8) → State → Eng (List (BitVec 8))
  | 0, _, _, acc, s => .ok s acc
  | n + 1, pos, only, acc, s =>
    if cmd.size false ≤ pos then .ok s acc
    else
      let x := cpReadChunk d o cmd pos only s
      (if acc.isEmpty then x else x.orElse s none).bind fun s1 r =>
        match r with
        | none => .ok s1 acc
        | some (p, bs) =>
          if p.granule.isNone then .ok s1 (acc ++ bs)
          else cpReadRun d o cmd n (pos + bs.length) p.granule (acc ++ bs) s1

/-- A step that reads source bytes. -/
def cpRead (d : Nat) (o : Op) (cmd : CopyCmd) (s : State) : Eng Unit :=
  (cpReadRun d o cmd 16 cmd.inp.length none [] s).bind fun s1 bs =>
    .ok (s1.modCmd d o.id fun cmd => { cmd with inp := cmd.inp ++ bs }) ()

/-- A step that reads the index of the next destination element. -/
def cpReadIx (d : Nat) (o : Op) (cmd : CopyCmd) (s : State) : Eng Unit :=
  (cpIndex d o cmd true cmd.ixs.length s).bind fun s1 ix =>
    .ok (s1.modCmd d o.id fun cmd => { cmd with ixs := cmd.ixs ++ [ix] }) ()

/-- The source, and the indices of the destination, have been read. A command reads both before it writes: no write of its own is
ever read (R365). -/
def CopyCmd.ready (cmd : CopyCmd) : Bool :=
  decide (cmd.size false ≤ cmd.inp.length) && (!(cpIndexed cmd true) || decide (cpNel cmd.record ≤ cmd.ixs.length))

/-! ### Conversions (R353) -/

/-- A tile from plate operands (R353). -/
def cpMakeTile (rows cols : Nat) (anchor : Int) (ps : List Plate) : List (BitVec 8) :=
  let bound := (ps.map fun p => p.e.natAbs).foldl max 0
  rp9Tile (rp9Header bound anchor rows cols (ps.any (·.nan))) (rows * cols) fun j ix =>
    residue ((ps.map (·.e)).getD ix 0) j

/-- The bytes of a unit by the conversions that need no press, with the flags raised. -/
def cpConvert (r : CopyRec) (bs : List (BitVec 8)) : List (BitVec 8) × W32 :=
  let mode := cpF r 85 84
  let sat := r.getLsbD 86
  let bf := fun (k : Nat) => packedValues 1 k [] bs
  let plates := fun (ps : List Plate) => ps.foldl (fun f p => f ||| p.flags) (0 : W32)
  let out2 := fun (qs : List (Nat × W32)) =>
    (qs.flatMap fun q => leBytes 2 q.1, qs.foldl (fun f q => f ||| q.2) (0 : W32))
  match cpConv r with
  | 1 => encE2m1b mode sat (bf 32)
  | 2 => encE4m3b mode sat (bf 32)
  | 3 =>
    let a := (r.extractLsb' 128 16).toInt
    let ps := (bf (cpNel r)).map (expandValue a sat)
    (cpMakeTile (cpRows r) (cpCols r) a ps, plates ps)
  | 6 => out2 ((decE2m1b bs).map (bf16.convert mode sat))
  | 7 =>
    let ps := (packedValues 6 (cpNel r) [] bs).map expandInt
    (cpMakeTile (cpRows r) (cpCols r) 0 ps, plates ps)
  | 8 => out2 [bf16.convert mode sat (f32.value (leNat bs))]
  | _ => (bs, 0)

/-- The bytes of one copy of the destination, unit by unit. -/
def cpConvertAll (cmd : CopyCmd) : List (BitVec 8) × W32 :=
  if cpConv cmd.record = 0 then (cmd.inp, 0)
  else
    let u := cpUnit cmd.record (cpSize0 cmd.streams) false
    let us := (List.range (cpUnits cmd.record)).map fun i => cpConvert cmd.record ((cmd.inp.drop (i * (u.1 * u.2))).take (u.1 * u.2))
    (us.flatMap (·.1), us.foldl (fun f x => f ||| x.2) 0)

/-- The header and planes of the source tile of conversion 4 or 5 are accepted (R50, R354, R358). -/
def cpTileOk (r : CopyRec) (bs : List (BitVec 8)) : Bool :=
  let h := BitVec.ofNat 128 (leNat (bs.take 16))
  rp9HeaderOk h && rp9Bound h ≤ Config.maxBound && rp9Rows h == cpRows r && rp9Cols h == cpCols r &&
  rp9PlanesOk bs (cpNel r)

/-- Conversion 4 or 5 of a tile through the press (R353, R251): its bytes, flags, and decoded elements. -/
def cpDecode (cmd : CopyCmd) (set : List Nat) : List (BitVec 8) × W32 × List Decoded :=
  let r := cmd.record
  let n := cpNel r
  let h := BitVec.ofNat 128 (leNat (cmd.inp.take 16))
  let ds := (List.range n).map fun ix => decodeElement set fun j => rp9Res cmd.inp n j ix
  let val := fun (x : Decoded) =>
    if rp9Nant h then FV.nan
    else match x with
      | .ok v => FV.ofInt v (rp9Anchor h)
      | .corrected _ v => FV.ofInt v (rp9Anchor h)
      | .uncorrectable => FV.nan
  let f := if cpConv r = 4 then bf16 else f32
  let qs := ds.map fun x => f.convert (cpF r 85 84) (r.getLsbD 86) (val x)
  (qs.flatMap fun q => leBytes (if cpConv r = 4 then 2 else 4) q.1, qs.foldl (fun f q => f ||| q.2) 0, ds)

/-- The conversion goes through the press. -/
def cpOnPress (r : CopyRec) : Bool := cpConv r == 4 || cpConv r == 5

/-- The whole source has been read and waits for the press (R250). -/
def Op.wantsPress (o : Op) : Bool :=
  match o.body with
  | .copy cmd _ granted =>
    granted && cpOnPress cmd.record && cmd.out.isNone && cmd.ready && o.parked.isNone && cpTileOk cmd.record cmd.inp
  | _ => false

/-! ### Writing -/

/-- Every copy of the destination has been dealt with. -/
def CopyCmd.written? (cmd : CopyCmd) : Bool := decide (cpCopies cmd.record ≤ cmd.copyIx)

/-- The bytes of destination that the command has dealt with so far. -/
def cpDone (cmd : CopyCmd) : Nat := cmd.copyIx * cmd.size true + cmd.written

/-- Progress after `n` bytes of destination. -/
def CopyCmd.advance (cmd : CopyCmd) (n : Nat) : CopyCmd :=
  if cmd.written + n < cmd.size true then { cmd with written := cmd.written + n }
  else { cmd with written := 0, copyIx := cmd.copyIx + 1 }

/-- Where the destination byte at a position of a copy lies, and the index that its element uses. -/
def cpDst (d : Nat) (cmd : CopyCmd) (copy pos : Nat) : Option CpAt × Option Nat :=
  let z := cmd.elem true
  let ix := if cpIndexed cmd true then cmd.ixs.getD (pos / z) none else some 0
  ((cpElem d cmd true copy (pos / z) ix).map (·.plus (pos % z)), ix)

/-- The same line of VA, or the same row of a scratchpad. -/
def CpAt.sameLine (p q : CpAt) : Bool :=
  match p, q with
  | .scr c off, .scr c' off' => c == c' && off / 128 == off' / 128
  | .va a, .va b => a.toNat / 128 == b.toNat / 128
  | _, _ => false

/-- Bytes that are still to be written lie in the line of a place. -/
def cpLeft (d : Nat) (cmd : CopyCmd) (p : CpAt) : Bool :=
  (List.range (cpCopies cmd.record)).any fun copy => (List.range (cmd.size true)).any fun pos =>
    decide (cpDone cmd ≤ copy * cmd.size true + pos) && ((cpDst d cmd copy pos).1.any (·.sameLine p))

/-- The lines of VA of a place. -/
def CpAt.inLine (p : CpAt) (line : Nat) : Bool :=
  match p with
  | .va a => a.toNat / 128 == line
  | _ => false

/-- Source bytes that are still to be read lie in a line of VA, or may lie in it: where an index has still to be read, its element
may be anywhere. -/
def cpReads (d : Nat) (cmd : CopyCmd) (line : Nat) : Bool :=
  let z := cmd.elem false
  let ixLine := fun (dst : Bool) (q : Nat) =>
    let t := cpStream cmd dst
    let ib := bufOf cmd.bufs (stIo t 23 20)
    (brPlace ib (brR ib) (stIndexAt t q * (if t.getLsbD 17 then 4 else 2)) 1).any fun va =>
      va.toNat / 128 == line || (va.toNat + 3) / 128 == line
  let left := (List.range (cmd.size false)).any fun pos => decide (cmd.inp.length ≤ pos) &&
    (cpIndexed cmd false || (cpElem d cmd false 0 (pos / z) none).any fun p => (p.plus (pos % z)).inLine line)
  left || cpIndexed cmd true && (List.range (cpNel cmd.record)).any fun q => decide (cmd.ixs.length ≤ q) && ixLine true q

/-- A command has events to perform by its translation of a line (R409, R415): the line, and whether for writes. -/
def cpUses (d : Nat) (cmd : CopyCmd) (x : Nat × Bool) : Bool :=
  if x.2 then cmd.out.isNone || cpLeft d cmd (.va (BitVec.ofNat 64 (128 * x.1))) else cpReads d cmd x.1

/-- An owner releases a line when it has written every byte of its destination in it (R366). -/
def Op.wrote (o : Op) (d : Nat) (p : CpAt) : Op :=
  match o.body with
  | .copy cmd _ _ =>
    if cpLeft d cmd p then o
    else
      match p with
      | .scr c off => { o with ownS := cutRow c off o.ownS }
      | .va a => { o with ownV := cutLine a.toNat o.ownV }
      | .oob => o
  | _ => o

/-- Bytes go to a place: whether a peer takes them, and the object that they would have changed (R466). -/
def cpStore (d : Nat) (o : Op) (cmd : CopyCmd) (p : CpAt) (bs : List (BitVec 8)) (s : State) :
    Eng (Bool × Option (BitVec 64)) :=
  match p with
  | .oob => .ok s (false, none)
  | .scr c off =>
    if s.ownedS c off (off + bs.length) o.id then .wait s
    else let r := engineStoreAll s d c off bs; .ok r.1 (false, r.2)
  | .va a => (engWrite d 1 o cmd.recVa a bs s).bind fun s1 ps => .ok s1 (ps.any (·.1.ty == 3), none)

/-- What a command does for destination bytes that it has dealt with (R357, R477): they are counted on its barrier as they land, those
for a peer as the peer takes them (R365). -/
def cpDealt (d : Nat) (o : Op) (cmd : CopyCmd) (p : CpAt) (n : Nat) (r : Bool × Option (BitVec 64)) (s : State) : State :=
  let s1 := if p = .oob ∨ r.2.isSome then s else s.count d 17 n
  let s2 := s1.modCore d fun c => c.modOp o.id fun o =>
    let o1 := o.withCmd fun cmd => let c1 := cmd.advance n; { c1 with owed := c1.owed + (if r.1 then n else 0) }
    { o1.wrote d p with clobber := o.clobber.or r.2 }
  if r.1 then s2 else o.counts d (cpBar cmd.record).toNat false (-(n : Int)) s2

/-- The destination bytes from `pos` of a copy on that lie in one granule: in that of `only`, where one is given. -/
def cpWriteChunk (d : Nat) (o : Op) (cmd : CopyCmd) (out : List (BitVec 8)) (pos : Nat) (only : Option (Nat × Nat)) (s : State) :
    Eng (Option (CpAt × Nat)) :=
  let z := cmd.elem true
  match cpDst d cmd cmd.copyIx pos with
  | (none, _) => .stop s Cause.bufbound
  | (some p, ix) =>
    if only.isSome && p.granule != only then .ok s none
    else
      let n := p.chunk (z - pos % z)
      (cpStore d o cmd p ((out.drop pos).take n) s).bind fun s1 r =>
        .ok (cpDealt d o cmd p n r (cpFlag d o p ix s1)) (some (p, n))

/-- Consecutive destination bytes in one granule, at most `n` elements of them: they are written together (R366). -/
def cpWriteRun (d : Nat) (o : Op) (cmd : CopyCmd) (out : List (BitVec 8)) :
    Nat → Nat → Option (Nat × Nat) → State → Eng Unit
  | 0, _, _, s => .ok s ()
  | n + 1, pos, only, s =>
    if cmd.size true ≤ pos then .ok s ()
    else
      let x := cpWriteChunk d o cmd out pos only s
      (if only.isNone then x else x.orElse s none).bind fun s1 r =>
        match r with
        | none => .ok s1 ()
        | some (p, k) => if p.granule.isNone then .ok s1 () else cpWriteRun d o cmd out n (pos + k) p.granule s1

/-- A command ends (R358): bytes not counted are counted, and the deferred traps follow: a stopping cause with its
record, then UNCORR, then BARCLOBBER. -/
def cpFinish (d : Nat) (o : Op) (cmd : CopyCmd) (stop : Option Nat) (s : State) : State :=
  let left := cpTotal cmd.record (cpSize0 cmd.streams) - cpDone cmd + cmd.owed
  let s1 := s.endOp d o.id
  let s2 := if left = 0 then s1 else o.counts d (cpBar cmd.record).toNat false (-(left : Int)) s1
  let s3 := match stop with
    | some c => (s2.defer d o.slot o.lane o.id c cmd.recVa).postStopped d o.slot o.lane c cmd.recVa
    | none => s2
  let s4 := match cmd.uncorr with
    | some (i, n) => s3.defer d o.slot o.lane o.id Cause.uncorr (BitVec.ofNat 64 (i <<< 8 ||| n <<< 16))
    | none => s3
  s4.deferClobber d o.slot o.lane o.id o.clobber

/-- After a step of a command: it ends once all is written, and every peer has taken what was written to it (R365). -/
def cpAfter (d id : Nat) (s : State) : State :=
  match (s.core d).op? id with
  | some o =>
    match o.body with
    | .copy cmd _ _ => if cmd.written? && !(s.unperformed d id) then cpFinish d o cmd none s else s
    | _ => s
  | none => s

/-- The next step of a command whose tokens are granted. -/
def copyStep (d : Nat) (o : Op) (cmd : CopyCmd) (s : State) : Eng Unit :=
  match cmd.out with
  | some out => if cmd.written? then .ok s () else cpWriteRun d o cmd out 16 cmd.written none s
  | none =>
    if cmd.inp.length < cmd.size false then cpRead d o cmd s
    else if !cmd.ready then cpReadIx d o cmd s
    else if cpOnPress cmd.record then
      if cpTileOk cmd.record cmd.inp then .wait s else .stop s Cause.record
    else
      let r := cpConvertAll cmd
      .ok ((s.raiseLate d o.slot o.lane r.2).modCmd d o.id fun cmd => { cmd with out := some r.1 }) ()

/-- COPY_ELEMENT (R357, R358): the next elements of a command, its conversion, its end, or its parking (R411). -/
def execCopyElement (d op : Nat) (s : State) : Out :=
  match (s.core d).op? op with
  | some o =>
    match o.body with
    | .copy cmd _ granted =>
      if !granted || !(s.mayBegin d o) then .next s
      else if cpNoop d cmd then .next (cpFinish d o cmd none s)
      else
        match copyStep d o cmd s with
        | .ok s1 _ => .next (cpAfter d op s1)
        | .stop s1 c =>
          if s1.eventRoom (towerOf d) && !(s1.unperformed d op) then
            .next (cpFinish d ((s1.core d).op? op |>.getD o) cmd (some c) s1)
          else .next s
        | .miss s1 va p k => .next (if s1.aborting d then s1.endOp d op else s1.park d 1 op cmd.recVa va p k)
        | .wait s1 => .next s1
        | .bad => .fault .badPhysical
    | _ => .next s
  | none => .next s

/-! ### Cache maintenance (R359) -/

/-- The tags after the maintenance of one line: a flushed line is clean and not pinned, an invalidated one is gone, with a copy
under a lease. -/
def maintLine (inv : Bool) (l : Launch) (d : Nat) (p : Loc) (s : State) : State :=
  let key := lineKey p
  let h := (l1Place l d key).1
  let s1 := s.modCore h fun c => { c with l1 := if inv then erase c.l1 key else c.l1.map fun e => if e.1 = key then (key, false) else e }
  let kept := s1.mem.l2.map fun e => if e.1 = key then (e.1, e.2.1, false, false) else e
  { s1 with mem := { s1.mem with l2 := if inv then s1.mem.l2.filter (·.1 != key) else kept
                                 leases := if inv then s1.mem.leases.filter (·.1 != key) else s1.mem.leases } }

/-- CACHE_MAINT_COMPLETE (R359): lines whose translation fails are skipped. -/
def execCacheMaintComplete (d op : Nat) (s : State) : Out :=
  match (s.core d).op? op, s.coreLaunch d with
  | some o, some l =>
    match o.body with
    | .cache inv vas bar =>
      if !(s.mayBegin d o) then .next s
      else
        let w := s.who d o
        let s1 := vas.foldl (fun s va =>
          match translateOn s d w.root w.priv va .maint with
          | (s1, .ok p) => maintLine inv l d p.loc s1
          | (s1, .error _) => s1) s
        .next (o.counts d bar true 0 (s1.endOp d op))
    | _ => .next s
  | _, _ => .next s

end Sys2Proof.Machine
end

