-- ==== Sys2Proof/Machine/Press.lean ====
section
/-! DEFINITION. The press (10 R250 to R264): MDRAIN, MDRAINA and MCHK, one meaning per instruction, and the two steps of
an operation on the press, whether a drain or a COPY conversion (13 R353). -/

namespace Sys2Proof.Machine

open Sys2Proof

/-! ### The words -/

/-- Bytes of a drained row (R258). -/
def rowBytesOf (df : Nat) : Nat := [256, 128, 68, 36, 256, 64].getD df 256

/-- The address checks of R256, in order: alignment of each, then range of each. -/
def drainTrap (l : Launch) (ps : List (BitVec 32 × Nat)) : Option (Nat × BitVec 64) :=
  match ps.find? fun p => scrOff p.1 % 16 ≠ 0 with
  | some p => some (Cause.spalign, p.1.zeroExtend 64)
  | none => ps.findSome? fun p => scrCheckLocal l p.1 p.2 1

/-- The saturation of a word with SO and SV (R189). -/
def satMode (w : RForm) (e : Env) : Bool := if mbit w.mod 8 then mbit w.mod 7 else satOf e

/-- MDRAIN (R254 to R256). -/
def execMdrain (w : RForm) (s : State) : Out :=
  issueWord (matWord 0x0C5 w [w.s1.toNat, w.s2.toNat]).mvOnly (fun g => onceG (fun e s =>
    let a := accIx w.d
    let df := mfld w.mod 2 0
    let dst := e.r32 w.s1.toNat
    let bar := e.r32 w.s2.toNat
    let n := 64 * rowBytesOf df
    match drainTrap e.l [(dst, n), (bar, 16)] with
    | some t => .error t
    | none =>
      let o := scrOff dst
      .ok (s.enter e.d e.slot e.lane g.threads [(e.d, o, o + n)] 64
        (.mdrain a o bar.toNat df (modeOf w e) (satMode w e) ((s.core e.d).ac a).anchor.toInt), [])) g) s

/-- MDRAINA of the executing thread (R256, R263): `none` where it has to wait for a buffer; one that waits has passed the check 4 of
R256 (`waited`). -/
def mdrainaIssue (w : RForm) (waited : Bool) (threads : List (Nat × Nat)) (e : Env) (s : State) : Option (Except (Nat × BitVec 64) (State × List RegW)) :=
  let n := cvrIx w.s1
  let c := s.core e.d
  let v := c.cv n
  let bar := e.r32 w.s2.toNat
  if v.st = .idle ∨ v.st = .signing ∨ intFormat (dsFa v.desc) ∨ dsKq v.desc ≠ 4 then some (.error (Cause.shape, e.word))
  else
    match drainTrap e.l [(bar, 16)] with
    | some t => some (.error t)
    | none =>
      match c.bufChoice v.buf with
      | .held => if waited then none else some (.error (Cause.cvrover, BitVec.ofNat 64 n))
      | .wait => none
      | .free _ =>
        let s1 := s.modCore e.d fun c =>
          let c1 := (c.dropBuf n).takeBuf n
          c1.setCv n { c1.cv n with st := .issued }
        let b := (((s1.core e.d).cv n).buf).getD 0
        let a := accIx w.d
        some (.ok (s1.enter e.d e.slot e.lane threads [] 0
          (.mdraina a b bar.toNat ((s.core e.d).ac a).anchor.toInt (dsAnchA v.desc)), []))

/-- MDRAINA (R254 to R256, R263). -/
def execMdraina (w : RForm) (s : State) : Out :=
  issueWord (matWord 0x0C6 w [w.s2.toNat]).mvOnly (fun g =>
    let waited := (g.core.port g.port).issued.isSome
    if g.first?.any fun e => (mdrainaIssue w waited g.threads e g.s).isNone then { s := g.s, retry := true }
    else onceG (fun e s => (mdrainaIssue w waited g.threads e s).getD (.ok (s, []))) g) s

/-- MCHK (R254 to R256, R264). -/
def execMchk (w : RForm) (s : State) : Out :=
  issueWord (matWord 0x0CB w [w.s2.toNat]).mvOnly (fun g => onceG (fun e s =>
    let bar := e.r32 w.s2.toNat
    match drainTrap e.l [(bar, 16)] with
    | some t => .error t
    | none =>
      .ok (s.enter e.d e.slot e.lane [] [] 0 (.mchk (accIx w.s1) w.d.toNat bar.toNat (g.warps.map (·.1))), [])) g) s

/-! ### The operation on the press -/

/-- The operation that the press takes next: the head of the issue order once it is granted, in a later cycle than it entered, or a COPY whose tile has
been read; of the two, the earlier (R250, R353). -/
def Core.pressNext (c : Core) (clock : Nat) : Option Nat :=
  let m := c.issueOrder.head?.bind fun o => if o.kind.onPress && o.granted && decide (o.entered.1 < clock) then some o.id else none
  let k := (c.ops.find? (·.wantsPress)).map (·.id)
  match m, k with
  | some a, some b => some (min a b)
  | some a, none => some a
  | none, b => b

/-- PRESS_OPERATION (R250): the operation begins and takes its decode set. -/
def execPressOperation (d : Nat) (s : State) : Out :=
  let c := s.core d
  match c.press, c.pressNext s.clock with
  | none, some id => .next (s.modCore d fun c => { c with press := some (id, decodeSet (s.tower (towerOf d)).contain) })
  | _, _ => .next s

/-- Every element of an accumulator, decoded in row-major order (R251). -/
def decodeAcc (set : List Nat) (a : Acc) : List Decoded :=
  (List.range 4096).map fun ix => decodeElement set fun j => findD a.res (j * 4096 + ix) 0

/-- The containment events of decoded elements (R267). -/
def eventsOf (ds : List Decoded) : List (Option Nat) :=
  ds.filterMap fun x => match x with | .ok _ => none | .corrected j _ => some (some j) | .uncorrectable => some none

/-- Index of the first uncorrectable element. -/
def firstUnc (ds : List Decoded) : Option Nat :=
  (ds.zipIdx.find? fun x => x.1 == .uncorrectable).map (·.2)

/-- The exact value of a drained element (R257). -/
def drainValue (nan : Bool) (anchor : Int) (x : Decoded) : FV :=
  if nan then .nan
  else
    match x with
    | .ok v => FV.ofInt v anchor
    | .corrected _ v => FV.ofInt v anchor
    | .uncorrectable => .nan

/-- The CVT code of an element destination (R190, R254). -/
def drainFmt (df : Nat) : Nat := match df with | 0 => 0 | 1 => 1 | 4 => 8 | _ => 4

/-- The destination bytes of 64 rows of values, and the flags (R257 to R259). -/
def drainBytes (df mode : Nat) (sat : Bool) (vs : List FV) : List (BitVec 8) × W32 :=
  let join := fun (qs : List (List (BitVec 8) × W32)) =>
    (qs.flatMap (·.1), qs.foldl (fun f q => f ||| q.2) (0 : W32))
  match df with
  | 2 => join ((List.range 128).map fun b => encE4m3b mode sat ((vs.drop (32 * b)).take 32))
  | 3 => join ((List.range 128).map fun b => encE2m1b mode sat ((vs.drop (32 * b)).take 32))
  | _ => join (vs.map fun v =>
      let q := fmtConvert (drainFmt df) mode sat v
      (leBytes (rowBytesOf df / 64) q.1, q.2))

/-- sr.einfo of UNCORR (R142). -/
def uncorrInfo (acc ix : Nat) : BitVec 64 := BitVec.ofNat 64 (acc ||| ((ix / 64) <<< 8) ||| ((ix % 64) <<< 16))

/-- A drain's deferred UNCORR (R260). -/
def deferUncorr (d : Nat) (o : MatOp) (acc : Nat) (ds : List Decoded) (s : State) : State :=
  match firstUnc ds with
  | some ix => s.defer d o.slot o.lane o.id Cause.uncorr (uncorrInfo acc ix)
  | none => s

/-- An operation finishes on the press of a core: the operations of one tower that finish in one cycle finish in ascending tower core
id (R267). -/
def State.pressTurn (s : State) (d : Nat) : Bool :=
  match (s.tower (towerOf d)).pressAt with
  | some (c, k) => c != s.clock || decide (k ≤ tcidOf d)
  | none => true
def State.pressed (s : State) (d : Nat) : State := s.modTower (towerOf d) fun t => { t with pressAt := some (s.clock, tcidOf d) }

/-- What an MDRAIN writes, and its flags (R257 to R259). -/
def mdrainOut (set : List Nat) (a : Acc) (df mode : Nat) (sat : Bool) (anchor : Int) : List (BitVec 8) × W32 :=
  drainBytes df mode sat ((decodeAcc set a).map (drainValue a.nan anchor))

/-- MDRAIN has written its destination: containment, the flags, the deferred traps, the count (R260 to R262, R267, R485). -/
def endMdrain (d : Nat) (o : MatOp) (set : List Nat) (acc bar df : Nat) (flags : W32) (clobber : Option (BitVec 64)) (s : State) :
    State :=
  let ds := decodeAcc set ((s.core d).ac acc)
  let s1 := (s.pressed d).containAll d o.slot o.lane acc (eventsOf ds)
  let s2 := deferUncorr d o acc ds (s1.raiseLate d o.slot o.lane flags)
  o.counts d bar false (-(64 * rowBytesOf df : Nat) : Int) (s2.deferClobber d o.slot o.lane o.id clobber)

/-- A row of a latch buffer from 64 drained values (R263). -/
def drainRow (anchA : Int) (vs : List FV) : Row :=
  let ps := vs.map (expandValue anchA false)
  { flags := ps.foldl (fun f p => f ||| p.flags) 0, elems := ps.map fun p => (p.e, p.nan) }

/-- MDRAINA finishes (R260 to R263). -/
def finishMdraina (d : Nat) (o : MatOp) (set : List Nat) (acc buf bar : Nat) (anchor anchA : Int) (s : State) : State :=
  let a := (s.core d).ac acc
  let ds := decodeAcc set a
  let vs := ds.map (drainValue a.nan anchor)
  let rows := (List.range 64).map fun i => (i, drainRow anchA ((vs.drop (64 * i)).take 64))
  let s1 := (s.containAll d o.slot o.lane acc (eventsOf ds)).modCore d fun c =>
    { c with latch := put c.latch buf { c.lb buf with rows := rows } }
  let s2 := s1.raiseLate d o.slot o.lane (rows.foldl (fun f r => f ||| r.2.flags) 0)
  o.counts d bar true 0 (deferUncorr d o acc ds s2)

/-- The result of MCHK (R264). -/
def mchkWord (fenced nan : Bool) (ds : List Decoded) : W64 :=
  let cor := ds.filterMap fun x => match x with | .corrected j _ => some j | _ => none
  let nunc := (ds.filter (· == .uncorrectable)).length
  let mask := (List.range 9).foldl (fun m j => m ||| (if cor.contains j then 1 <<< j else 0)) 0
  let ix := (firstUnc ds).getD 0
  0#3 ++ BitVec.ofNat 13 nunc ++ 0#3 ++ BitVec.ofNat 13 cor.length ++ BitVec.ofNat 9 mask ++ BitVec.ofBool fenced ++
    BitVec.ofBool nan ++ 0#7 ++ BitVec.ofNat 6 (ix / 64) ++ 0#2 ++ BitVec.ofNat 6 (ix % 64)

/-- MCHK finishes (R262, R264). -/
def finishMchk (d : Nat) (o : MatOp) (set : List Nat) (acc wreg bar : Nat) (slots : List Nat) (s : State) : State :=
  let a := (s.core d).ac acc
  let ds := decodeAcc set a
  let v := mchkWord (set.length == 8) a.nan ds
  let s1 := s.containAll d o.slot o.lane acc (eventsOf ds)
  o.counts d bar true 0 (slots.foldl (fun s sl => s.putWarpReg d sl wreg (v.zeroExtend 256)) s1)

/-- The press goes on with a drain of the issue order: a piece of MDRAIN's writes (R258), or the whole of MDRAINA or MCHK. -/
def stepDrain (d : Nat) (o : MatOp) (set : List Nat) (s : State) : State :=
  let free := fun (s : State) => s.modCore d fun c => { c with press := none }
  match o.kind with
  | .mdrain acc dst bar df mode sat anchor =>
    let out := fun (_ : Unit) => mdrainOut set ((s.core d).ac acc) df mode sat anchor
    writeThen d o (fun u => granules dst (out u).1) (fun c s => free (endMdrain d o set acc bar df (out ()).2 c s)) s
  | .mdraina acc buf bar anchor anchA => (free (finishMdraina d o set acc buf bar anchor anchA (s.pressed d))).popMat d
  | .mchk acc wreg bar slots => (free (finishMchk d o set acc wreg bar slots (s.pressed d))).popMat d
  | _ => s

/-- The press has decoded the tile of a COPY (R353). -/
def finishPressCopy (d : Nat) (o : Op) (cmd : CopyCmd) (set : List Nat) (s : State) : State :=
  let r := cpDecode cmd set
  let s1 := (s.containAll d o.slot o.lane 0 (eventsOf r.2.2)).raiseLate d o.slot o.lane r.2.1
  let cols := cpCols cmd.record
  s1.modCore d fun c => c.modOp o.id fun o => o.withCmd fun cmd =>
    { cmd with out := some r.1, uncorr := (firstUnc r.2.2).map fun ix => (ix / cols, ix % cols) }

/-- The press is free again. -/
def Core.freePress (c : Core) : Core := { c with press := none }

/-- PRESS_COMPLETE (R258, R262, R267): the operation on the press writes a piece of its destination or finishes; a containment record
needs room on the tower's queue, and a destination waits for its earlier owner (R366). -/
def execPressComplete (d : Nat) (s : State) : Out :=
  let c := s.core d
  if !(s.eventRoom (towerOf d)) || !(s.pressTurn d) then .next s
  else
    match c.press with
    | none => .next s
    | some (id, set) =>
      match c.issueOrder.head?.bind fun o => if o.id = id then some o else none with
      | some o =>
        if o.ownS.any fun r => s.ownedS r.1 r.2.1 r.2.2 o.id then .next s
        else .next (stepDrain d o set s)
      | none =>
        match c.op? id with
        | some o =>
          match o.body with
          | .copy cmd _ _ => .next ((finishPressCopy d o cmd set (s.pressed d)).modCore d (·.freePress))
          | _ => .next (s.modCore d (·.freePress))
        | none => .next (s.modCore d (·.freePress))

end Sys2Proof.Machine
end

