-- ==== Sys2Proof/Machine/Seed.lean ====
section
/-! DEFINITION. The seed instructions (11 R284 to R290): one meaning per instruction, and the step of the seed engine. -/

namespace Sys2Proof.Machine

open Sys2Proof

/-- The checks of R284: alignment of each address, then bit 31 and range of each. -/
def seedTrap (l : Launch) (ps : List (BitVec 32 × Nat)) : Option (Nat × BitVec 64) := drainTrap l ps

/-- A seed word of the executing thread: kind, record address, destination, its bytes, J. -/
def seedIssue (kind : Nat) (g : Grp) (e : Env) (a dst bar : BitVec 32) (j : Nat) (s : State) :
    Except (Nat × BitVec 64) (State × List RegW) :=
  match seedTrap e.l ([(a, 64)] ++ (if kind = 2 then [(dst, 4096)] else []) ++ [(bar, 16)]) with
  | some t => .error t
  | none =>
    let own := if kind = 2 then (e.d, scrOff dst, scrOff dst + 4096) else (e.d, scrOff a, scrOff a + 64)
    .ok (s.issueOp e.d { newOp s g.act true (.seed kind (scrOff a) (scrOff dst) j bar.toNat none Pieces.none) with
                         slot := e.slot, lane := e.lane, ownS := [own] }, [])

/-- SEEDSCAN (R284). -/
def execSeedscan (w : RForm) (s : State) : Out :=
  issueWord (matWord 0x0CF w [w.s1.toNat, w.s2.toNat]).mOnly (fun g =>
    onceG (fun e s => seedIssue 0 g e (e.r32 w.s1.toNat) 0 (e.r32 w.s2.toNat) 0 s) g) s
/-- SEEDFIT (R284). -/
def execSeedfit (w : RForm) (s : State) : Out :=
  issueWord (matWord 0x0D0 w [w.s1.toNat, w.s2.toNat]).mOnly (fun g =>
    onceG (fun e s => seedIssue 1 g e (e.r32 w.s1.toNat) 0 (e.r32 w.s2.toNat) 0 s) g) s
/-- SEEDX (R284). -/
def execSeedx (w : RForm) (s : State) : Out :=
  issueWord (matWord 0x0D1 w [w.s1.toNat, w.s2.toNat]).mOnly (fun g =>
    onceG (fun e s => seedIssue 2 g e (lo32 (e.r64 w.s1.toNat)) (hi32 (e.r64 w.s1.toNat)) (e.r32 w.s2.toNat)
      (mfld w.mod 2 0) s) g) s

/-! ### Scan blocks (R283, R285) -/

def sbStart (r : BitVec 512) : BitVec 64 := r.setWidth 64
def sbRaddr (r : BitVec 512) : BitVec 32 := r.extractLsb' 64 32
def sbH (r : BitVec 512) : Nat := natBits r.toNat 103 96
def sbW (r : BitVec 512) : Nat := natBits r.toNat 111 104
def sbKind (r : BitVec 512) : Nat := natBits r.toNat 112 112
def sbJ (r : BitVec 512) : Nat := natBits r.toNat 122 120
def sbCount (r : BitVec 512) : Nat := natBits r.toNat 159 128
def sbE (r : BitVec 512) : Int := (r.extractLsb' 160 16).toInt
def sbBest (r : BitVec 512) : BitVec 64 := r.extractLsb' 192 64

/-- A valid scan block of a launch (R285). -/
def sbValid (l : Launch) (r : BitVec 512) : Bool :=
  1 ≤ sbH r && sbH r ≤ 64 && 1 ≤ sbW r && sbW r ≤ 64 && 1 ≤ sbCount r && sbCount r ≤ 65536 &&
  natBits r.toNat 511 323 == 0 && natBits r.toNat 303 288 == 0 && natBits r.toNat 191 176 == 0 &&
  natBits r.toNat 127 123 == 0 && natBits r.toNat 119 113 == 0 &&
  (scrCheckLocal l (sbRaddr r) (2 * sbH r * sbW r) 16).isNone

/-- The residual as exact values, row-major (R283). -/
def sbResidual (c : Core) (r : BitVec 512) : List FV :=
  (List.range (sbH r * sbW r)).map fun i => bf16.value (leNat (c.scrRead (scrOff (sbRaddr r) + 2 * i) 2))

/-- A BF16 value as a multiple of 2^(-133): its unit in the last place is never smaller. -/
def fixOf : FV → Int
  | .fin neg m e => alignTo neg m e (-133)
  | _ => 0

def FV.finite : FV → Bool
  | .fin .. => true
  | _ => false

/-- corr(s) of R287 in units of 2^(-133). -/
def corrOf (r : BitVec 512) (xs : List Int) (seed : BitVec 64) : Int := dot (beta seed (sbJ r) (sbKind r) (sbH r) (sbW r)) xs

/-- The candidate with the largest magnitude, of equals the numerically lowest (R287). -/
def bestSeed (r : BitVec 512) (xs : List Int) : BitVec 64 × Int :=
  (List.range (sbCount r)).foldl (fun (best : BitVec 64 × Int) i =>
    let s := sbStart r + BitVec.ofNat 64 i
    let x := corrOf r xs s
    if best.2.natAbs < x.natAbs ∨ (best.2.natAbs = x.natAbs ∧ s.toNat < best.1.toNat) then (s, x) else best)
    (sbStart r, corrOf r xs (sbStart r))

/-- Write bits [hi:lo] of a scan block. -/
def sbPut (r : BitVec 512) (hi lo v : Nat) : BitVec 512 := setBits r hi lo v

/-- SEEDSCAN on a valid block (R287): the block it writes, and its flags. -/
def scanResult (r : BitVec 512) (xs : List FV) : BitVec 512 × W32 :=
  if xs.all FV.finite then
    let b := bestSeed r (xs.map fixOf)
    let c := f32.convert 0 false (FV.ofInt b.2 (-133))
    (sbPut (sbPut (sbPut r 320 320 0) 287 256 c.1) 255 192 b.1.toNat, c.2)
  else (sbPut (sbPut (sbPut r 320 320 1) 287 256 0x7FC00000) 255 192 (sbStart r).toNat, flINV)

/-- Round the quotient n/q to the nearest integer, ties to even. -/
def rneDiv (n : Int) (q : Nat) : Int :=
  let f := n / q
  let t := 2 * (n - f * q)
  if t < q then f else if q < t then f + 1 else if f % 2 = 0 then f else f + 1

/-- The coefficient before clipping: corr/nnz · 2^(-E), rounded (R289). -/
def fitCoeff (corr : Int) (nnz : Nat) (e : Int) : Int :=
  let k : Int := -133 - e
  if 0 ≤ k then rneDiv (corr * 2 ^ k.toNat) nnz else rneDiv corr (nnz * 2 ^ (-k).toNat)

/-- SEEDFIT on a valid block (R289): the block, the new residual elements with their indices, and the flags. -/
def fitResult (r : BitVec 512) (xs : List FV) : BitVec 512 × List (Nat × Nat) × W32 :=
  let fields := fun (alpha : Int) (nan clip nosupp : Nat) =>
    sbPut (sbPut (sbPut (sbPut r 319 304 (BitVec.ofInt 16 alpha).toNat) 320 320 nan) 321 321 clip) 322 322 nosupp
  if xs.all FV.finite then
    let b := beta (sbBest r) (sbJ r) (sbKind r) (sbH r) (sbW r)
    let nnz := (b.filter (· != 0)).length
    if nnz = 0 then (fields 0 0 0 1, [], 0)
    else
      let a0 := fitCoeff (dot b (xs.map fixOf)) nnz (sbE r)
      let a := max (-32767) (min 32767 a0)
      let new := if a = 0 then [] else
        (b.zip xs).zipIdx.filterMap fun x =>
          if x.1.1 = 0 then none
          else
            let q := bf16.result 0 (x.1.2.add 0 (FV.ofInt (-(a * x.1.1)) (sbE r)))
            some (x.2, q)
      (fields a 0 (if 32767 < a0.natAbs then 1 else 0) 0, new.map fun x => (x.1, x.2.1), new.foldl (fun f x => f ||| x.2.2) 0)
  else (fields 0 1 0 0, [], flINV)

/-! ### The engine -/

/-- The oldest seed operation of a core (R285). -/
def Core.seedHead (c : Core) : Option Op := c.ops.find? fun o => match o.body with | .seed .. => true | _ => false

/-- The rows that SEEDFIT owns from its beginning (R286), which an earlier owner may still hold (R366). A transfer issued later that
holds one already does not keep SEEDFIT waiting: R366 makes it the later owner's turn, and R286 says nothing else (DESIGN CHOICE,
log 67). -/
def fitBlocked (d : Nat) (o : Op) (r : BitVec 512) (s : State) : Bool :=
  s.ownedS d (scrOff (sbRaddr r)) (scrOff (sbRaddr r) + 2 * sbH r * sbW r) o.id

/-- What a seed operation finds as it begins (R285): its flags, the cause and information of a deferred trap, and its writes. -/
structure SeedWork where
  flags : W32 := 0
  trap : Option (Nat × BitVec 64) := none
  writes : List (Nat × List (BitVec 8)) := []

/-- Bytes [hi:lo] of a scan block at `addr`. -/
def sbBytes (addr : Nat) (r : BitVec 512) (lo hi : Nat) : List (Nat × List (BitVec 8)) :=
  granules (addr + lo) (((leBytes 64 r.toNat).take (hi + 1)).drop lo)

/-- SEEDSCAN on a valid block (R287): it writes BEST, CORR and NANIN (R283). -/
def scanWork (addr : Nat) (r : BitVec 512) (xs : List FV) : SeedWork :=
  let q := scanResult r xs
  { flags := q.2, writes := sbBytes addr q.1 24 35 ++ sbBytes addr q.1 40 40 }

/-- SEEDFIT on a valid block (R289): it writes the elements of R that change, ALPHA, NANIN, ACLIP and NOSUPP (R283). -/
def fitWork (addr : Nat) (r : BitVec 512) (xs : List FV) : SeedWork :=
  let q := fitResult r xs
  { flags := q.2.2
    writes := (q.2.1.map fun x => (scrOff (sbRaddr r) + 2 * x.1, leBytes 2 x.2)) ++ sbBytes addr q.1 38 40 }

/-- SEEDX on a valid record (R290): the 64×64 basis. -/
def xWork (dst j : Nat) (r : BitVec 512) : SeedWork :=
  let b := beta (srSeed r) j (srKind r) (srH r) (srW r)
  { writes := granules dst ((List.range 4096).map fun i => BitVec.ofInt 8 (betaAt b (srH r) (srW r) (i / 64) (i % 64))) }

/-- A seed operation reads its block or record, and the residual, and finds what it has to write (R285). -/
def seedWork (l : Launch) (c : Core) (kind addr dst j : Nat) : SeedWork :=
  let r := BitVec.ofNat 512 (leNat (c.scrRead addr 64))
  let o := scrOff (sbRaddr r)
  let bad := fun (a : Nat) => { trap := some (Cause.uncmem, BitVec.ofNat 64 a) : SeedWork }
  let invalid : SeedWork := { trap := some (Cause.seedrec, BitVec.ofNat 64 addr) }
  if c.scrBad addr 64 then bad addr
  else if kind = 2 then (if srValid r then xWork dst j r else invalid)
  else if !(sbValid l r) then invalid
  else if c.scrBad o (2 * sbH r * sbW r) then bad o
  else if kind = 0 then scanWork addr r (sbResidual c r) else fitWork addr r (sbResidual c r)

/-- A seed operation has performed its writes: its flags, its deferred traps and its count (R285, R286, R311); it leaves flight. -/
def seedEnd (d : Nat) (o : Op) (kind bar : Nat) (flags : W32) (trap : Option (Nat × BitVec 64)) (clobber : Option (BitVec 64)) (s : State) :
    State :=
  let s1 := s.raiseLate d o.slot o.lane flags
  let s2 := match trap with
    | none => s1
    | some t => if t.1 = Cause.uncmem then s1.engineUnc d o.slot o.lane o.id 5 1 t.2 0 else s1.defer d o.slot o.lane o.id t.1 t.2
  let s3 := (s2.deferClobber d o.slot o.lane o.id clobber).endOp d o.id
  if kind = 2 then o.counts d bar false (-4096) s3 else o.counts d bar true 0 s3

/-- The operation of the seed engine goes on with what it has to write. -/
def seedGo (d : Nat) (o : Op) (kind addr dst j bar : Nat) (flags : W32) (trap : Option (Nat × BitVec 64)) (io : Pieces)
    (left : List (Nat × List (BitVec 8))) (s : State) : State :=
  let r := if left.isEmpty then (s, io) else storePiece d io left s
  if left.length ≤ 1 then seedEnd d o kind bar flags trap r.2.clobber r.1
  else
    r.1.modCore d fun c => c.modOp o.id fun o =>
      { o with body := .seed kind addr dst j bar (some (flags, trap)) r.2, ownS := Pieces.owned d (r.2.todo.getD []) }

/-- SEED_EXECUTE (R285, R286, R362): the oldest seed operation of the core begins, once the earlier owners of its destination have
released it (R366), and then performs its writes one by one. -/
def execSeedExecute (d : Nat) (s : State) : Out :=
  match (s.core d).seedHead, s.coreLaunch d with
  | some o, some l =>
    match o.body with
    | .seed kind addr dst j bar begun io =>
      let r := BitVec.ofNat 512 (leNat ((s.core d).scrRead addr 64))
      match begun with
      | some b => .next (seedGo d o kind addr dst j bar b.1 b.2 io (io.todo.getD []) s)
      | none =>
        if o.ownS.any (fun r => s.ownedS r.1 r.2.1 r.2.2 o.id) || (kind == 1 && sbValid l r && fitBlocked d o r s) then .next s
        else
          let w := seedWork l (s.core d) kind addr dst j
          .next (seedGo d o kind addr dst j bar w.flags w.trap io w.writes s)
    | _ => .next s
  | _, _ => .next s

end Sys2Proof.Machine
end

