-- ==== Sys2Proof/Machine/Sync.lean ====
section
/-! DEFINITION. Barrier words (18 R459 to R464), stage rings (15 R391 to R395), EVPOST and LNCH (R388 to R390) and ADMIT
(18 R472, R473): one meaning per instruction, and the steps that complete them. -/

namespace Sys2Proof.Machine

open Sys2Proof

/-- A thread of the group has an access that its engine holds back: its barrier operation comes later (R364). -/
def Grp.heldBack (g : Grp) : Bool := g.act.any fun e => g.core.hasHeld [(e.slot, e.lane)] g.s.nextId

/-- A barrier word issues again while an access of its threads is held back. -/
def afterHeld (f : Grp → Res) (g : Grp) : Res := if g.heldBack then { s := g.s, retry := true } else f g

/-- Issue data of a class 6 word. -/
def syncWord (op : Nat) (w : RForm) (srcs dsts : List Nat) : WSpec := rWord op w srcs dsts
/-- Issue data of a class 6 word that executes once per issue group. -/
def onceWord (op : Nat) (w : RForm) (srcs : List Nat) : WSpec := (syncWord op w srcs []).byFirst

/-- The address of an object and its checks (R294, R459). -/
def objTrap (e : Env) (a : BitVec 32) : Option (Nat × BitVec 64) := scrCheck e.l e.d a 16 16

/-- The bytes of the objects that some threads name (R299). -/
def objSpans (a : Env → BitVec 32) (es : List Env) : List Span :=
  (es.filter fun e => (objTrap e (a e)).isNone).map fun e => (scrCore e.d (a e), scrOff (a e), scrOff (a e) + 16)

/-- The bank cycles of a word whose threads access the objects they name (R299). -/
def withBanks (a : Env → BitVec 32) (es : Grp → List Env) (f : Grp → Res) (g : Grp) : Res :=
  { f g with freeze := g.bankCycles (objSpans a (es g)) }
/-- The thread that executes a word once for its group, as a list. -/
def Grp.firsts (g : Grp) : List Env := g.first?.toList

/-- Waiters of an object are released as abandoned (R460, R461). -/
def State.abandon (s : State) (d off : Nat) : State := s.release d off 0 false

/-! ### BINIT, BARV, BEXP, BINV -/

/-- BINIT of an object (R460). -/
def initObj (kind : Nat) (v : BitVec 32) (d off : Nat) (s : State) : State :=
  let old := s.obj d off
  let waiting := (s.objBad d off || objArmed old) && s.hasWaiters d off
  let exp := natBits v.toNat 11 0
  let o : Obj := objWord1 kind waiting false true ++ objWord0 (v.extractLsb' 16 16) exp exp 0
  (if waiting then s.abandon d off else s).putObj d off o

/-- BINIT (R459, R460). -/
def execBinit (w : RForm) (s : State) : Out :=
  issueWord (onceWord 0x180 w [w.s1.toNat, w.s2.toNat]) (afterHeld (withBanks (·.r32 w.s1.toNat) Grp.firsts (onceG fun e s =>
    let a := e.r32 w.s1.toNat
    let v := e.r32 w.s2.toNat
    match objTrap e a with
    | some t => .error t
    | none =>
      if natBits v.toNat 15 12 ≠ 0 ∨ natBits v.toNat 11 0 = 0 then .error (Cause.record, a.zeroExtend 64)
      else .ok (initObj (mfld w.mod 1 0) v (scrCore e.d a) (scrOff a) s, [])))) s

/-- A change that a thread makes (R457, R462). -/
def threadChange (e : Env) (a : BitVec 32) (arrive : Bool) (b : Int) (s : State) : Except (Nat × BitVec 64) State :=
  match objTrap e a with
  | some t => .error t
  | none =>
    match barChange s (scrCore e.d a) (scrOff a) arrive b with
    | .error c => .error (c, a.zeroExtend 64)
    | .ok s1 => .ok s1

/-- What keeps a thread from reading an object: a check of R294, or an uncorrectable error (R311). -/
def readTrap (e : Env) (a : BitVec 32) (s : State) : Option (Nat × BitVec 64) :=
  (objTrap e a).or (if s.objBad (scrCore e.d a) (scrOff a) then some (Cause.uncmem, a.zeroExtend 64) else none)

/-- Changes of several threads, one after another (R462, R465). -/
def eachThread (f : Env → State → Except (Nat × BitVec 64) State) (es : List Env) (g : Grp) : Res :=
  let r := es.foldl (fun (acc : State × List ((Nat × Nat) × TRes)) e =>
    match f e acc.1 with
    | .ok s1 => (s1, acc.2 ++ [((e.slot, e.lane), {})])
    | .error t => (e.recordOf 1 t acc.1, acc.2 ++ [((e.slot, e.lane), TRes.trapped t.1 t.2)])) (g.s, [])
  { s := r.1, out := g.rest r.2 }

/-- BARV (R459, R462): each active thread, or with .W the warp thread of each warp present. -/
def execBarv (w : RForm) (s : State) : Out :=
  issueWord (syncWord 0x181 w [w.s1.toNat, w.s2.toNat] []) (afterHeld
    (withBanks (·.r32 w.s1.toNat) (barvThreads w) fun g =>
      eachThread (fun e => threadChange e (e.r32 w.s1.toNat) true (e.r32 w.s2.toNat).toInt) (barvThreads w g) g)) s
where
  /-- The threads for which BARV executes (R459). -/
  barvThreads (w : RForm) (g : Grp) : List Env := if mbit w.mod 0 then g.warpThreads else g.act

/-- BEXP (R459, R462). -/
def execBexp (w : RForm) (s : State) : Out :=
  issueWord (onceWord 0x182 w [w.s1.toNat, w.s2.toNat]) (afterHeld (withBanks (·.r32 w.s1.toNat) Grp.firsts (onceG fun e s =>
    (threadChange e (e.r32 w.s1.toNat) false (e.r32 w.s2.toNat).toInt s).map fun s => (s, [])))) s

/-- BINV of an object (R461). -/
def invalObj (d off : Nat) (s : State) : State :=
  (s.abandon d off).putObj d off (objSetAbd (objSetWait (objDisarm (s.obj d off)) false) true)

/-- BINV (R457, R459, R461). -/
def execBinv (w : RForm) (s : State) : Out :=
  issueWord (onceWord 0x185 w [w.s1.toNat]) (afterHeld (withBanks (·.r32 w.s1.toNat) Grp.firsts (onceG fun e s =>
    let a := e.r32 w.s1.toNat
    match readTrap e a s with
    | some t => .error t
    | none =>
      let o := s.obj (scrCore e.d a) (scrOff a)
      if !(objArmed o) then .ok (s, [])
      else if !(objValid o) then .error (Cause.record, a.zeroExtend 64)
      else .ok (invalObj (scrCore e.d a) (scrOff a) s, [])))) s

/-! ### BWAIT and BTEST -/

/-- The outcome of an observation (R464): 0 pending, 1 completed, 2 abandoned. -/
def observe (o : Obj) (ph : BitVec 16) : Nat :=
  if !(objArmed o) then 2 else if objPhase o ≠ ph then (if objAbd o then 2 else 1) else 0

/-- A thread starts to wait (R464, R394). -/
def State.startWait (s : State) (d slot lane : Nat) (x : Wait) : State :=
  (s.modThread d slot lane fun t => { t with run := .waiting, wait := some x }).syncWait x.core x.off

/-- A result that is ready for the thread's next run (R74). -/
def runLat (stall : BitVec 4) : Nat := 1 + stall.toNat

/-- One thread's BWAIT (R464). -/
def waitOne (w : RForm) (e : Env) (s : State) : State × TRes :=
  let a := e.r32 w.s1.toNat
  match readTrap e a s with
  | some t => (e.recordOf 1 t s, TRes.trapped t.1 t.2)
  | none =>
    let c := scrCore e.d a
    let off := scrOff a
    let ph := (e.r32 w.s2.toNat).setWidth 16
    let q := w.d.toNat - 832
    match observe (s.obj c off) ph with
    | 0 => (s.startWait e.d e.slot e.lane { core := c, off := off, phase := ph, pq := q, ring := none, va := e.va }, {})
    | n =>
      let s1 := if n = 1 then s.acquire e.d e.slot e.lane else s
      (s1, { writes := [wrP w.d.toNat (n == 1) (runLat w.stall)] })

/-- Threads that act one after another on the state. -/
def inTurn (f : Env → State → State × TRes) (g : Grp) : Res :=
  let r := g.act.foldl (fun (acc : State × List ((Nat × Nat) × TRes)) e =>
    let q := f e acc.1
    (q.1, acc.2 ++ [((e.slot, e.lane), q.2)])) (g.s, [])
  { s := r.1, out := r.2 }

/-- BWAIT (R459, R464). -/
def execBwait (w : RForm) (s : State) : Out :=
  issueWord (syncWord 0x183 w [w.s1.toNat, w.s2.toNat] []).ending
    (afterHeld (withBanks (·.r32 w.s1.toNat) Grp.act (inTurn (waitOne w)))) s

/-- One thread's BTEST (R464). -/
def testOne (w : RForm) (e : Env) (s : State) : State × TRes :=
  let a := e.r32 w.s1.toNat
  match readTrap e a s with
  | some t => (e.recordOf 1 t s, TRes.trapped t.1 t.2)
  | none =>
    let n := observe (s.obj (scrCore e.d a) (scrOff a)) ((e.r32 w.s2.toNat).setWidth 16)
    let s1 := if n = 1 then s.acquire e.d e.slot e.lane else s
    (s1, { writes := [if classOf w.d == .p then wrP w.d.toNat (n == 1) 2 else wr32 w.d.toNat (BitVec.ofNat 32 n) 2] })

/-- BTEST (R459, R464): a remote one freezes its group (log 7). -/
def execBtest (w : RForm) (s : State) : Out :=
  issueWord (syncWord 0x184 w [w.s1.toNat, w.s2.toNat] [w.d.toNat]) (afterHeld (withBanks (·.r32 w.s1.toNat) Grp.act fun g =>
    { inTurn (testOne w) g with other := g.remoteCycles (g.act.any fun e => (e.r32 w.s1.toNat).getLsbD 31) })) s

/-! ### Stage rings -/

/-- A ring header (R391). -/
abbrev Ring := BitVec 512
def rgF (r : Ring) (hi lo : Nat) : Nat := natBits r.toNat hi lo
def rgSlots (r : Ring) : Nat := rgF r 71 64
def rgSlotSz (r : Ring) : Nat := rgF r 63 32
def rgBase (r : Ring) : BitVec 32 := r.setWidth 32
def rgFull (r : Ring) : BitVec 32 := r.extractLsb' 128 32
def rgEmpty (r : Ring) : BitVec 32 := r.extractLsb' 160 32
/-- PIDX (false) or CIDX (true). -/
def rgIdx (r : Ring) (consumer : Bool) : Nat := if consumer then rgF r 319 288 else rgF r 287 256

/-- A valid header (R391). -/
def rgValid (l : Launch) (r : Ring) : Bool :=
  rgF r 511 320 == 0 && rgF r 255 192 == 0 && rgF r 127 72 == 0 && 2 ≤ rgSlots r && rgSlots r ≤ 16 &&
  16 ≤ rgSlotSz r && rgSlotSz r ≤ 262144 && rgSlotSz r % 16 == 0 &&
  rgIdx r false < rgSlots r * 65536 && rgIdx r true < rgSlots r * 65536 &&
  (scrCheckLocal l (rgBase r) (rgSlots r * rgSlotSz r) 16).isNone &&
  (scrCheckLocal l (rgFull r) (rgSlots r * 16) 16).isNone && (scrCheckLocal l (rgEmpty r) (rgSlots r * 16) 16).isNone

/-- A claim word of a ring (R392, R393). -/
def claimOk (r : Ring) (c : BitVec 64) : Bool := natBits c.toNat 35 32 < rgSlots r && natBits c.toNat 46 36 == 0

/-- The header at an address, or the trap of every active thread (R392). -/
def ringAt (e : Env) (a : BitVec 32) (s : State) : Except (Nat × BitVec 64) Ring :=
  match scrCheckLocal e.l a 64 64 with
  | some t => .error t
  | none =>
    let c := s.core e.d
    let r := BitVec.ofNat 512 (leNat (c.scrRead (scrOff a) 64))
    if c.scrBad (scrOff a) 64 then .error (Cause.uncmem, a.zeroExtend 64)
    else if rgValid e.l r then .ok r else .error (Cause.record, a.zeroExtend 64)

/-- A new claim (R394). -/
def newClaim (r : Ring) (consumer : Bool) : BitVec 64 :=
  let idx := rgIdx r consumer
  let s := idx % rgSlots r
  let lap := idx / rgSlots r
  let tgt := if consumer then lap + 1 else lap
  BitVec.ofNat 64 ((rgBase r).toNat + s * rgSlotSz r) ||| BitVec.ofNat 64 (s <<< 32) ||| (1#64 <<< 47) |||
    (BitVec.ofNat 64 (tgt % 65536) <<< 48)

/-- The claim index advances (R394). -/
def bumpIdx (d off : Nat) (r : Ring) (consumer : Bool) (s : State) : State :=
  s.modCore d fun c => c.scrWrite (off + (if consumer then 36 else 32))
    (leBytes 4 ((rgIdx r consumer + 1) % (rgSlots r * 65536)))

/-- RACQ or RTAKE of one warp present (R394). -/
def claimWarp (consumer : Bool) (w : RForm) (es : List Env) (s : State) : State × List ((Nat × Nat) × TRes) :=
  match es with
  | [] => (s, [])
  | e :: _ =>
    let a := e.r32 w.s1.toNat
    match ringAt e a s with
    | .error t => (e.recordOf 1 t s, allTrap es t)
    | .ok r =>
      let old := e.r64 w.d.toNat
      if old.getLsbD 47 && !(claimOk r old) then (s, allTrap es (Cause.record, a.zeroExtend 64))
      else
        let claim := if old.getLsbD 47 then old else newClaim r consumer
        let s1 := if old.getLsbD 47 then s else bumpIdx e.d (scrOff a) r consumer s
        let off := scrOff (if consumer then rgFull r else rgEmpty r) + 16 * natBits claim.toNat 35 32
        let tgt : BitVec 16 := claim.extractLsb' 48 16
        let q := mfld w.mod 2 0
        let o := s1.obj e.d off
        let bar := (BitVec.ofNat 32 off).zeroExtend 64
        let res := fun (won : Bool) (v : BitVec 64) =>
          es.map fun x => ((x.slot, x.lane),
            ({ writes := wrP (832 + q) won (runLat w.stall) :: wr64 w.d.toNat v (runLat w.stall) } : TRes))
        if s.objBad e.d off then (e.recordOf 1 (Cause.uncmem, bar) s, allTrap es (Cause.uncmem, bar))
        else if !(objArmed o) then (s1, res false claim)
        else if objPhase o = tgt then
          (es.foldl (fun s x => s.acquire x.d x.slot x.lane) s1, res true (claim &&& ~~~(1#64 <<< 47)))
        else
          (es.foldl (fun s x => s.startWait x.d x.slot x.lane
              { core := e.d, off := off, phase := tgt, pq := q, ring := some (w.d.toNat, claim), va := x.va }) s1,
           es.map fun x => ((x.slot, x.lane), ({ writes := wr64 w.d.toNat claim 0 } : TRes)))

/-- The bytes of a ring header and of the barrier that a warp's word names by it (R299). -/
def ringSpans (w : RForm) (bar : Env → Ring → BitVec 32) (s : State) (e : Env) : List Span :=
  match ringAt e (e.r32 w.s1.toNat) s with
  | .error _ => []
  | .ok r =>
    [(e.d, scrOff (e.r32 w.s1.toNat), scrOff (e.r32 w.s1.toNat) + 64), (e.d, scrOff (bar e r), scrOff (bar e r) + 16)]

/-- A word that acts once for each warp present, on the state: for those whose warp thread has not trapped at it (R324). -/
def perWarpS (f : List Env → State → State × List ((Nat × Nat) × TRes)) (g : Grp) : Res :=
  let warps := g.warps.filter fun q => q.2.head?.any (·.isLowest g.h)
  let r := warps.foldl (fun (acc : State × List ((Nat × Nat) × TRes)) q =>
    let x := f q.2 acc.1
    (x.1, acc.2 ++ x.2)) (g.s, [])
  { s := r.1, out := g.rest r.2 }
/-- A ring word, with its bank cycles (R299, R392). -/
def perRing (w : RForm) (bar : Env → Ring → BitVec 32) (f : List Env → State → State × List ((Nat × Nat) × TRes)) (g : Grp) :
    Res :=
  { perWarpS f g with freeze := g.bankCycles (g.warpThreads.flatMap (ringSpans w bar g.s)) }

/-- The barrier of a claim word (R394, R395). -/
def claimBar (base : BitVec 32) (claim : BitVec 64) : BitVec 32 := base + BitVec.ofNat 32 (16 * natBits claim.toNat 35 32)
/-- The barrier that RACQ or RTAKE observes (R394). -/
def takeBar (consumer : Bool) (w : RForm) (e : Env) (r : Ring) : BitVec 32 :=
  let old := e.r64 w.d.toNat
  claimBar (if consumer then rgFull r else rgEmpty r) (if old.getLsbD 47 then old else newClaim r consumer)
/-- The barrier on which RCOM or RREL arrives (R395). -/
def commitBar (consumer : Bool) (w : RForm) (e : Env) (r : Ring) : BitVec 32 :=
  claimBar (if consumer then rgEmpty r else rgFull r) (e.r64 w.s2.toNat)

/-- RACQ (R392 to R394). -/
def execRacq (w : RForm) (s : State) : Out :=
  issueWord (syncWord 0x186 w [w.d.toNat, w.s1.toNat] []).ending (afterHeld (perRing w (takeBar false w) (claimWarp false w))) s
/-- RTAKE (R392 to R394). -/
def execRtake (w : RForm) (s : State) : Out :=
  issueWord (syncWord 0x188 w [w.d.toNat, w.s1.toNat] []).ending (afterHeld (perRing w (takeBar true w) (claimWarp true w))) s

/-- RCOM or RREL of one warp present (R395): `claim` names the register of the claim word, `bytes` what is added. -/
def commitWarp (consumer : Bool) (w : RForm) (bytes : Env → Int) (es : List Env) (s : State) :
    State × List ((Nat × Nat) × TRes) :=
  match es with
  | [] => (s, [])
  | e :: _ =>
    let a := e.r32 w.s1.toNat
    match ringAt e a s with
    | .error t => (e.recordOf 1 t s, allTrap es t)
    | .ok r =>
      let claim := e.r64 w.s2.toNat
      if !(claimOk r claim) then (s, allTrap es (Cause.record, a.zeroExtend 64))
      else
        let bar := commitBar consumer w e r
        match barChange s e.d (scrOff bar) true (bytes e) with
        | .ok s1 => (s1, [])
        | .error c => (e.recordOf 1 (c, bar.zeroExtend 64) s, [((e.slot, e.lane), TRes.trapped c (bar.zeroExtend 64))])

/-- RCOM (R392, R395). -/
def execRcom (w : RForm) (s : State) : Out :=
  issueWord (syncWord 0x187 w [w.d.toNat, w.s1.toNat, w.s2.toNat] [])
    (afterHeld (perRing w (commitBar false w) (commitWarp false w fun e => (e.r32 w.d.toNat).toNat))) s
/-- RREL (R392, R395). -/
def execRrel (w : RForm) (s : State) : Out :=
  issueWord (syncWord 0x189 w [w.s1.toNat, w.s2.toNat] [])
    (afterHeld (perRing w (commitBar true w) (commitWarp true w fun _ => 0))) s

/-! ### EVPOST and LNCH -/

/-- EVPOST at issue (R388). -/
def execEvpost (w : RForm) (s : State) : Out :=
  issueWord (onceWord 0x18A w [w.s1.toNat, w.s2.toNat]).cOnly (fun g => onceG (fun e s =>
    let x := e.r64 w.s1.toNat
    let bar := hi32 (e.r64 w.s2.toNat)
    if natBits x.toNat 62 52 ≠ 0 then .error (Cause.resfield, e.word)
    else
      match barTrap true e bar with
      | some t => .error t
      | none =>
        .ok (s.issueOp e.d { newOp s g.act false (.evpost x (lo32 (e.r64 w.s2.toNat)) (mbit w.mod 0) bar.toNat) with
                             slot := e.slot, lane := e.lane }, [])) g) s

/-- The wait of EVPOST, LNCH and the cadastre words (R389): earlier direct accesses and deferred transfers of the
executing thread are performed. -/
def Op.mustWait (o : Op) (d : Nat) (s : State) : Bool :=
  let th := [(o.slot, o.lane)]
  (s.core d).hasDeferred th o.id || (s.core d).hasHeld th o.id || (s.core d).acqBlocks th o.id || s.peerLeft d th o.id

/-- An entry of the event table (R386). -/
def State.eventEntry (s : State) (id : Nat) : BitVec 64 := BitVec.ofNat 64 (leNat (s.devRead (s.q.evtBase.toNat + 8 * id) 8))
/-- An access by an event unit to an entry of the event table meets the errors of its memory (R310). -/
def State.eventMeet (s : State) (id : Nat) : State := s.meet (s.q.evtBase.toNat + 8 * id) 8
/-- The entry holds an uncorrectable error (R311). -/
def State.eventBad (s : State) (id : Nat) : Bool := s.devBad (s.q.evtBase.toNat + 8 * id) 8
/-- An uncorrectable error in an entry of the event table has a fault record (R311, R398; log 48). -/
def State.eventRecord (s : State) (access d key id : Nat) : State :=
  let a := BitVec.ofNat 64 (s.q.evtBase.toNat + 8 * id)
  (s.postFault 0x50 access 0 d 0xFF key a a 0 0 none false).1
/-- Add to an entry of the event table, saturating, and set ERR when asked (R386). -/
def State.eventSet (s : State) (id inc : Nat) (err : Bool) : State :=
  let e := s.eventEntry id
  let n := satAdd (natBits e.toNat 31 0) inc 0xFFFFFFFF
  s.devWrite (s.q.evtBase.toNat + 8 * id)
    (leBytes 8 (((e &&& ~~~(0xFFFFFFFF#64)) ||| BitVec.ofNat 64 n ||| (if err then 1#64 <<< 63 else 0)).toNat))
/-- The change of an entry by an event unit, for core `d` and a launch: an entry that cannot be read stays as it is (R311; log 48). -/
def State.eventAdd (s : State) (d key id inc : Nat) (err : Bool) : State :=
  let s1 := s.eventMeet id
  if s1.eventBad id then s1.eventRecord 4 d key id else s1.eventSet id inc err

/-- EVPOST_APPLY (R389): a record needs room on the tower's queue (R387). -/
def execEvpostApply (d op : Nat) (s : State) : Out :=
  match (s.core d).op? op with
  | some o =>
    match o.body with
    | .evpost x payload rec bar =>
      let id := natBits x.toNat 51 32
      let late := decide (s.q.evtSize.toNat ≤ id)
      let need := (if late then 1 else 0) + (if rec then 1 else 0)
      let t := towerOf d
      let lid := ((s.coreLaunch d).map Launch.id).getD 0
      if o.mustWait d s || decide (256 < (s.tower t).events.length + need) then .next s
      else if !late && id != 0 && !(inHbm (s.q.evtBase.toNat + 8 * id)) then .fault .badPhysical
      else
        let s1 := if late then s.post t (mkEvent 3 0x11 0 lid d o.slot o.lane (BitVec.ofNat 64 id) 0)
          else if id = 0 then s else s.eventAdd d (((s.core d).launch).getD 0) id (natBits x.toNat 31 0) (x.getLsbD 63)
        let s2 := if rec then s1.post t (mkEvent 6 0 0 lid d o.slot o.lane (payload.zeroExtend 64) x) else s1
        let s3 := o.counts d bar true 0 (s2.endOp d op)
        .next (if !late && id != 0 && s1.eventBad id then
          s3.defer d o.slot o.lane op Cause.uncmem (BitVec.ofNat 64 (s.q.evtBase.toNat + 8 * id)) else s3)
    | _ => .next s
  | none => .next s

/-- LNCH at issue (R388, R390). -/
def execLnch (w : RForm) (s : State) : Out :=
  issueWord (onceWord 0x18B w [w.s1.toNat, w.s2.toNat]).cOnly (fun g => onceG (fun e s =>
    let va := e.r64 w.s1.toNat
    let bar := hi32 (e.r64 w.s2.toNat)
    if lo32 (e.r64 w.s2.toNat) ≠ 0 then .error (Cause.resfield, e.word)
    else
      match barTrap true e bar with
      | some t => .error t
      | none =>
        if va.toNat % 64 ≠ 0 then .error (Cause.record, va)
        else
          .ok (s.issueOp e.d { newOp s g.act false (.lnch va (mfld w.mod 5 0) w.d.toNat bar.toNat (g.warps.map (·.1))) with
                               slot := e.slot, lane := e.lane }, [])) g) s

/-- Fields of a launch queue descriptor (R377). -/
def State.qdesc (s : State) (q : Nat) : BitVec 512 := findD s.q.desc q 0
def State.setQdesc (s : State) (q : Nat) (x : BitVec 512) : State := { s with q := { s.q with desc := putD s.q.desc q x 0 } }
def qdTail (x : BitVec 512) : Nat := natBits x.toNat 255 224
def qdHead (x : BitVec 512) : Nat := natBits x.toNat 223 192
def qdEn (x : BitVec 512) : Bool := x.getLsbD 138
def qdDevq (x : BitVec 512) : Bool := x.getLsbD 137
def qdPriv (x : BitVec 512) : Bool := x.getLsbD 136
def qdPrio (x : BitVec 512) : Nat := natBits x.toNat 133 132
def qdSlots (x : BitVec 512) : Nat := 2 ^ natBits x.toNat 131 128
def qdRoot (x : BitVec 512) : BitVec 64 := x.extractLsb' 64 64
def qdLoc (x : BitVec 512) : Bool := x.getLsbD 63
def qdBase (x : BitVec 512) : Nat := natBits x.toNat 62 0
/-- Packets written and not taken, modulo 2^32 (R378). -/
def qdUsed (x : BitVec 512) : Nat := (qdTail x + 2 ^ 32 - qdHead x) % 2 ^ 32

/-- The status of an LNCH on a queue (R390). -/
def lnchStatus (x : BitVec 512) (root : BitVec 64) : Nat :=
  if !(qdEn x) || !(qdDevq x) || qdRoot x != root then 2
  else if qdUsed x < qdSlots x then 0 else 1

/-- The packet goes into the slot TAIL, which advances (R390). -/
def enqueue (q : Nat) (bs : List (BitVec 8)) (s : State) : State :=
  let x := s.qdesc q
  (s.devWrite (qdBase x + 256 * (qdTail x % qdSlots x)) bs).setQdesc q (setBits x 255 224 (qdTail x + 1))

/-- LNCH ends with a status (R390). -/
def lnchEnd (d : Nat) (o : Op) (wreg bar status : Nat) (slots : List Nat) (s : State) : State :=
  o.counts d bar true 0 (slots.foldl (fun s sl => s.putWarpReg d sl wreg (BitVec.ofNat 256 status)) (s.endOp d o.id))

/-- LNCH_ENQUEUE (R390). -/
def execLnchEnqueue (d op : Nat) (s : State) : Out :=
  match (s.core d).op? op with
  | some o =>
    match o.body with
    | .lnch va q wreg bar slots =>
      if o.mustWait d s || o.parked.isSome then .next s
      else
        match engRead d 0 o va va 256 s with
        | .ok s1 bs =>
          let x := s1.qdesc q
          let root := ((s1.coreLaunch d).map (·.ptroot)).getD 0
          match lnchStatus x root with
          | 0 =>
            if !(inHbm (qdBase x + 256 * (qdTail x % qdSlots x) + 255)) then .fault .badPhysical
            else .next (lnchEnd d o wreg bar 0 slots (enqueue q bs s1))
          | n => .next (lnchEnd d o wreg bar n slots s1)
        | .stop s1 _ => .next (lnchEnd d o wreg bar 3 slots s1)
        | .miss s1 v p k => .next (if s1.aborting d then s1.endOp d op else s1.park d 0 op va v p k)
        | .wait s1 => .next s1
        | .bad => .fault .badPhysical
    | _ => .next s
  | none => .next s

/-! ### ADMIT -/

/-- ADMIT (R472, R473): a request of no tokens is granted at once. -/
def execAdmitTok (w : RForm) (s : State) : Out :=
  issueWord (onceWord 0x194 w [w.s1.toNat, w.s2.toNat]).cmOnly (fun g => onceG (fun e s =>
    let b := mfld w.mod 1 0
    let bar := hi32 (e.r64 w.s2.toNat)
    if lo32 (e.r64 w.s2.toNat) ≠ 0 then .error (Cause.resfield, e.word)
    else
      match barTrap false e bar with
      | some t => .error t
      | none =>
        let n := min (e.r32 w.s1.toNat).toNat (Config.bucketCap b - (s.core e.d).reserved b)
        if n = 0 then .ok (engineCount s e.d e.slot e.lane s.nextId bar true 0, [])
        else
          let o := { newOp s g.act false (.adm b n bar.toNat false) with slot := e.slot, lane := e.lane }
          .ok ((s.issueOp e.d o).modTower (towerOf e.d) (·.request s.clock b (e.d, o.id)), [])) g) s

end Sys2Proof.Machine
end

