-- ==== Sys2Proof/Machine/Tables.lean ====
section
/-! DEFINITION. The code table (16 R416 to R418), the cadastre (R422 to R427) and LTRD (17 R454): one meaning per
instruction, and the steps of the cadastre unit and of a link-table read. -/

namespace Sys2Proof.Machine

open Sys2Proof

/-! ### CTW and CTSWAP -/

/-- Four entries of a bank of the code table take the four halves of a word (R418). -/
def ctWrite (bank q : Nat) (v : BitVec 64) (w : Warp) : Warp :=
  { w with ct := (List.range 4).foldl (fun l i => putD l (16 * bank + 4 * q + i) (v.extractLsb' (16 * i) 16) 0) w.ct }

/-- CTW of one warp present: the bank that is the shadow now (R418). -/
def ctwWarp (w : RForm) (es : List Env) (s : State) : State × List ((Nat × Nat) × TRes) :=
  match es with
  | [] => (s, [])
  | e :: _ =>
    (s.modWarp e.d e.slot fun x => ctWrite (1 - x.ctbank.toNat % 2) (mfld w.mod 1 0) (e.r64 w.s1.toNat) x, [])

/-- CTW (R417, R418). -/
def execCtw (w : RForm) (s : State) : Out :=
  issueWord (syncWord 0x18C w [w.s1.toNat] []) (perWarpS (ctwWarp w)) s

/-- CTSWAP (R417, R418): each warp present toggles its bank at the end cycle of the run. -/
def execCtswap (w : RForm) (s : State) : Out :=
  issueWord (syncWord 0x18D w [] []) (fun g => { s := g.s, out := g.rest [], swaps := g.warps.map (·.1) }) s

/-! ### The cadastre instructions -/

/-- The bits of a key that must be zero (R424). -/
def keyReserved (k : BitVec 64) : Bool := natBits k.toNat 63 52 != 0

/-- What keeps a cadastre instruction or an LTRD from being issued, beside its own reserved bits (R425, R454). -/
def tableTrap (e : Env) (s2 : BitVec 64) (reserved : Bool) : Option (Nat × BitVec 64) :=
  if reserved || lo32 s2 != 0 then some (Cause.resfield, e.word) else barTrap true e (hi32 s2)

/-- A cadastre instruction at issue (R425): its kind, and the old key that KVSH keeps in D. -/
def cadGroup (kind : Nat) (w : RForm) (g : Grp) : Res :=
  onceG (fun e s =>
    let key := e.r64 w.s1.toNat
    let old := if kind = 2 then e.r64 w.d.toNat else 0
    let s2 := e.r64 w.s2.toNat
    match tableTrap e s2 (keyReserved key || keyReserved old) with
    | some t => .error t
    | none =>
      let body : OpBody := .cad kind key old (mfld w.mod 8 5) (mbit w.mod 4) (mfld w.mod 3 0) w.d.toNat (hi32 s2).toNat
        (g.warps.map (·.1))
      .ok (s.issueOp e.d { newOp s g.act false body with slot := e.slot, lane := e.lane }, [])) g

/-- KVAL (R425). -/
def execKval (w : RForm) (s : State) : Out :=
  issueWord (onceWord 0x18E w [w.s1.toNat, w.s2.toNat]).cOnly (cadGroup 0 w) s
/-- KVFR (R425). -/
def execKvfr (w : RForm) (s : State) : Out :=
  issueWord (onceWord 0x18F w [w.s1.toNat, w.s2.toNat]).cOnly (cadGroup 1 w) s
/-- KVSH (R425): D holds the existing key. -/
def execKvsh (w : RForm) (s : State) : Out :=
  issueWord (onceWord 0x190 w [w.d.toNat, w.s1.toNat, w.s2.toNat]).cOnly (cadGroup 2 w) s
/-- KVMAP (R425). -/
def execKvmap (w : RForm) (s : State) : Out :=
  issueWord (onceWord 0x191 w [w.s1.toNat, w.s2.toNat]).cOnly (cadGroup 3 w) s

/-! ### The cadastre unit -/

/-- The first probe bucket of a key (R424). -/
def cadHash (bkt : Nat) (key : BitVec 64) : Nat := (key * 0x9E3779B97F4A7C15#64).toNat / 2 ^ (64 - bkt)

/-- The addresses of the entries that a key may occupy: eight probe buckets of eight entries, in search order (R424). -/
def cadPlaces (c : CadRegs) (key : BitVec 64) : List Nat :=
  let n : Nat := 2 ^ c.bkt.toNat
  (List.range 8).flatMap fun i => (List.range 8).map fun j =>
    c.tab.toNat + 128 * ((cadHash c.bkt.toNat key + i) % n) + 16 * j

/-- A table entry: V and the key, and its block (R424). -/
def State.cadKey (s : State) (a : Nat) : BitVec 64 := BitVec.ofNat 64 (leNat (s.devRead a 8))
def State.cadBlock (s : State) (a : Nat) : Nat := natBits (leNat (s.devRead (a + 8) 8)) 21 0

/-- The entry that holds a key (R424). -/
def State.cadLookup (s : State) (key : BitVec 64) : Option Nat :=
  (cadPlaces s.cad key).find? fun a =>
    (s.cadKey a).getLsbD 63 && natBits (s.cadKey a).toNat 51 0 == natBits key.toNat 51 0

/-- The entry that an insertion takes (R424). -/
def State.cadSlot (s : State) (key : BitVec 64) : Option Nat := (cadPlaces s.cad key).find? fun a => !((s.cadKey a).getLsbD 63)

/-- Insert a key for a block at an entry. -/
def State.cadInsert (s : State) (a : Nat) (key : BitVec 64) (b : Nat) : State :=
  s.devWrite a (leBytes 8 ((1#64 <<< 63) ||| (key &&& 0xFFFFFFFFFFFFF#64)).toNat ++ leBytes 8 b)

/-- The reference count of a block (R422). -/
def State.cadRef (s : State) (b : Nat) : Nat := leNat (s.devRead (s.cad.ref.toNat + 2 * b) 2)
def State.setCadRef (s : State) (b n : Nat) : State := s.devWrite (s.cad.ref.toNat + 2 * b) (leBytes 2 n)

/-- The word of the free queue at an index (R427). -/
def CadRegs.fqAt (c : CadRegs) (i : Nat) : Nat := c.fq.toNat + 4 * (i % max 1 c.n.toNat)

/-- A result dword (R426). -/
def cadResult (status r b : Nat) : BitVec 64 :=
  if [2, 4, 5, 8, 9].contains status then BitVec.ofNat 64 (status <<< 56)
  else BitVec.ofNat 64 (status <<< 56 ||| (r % 65536) <<< 32 ||| b % 2 ^ 22)

/-- The record that KVMAP writes (R427). -/
def cadRecord (c : CadRegs) (b fmt : Nat) (wr : Bool) : BitVec 256 :=
  0#76 ++ 0#1 ++ BitVec.ofBool wr ++ BitVec.ofBool wr ++ 1#1 ++ 0#4 ++ BitVec.ofNat 4 fmt ++ 0#8 ++ 0#32 ++ 0#24 ++
    BitVec.ofNat 40 65536 ++ 0#10 ++ BitVec.ofNat 54 (c.va.toNat + 65536 * b)

/-- The memory that an instruction of the unit uses: the probe buckets of its keys, the count of a block that it finds or takes, and
the word of the free queue that it takes or writes. -/
def State.cadReads (s : State) (kind : Nat) (key old : BitVec 64) : List (Nat × Nat) :=
  let place := fun (k : BitVec 64) => (cadPlaces s.cad k).map fun a => (a, 16)
  let count := fun (k : BitVec 64) => match s.cadLookup k with
    | some a => [(s.cad.ref.toNat + 2 * s.cadBlock a, 2)]
    | none => []
  place key ++ count key ++ (if kind = 2 then place old ++ count old else []) ++
    (if kind = 0 ∧ s.cad.free ≠ 0 ∧ (s.cadLookup key).isNone then
      let q := s.cad.fqAt s.cad.head
      [(q, 4), (s.cad.ref.toNat + 2 * leNat (s.devRead q 4), 2)] else []) ++
    (match s.cadLookup key with
     | some a => if kind = 1 ∧ s.cadRef (s.cadBlock a) = 1 then [(s.cad.fqAt (s.cad.head + s.cad.free), 4)] else []
     | none => [])

/-- KVAL (R427): state, status, count and block. -/
def cadAlloc (key : BitVec 64) (s : State) : State × Nat × Nat × Nat :=
  match s.cadLookup key with
  | some a => (s, 1, s.cadRef (s.cadBlock a), s.cadBlock a)
  | none =>
    if s.cad.free = 0 then (s, 4, 0, 0)
    else
      let b := leNat (s.devRead (s.cad.fqAt s.cad.head) 4)
      match s.cadSlot key with
      | none => (s, 5, 0, 0)
      | some a =>
        let s1 := (s.cadInsert a key b).setCadRef b 1
        ({ s1 with cad := { s.cad with head := (s.cad.head + 1) % max 1 s.cad.n.toNat, free := s.cad.free - 1 } }, 0, 1, b)

/-- KVSH (R427). -/
def cadShare (key old : BitVec 64) (s : State) : State × Nat × Nat × Nat :=
  match s.cadLookup old with
  | none => (s, 2, 0, 0)
  | some o =>
    let b := s.cadBlock o
    match s.cadLookup key with
    | some a => (s, 1, s.cadRef (s.cadBlock a), s.cadBlock a)
    | none =>
      if s.cadRef b = 65535 then (s, 6, 65535, b)
      else
        match s.cadSlot key with
        | none => (s, 5, 0, 0)
        | some a => ((s.cadInsert a key b).setCadRef b (s.cadRef b + 1), 0, s.cadRef b + 1, b)

/-- KVFR (R427). -/
def cadFree (key : BitVec 64) (s : State) : State × Nat × Nat × Nat :=
  match s.cadLookup key with
  | none => (s, 2, 0, 0)
  | some a =>
    let b := s.cadBlock a
    let n := s.cadRef b - 1
    let s1 := (s.devWrite a (leBytes 8 ((s.cadKey a) &&& ~~~(1#64 <<< 63)).toNat)).setCadRef b n
    if n = 0 then
      let s2 := s1.devWrite (s.cad.fqAt (s.cad.head + s.cad.free)) (leBytes 4 b)
      ({ s2 with cad := { s.cad with free := s.cad.free + 1 } }, 7, 0, b)
    else (s1, 0, n, b)

/-- What an instruction of the unit does (R427): state, status, count, block, and the record that KVMAP writes. -/
def cadRun (kind : Nat) (key old : BitVec 64) (fmt : Nat) (wr : Bool) (s : State) :
    (State × Nat × Nat × Nat) × Option (BitVec 256) :=
  match kind with
  | 0 => (cadAlloc key s, none)
  | 1 => (cadFree key s, none)
  | 2 => (cadShare key old s, none)
  | _ =>
    match s.cadLookup key with
    | none => ((s, 2, 0, 0), none)
    | some a =>
      let b := s.cadBlock a
      let n := s.cadRef b
      ((s, if wr && decide (1 < n) then 3 else 0, n, b), some (cadRecord s.cad b fmt (wr && n == 1)))

/-- The warps present take the result and the record, and the instruction arrives (R427). -/
def cadDone (d : Nat) (o : Op) (wreg bar breg : Nat) (slots : List Nat) (v : BitVec 64) (record : Option (BitVec 256))
    (s : State) : State :=
  let s1 := slots.foldl (fun s sl => s.putWarpReg d sl wreg (v.zeroExtend 256)) (s.endOp d o.id)
  let s2 := match record with
    | some b => slots.foldl (fun s sl => s.putWarpReg d sl (840 + breg) b) s1
    | none => s1
  o.counts d bar true 0 s2

/-- CADASTRE_PERFORM (R427). -/
def execCadastrePerform (d op : Nat) (s : State) : Out :=
  match (s.core d).op? op with
  | some o =>
    match o.body with
    | .cad kind key old fmt wr breg wreg bar slots =>
      if o.mustWait d s then .next s
      else if !(s.cad.en) then .next (cadDone d o wreg bar breg slots (cadResult 8 0 0) none s)
      else if (s.cadReads kind key old).any fun r => !(inHbm (r.1 + r.2 - 1)) then .fault .badPhysical
      else if (s.cadReads kind key old).any fun r => s.devBad r.1 r.2 then
        let s1 := (s.postFault 0x50 0 4 d 0xFF (((s.core d).launch).getD 0) 0 0 0 0 none false).1
        .next (cadDone d o wreg bar breg slots (cadResult 9 0 0) none s1)
      else
        let r := cadRun kind key old fmt wr s
        .next (cadDone d o wreg bar breg slots (cadResult r.1.2.1 r.1.2.2.1 r.1.2.2.2) r.2 r.1.1)
    | _ => .next s
  | none => .next s

/-! ### LTRD -/

/-- LTRD at issue (R454). -/
def execLtrd (w : RForm) (s : State) : Out :=
  issueWord (onceWord 0x193 w [w.s1.toNat, w.s2.toNat]).cOnly (fun g => onceG (fun e s =>
    let s2 := e.r64 w.s2.toNat
    match tableTrap e s2 false with
    | some t => .error t
    | none =>
      let body : OpBody := .ltrd (mfld w.mod 2 0) (e.r32 w.s1.toNat) w.d.toNat (hi32 s2).toNat (g.warps.map (·.1))
      .ok (s.issueOp e.d { newOp s g.act false body with slot := e.slot, lane := e.lane }, [])) g) s

/-- The registers of a domain table at offsets 0x000 and 0x008 (R436). -/
def Domain.reg0 (x : Domain) : BitVec 64 :=
  BitVec.ofBool x.en ++ 0#16 ++ BitVec.ofNat 7 x.n ++ 0#2 ++ BitVec.ofNat 6 x.self ++ x.gen
def Domain.reg8 (x : Domain) : BitVec 64 :=
  0#48 ++ BitVec.ofNat 8 x.t ++ 0#4 ++ BitVec.ofBool x.refused ++ BitVec.ofNat 3 x.dstate
/-- MEMBER m (R436). -/
def Domain.member (x : Domain) (m : Nat) : BitVec 32 := findD x.members m 0

/-- This device's parent in tree `t` (R440): none at the root or beyond T. -/
def Domain.parent (x : Domain) (t : Nat) : Option Nat := ((x.trees.getD t []).find? (·.1 == x.self)).map fun e => e.2.1

/-- The word of .TREE (R454): `port` is the own port towards the parent. -/
def treeWord (x : Domain) (t : Nat) (port : Nat) : BitVec 64 :=
  if x.t ≤ t then x.gen.zeroExtend 64
  else
    let p := (x.parent t).getD 0x3F
    BitVec.ofNat 64 (2 ^ 63 + p * 2 ^ 48 + port * 2 ^ 44) ||| x.gen.zeroExtend 64

/-- The own end of an edge (a, b, pa) (R438): the member of smaller index names the edge by its own port, the other finds
its port in the link table. -/
def State.edgePort (s : State) (x : Domain) (e : Nat × Nat × Nat) : Nat :=
  if e.1 = x.self then e.2.2
  else
    ((List.range 16).find? fun p =>
      rowPeerId (s.link p).row == x.member e.1 && rowPeerPort (s.link p).row == e.2.2).getD 0

/-- The own port towards the parent in a tree (R454). -/
def State.treePort (s : State) (x : Domain) (t : Nat) : Nat :=
  match (x.trees.getD t []).find? (·.1 == x.self) with
  | some e => s.edgePort x e.2.2
  | none => 0

/-- The value of an LTRD (R454). -/
def ltrdValue (sel : Nat) (ix : BitVec 32) (s : State) : BitVec 64 :=
  let i := ix.toNat
  let two := i / 2048 == 0
  match sel with
  | 0 => if i < 16 then (s.link i).row.setWidth 64 else 0
  | 1 => if i < 16 then (s.link i).row.extractLsb' 64 64 else 0
  | 2 => if i < 8 then (s.domain i).reg0 else 0
  | 3 => if i < 8 then (s.domain i).reg8 else 0
  | 4 =>
    let x := s.domain (natBits i 10 8)
    let m := natBits i 5 0
    if two && natBits i 7 6 == 0 && decide (m < x.n) then (x.member m).zeroExtend 64 else 0
  | _ =>
    let x := s.domain (natBits i 10 8)
    if two && natBits i 7 3 == 0 then treeWord x (natBits i 2 0) (s.treePort x (natBits i 2 0)) else 0

/-- LTRD_READ (R454): one event. -/
def execLtrdRead (d op : Nat) (s : State) : Out :=
  match (s.core d).op? op with
  | some o =>
    match o.body with
    | .ltrd sel ix wreg bar slots =>
      let v := ltrdValue sel ix s
      .next (o.counts d bar true 0
        (slots.foldl (fun s sl => s.putWarpReg d sl wreg (v.zeroExtend 256)) (s.endOp d op)))
    | _ => .next s
  | none => .next s

end Sys2Proof.Machine
end

