-- ==== Sys2Proof/Machine/Coll.lean ====
section
/-! DEFINITION. Agreement rounds and trees (17 R438 to R440), and COLL (R441 to R453): its word, the steps of the collective
engine, and what arrives from the other members. A step that names this device's own member index is the engine's own
part; a step that names another member is that member's message. -/

namespace Sys2Proof.Machine

open Sys2Proof

/-! ### The command record (R442) -/

/-- Bits [hi:lo] of a record given as bytes. -/
def clF (r : List (BitVec 8)) (hi lo : Nat) : Nat := natBits (leNat r) hi lo
def clBar (r : List (BitVec 8)) : Nat := clF r 31 0
def clIb (r : List (BitVec 8)) : Nat := clF r 35 32
def clOb (r : List (BitVec 8)) : Nat := clF r 39 36
def clOp (r : List (BitVec 8)) : Nat := clF r 44 43
def clFmt (r : List (BitVec 8)) : Nat := clF r 46 45
def clDom (r : List (BitVec 8)) : Nat := clF r 49 47
def clRoot (r : List (BitVec 8)) : Nat := clF r 55 50
def clLen (r : List (BitVec 8)) : Nat := clF r 95 64
def clChunk (r : List (BitVec 8)) : Nat := clF r 127 96
def clMark (r : List (BitVec 8)) : BitVec 64 := BitVec.ofNat 64 (clF r 191 128)
def clIoff (r : List (BitVec 8)) : Nat := clF r 223 192
def clOoff (r : List (BitVec 8)) : Nat := clF r 255 224

/-- The number of chunks (R443). -/
def clChunks (r : List (BitVec 8)) : Nat :=
  if clFmt r = 0 then 9 * clLen r else (clLen r + clChunk r - 1) / max 1 (clChunk r)
/-- The stride of RP9 tiles of `n` elements (R443). -/
def clStride (n : Nat) : Nat := 16 * ((16 + 11 * n + 15) / 16)
/-- Offset and bytes of chunk `c` of the full vector, RP9 tiles having `n` elements (R443). -/
def clFull (r : List (BitVec 8)) (n c : Nat) : Nat × Nat :=
  if clFmt r = 0 then
    let p := rp9Place n (c % 9) 0
    (c / 9 * clStride n + p.1, p.2 * n)
  else (c * clChunk r, min (clChunk r) (clLen r - c * clChunk r))
/-- The offset of a chunk in the packed form of its owner (R443). -/
def clPacked (r : List (BitVec 8)) (members c : Nat) : Nat := c / members * clChunk r
/-- Bytes of the full vector (R443, R470). -/
def clBytes (r : List (BitVec 8)) (n : Nat) : Nat := if clFmt r = 0 then clLen r * clStride n else clLen r
/-- Bytes of the packed form of member `k`. -/
def clPackedBytes (r : List (BitVec 8)) (members k : Nat) : Nat :=
  ((List.range (clChunks r)).filter fun c => c % members == k).foldl
    (fun m c => max m (clPacked r members c + (clFull r 0 c).2)) 0
/-- Bytes of the input of member `k`, and of its output (R443). -/
def clInBytes (r : List (BitVec 8)) (members k n : Nat) : Nat :=
  match clOp r with
  | 2 => clPackedBytes r members k
  | 3 => if k = clRoot r then clBytes r n else 0
  | _ => clBytes r n
def clOutBytes (r : List (BitVec 8)) (members k n : Nat) : Nat :=
  if clOp r = 1 then clPackedBytes r members k else clBytes r n
/-- The source of a chunk that goes up unadded: its owner, or ROOTM (R446). -/
def clSource (r : List (BitVec 8)) (members c : Nat) : Nat := if clOp r = 3 then clRoot r else c % members
/-- Chunks are added on their way up (R446). -/
def clAdds (r : List (BitVec 8)) : Bool := decide (clOp r < 2)

/-- Check 1 of R444. -/
def clRecordOk (r : List (BitVec 8)) (members : Nat) : Bool :=
  clF r 1023 320 == 0 && clF r 287 272 == 0 && clF r 63 56 == 0 && clF r 42 40 == 0 && clFmt r != 3 &&
  !(clFmt r == 0 && (clOp r == 1 || clOp r == 2)) &&
  (if clFmt r = 0 then clChunk r == 0
    else clChunk r % 16 == 0 && decide (256 ≤ clChunk r) && decide (clChunk r ≤ 1048576) && clLen r % 4 == 0) &&
  clLen r != 0 && decide (clChunks r ≤ 1048576) && decide (clRoot r < members) && (clOp r == 3 || clRoot r == 0)

/-- Check 2 of R444, with RP9 tiles of `n` elements where their shape is known. -/
def clBufOk (r : List (BitVec 8)) (ib ob : BitVec 256) (members self : Nat) (n : Option Nat) : Bool :=
  clIb r != clOb r && brSwz ib == 0 && brSwz ob == 0 && brR ib && brW ob &&
  (clFmt r == 0 && n.isNone ||
    (decide (clIoff r + clInBytes r members self (n.getD 0) ≤ brExtent ib) || clInBytes r members self (n.getD 0) == 0) &&
    (decide (clOoff r + clOutBytes r members self (n.getD 0) ≤ brExtent ob) || clOutBytes r members self (n.getD 0) == 0))

/-! ### Trees (R438, R440) -/

/-- A live edge (a, b, pa) (R438). -/
abbrev Edge := Nat × Nat × Nat

/-- The edge that port `pa` of member `a` carries, where it is live (R438). -/
def edgeOf (x : Domain) (rows : Nat → List (BitVec 128)) (a pa : Nat) : Option Edge :=
  let ra := (rows a).getD pa 0
  (List.range x.n).findSome? fun b =>
    let rb := (rows b).getD (rowPeerPort ra) 0
    if a < b ∧ rowPeerId ra = x.member b ∧ rowUp ra ∧ rowUp rb ∧ rowPeerId rb = x.member a ∧ rowPeerPort rb = pa then
      some (a, b, pa)
    else none

/-- The live edges, ascending (R438, R440). -/
def liveEdges (x : Domain) (rows : Nat → List (BitVec 128)) : List Edge :=
  sortBy (fun e => (e.1 * 64 + e.2.1) * 16 + e.2.2)
    ((List.range x.n).flatMap fun a => (List.range 16).filterMap (edgeOf x rows a))

/-- The growth of a tree: members to expand, members found with their parent and edge (R440). -/
def growTree (edges : List Edge) : Nat → List Nat → List Nat → List (Nat × Nat × Edge) → List (Nat × Nat × Edge)
  | 0, _, _, tree => tree
  | _, [], _, tree => tree
  | n + 1, u :: queue, seen, tree =>
    let r := edges.foldl (fun (acc : List Nat × List Nat × List (Nat × Nat × Edge)) e =>
      if e.1 ≠ u ∧ e.2.1 ≠ u then acc
      else
        let v := if e.1 = u then e.2.1 else e.1
        if acc.2.1.contains v then acc else (acc.1 ++ [v], acc.2.1 ++ [v], acc.2.2 ++ [(v, u, e)])) (queue, seen, tree)
    growTree edges n r.1 r.2.1 r.2.2

/-- The trees of R440, from tree `t` on; a domain of one member has one. -/
def deriveTrees (n : Nat) (edges : List Edge) : Nat → Nat → List Edge → List (List (Nat × Nat × Edge))
  | 0, _, _ => []
  | k + 1, t, used =>
    let tree := growTree (edges.filter fun e => !(used.contains e)) (n + 1) [t % n] [t % n] []
    if tree.length + 1 ≠ n then []
    else if n = 1 then [tree]
    else tree :: deriveTrees n edges k (t + 1) (used ++ tree.map fun e => e.2.2)

/-- The member's way up to the root of a tree, itself first. -/
def pathUp (tree : List (Nat × Nat × Edge)) : Nat → Nat → List Nat
  | 0, m => [m]
  | k + 1, m =>
    match tree.find? (·.1 == m) with
    | some e => m :: pathUp tree k e.2.1
    | none => [m]

/-- The tree of chunk `c` (R446). -/
def Domain.tree (x : Domain) (t : Nat) : List (Nat × Nat × Edge) := x.trees.getD t []
/-- The children of this device in a tree, in ascending member index (R440). -/
def Domain.children (x : Domain) (t : Nat) : List Nat :=
  sortBy id (((x.tree t).filter fun e => e.2.1 == x.self).map (·.1))
/-- The neighbour of this device on the way to member `m` in a tree. -/
def Domain.towards (x : Domain) (t m : Nat) : Option Nat :=
  let p := pathUp (x.tree t) 64 m
  if m = x.self then none
  else if p.contains x.self then (p.takeWhile (· != x.self)).getLast?
  else x.parent t

/-- Send a message to a neighbour in a tree. -/
def State.sendTree (s : State) (x : Domain) (t m : Nat) (msg : LinkMsg) : State :=
  match (x.tree t).find? fun e => (e.1 == m && e.2.1 == x.self) || (e.1 == x.self && e.2.1 == m) with
  | some e => s.sendOn (s.edgePort x e.2.2) msg
  | none => s

/-- A message of member `origin` goes on over tree 0, away from where it came from, so that it reaches every member. -/
def State.tell (s : State) (x : Domain) (origin : Nat) (msg : LinkMsg) : State :=
  let back := x.towards 0 origin
  (x.children 0 ++ (x.parent 0).toList).foldl (fun s m => if some m = back then s else s.sendTree x 0 m msg) s

/-! ### Agreement rounds (R439) -/

/-- Every COLL of the domain that this device has issued and not ended. -/
def State.collOps (s : State) (dom : Nat) : List (Nat × Op) :=
  s.cores.flatMap fun c => c.2.ops.filterMap fun o =>
    match o.body with
    | .coll dm .. => if dm = dom then some (c.1, o) else none
    | _ => none

/-- The report of this device: its rows for ports that reach members, in port order (R439). -/
def State.ownRows (s : State) (x : Domain) : List (BitVec 128) :=
  (List.range 16).map fun p =>
    let r := (s.link p).row
    if (List.range x.n).any fun m => rowPeerId r == x.member m then r else 0

/-- Flood a message over every port that is up and reaches an S4 (R428, R439). -/
def State.flood (s : State) (msg : LinkMsg) : State :=
  (List.range 16).foldl (fun s p =>
    let r := (s.link p).row
    if rowUp r && rowPeerId r != 0 then s.sendOn p msg else s) s

/-- What a COLL keeps when an agreement begins: what it has received of the old generation falls (R449). -/
def Coll.pause (c : Coll) : Coll :=
  { c with writing := [], partials := [], peerMarks := [], sentDown := [], doneFrom := [], doneSent := false }

/-- A round starts, or restarts for the `attempt`th time, from a generation: each member reports to it anew (R439; log 46). -/
def State.agreeFrom (s : State) (dom : Nat) (base : BitVec 32) (attempt : Nat) : State :=
  let x := s.domain dom
  let rows := s.ownRows x
  (s.setDomain dom { x with dstate := 1, round := some s.clock, base := base, attempt := attempt, wanted := false
                            reports := [(x.self, rows)]
                            colls := x.colls.map Coll.pause }).flood (.report dom base.toNat attempt x.self rows)

/-- AGREEMENT_START (R439): a round starts or restarts. -/
def State.agreeStart (s : State) (dom : Nat) : State :=
  let x := s.domain dom
  if x.round.isSome then s.agreeFrom dom x.base (x.attempt + 1) else s.agreeFrom dom x.gen 0

/-- A COLL of the domain is in flight on a member, as far as this member knows: its own, or one of which it holds a message. -/
def State.collBusy (s : State) (dom : Nat) : Bool := !((s.collOps dom).isEmpty) || !((s.domain dom).early.isEmpty)

/-- An agreement that waits for COLLs to end begins once none is in flight (R439). -/
def State.agreeWanted (s : State) (dom : Nat) : State :=
  let x := s.domain dom
  if x.wanted && x.en && !(s.collBusy dom) then s.agreeStart dom else s

/-! ### The end of a COLL (R451, R452) -/

/-- The Coll entry of a domain, by its order number. -/
def Domain.coll? (x : Domain) (ix : Nat) : Option Coll := x.colls.find? fun c => c.ix == ix
def Domain.modColl (x : Domain) (ix : Nat) (f : Coll → Coll) : Domain :=
  { x with colls := x.colls.map fun c => if c.ix = ix then f c else c }
def State.modColl (s : State) (dom ix : Nat) (f : Coll → Coll) : State := s.setDomain dom ((s.domain dom).modColl ix f)
/-- The entry leaves its domain, which remembers how it ended. -/
def State.dropColl (s : State) (dom ix st : Nat) : State :=
  let x := s.domain dom
  let own := ((x.coll? ix).bind fun c => c.headers.find? (·.1 == x.self)).map (·.2)
  s.setDomain dom { x with
    colls := x.colls.filter fun c => c.ix != ix
    past := if ix < 2 ^ 64 then x.past ++ [(ix, st, own.getD ([], []))] else x.past }

/-- A COLL is over on this device: its entry is gone, it arrives once on BAR, and an agreement that waited begins. -/
def collOver (d dom ix st bar : Nat) (o : Op) (s : State) : State :=
  (o.counts d bar true 0 ((s.dropColl dom ix st).endOp d o.id)).agreeWanted dom

/-- RGEN, RT and STATUS are written into the record (R442, R451); a unit with an uncorrectable error that the write would leave in
part is met (R311). -/
def collRecord (d : Nat) (o : Op) (va : BitVec 64) (st t : Nat) (gen : BitVec 32) (s : State) : Eng (List (Loc × Nat)) :=
  match engLine (s.who d o) true va s with
  | (s1, .error e) => engErr s1 d 2 2 va va e
  | (s1, .ok p) =>
    if p.own && (s1.devPartBad (p.pa + 32) 2 || s1.devPartBad (p.pa + 36) 4) then engErr s1 d 2 2 va va .unc
    else
      (engWrite d 2 o va (va + 32) [BitVec.ofNat 8 st, BitVec.ofNat 8 t] s1).bind fun s2 _ =>
        engWrite d 2 o va (va + 36) (leBytes 4 gen.toNat) s2

/-- The record is written, and once the peers have taken what the COLL wrote, its completion is counted (R451, R453); a missing page
parks the command. -/
def collFinish (d : Nat) (o : Op) (s : State) : Eng Unit :=
  match o.body with
  | .coll dom ix va _ _ _ bar _ _ =>
    let x := s.domain dom
    let c := x.coll? ix
    let st := (c.bind (·.ended)).getD 0
    let over' := fun (s : State) => if s.unperformed d o.id then Eng.wait s else .ok (collOver d dom ix st bar o s) ()
    if (c.map (·.wrote)).getD false then over' s
    else if s.unperformed d o.id then .wait s
    else
      match collRecord d o va st x.t x.gen s with
      | .stop s1 cause => .ok ((collOver d dom ix st bar o s1).defer d o.slot o.lane o.id cause va) ()
      | r => r.bind fun s1 _ => over' (s1.modColl dom ix fun c => { c with wrote := true })
  | _ => .ok s ()

/-- An engine command stops where it stands after an abort (R146); a COLL leaves its domain too. -/
def State.stopWhere (s : State) (d op : Nat) : State :=
  match (s.core d).op? op with
  | some o =>
    match o.body with
    | .coll dom ix .. => ((s.dropColl dom ix 4).endOp d op).agreeWanted dom
    | _ => s.endOp d op
  | none => s

/-- A step of an engine command as a step of the machine: a missing page parks it (R411), or ends it where it stands after
an abort (R146). -/
def engStep (d unit op : Nat) (va : BitVec 64) (r : Eng Unit) (onStop : State → Nat → Out) : Out :=
  match r with
  | .ok s _ => .next s
  | .stop s c => onStop s c
  | .miss s v p k => .next (if s.aborting d then s.stopWhere d op else s.park d unit op va v p k)
  | .wait s => .next s
  | .bad => .fault .badPhysical

/-- The COLL has a status to end with: the first that it met (R452). -/
def State.collEnd (s : State) (dom ix st : Nat) : State :=
  s.modColl dom ix fun c => if c.stop.isSome then c else { c with ended := c.ended.or (some st) }

/-- The COLL of an aborted launch ends with ABORTED, whatever it had met before it counted its completion (R146). -/
def State.collAbort (s : State) (dom ix : Nat) : State :=
  s.modColl dom ix fun c => { c with stop := none, ended := some 4, wrote := false }

/-- The entry of a COLL that begins. -/
def newColl (d : Nat) (o : Op) (ix : Nat) : Coll :=
  { ix := ix, core := d, op := o.id, headers := [], agreed := false, marks := [], peerMarks := [], partials := [], inputs := [], writing := []
    sentUp := [], sentDown := [], doneFrom := [], doneSent := false, stop := none, ended := none, wrote := false }

/-- A COLL that has not begun has no entry yet: it gets one that only ends (R449, R437). -/
def endingColl (d : Nat) (o : Op) (ix st : Nat) : Coll := { newColl d o ix with ended := some st }

/-- Every COLL of a domain on this device gets a status to end with, those that have not begun too. -/
def State.collEndAll (s : State) (dom st : Nat) : State :=
  (s.collOps dom).foldl (fun s q =>
    match q.2.body with
    | .coll _ ix .. =>
      let x := s.domain dom
      match x.coll? ix with
      | some _ => s.collEnd dom ix st
      | none => s.setDomain dom { x with colls := x.colls ++ [endingColl q.1 q.2 ix st] }
    | _ => s) s

/-- A cause met after issue stops the COLL (R452): a deferred trap, a record, and notice to the other members; it waits while the
event queue is full (R387). -/
def collStop (d : Nat) (o : Op) (cause : Nat) (s : State) : Out :=
  match o.body with
  | .coll dom ix va .. =>
    if s.eventRoom (towerOf d) then
      let x := s.domain dom
      .next ((((s.defer d o.slot o.lane o.id cause va).postStopped d o.slot o.lane cause va).modColl dom ix fun c =>
        { c with stop := none, ended := c.ended.or (some 5) }).tell x x.self (.stopped dom x.gen.toNat ix x.self))
    else .next (s.modColl dom ix fun c => { c with stop := some cause })
  | _ => .next s

/-! ### The word -/

/-- Elements of the tile that a header describes. -/
def hdrElems (h : BitVec 128) : Nat := rp9Rows h * rp9Cols h

/-- The lines of VA of a COLL's output (R366, R453). -/
def collOut (r : List (BitVec 8)) (ob : BitVec 256) (bytes : Nat) : List (Nat × Nat) :=
  let o := (vaOf ((brBase ob).toInt + clOoff r)).toNat
  if bytes = 0 then [] else [(o, o + bytes)]

/-- The lines of VA of a COLL's marks and record (R366, R453). -/
def collBooks (va : BitVec 64) (r : List (BitVec 8)) : List (Nat × Nat) :=
  [((clMark r).toNat, (clMark r).toNat + clChunks r), (va.toNat, va.toNat + 128)]

/-- The LINK tokens of a COLL with tiles of `n` elements (R470). -/
def collCost (r : List (BitVec 8)) (n : Nat) : Nat := (clBytes r n + 1023) / 1024 * (if clOp r = 0 then 2 else 1)

/-- The lines of VA that may prove to be the output: all of its buffer, while the shape of the tiles is not known (R366, R444). -/
def collMayOwn (r : List (BitVec 8)) (ob : BitVec 256) : List (Nat × Nat) := collOut r ob (brExtent ob - clOoff r)

/-- The shape of the tiles reaches this member only with the headers of ROOTM (R444, R445; log 44). -/
def collLate (x : Domain) (r : List (BitVec 8)) : Bool := clFmt r == 0 && clOp r == 3 && clRoot r != x.self

/-- A COLL enters flight on its domain (R445, R471); with a status it ends at once (R444, R449). -/
def collEnter (g : Grp) (e : Env) (va : BitVec 64) (r : List (BitVec 8)) (n : Nat) (st : Option Nat) (s : State) : State :=
  let dom := clDom r
  let x := s.domain dom
  let ib := e.reg (840 + clIb r)
  let ob := e.reg (840 + clOb r)
  let late := collLate x r
  let cost := if st.isSome || late then 0 else collCost r n
  let ix := if st = some 6 then 2 ^ 64 + s.nextId else x.nextColl
  let o := { newOp s g.act true (.coll dom ix va r ib ob (clBar r) cost (cost == 0)) with
             slot := e.slot, lane := e.lane
             ownV := if st.isSome then [(va.toNat, va.toNat + 128)]
               else (if late then collMayOwn r ob else collOut r ob (clOutBytes r x.n x.self n)) ++ collBooks va r }
  let x' := if st = some 6 then x else { x with nextColl := x.nextColl + 1 }
  match st with
  | some c => (s.issueOp g.d o).setDomain dom { x' with colls := x'.colls ++ [endingColl g.d o ix c] }
  | none => ((s.issueOp g.d o).setDomain dom x').seekTokens g.d 2

/-- A command that ends at issue does so in the same step (R444, R449). -/
def collAtOnce (g : Grp) (s : State) (id : Nat) : Res :=
  match (s.core g.d).op? id with
  | some o =>
    match collFinish g.d o s with
    | .ok s1 _ => { s := s1, out := g.rest [] }
    | .stop s1 _ => { s := s1, out := g.rest [] }
    | .miss s1 v p k =>
      { s := s1.park g.d 2 id (match o.body with | .coll _ _ va .. => va | _ => 0) v p k, out := g.rest [] }
    | .wait s1 => { s := s1, out := g.rest [] }
    | .bad => { s := s, bad := true }
  | none => { s := s, out := g.rest [] }

/-- The checks of R444 on a record as read, with the header of the own first tile where it is read. -/
def collCheck (e : Env) (x : Domain) (r : List (BitVec 8)) (n : Option Nat) (va : BitVec 64) : Option (Nat × BitVec 64) :=
  if !(clRecordOk r x.n) then some (Cause.record, va)
  else if !(clBufOk r (e.reg (840 + clIb r)) (e.reg (840 + clOb r)) x.n x.self n) then some (Cause.record, va)
  else barTrap true e (BitVec.ofNat 32 (clBar r))

/-- The header of the own first input tile is read at issue (R444). -/
def collReadsHeader (x : Domain) (r : List (BitVec 8)) : Bool :=
  clFmt r == 0 && (clOp r == 0 || (clOp r == 3 && clRoot r == x.self))

/-- COLL at issue (R444). -/
def collGroup (w : RForm) (g : Grp) : Res :=
  match g.first? with
  | none => { s := g.s, out := g.rest [] }
  | some e =>
    let va := e.r64 w.s1.toNat
    let fail := fun (s : State) (t : Nat × BitVec 64) =>
      ({ s := s, out := g.rest [((e.slot, e.lane), TRes.trapped t.1 t.2)] } : Res)
    if !(vaOk e.l.priv va) then fail g.s (Cause.addrform, va)
    else if va.toNat % 128 ≠ 0 then fail g.s (Cause.record, va)
    else
      match recordRead g e va 128 g.s with
      | .res r => r
      | .ok s1 r =>
        let x := s1.domain (clDom r)
        if !(x.en) then collAtOnce g (collEnter g e va r 0 (some 6) s1) s1.nextId
        else if collReadsHeader x r then
          match recordRead g e (vaOf ((brBase (e.reg (840 + clIb r))).toInt + clIoff r)) 16 s1 with
          | .res q => q
          | .ok s2 hb =>
            let h := BitVec.ofNat 128 (leNat hb)
            if !(rp9HeaderOk h) then fail s2 (Cause.record, va)
            else issue e va r (some (hdrElems h)) x fail s2
        else issue e va r none x fail s1
where
  /-- After the reads: the checks in order, then the command enters flight, or ends at once while the domain is split. -/
  issue (e : Env) (va : BitVec 64) (r : List (BitVec 8)) (n : Option Nat) (x : Domain)
      (fail : State → Nat × BitVec 64 → Res) (s : State) : Res :=
    match collCheck e x r n va with
    | some t => fail s t
    | none =>
      if x.dstate = 3 then collAtOnce g (collEnter g e va r (n.getD 0) (some 1) s) s.nextId
      else { s := collEnter g e va r (n.getD 0) none s, out := g.rest [] }

/-- COLL (R441 to R445). -/
def execColl (w : RForm) (s : State) : Out :=
  issueWord (onceWord 0x192 w [w.s1.toNat]).cOnly (collGroup w) s

/-! ### The header exchange (R445) -/

/-- The operation of a Coll entry. -/
def State.collOp (s : State) (c : Coll) : Option Op := (s.core c.core).op? c.op

/-- The fields that the members compare (R445). -/
def clFields (r : List (BitVec 8)) : List Nat := [clOp r, clFmt r, clLen r, clChunk r, clRoot r]

/-- The headers that this member sends (R445): of each of its input tiles, of ROOTM alone for a broadcast. -/
def collHeaders (d : Nat) (o : Op) (r : List (BitVec 8)) (ib : BitVec 256) (va : BitVec 64) (self : Nat) (s : State) :
    Eng (List (BitVec 128)) :=
  if clFmt r ≠ 0 ∨ (clOp r = 3 ∧ clRoot r ≠ self) then .ok s []
  else
    let at' := fun (t n : Nat) => vaOf ((brBase ib).toInt + clIoff r + t * clStride n)
    (List.range (clLen r)).foldl (fun (acc : Eng (List (BitVec 128))) t =>
      match acc with
      | .ok s1 hs =>
        match engRead d 2 o va (at' t ((hs.head?.map hdrElems).getD 0)) 16 s1 with
        | .ok s2 bs =>
          let h := BitVec.ofNat 128 (leNat bs)
          if rp9HeaderOk h then .ok s2 (hs ++ [h]) else .stop s2 Cause.record
        | .stop s2 c => .stop s2 c
        | .miss s2 v p k => .miss s2 v p k
        | .wait s2 => .wait s2
        | .bad => .bad
      | x => x) (.ok s [])

/-- The headers of two members agree in ROWS, COLS and ANCHOR (R445). -/
def hdrsMatch (a b : List (BitVec 128)) : Bool :=
  a.length == b.length && (a.zip b).all fun q =>
    rp9Rows q.1 == rp9Rows q.2 && rp9Cols q.1 == rp9Cols q.2 && rp9Anchor q.1 == rp9Anchor q.2

/-- The headers that count: of every member, or of ROOTM for a broadcast. -/
def collHdrs (r : List (BitVec 8)) (c : Coll) : List (List (BitVec 128)) :=
  if clFmt r ≠ 0 then []
  else if clOp r = 3 then (c.headers.filter (·.1 == clRoot r)).map (·.2.2)
  else c.headers.map (·.2.2)

/-- The header of output tile `t` (R445): the sum of the bounds, the OR of NANT. -/
def outHeader (hs : List (List (BitVec 128))) (t : Nat) : BitVec 128 :=
  let col := hs.map fun l => l.getD t 0
  let h := col.headD 0
  rp9Header ((col.map rp9Bound).foldl (· + ·) 0) (rp9Anchor h) (rp9Rows h) (rp9Cols h) (col.any rp9Nant)

/-- Some output bound exceeds M/2 - 1 (R445). -/
def hdrsOver (r : List (BitVec 8)) (hs : List (List (BitVec 128))) : Bool :=
  clFmt r == 0 && (List.range (clLen r)).any fun t =>
    decide (Config.maxBound < ((hs.map fun l => rp9Bound (l.getD t 0)).foldl (· + ·) 0))

/-- The elements of a tile of this COLL. -/
def collTile (r : List (BitVec 8)) (c : Coll) : Nat := (((collHdrs r c).headD []).head?.map hdrElems).getD 0

/-- What the comparison answers once every member has been heard (R445): a status that ends the COLL. -/
def collCompare (r : List (BitVec 8)) (n : Nat) (c : Coll) : Option Nat :=
  let f0 := (c.headers.head?.map (·.2.1)).getD []
  let hs := collHdrs r c
  if !(c.headers.all fun h => h.2.1 == f0) || !(hs.all fun h => hdrsMatch (hs.headD []) h && h.length == clLen r) then some 2
  else if n = 0 then none
  else if hdrsOver r hs then some 3 else none

/-- The members agree (R445): the data phase begins; a member that learns the shape only now takes its tokens, and releases what will
not be its output (R366, R470; log 44). -/
def collAgree (x : Domain) (c : Coll) (dom : Nat) (r : List (BitVec 8)) (ob : BitVec 256) (s : State) : State :=
  let s1 := s.modColl dom c.ix fun c => { c with agreed := true }
  if !(collLate x r) then s1
  else
    let n := collTile r c
    let cost := collCost r n
    let learn := fun (o : Op) =>
      { o with ownV := collOut r ob (clBytes r n) ++ o.ownV.drop (collMayOwn r ob).length
               body := match o.body with
                 | .coll dm ix va r ib ob bar _ _ => .coll dm ix va r ib ob bar cost (cost == 0)
                 | b => b }
    (s1.modCore c.core fun k => k.modOp c.op learn).seekTokens c.core 2

/-- Once every member has been heard, the COLL goes on or ends (R445); a broadcast member checks its output range (R444). -/
def collHeard (dom ix : Nat) (s : State) : Out :=
  let x := s.domain dom
  match x.coll? ix with
  | none => .next s
  | some c =>
    match s.collOp c with
    | none => .next s
    | some o =>
      match o.body with
      | .coll _ _ _ r _ ob .. =>
        if c.agreed || c.ended.isSome || c.stop.isSome || c.headers.length < x.n then .next s
        else
          match collCompare r x.n c with
          | some st => .next (s.collEnd dom ix st)
          | none =>
            if collLate x r ∧ brExtent ob < clOoff r + clBytes r (collTile r c) then collStop c.core o Cause.record s
            else .next (collAgree x c dom r ob s)
      | _ => .next s

/-- No COLL of the domain with a smaller number still waits to begin, and fewer than 8 are in flight (R445). -/
def State.collMayBegin (s : State) (dom ix : Nat) : Bool :=
  let x := s.domain dom
  decide (x.colls.length < 8) && (s.collOps dom).all fun q =>
    match q.2.body with
    | .coll _ i .. => decide (ix ≤ i) || (x.coll? i).isSome
    | _ => true

/-- This member's COLL begins: it reads its headers and sends what the members compare (R445). -/
def collBegin (dom ix : Nat) (s : State) : Out :=
  let x := s.domain dom
  match (s.collOps dom).find? fun q => match q.2.body with | .coll _ i .. => i == ix | _ => false with
  | none => .next s
  | some (d, o) =>
    match o.body with
    | .coll _ _ va r ib _ _ _ granted =>
      if !(x.en) || !granted || !(s.mayBegin d o) || x.dstate != 2 || x.round.isSome || (x.coll? ix).isSome ||
          !(s.collMayBegin dom ix) then .next s
      else
        let c0 := newColl d o ix
        match collHeaders d o r ib va x.self s with
        | .ok s1 hs =>
          let s2 := s1.setDomain dom { x with colls := x.colls ++ [{ c0 with headers := [(x.self, clFields r, hs)] }] }
          collHeard dom ix (s2.tell x x.self (.collHeader dom x.gen.toNat ix x.self (clFields r) hs))
        | .stop s1 c => collStop d o c (s1.setDomain dom { x with colls := x.colls ++ [c0] })
        | .miss s1 v p k => .next (if s1.aborting d then s1.stopWhere d o.id else s1.park d 2 o.id va v p k)
        | .wait s1 => .next s1
        | .bad => .fault .badPhysical
    | _ => .next s

/-- The fields and headers of another member (R445); they go on over tree 0. -/
def collHeaderIn (dom coll member : Nat) (fields : List Nat) (headers : List (BitVec 128)) (s : State) : Out :=
  let x := s.domain dom
  let s1 := s.tell x member (.collHeader dom x.gen.toNat coll member fields headers)
  match x.coll? coll with
  | some c =>
    if c.headers.any (·.1 == member) then .next s1
    else collHeard dom coll (s1.modColl dom coll fun c =>
      { c with headers := sortBy (·.1) (c.headers ++ [(member, fields, headers)]) })
  | none => .next s1

/-! ### Chunks (R446 to R448) -/

/-- The mark of a chunk (R448). -/
def Coll.mark (c : Coll) (k : Nat) : Nat := findD c.marks k 0

/-- Every residue of a plane is below its modulus (R447). -/
def planeOk (j n : Nat) (bs : List (BitVec 8)) : Bool :=
  let z := if j < 7 then 1 else 2
  (List.range n).all fun i => decide (leNat ((bs.drop (z * i)).take z) < Config.modulus j)

/-- One addition (R447), with the flags of F32. -/
def collAdd (r : List (BitVec 8)) (c : Nat) (a b : List (BitVec 8)) : List (BitVec 8) × W32 :=
  let z := if clFmt r ≠ 0 then 4 else if c % 9 < 7 then 1 else 2
  let el := fun (l : List (BitVec 8)) (i : Nat) => leNat ((l.drop (z * i)).take z)
  let one := fun (i : Nat) =>
    match clFmt r with
    | 0 => ((el a i + el b i) % Config.modulus (c % 9), (0 : W32))
    | 1 => ((el a i + el b i) % 2 ^ 32, 0)
    | _ => f32.add 0 (el a i) (el b i)
  let qs := (List.range (a.length / z)).map one
  (qs.flatMap fun q => leBytes z q.1, qs.foldl (fun f q => f ||| q.2) 0)

/-- What the chunk steps know of a COLL. -/
structure CollCtx where
  d : Nat
  o : Op
  dom : Nat
  ix : Nat
  va : BitVec 64
  r : List (BitVec 8)
  ib : BitVec 256
  ob : BitVec 256
  x : Domain
  c : Coll

/-- The COLL, where it is in its data phase: agreed, not ended, not parked, no round under way, and no marks to come. -/
def State.collCtx (s : State) (dom ix : Nat) : Option CollCtx :=
  let x := s.domain dom
  (x.coll? ix).bind fun c => (s.collOp c).bind fun o =>
    match o.body with
    | .coll _ _ va r ib ob _ _ granted =>
      if c.agreed && c.ended.isNone && c.stop.isNone && x.round.isNone && c.peerMarks.isEmpty && o.parked.isNone &&
          x.dstate == 2 && granted then
        some { d := c.core, o := o, dom := dom, ix := ix, va := va, r := r, ib := ib, ob := ob, x := x, c := c }
      else none
    | _ => none

def CollCtx.tree (k : CollCtx) (ch : Nat) : Nat := ch % max 1 k.x.t
/-- The root of a chunk's tree (R446). -/
def CollCtx.root (k : CollCtx) (ch : Nat) : Nat := k.tree ch % max 1 k.x.n
def CollCtx.isRoot (k : CollCtx) (ch : Nat) : Bool := k.root ch == k.x.self
def CollCtx.elems (k : CollCtx) : Nat := collTile k.r k.c
/-- This member takes the result of a chunk (R443). -/
def CollCtx.takes (k : CollCtx) (ch : Nat) : Bool := clOp k.r != 1 || ch % max 1 k.x.n == k.x.self
/-- Every lower chunk of the same tree is done (R446). -/
def CollCtx.inOrder (k : CollCtx) (ch : Nat) (lvl : Nat → Bool) : Bool :=
  (List.range (ch / max 1 k.x.t)).all fun q => lvl (k.tree ch + q * max 1 k.x.t)
/-- The way from a member to the root of a chunk's tree passes this member. -/
def CollCtx.onWay (k : CollCtx) (ch m : Nat) : Bool := (pathUp (k.x.tree (k.tree ch)) 64 m).contains k.x.self
/-- The part of a chunk has gone up from this member, or none does (R446). -/
def CollCtx.wentUp (k : CollCtx) (ch : Nat) : Bool :=
  k.c.mark ch != 0 || k.c.sentUp.contains ch || !(clAdds k.r || k.onWay ch (clSource k.r (max 1 k.x.n) ch))
/-- The result of a chunk has come down to this member, or none does (R446). -/
def CollCtx.cameDown (k : CollCtx) (ch : Nat) : Bool :=
  if k.takes ch then k.c.mark ch == 2
  else k.c.sentDown.contains ch || k.isRoot ch || !(k.onWay ch (ch % max 1 k.x.n))

/-- The bytes of VA that this member's output takes of a chunk, with the header and the padding of a tile beside plane 0 (R443,
R445). -/
def CollCtx.pieces (k : CollCtx) (ch : Nat) : List (Nat × Nat) :=
  let p := clFull k.r k.elems ch
  let at' := fun (o n : Nat) =>
    let a := (vaOf ((brBase k.ob).toInt + clOoff k.r + o)).toNat
    (a, a + n)
  let t := ch / 9 * clStride k.elems
  let body := 16 + 11 * k.elems
  if !(k.takes ch) then []
  else at' (if clOp k.r = 1 then clPacked k.r k.x.n ch else p.1) p.2 ::
    (if clFmt k.r = 0 ∧ ch % 9 = 0 then [at' t 16, at' (t + body) (clStride k.elems - body)] else [])

/-- Every byte of a line of VA that this COLL writes before its end has been written (R366, R448). -/
def CollCtx.lineDone (k : CollCtx) (c : Coll) (line : Nat) : Bool :=
  line != k.va.toNat / 128 &&
  (List.range (clChunks k.r)).all fun ch =>
    c.mark ch == 2 ||
      (((clMark k.r).toNat + ch) / 128 != line &&
        !((k.pieces ch).any fun p => decide (128 * line < p.2) && decide (p.1 < 128 * line + 128)))

/-- The lines of a chunk that are written are owned no longer (R366). -/
def collRelease (k : CollCtx) (ch : Nat) (s : State) : State :=
  let c := ((s.domain k.dom).coll? k.ix).getD k.c
  let lines := (((clMark k.r).toNat + ch) / 128) ::
    (k.pieces ch).flatMap fun p => (List.range ((p.2 + 127) / 128 - p.1 / 128)).map (p.1 / 128 + ·)
  let done := lines.eraseDups.filter (k.lineDone c)
  s.modCore k.d fun q => q.modOp k.o.id fun o => { o with ownV := done.foldl (fun l n => cutLine (128 * n) l) o.ownV }

/-- The next granule of the own input chunk after what has been read of it (R362, R366), with the residues of the whole checked
(R446, R447). -/
def collInput (k : CollCtx) (ch : Nat) (s : State) : Eng (List (BitVec 8)) :=
  let p := clFull k.r k.elems ch
  let off := if clOp k.r = 2 then clPacked k.r k.x.n ch else p.1
  let old := (find? k.c.inputs ch).getD []
  let at' := vaOf ((brBase k.ib).toInt + clIoff k.r + off + old.length)
  match engRead k.d 2 k.o k.va at' (min (16 - at'.toNat % 16) (p.2 - old.length)) s with
  | .ok s1 bs =>
    let all := old ++ bs
    if clFmt k.r = 0 ∧ p.2 ≤ all.length ∧ !(planeOk (ch % 9) k.elems all) then .stop s1 Cause.record else .ok s1 all
  | x => x

/-- This member has a part in a chunk: what it adds, or what it sources (R446). -/
def CollCtx.hasInput (k : CollCtx) (ch : Nat) : Bool := clAdds k.r || clSource k.r (max 1 k.x.n) ch == k.x.self
/-- The own input chunk, once all of it has been read. -/
def CollCtx.input? (k : CollCtx) (ch : Nat) : Option (List (BitVec 8)) :=
  (find? k.c.inputs ch).filter fun bs => bs.length == (clFull k.r k.elems ch).2
/-- Every own input chunk has been read: no element write of the COLL comes before that, so that it never reads what it wrote (R365;
log 72). -/
def CollCtx.haveInputs (k : CollCtx) : Bool :=
  (List.range (clChunks k.r)).all fun ch => !(k.hasInput ch) || (k.input? ch).isSome

/-- A mark is written (R448); with the last of their bytes, lines are released (R366). -/
def collMark (k : CollCtx) (ch m : Nat) (s : State) : Eng Unit :=
  (engWrite k.d 2 k.o k.va (clMark k.r + BitVec.ofNat 64 ch) [BitVec.ofNat 8 m] s).bind fun s1 _ =>
    let s2 := s1.modColl k.dom k.ix fun c => { c with marks := put c.marks ch m }
    .ok (if m = 2 then collRelease k ch s2 else s2) ()

/-- The bytes at a VA, cut at the granules of 16 bytes (R369). -/
def granulesOf (va : BitVec 64) (bs : List (BitVec 8)) : List (BitVec 64 × List (BitVec 8)) :=
  let first := va.toNat / 16
  let last := (va.toNat + bs.length - 1) / 16
  if bs.isEmpty then []
  else (List.range (last + 1 - first)).map fun i =>
    let lo := max va.toNat (16 * (first + i))
    let hi := min (va.toNat + bs.length) (16 * (first + i + 1))
    (BitVec.ofNat 64 lo, (bs.drop (lo - va.toNat)).take (hi - lo))

/-- What the result of a chunk writes: its bytes of the output, with the header and the padding of its tile beside plane 0 (R443,
R445). -/
def CollCtx.outputs (k : CollCtx) (ch : Nat) (bs : List (BitVec 8)) : List (BitVec 64 × List (BitVec 8)) :=
  let p := clFull k.r k.elems ch
  let base := (brBase k.ob).toInt + clOoff k.r
  let off := if clOp k.r = 1 then clPacked k.r k.x.n ch else p.1
  let extra : List (Int × List (BitVec 8)) :=
    if clFmt k.r = 0 ∧ ch % 9 = 0 then
      let t := ch / 9 * clStride k.elems
      let body := 16 + 11 * k.elems
      [(base + t, leBytes 16 (outHeader (collHdrs k.r k.c) (ch / 9)).toNat)] ++
        (if body < clStride k.elems then [(base + t + body, List.replicate (clStride k.elems - body) 0)] else [])
    else []
  (extra ++ [(base + off, bs)]).flatMap fun q => granulesOf (vaOf q.1) q.2

/-- The result of a chunk is here: its element writes follow (R362, R446). -/
def collResult (k : CollCtx) (ch : Nat) (bs : List (BitVec 8)) (s : State) : State :=
  s.modColl k.dom k.ix fun c => { c with writing := c.writing ++ [(ch, k.outputs ch bs, bs)] }

/-- The result of a chunk goes down from this member (R446): to each child, or for a reduce-scatter to the next member on
the way to its owner. -/
def collDown (k : CollCtx) (ch : Nat) (bs : List (BitVec 8)) (s : State) : State :=
  let t := k.tree ch
  let msg := LinkMsg.collChunk k.dom k.x.gen.toNat k.ix ch k.x.self false bs
  if clOp k.r = 1 then
    if k.takes ch then s
    else match k.x.towards t (ch % max 1 k.x.n) with
      | some m => s.sendTree k.x t m msg
      | none => s
  else (k.x.children t).foldl (fun s m => s.sendTree k.x t m msg) s

/-- A part goes up to the parent (R446). -/
def collUp (k : CollCtx) (ch : Nat) (bs : List (BitVec 8)) (s : State) : State :=
  match k.x.parent (k.tree ch) with
  | some m => s.sendTree k.x (k.tree ch) m (.collChunk k.dom k.x.gen.toNat k.ix ch k.x.self true bs)
  | none => s

/-- A step that writes the result of a chunk: one of its element writes, in any order, and after the last of them the mark 2, with
which the result goes on (R362, R446, R448). -/
def collWrite (k : CollCtx) (w : Nat × List (BitVec 64 × List (BitVec 8)) × List (BitVec 8)) (s : State) : Eng Unit :=
  let put := fun (f : List (BitVec 64 × List (BitVec 8)) → List (BitVec 64 × List (BitVec 8))) (s : State) =>
    s.modColl k.dom k.ix fun c => { c with writing := c.writing.map fun x => if x.1 = w.1 then (x.1, f x.2.1, x.2.2) else x }
  let i := Config.nextElement s.free % w.2.1.length
  match w.2.1[i]? with
  | some p =>
    (engWrite k.d 2 k.o k.va p.1 p.2 s).bind fun s1 _ => .ok (put (·.eraseIdx i) { s1 with free := s1.free + 1 }) ()
  | none =>
    (collMark k w.1 2 s).bind fun s1 _ =>
      .ok (collDown k w.1 w.2.2 (s1.modColl k.dom k.ix fun c => { c with writing := c.writing.filter fun x => x.1 != w.1 })) ()

/-- What this member has for a chunk on its way up: at the root it is the result, which mark 1 tells before it is written (R446,
R448). -/
def collUpward (k : CollCtx) (ch : Nat) (bs : List (BitVec 8)) (own : Bool) (s : State) : Eng Unit :=
  let done := fun (s : State) => s.modColl k.dom k.ix fun c => { c with sentUp := c.sentUp ++ [ch] }
  if k.isRoot ch then
    if k.takes ch then (collMark k ch 1 s).bind fun s1 _ => .ok (collResult k ch bs (done s1)) ()
    else (collMark k ch 2 s).bind fun s1 _ => .ok (collDown k ch bs (done s1)) ()
  else if !own then .ok (collUp k ch bs (done s)) ()
  else (collMark k ch (if k.takes ch then 1 else 2) s).bind fun s1 _ => .ok (collUp k ch bs (done s1)) ()

/-- A step that reads a granule of an own input chunk (R446). -/
def collRead (k : CollCtx) (ch : Nat) (s : State) : Eng Unit :=
  if !(k.hasInput ch) || (k.input? ch).isSome then .wait s
  else
    (collInput k ch s).bind fun s1 bs => .ok (s1.modColl k.dom k.ix fun c => { c with inputs := put c.inputs ch bs }) ()

/-- This member's own part of a chunk (R446): what it adds, or what it sources, once all of its input has been read. A root that has
formed a result and has not yet written it forms it again. -/
def collOwn (k : CollCtx) (ch : Nat) (s : State) : Eng Unit :=
  let kids := k.x.children (k.tree ch)
  let parts := kids.filterMap fun m => (k.c.partials.find? fun p => p.1 == ch && p.2.1 == m).map (·.2.2)
  let mine := if clAdds k.r then parts.length == kids.length else clSource k.r (max 1 k.x.n) ch == k.x.self
  if !k.haveInputs then collRead k ch s
  else if k.c.sentUp.contains ch || !(k.c.mark ch == 0 || k.isRoot ch && k.c.mark ch == 1) || !mine || !(k.inOrder ch k.wentUp) then
    .wait s
  else
    let r := parts.foldl (fun (acc : List (BitVec 8) × W32) p =>
      let a := collAdd k.r ch acc.1 p
      (a.1, acc.2 ||| a.2)) ((k.input? ch).getD [], 0)
    collUpward k ch r.1 true (if r.2 = 0 then s else s.raiseLate k.d k.o.slot k.o.lane r.2)

/-- A chunk message of another member (R446): a child's partial or a source's chunk on its way up, or a result on its way
down; one that cannot be taken yet waits. -/
def collArrive (k : CollCtx) (ch member : Nat) (up : Bool) (bs : List (BitVec 8)) (s : State) : Eng Unit :=
  let t := k.tree ch
  if bs.length ≠ (clFull k.r k.elems ch).2 then .ok s ()
  else if up then
    if !((k.x.children t).contains member) || (k.c.partials.any fun p => p.1 == ch && p.2.1 == member) then .ok s ()
    else if clAdds k.r then
      .ok (s.modColl k.dom k.ix fun c => { c with partials := c.partials ++ [(ch, member, bs)] }) ()
    else if k.c.sentUp.contains ch || k.c.mark ch == 2 then .ok s ()
    else if !k.haveInputs then .wait s
    else if !(k.inOrder ch k.wentUp) then .wait s
    else collUpward k ch bs false s
  else if k.x.parent t ≠ some member ∨ k.isRoot ch ∨ k.cameDown ch ∨ k.c.writing.any (·.1 == ch) then .ok s ()
  else if !k.haveInputs || !(k.inOrder ch k.cameDown) then .wait s
  else if k.takes ch then .ok (collResult k ch bs s) ()
  else .ok (collDown k ch bs (s.modColl k.dom k.ix fun c => { c with sentDown := c.sentDown ++ [ch] })) ()

/-- A message waits at this member. -/
def State.hold (s : State) (dom : Nat) (m : LinkMsg) : State :=
  let x := s.domain dom
  s.setDomain dom { x with early := x.early ++ [m] }

/-- A chunk message of another member reaches its COLL, or waits for it. -/
def collChunkIn (dom coll chunk member : Nat) (up : Bool) (data : List (BitVec 8)) (s : State) : Out :=
  let m := LinkMsg.collChunk dom (s.domain dom).gen.toNat coll chunk member up data
  match s.collCtx dom coll with
  | none =>
    .next (if ((s.domain dom).coll? coll).any fun c => c.ended.isSome || c.stop.isSome then s else s.hold dom m)
  | some k =>
    if clChunks k.r ≤ chunk then .next s
    else
      match collArrive k chunk member up data s with
      | .wait s1 => .next (s1.hold dom m)
      | .miss s1 v p q => .next (if s1.aborting k.d then s1.stopWhere k.d k.o.id else (s1.park k.d 2 k.o.id k.va v p q).hold dom m)
      | r => engStep k.d 2 k.o.id k.va r (fun s1 c => collStop k.d k.o c s1)

/-- This member's own part of a chunk as a step. -/
def collChunkOwn (dom coll chunk : Nat) (s : State) : Out :=
  match s.collCtx dom coll with
  | none => .next s
  | some k =>
    if clChunks k.r ≤ chunk then .next s
    else
      let r := match k.c.writing.find? (·.1 == chunk) with
        | some w => collWrite k w s
        | none => collOwn k chunk s
      engStep k.d 2 k.o.id k.va r (fun s1 c => collStop k.d k.o c s1)

/-! ### Marks, completion and stops (R449, R451, R452) -/

/-- Every mark of this member, in chunk order. -/
def collMarks (r : List (BitVec 8)) (c : Coll) : List Nat := (List.range (clChunks r)).map c.mark

/-- Chunks whose low mark is below 2 start again: their marks are 0 in memory and here; the others have come down (R449). -/
def collRedo (k : CollCtx) (low : Nat → Nat) (s : State) : Eng Unit :=
  let redo := (List.range (clChunks k.r)).filter fun ch => decide (low ch < 2)
  (redo.foldl (fun (acc : Eng Unit) ch =>
    acc.bind fun s1 _ => if k.c.mark ch = 0 then .ok s1 () else collMark k ch 0 s1) (.ok s ())).bind fun s1 _ =>
      .ok (s1.modColl k.dom k.ix fun c =>
        { c with marks := c.marks.filter fun m => !(redo.contains m.1), sentUp := c.sentUp.filter fun q => !(redo.contains q)
                 sentDown := (List.range (clChunks k.r)).filter fun ch => !(redo.contains ch)
                 partials := [], peerMarks := [] }) ()

/-- A COLL whose members exchange marks (R449). -/
def State.collMarking (s : State) (dom ix : Nat) : Option CollCtx :=
  let x := s.domain dom
  (x.coll? ix).bind fun c => (s.collOp c).bind fun o =>
    match o.body with
    | .coll _ _ va r ib ob .. =>
      if c.ended.isNone && c.stop.isNone && x.round.isNone && !(c.peerMarks.isEmpty) && o.parked.isNone then
        some { d := c.core, o := o, dom := dom, ix := ix, va := va, r := r, ib := ib, ob := ob, x := x, c := c }
      else none
    | _ => none

/-- Once every member's marks are known, the chunks with a low mark below 2 are redone (R449); a member whose marks are all 2 has
said so by its notice of completion (R451). -/
def collMarksHeard (dom ix : Nat) (s : State) : Out :=
  match s.collMarking dom ix with
  | none => .next s
  | some k =>
    if !((List.range k.x.n).all fun m => (k.c.peerMarks.any (·.1 == m)) || k.c.doneFrom.contains m) then .next s
    else
      let low := fun (ch : Nat) => k.c.peerMarks.foldl (fun m p => min m (p.2.getD ch 0)) 2
      engStep k.d 2 k.o.id k.va (collRedo k low s) (fun s1 c => collStop k.d k.o c s1)

/-- The marks of another member (R449); they go on over tree 0. -/
def collMarksIn (dom coll member : Nat) (marks : List Nat) (s : State) : Out :=
  let x := s.domain dom
  let take := fun (c : Coll) =>
    if c.peerMarks.isEmpty || (c.peerMarks.any (·.1 == member)) then c else { c with peerMarks := c.peerMarks ++ [(member, marks)] }
  collMarksHeard dom coll ((s.modColl dom coll take).tell x member (.marks dom x.gen.toNat coll member marks))

/-- The notice of another member that every chunk is marked 2 there (R451); it goes on over tree 0. -/
def collDoneIn (dom coll member : Nat) (s : State) : Out :=
  let x := s.domain dom
  let take := fun (c : Coll) => if c.doneFrom.contains member then c else { c with doneFrom := c.doneFrom ++ [member] }
  collMarksHeard dom coll ((s.modColl dom coll take).tell x member (.collDone dom x.gen.toNat coll member))

/-- The notice of another member that its COLL stopped (R452): this member's ends with ABORTED; the notice goes on over tree 0. -/
def collStoppedIn (dom coll member : Nat) (s : State) : Out :=
  let x := s.domain dom
  .next ((s.collEnd dom coll 4).tell x member (.stopped dom x.gen.toNat coll member))

/-! ### What the other members send (R439, R445, R449) -/

/-- What a member whose COLL has a status tells the others after a commit, so that they end too: its notice of completion, its
headers, or that it stopped (R449, R452). -/
def State.tellEnded (s : State) (x : Domain) (dom ix st : Nat) (own : List Nat × List (BitVec 128)) : State :=
  match st with
  | 0 => s.tell x x.self (.collDone dom x.gen.toNat ix x.self)
  | 2 | 3 => s.tell x x.self (.collHeader dom x.gen.toNat ix x.self own.1 own.2)
  | 4 | 5 => s.tell x x.self (.stopped dom x.gen.toNat ix x.self)
  | _ => s

/-- A message for a COLL that has ended here: it goes on, and marks, which a member sends that has not ended, are answered. -/
def pastMessage (x : Domain) (dom member : Nat) (m : LinkMsg) (p : Nat × Nat × List Nat × List (BitVec 128)) (s : State) : State :=
  match m with
  | .collChunk .. => s
  | .marks .. => (s.tell x member m).tellEnded x dom p.1 p.2.1 p.2.2
  | _ => s.tell x member m

/-- A message of generation `gen` for COLL `coll`, from another member (R439): an older one is discarded, and so is one that
arrives while a round runs; a newer one waits, and so does one for a COLL that has not begun here. -/
def collTake (dom gen coll member : Nat) (m : LinkMsg) (go : State → Out) (s : State) : Out :=
  let x := s.domain dom
  if !(x.en) || decide (gen < x.gen.toNat) || decide (x.n ≤ member) || member == x.self then .next s
  else if x.gen.toNat < gen then .next (s.hold dom m)
  else if x.round.isSome then .next s
  else
    match x.past.find? (·.1 == coll) with
    | some p => .next (pastMessage x dom member m p s)
    | none => if (x.coll? coll).isSome then go s else .next (s.hold dom m)

/-- A message of the collectives reaches this member. -/
def collMessage (m : LinkMsg) (s : State) : Out :=
  match m with
  | .collHeader dom gen coll member fields headers => collTake dom gen coll member m (collHeaderIn dom coll member fields headers) s
  | .collChunk dom gen coll chunk member up data => collTake dom gen coll member m (collChunkIn dom coll chunk member up data) s
  | .marks dom gen coll member marks => collTake dom gen coll member m (collMarksIn dom coll member marks) s
  | .collDone dom gen coll member => collTake dom gen coll member m (collDoneIn dom coll member) s
  | .stopped dom gen coll member => collTake dom gen coll member m (collStoppedIn dom coll member) s
  | _ => .next s

/-- The messages that wait at this member are tried, oldest first; what still has to wait, waits on. -/
def tryHeld (dom : Nat) (s : State) : Out :=
  let x := s.domain dom
  x.early.foldl (fun acc m =>
    match acc with
    | .next s1 => collMessage m s1
    | r => r) (.next (s.setDomain dom { x with early := [] }))

/-- After a step of a domain, the messages that waited for it are taken. -/
def serveHeld (dom : Nat) (r : Out) : Out :=
  match r with
  | .next s =>
    (List.range (s.domain dom).early.length).foldl (fun acc _ =>
      match acc with
      | .next s1 => tryHeld dom s1
      | r => r) (.next s)
  | r => r

/-- COLL_HEADER_EXCHANGE (R445): this member's own part, or the fields and headers of another member. -/
def execCollHeaderExchange (dom coll member : Nat) (fields : List Nat) (headers : List (BitVec 128)) (s : State) : Out :=
  let x := s.domain dom
  serveHeld dom
    (if member = x.self then collBegin dom coll s
    else collMessage (.collHeader dom x.gen.toNat coll member fields headers) s)

/-- COLL_CHUNK_MESSAGE (R446): this member's own part, or a message of another member. -/
def execCollChunkMessage (dom coll chunk member : Nat) (up : Bool) (data : List (BitVec 8)) (s : State) : Out :=
  let x := s.domain dom
  serveHeld dom
    (if member = x.self then collChunkOwn dom coll chunk s
    else collMessage (.collChunk dom x.gen.toNat coll chunk member up data) s)

/-- MARK_VECTOR_MESSAGE (R449): the marks of another member; this member's own index takes up an exchange that waited. -/
def execMarkVectorMessage (dom coll member : Nat) (marks : List Nat) (s : State) : Out :=
  let x := s.domain dom
  serveHeld dom
    (if member = x.self then collMarksHeard dom coll s else collMessage (.marks dom x.gen.toNat coll member marks) s)

/-- MEMBER_STOPPED (R452): this member's COLL ends with ABORTED. -/
def execMemberStopped (dom coll member : Nat) (s : State) : Out :=
  collMessage (.stopped dom (s.domain dom).gen.toNat coll member) s

/-- Once every chunk is marked 2 here, the other members are told; once all have told, the COLL ends with OK (R451). -/
def collRound (dom coll : Nat) (k : CollCtx) (s : State) : Out :=
  if !((collMarks k.r k.c).all (· == 2)) then .next s
  else
    let s1 := if k.c.doneSent then s
      else (s.modColl dom coll fun c => { c with doneSent := true, doneFrom := (c.doneFrom ++ [k.x.self]).eraseDups }).tell
        k.x k.x.self (.collDone dom k.x.gen.toNat coll k.x.self)
    let n := (((s1.domain dom).coll? coll).map (·.doneFrom.length)).getD 0
    if n < k.x.n then .next s1
    else engStep k.d 2 k.o.id k.va (collFinish k.d k.o (s1.collEnd dom coll 0)) (fun s2 _ => .next s2)

/-- COLL_COMPLETION_ROUND (R451, R452): the round over tree 0; a COLL with a status writes it and arrives. -/
def execCollCompletionRound (dom coll : Nat) (s : State) : Out :=
  match (s.domain dom).coll? coll with
  | none => .next s
  | some c =>
    match s.collOp c with
    | none => .next (s.dropColl dom coll 4)
    | some o =>
      match c.stop, o.body with
      | some cause, _ => collStop c.core o cause s
      | none, .coll _ _ va .. =>
        if o.parked.isSome then .next s
        else if c.ended.isSome then engStep c.core 2 o.id va (collFinish c.core o s) (fun s1 _ => .next s1)
        else
          match s.collCtx dom coll with
          | none => serveHeld dom (.next s)
          | some k => serveHeld dom (collRound dom coll k s)
      | none, _ => .next s

end Sys2Proof.Machine
end

