-- ==== Sys2Proof/Machine/Lanes.lean ====
section
/-! DEFINITION. The lanes of buffer accesses and remote scratchpad operations after their word has issued: landing,
performing, counting (13 R336 to R338, R344 to R348), and the commands of the atomic engines (13 R349, 15 R396,
R397). -/

namespace Sys2Proof.Machine

open Sys2Proof

/-- Take bytes out of owned scratchpad ranges (R366). -/
def cutSpan (d lo hi : Nat) (l : List Span) : List Span :=
  l.flatMap fun r =>
    if r.1 ≠ d ∨ r.2.2 ≤ lo ∨ hi ≤ r.2.1 then [r]
    else (if r.2.1 < lo then [(d, r.2.1, lo)] else []) ++ (if hi < r.2.2 then [(d, hi, r.2.2)] else [])

/-- An engine of core `d` writes bytes into a slot of its own scratchpad, and the operation owns them no longer (R344, R366,
R466). -/
def State.slotWrite (s : State) (d id off : Nat) (bs : List (BitVec 8)) : State :=
  let r := engineStore s d d off bs
  r.1.modCore d fun c => c.modOp id fun o =>
    { o with ownS := cutSpan d off (off + bs.length) o.ownS, clobber := o.clobber.or r.2 }

/-- Counts of one lane: `z` bytes fall from the barrier; a refusal is a deferred trap of the warp thread (R348). -/
def laneCount (d : Nat) (o : Op) (bar z : Nat) (s : State) : State := o.counts d bar false (-(z : Int)) s

/-- The operation takes a new body, and leaves flight once no lane is left; a deferred BARCLOBBER follows (R466). -/
def State.laneDone (s : State) (d : Nat) (o : Op) (body : OpBody) (last : Bool) : State :=
  if last then
    (s.endOp d o.id).deferClobber d o.slot o.lane o.id (((s.core d).op? o.id).bind (·.clobber))
  else s.modCore d fun c => c.modOp o.id fun o => { o with body := body }

/-! ### LDB -/

/-- The bytes of a lane, which is one event (R347): the value, an uncorrectable error, or a PEER line that has still to
arrive. -/
def readLane (s : State) (d : Nat) (o : Op) (z : Nat) (a : LaneAcc) : Got Nat :=
  match a.va, a.loc with
  | some _, some p =>
    match readLocs (s.who d o) (locParts p z) s with
    | .ok s1 bs => .ok s1 (leNat bs)
    | .err s1 e => .err s1 e
    | .wait s1 => .wait s1
  | _, _ => .ok s 0

/-- The lanes of a whole-line event are read together (R347). -/
def readAll (d : Nat) (o : Op) (z : Nat) : List LaneAcc → State → Got (List (Nat × BitVec 64))
  | [], s => .ok s []
  | a :: r, s =>
    match readLane s d o z a with
    | .ok s1 v =>
      match readAll d o z r s1 with
      | .ok s2 l => .ok s2 ((a.lane, BitVec.ofNat 64 v) :: l)
      | x => x
    | .err s1 e => .err s1 e
    | .wait s1 => .wait s1

/-- A lane of LDB lands: its slot bytes, then its count (R344, R348). -/
def landLane (d : Nat) (o : Op) (z slot bar lane v : Nat) (s : State) : State :=
  laneCount d o bar z (s.slotWrite d o.id (slot + z * lane) (leBytes z v))

/-- LDB_LANE_LAND (R344, R346 to R348); after an abort a lane waits for no peer that no port reaches (R429). -/
def execLdbLaneLand (d op lane : Nat) (s : State) : Out :=
  match (s.core d).op? op with
  | some o =>
    match o.body with
    | .bufLoad z slot bar whole read lanes =>
      match lanes.find? (·.lane == lane) with
      | none => .next s
      | some a =>
        let off := slot + z * lane
        if !(s.mayBegin d o) || s.ownedS d off (off + z) o.id then .next s
        else
          let rest := lanes.filter fun x => x.lane != lane
          let last := rest.isEmpty
          match read.find? (·.1 == lane) with
          | some q => .next ((landLane d o z slot bar lane q.2.toNat s).laneDone d o (.bufLoad z slot bar whole read rest) last)
          | none =>
            if whole then
              match readAll d o z lanes s with
              | .ok s1 l =>
                let v := ((l.find? (·.1 == lane)).map (·.2.toNat)).getD 0
                .next ((landLane d o z slot bar lane v s1).laneDone d o (.bufLoad z slot bar whole l rest) last)
              | .err s1 e => failed z slot bar whole read rest a o e s1
              | .wait s1 => .next s1
            else
              match readLane s d o z a with
              | .ok s1 v => .next ((landLane d o z slot bar lane v s1).laneDone d o (.bufLoad z slot bar whole read rest) last)
              | .err s1 e => failed z slot bar whole read rest a o e s1
              | .wait s1 =>
                .next (if a.loc.any fun p => s1.cutOff d [(p, z)] then s1.laneDone d o (.bufLoad z slot bar whole read rest) last else s1)
    | _ => .next s
  | none => .next s
where
  /-- A lane that meets an error after issue: a deferred trap of its thread, and nothing is counted (R346, R348). -/
  failed (z slot bar : Nat) (whole : Bool) (read : List (Nat × BitVec 64)) (rest : List LaneAcc) (a : LaneAcc) (o : Op)
      (e : XErr) (s : State) : Out :=
    let va := a.va.getD 0
    let s1 := if e = XErr.unc then (s.postFault 0x50 1 0 d o.slot (((s.core d).launch).getD 0) o.va va 0 0 none false).1 else s
    let s2 := s1.modCore d fun c => c.modOp o.id fun o =>
      { o with ownS := cutSpan d (slot + z * a.lane) (slot + z * a.lane + z) o.ownS }
    .next ((s2.defer d o.slot a.lane o.id e.cause va).laneDone d o (.bufLoad z slot bar whole read rest) rest.isEmpty)

/-! ### STB, ATB and CASB -/

/-- A lane that was performed places its old value and counts (R348). -/
def countLane (d : Nat) (o : Op) (z : Nat) (slot : Option Nat) (bar lane : Nat) (old : BitVec 64) (s : State) : State :=
  let s1 := match slot with
    | some sl => s.slotWrite d o.id (sl + z * lane) (leBytes z old.toNat)
    | none => s
  laneCount d o bar z s1

/-- The buffer word that a kind of held lane stands for. -/
def heldWord (kind opc : Nat) : BufWord :=
  { kind := match kind with | 0 => .store | 1 => .atomic | _ => .cas, opc := opc, ord := 0, facq := false, b := 0, s1 := 0
    d := 0, wx := 0 }

/-- A lane of a CASB that its engine held back (R346): W is that of its translation (R409); the walk of a write sets A and D where
the page is still there (R406). -/
def casHeld (w : Who) (z lane : Nat) (va : BitVec 64) (p : Loc) (a : LaneAcc) (s : State) : LaneOut :=
  match unitRefuses w p z lane s with
  | some c => { s := s, old := .error (c, true) }
  | none =>
    let old := BitVec.ofNat 64 (unitRead s p z)
    if !(casHit s p z a.cmp) then { s := s.pin p, old := .ok old }
    else if !a.wr then { s := s, old := .error (Cause.prot, true) }
    else
      { s := writeLoc w p (leBytes z a.data.toNat) ((translateOn s w.d w.root w.priv va .atomic).1.pin p), old := .ok old }

/-- A lane that its engine held back is performed (R333, R344): a compare acquires by its outcome. Its old value, where it counts. -/
def heldLane (d : Nat) (o : Op) (kind opc fmt z : Nat) (a : LaneAcc) (s : State) : State × Option (BitVec 64) :=
  match a.va, a.loc with
  | some va, some p =>
    let q := heldWord kind opc
    let w := { s.who d o with lane := a.lane }
    let acq := if kind = 2 then opc.testBit (if casHit s p z a.cmp then 0 else 1) else o.acq
    let r := if kind = 2 then casHeld w z a.lane va p a s else performLane w q fmt z a.lane va p a.data a.cmp s
    match r.old with
    | .ok old =>
      let s1 := if r.flags = 0 then r.s else r.s.raiseLate d o.slot a.lane r.flags
      (if acq then s1.acquire d o.slot a.lane else s1, some old)
    | .error (c, _) =>
      let s1 := if c = Cause.uncmem then
          (r.s.postFault 0x50 (bufAccessCode q.kind) 0 d o.slot (((r.s.core d).launch).getD 0) o.va va 0 0 none false).1
        else r.s
      (s1.defer d o.slot a.lane o.id c va, none)
  | _, _ => (s, some 0)

/-- The lanes that are performed together with a lane held back: all of them where they write one line (R347). -/
def heldTogether (kind z : Nat) (a : LaneAcc) (lanes : List LaneAcc) : List LaneAcc :=
  if kind = 0 ∧ wholeLine z lanes then lanes else [a]

/-- A lower lane of the same word is still held back in the engine of another warp (R325). -/
def Core.heldBelow (c : Core) (o : Op) (lane : Nat) : Bool :=
  c.ops.any fun x => x.id != o.id && x.word == o.word &&
    (match x.body with
     | .bufHeld _ _ _ _ _ _ lanes _ => lanes.any fun a => decide (a.lane < lane)
     | .atrmHeld _ _ _ _ lanes _ => lanes.any fun a => decide (a.1 < lane)
     | _ => false)

/-- A lane held back may be performed: what its threads asked for earlier and what their engines held back has been (R325), its line
has no earlier owner (R366); for .REL, but not of a compare that fails, earlier deferred transfers have performed their writes
(R333); a write to a peer follows the earlier ATQ commands (R371), and a byte that its thread wrote earlier has been taken (R325). -/
def heldReady (s : State) (d : Nat) (o : Op) (kind z : Nat) (a : LaneAcc) : Bool :=
  let c := s.core d
  !(c.hasHeld o.threads o.word) && !(c.heldBelow o a.lane) &&
  (match a.va, a.loc with
   | some va, some p =>
     (!o.rel || !(c.hasDeferred o.threads o.word) || kind == 2 && !(casHit s p z a.cmp)) &&
     !(p.own && s.ownedV (s.who d o).root va.toNat (va.toNat + z) o.id) &&
     !(p.ty == 3 && (c.hasUnsent o.threads o.id || s.ownWritesLeft d o.slot a.lane p z))
   | _, _ => true)

/-- The slot bytes of a lane belong to an earlier owner (R366). -/
def State.slotOwned (s : State) (d : Nat) (o : Op) (z : Nat) (slot : Option Nat) (lane : Nat) : Bool :=
  slot.any fun sl => s.ownedS d (sl + z * lane) (sl + z * lane + z) o.id

/-- BUFFER_LANE_PERFORM (R333, R344, R348): a lane that was performed counts once its peer has taken its bytes (R371) and its slot
is free (R366); lanes held back go in ascending order (R325, R347). -/
def execBufferLanePerform (d op lane : Nat) (s : State) : Out :=
  match (s.core d).op? op with
  | some o =>
    match o.body with
    | .bufCount z slot bar lanes =>
      match lanes.find? (·.1 == lane) with
      | none => .next s
      | some a =>
        if s.laneUnperformed d op lane || s.slotOwned d o z slot lane then .next s
        else
          let rest := lanes.filter fun x => x.1 != lane
          .next ((countLane d o z slot bar lane a.2 s).laneDone d o (.bufCount z slot bar rest) rest.isEmpty)
    | .bufHeld kind opc fmt z slot bar lanes done =>
      match lanes.find? (·.lane == lane), done.find? (·.1 == lane) with
      | some a, _ =>
        if !(heldReady s d o kind z a) || lanes.any (fun x => decide (x.lane < lane)) then .next s
        else
          let now := heldTogether kind z a lanes
          let r := now.foldl (fun (acc : State × List (Nat × BitVec 64)) x =>
            let q := heldLane d o kind opc fmt z x acc.1
            (q.1, acc.2 ++ (q.2.toList.map fun v => (x.lane, v)))) (s, done)
          let rest := lanes.filter fun x => !(now.any (·.lane == x.lane))
          .next (r.1.laneDone d o (.bufHeld kind opc fmt z slot bar rest r.2) (rest.isEmpty && r.2.isEmpty))
      | none, some v =>
        if s.laneUnperformed d op lane || s.slotOwned d o z slot lane then .next s
        else
          let left := done.filter fun x => x.1 != lane
          .next ((countLane d o z slot bar lane v.2 s).laneDone d o (.bufHeld kind opc fmt z slot bar lanes left)
            (lanes.isEmpty && left.isEmpty))
      | none, none => .next s
    | _ => .next s
  | none => .next s

/-! ### STRM, LDRM and ATRM -/

/-- A count for a lane of a remote operation: a refusal is a deferred trap of the lane's thread (R336). -/
def remoteCount (d : Nat) (o : Op) (bar lane z : Nat) (s : State) : State :=
  engineCount s d o.slot lane o.id (BitVec.ofNat 32 bar) false (-(z : Int))

/-- STRM_LANE_WRITE (R336). -/
def execStrmLaneWrite (d op lane : Nat) (s : State) : Out :=
  match (s.core d).op? op with
  | some o =>
    match o.body with
    | .strm z bar lanes =>
      if !(lanes.contains lane) then .next s
      else
        let rest := lanes.filter (· != lane)
        .next ((remoteCount d o bar lane z s).laneDone d o (.strm z bar rest) rest.isEmpty)
    | _ => .next s
  | none => .next s

/-- LDRM_GRANULE (R337): a granule lands and is counted; lines are read in ascending order, and an uncorrectable error completes the
command, with nothing written past the failing line (R311; log 30). -/
def execLdrmGranule (d op g : Nat) (s : State) : Out :=
  match (s.core d).op? op with
  | some o =>
    match o.body with
    | .ldrm srcCore src dst bar granules =>
      if !(granules.contains g) || granules.any (fun x => decide ((src + 16 * x) / 128 < (src + 16 * g) / 128)) ||
          !(s.mayBegin d o) || s.ownedS d (dst + 16 * g) (dst + 16 * g + 16) o.id then .next s
      else if (s.core srcCore).scrBad (src + 16 * g) 16 then
        let va := addrFor d srcCore (src + 16 * g)
        let s1 := laneCount d o bar (16 * granules.length) ((s.uncEngine d 1 1 va 0).endOp d op)
        .next ((s1.defer d o.slot o.lane op Cause.uncmem va).deferClobber d o.slot o.lane op o.clobber)
      else
        let bs := (s.core srcCore).scrRead (src + 16 * g) 16
        let rest := granules.filter (· != g)
        .next ((laneCount d o bar 16 (s.slotWrite d op (dst + 16 * g) bs)).laneDone d o (.ldrm srcCore src dst bar rest)
          rest.isEmpty)
    | _ => .next s
  | none => .next s

/-- A lane of ATRM that was performed places its old value and counts; a refusal is a deferred trap of the lane's thread (R336,
R338). -/
def atrmCount (d : Nat) (o : Op) (slot bar lane : Nat) (old : BitVec 32) (s : State) : State :=
  remoteCount d o bar lane 4 (s.slotWrite d o.id (slot + 4 * lane) (leBytes 4 old.toNat))

/-- A lane of ATRM that its engine held back is performed (R333, R338). Its old value, where it counts. -/
def atrmLane (d : Nat) (o : Op) (opc : Nat) (u : Bool) (a : Nat × Nat × BitVec 32) (s : State) : State × Option (BitVec 32) :=
  let addr := BitVec.ofNat 32 a.2.1
  let core := scrCore d addr
  let off := scrOff addr
  if (s.core core).scrBad off 4 then
    (((s.postFault 0x50 4 0 d o.slot (((s.core d).launch).getD 0) o.va (addr.zeroExtend 64) 0 0 none false).1).defer
      d o.slot a.1 o.id Cause.uncmem (addr.zeroExtend 64), none)
  else
    match storeTrap s addr core off 4 with
    | some t => (s.defer d o.slot a.1 o.id t.1 t.2, none)
    | none =>
      let old := s.word core off
      let r := atomOp opc u old a.2.2
      let s1 := (s.plainStore core off (leBytes 4 r.1.toNat)).raiseLate d o.slot a.1 r.2
      (if o.acq then s1.acquire d o.slot a.1 else s1, some old)

/-- A lane of ATRM held back may be performed (R325, R333, R366). -/
def atrmReady (s : State) (d : Nat) (o : Op) (a : Nat × Nat × BitVec 32) : Bool :=
  let addr := BitVec.ofNat 32 a.2.1
  let c := s.core d
  !(c.hasDeferred o.threads o.word) && !(c.hasHeld o.threads o.word) && !(c.heldBelow o a.1) &&
  !(s.ownedS (scrCore d addr) (scrOff addr) (scrOff addr + 4) o.id)

/-- ATRM_LANE_APPLY (R338): a lane held back is performed; the old value of one that was performed goes into the slot once that is
free (R366), and the lane is counted. -/
def execAtrmLaneApply (d op lane : Nat) (s : State) : Out :=
  match (s.core d).op? op with
  | some o =>
    match o.body with
    | .atrm slot bar lanes =>
      match lanes.find? (·.1 == lane) with
      | none => .next s
      | some a =>
        if s.slotOwned d o 4 (some slot) lane then .next s
        else
          let rest := lanes.filter fun x => x.1 != lane
          .next ((atrmCount d o slot bar lane a.2 s).laneDone d o (.atrm slot bar rest) rest.isEmpty)
    | .atrmHeld opc u slot bar lanes done =>
      match lanes.find? (·.1 == lane), done.find? (·.1 == lane) with
      | some a, _ =>
        if !(atrmReady s d o a) || lanes.any (fun x => decide (x.1 < lane)) then .next s
        else
          let r := atrmLane d o opc u a s
          let rest := lanes.filter fun x => x.1 != lane
          let left := done ++ r.2.toList.map fun v => (lane, v)
          .next (r.1.laneDone d o (.atrmHeld opc u slot bar rest left) (rest.isEmpty && left.isEmpty))
      | none, some v =>
        if s.slotOwned d o 4 (some slot) lane then .next s
        else
          let left := done.filter fun x => x.1 != lane
          .next ((atrmCount d o slot bar lane v.2 s).laneDone d o (.atrmHeld opc u slot bar lanes left)
            (lanes.isEmpty && left.isEmpty))
      | none, none => .next s
    | _ => .next s
  | none => .next s

/-! ### The atomic engines -/

/-- An ATQ command (R396). -/
def atqCommand (tag : Nat) (bar slot : Nat) (operand : BitVec 32) (pa lane core srcdev fmt ord opc : Nat) : BitVec 256 :=
  BitVec.ofNat 32 tag ++ BitVec.ofNat 32 bar ++ BitVec.ofNat 32 slot ++ operand ++ BitVec.ofNat 64 pa ++ 0#18 ++
    BitVec.ofNat 5 lane ++ BitVec.ofNat 9 core ++ 0#10 ++ BitVec.ofNat 6 srcdev ++ 0#4 ++ BitVec.ofNat 2 fmt ++
    BitVec.ofNat 2 ord ++ BitVec.ofNat 8 opc

/-- The tag of a command (R396). -/
def atqTag (cmd : BitVec 256) : Nat := natBits cmd.toNat 255 224

/-- An ATQ with new lanes; one that has no lane left ends. -/
def atqDrop (d : Nat) (o : Op) (opc fmt ord slot bar : Nat) (rest : List LaneAcc) (sent : List (Nat × LaneAcc))
    (parks : List (Nat × BitVec 32)) (s : State) : State :=
  s.laneDone d o (.atq opc fmt ord slot bar rest sent parks) (rest.isEmpty && sent.isEmpty)

/-- A credit for the command queue of a core at a target device is free (R396): fewer than 256 of its commands there are
unanswered. -/
def State.atqCredit (s : State) (d peer : Nat) : Bool :=
  decide ((s.fab.tags.filter fun t => t.2.1 % 64 == d % 64 && t.2.2.2 == peer).length < 256)

/-- Earlier commands of the threads come first: those of an earlier ATQ towards the same peer, or whose peer is not yet known (R371),
and of this ATQ a lower lane at the same address (R347). -/
def atqAfter (s : State) (d : Nat) (o : Op) (lane peer : Nat) (va : BitVec 64) (tosend : List LaneAcc) : Bool :=
  let before := fun (a : LaneAcc) => match a.loc with | some p => p.peer == peer | none => a.va.isSome
  tosend.any (fun a => decide (a.lane < lane) && a.va == some va) ||
  (s.core d).ops.any fun x => x.id < o.id && x.threads.any o.threads.contains &&
    (match x.body with | .atq _ _ _ _ _ l _ _ => l.any before | _ => false)

/-- The command of a lane whose place is known leaves for the peer (R349, R396). -/
def atqGo (d : Nat) (o : Op) (opc fmt ord slot bar : Nat) (a : LaneAcc) (p : Loc) (rest : List LaneAcc)
    (sent : List (Nat × LaneAcc)) (parks : List (Nat × BitVec 32)) (s : State) : State :=
  let tag := s.fab.nextTag
  let cmd := atqCommand tag bar (slot + 4 * a.lane) (lo32 a.data) p.pa a.lane d (s.domain 0).self fmt ord opc
  let s1 := { s with fab := { s.fab with nextTag := (tag + 1) % 2 ^ 32, tags := s.fab.tags ++ [(tag, d, o.id, p.peer)] } }
  (s1.modCore d fun c => c.modOp o.id fun o =>
    { o with body := .atq opc fmt ord slot bar rest (sent ++ [(tag, a)]) parks }).sendPeer
    { launch := ((s.core d).launch).getD 0, op := o.id, lane := a.lane, peer := p.peer, pport := false, msg := .atqCommand (d % 64) cmd }

/-- The place of a lane, once translated, is kept (R409). -/
def keepLoc (lane : Nat) (p : Loc) (l : List LaneAcc) : List LaneAcc :=
  l.map fun a => if a.lane = lane then { a with loc := some p } else a

/-- A lane whose page is missing parks with the other lanes on it (R349, R411); after an abort it is dropped (R146). -/
def atqMiss (d : Nat) (o : Op) (opc fmt ord slot bar : Nat) (va : BitVec 64) (ptepa : Nat) (tosend rest : List LaneAcc)
    (sent : List (Nat × LaneAcc)) (parks : List (Nat × BitVec 32)) (s : State) : State :=
  if s.aborting d then atqDrop d o opc fmt ord slot bar rest sent parks s
  else
    let r := s.postFault 0x60 4 3 d 0xFF (((s.core d).launch).getD 0) va va 0 (BitVec.ofNat 64 ptepa) (some o.id) true
    r.1.modCore d fun c => c.modOp o.id fun o =>
      { o with body := .atq opc fmt ord slot bar tosend sent (parks ++ [(va.toNat / 65536, r.2)]) }

/-- ATQ_SEND (R346, R349, R371, R396): the engine translates a lane and sends its command. -/
def execAtqSend (d op lane : Nat) (s : State) : Out :=
  match (s.core d).op? op with
  | some o =>
    match o.body with
    | .atq opc fmt ord slot bar tosend sent parks =>
      match tosend.find? (·.lane == lane) with
      | none => .next s
      | some a =>
        let rest := tosend.filter fun x => x.lane != lane
        let drop := fun (s : State) => atqDrop d o opc fmt ord slot bar rest sent parks s
        if (s.core d).acqBlocks o.threads op || (s.core d).hasHeld o.threads op ||
            (o.rel && (s.core d).hasDeferred o.threads op) || s.ownedS d (slot + 4 * lane) (slot + 4 * lane + 4) op then .next s
        else
          match a.va with
          | none => .next (drop (countLane d o 4 (some slot) bar lane 0 s))
          | some va =>
            if parks.any (·.1 == va.toNat / 65536) then .next s
            else
              let w := s.who d o
              let r := match a.loc with
                | some p => (s, Except.ok p)
                | none =>
                  match translateOn s d w.root w.priv va .atomic with
                  | (s1, .ok p) => (s1, .ok p.loc)
                  | (s1, .error e) => (s1, .error e)
              match r with
              | (_, .error .bad) => .fault .badPhysical
              | (s1, .error (.miss p)) => .next (atqMiss d o opc fmt ord slot bar va p tosend rest sent parks s1)
              | (s1, .error e) =>
                let s2 := if e = XErr.unc then s1.uncEngine d 3 4 va va else s1
                .next (drop (s2.defer d o.slot lane op e.cause va))
              | (s1, .ok p) =>
                if p.ty ≠ 3 ∨ p.pport ∨ !(s1.peerOk p.peer false) then .next (drop (s1.defer d o.slot lane op Cause.prot va))
                else if s1.aborting d && (!(s1.atqCredit d p.peer) || (s1.route p.peer false).isNone) then .next (drop s1)
                else if atqAfter s1 d o lane p.peer va tosend || !(s1.atqCredit d p.peer) || !(s1.peerReady p) then
                  .next (s1.modCore d fun c => c.modOp op fun o =>
                    { o with body := .atq opc fmt ord slot bar (keepLoc lane p tosend) sent parks })
                else .next (atqGo d o opc fmt ord slot bar { a with loc := some p } p rest sent parks s1)
    | _ => .next s
  | none => .next s

/-- A place of this device's own memory by its physical address (R306). -/
def devLoc (pa : Nat) : Loc := { ty := if inHbm pa then 0 else 1, pa := pa, peer := 0, pport := false }

/-- The target's part of a command (R331, R397): state, status and old value. R396 and R397 name no status for nonzero reserved bits,
for an OP above 7 or for FMT 3: the model reads OP modulo 8, takes every FMT but 1 as signed, and ignores the rest (DESIGN CHOICE,
log 45); nor do they say which status meets a PA outside R306 or no multiple of 4, where the model answers ADDRFORM, or whether a PA
in an arcade is applied, which the model does (DESIGN CHOICE, log 63). -/
def atqEffect (cmd : BitVec 256) (s : State) : State × Nat × BitVec 32 :=
  let pa := natBits cmd.toNat 127 64
  if !(devValid pa) || pa % 4 != 0 then (s, 0x13, 0)
  else
    let s0 := s.meet pa 4
    if s0.devBad pa 4 then
      ((s0.postFault 0x50 4 3 0 0xFF 0 0 (BitVec.ofNat 64 pa) 0 0 none false).1, 0x50, 0)
    else
      let old := BitVec.ofNat 32 (leNat (s0.devRead pa 4))
      let r := atomOp (natBits cmd.toNat 7 0 % 8) (natBits cmd.toNat 11 10 == 1) old (BitVec.ofNat 32 (natBits cmd.toNat 159 128))
      ((s0.pin (devLoc pa)).devWrite pa (leBytes 4 r.1.toNat), 0, old)

/-- The first message that waits on a port. -/
def State.firstIn (s : State) (port : Nat) : Option LinkMsg := (s.fab.inbox.find? (·.1 == port)).map (·.2)
/-- The first message of a port leaves the inbox. -/
def State.popIn (s : State) (port : Nat) : State :=
  { s with fab := { s.fab with inbox := s.fab.inbox.eraseP (·.1 == port) } }

/-- The message is a command for an atomic queue. -/
def forQueue (queue : Nat) : LinkMsg → Bool
  | .atqCommand q _ => q == queue
  | _ => false

/-- ATQ_APPLY (R349, R371, R397): the oldest command of a queue is applied once it stands first on its port, and the reply
leaves on that port. -/
def execAtqApply (queue : Nat) (s : State) : Out :=
  match s.fab.inbox.find? fun m => forQueue queue m.2 with
  | some (port, .atqCommand q cmd) =>
    if s.firstIn port = some (.atqCommand q cmd) then
      let r := atqEffect cmd (s.popIn port)
      .next (r.1.sendOn port (.atqReply (natBits cmd.toNat 255 224) r.2.1 r.2.2))
    else .next s
  | _ => .next s

/-- A reply reaches this requester (R397, R348): the flags of FADD are those of the old value and the operand (R344). -/
def State.atqAnswer (s : State) (tag status : Nat) (old : BitVec 32) : State :=
  match s.fab.tags.find? (·.1 == tag) with
  | none => s
  | some (_, d, op, _) =>
    let s1 := { s with fab := { s.fab with tags := s.fab.tags.eraseP (·.1 == tag) } }
    match (s1.core d).op? op with
    | some o =>
      match o.body with
      | .atq opc fmt ord slot bar tosend sent parks =>
        match sent.find? (·.1 == tag) with
        | none => s1
        | some (_, a) =>
          let s2 := countLane d o 4 (some slot) bar a.lane (if status = 0 then old.zeroExtend 64 else 0) s1
          let fl := (atomOp opc (fmt == 1) old (lo32 a.data)).2
          let s3 := if status = 0 then
              (let s2 := if fl = 0 then s2 else s2.raiseLate d o.slot a.lane fl
               if o.acq then s2.acquire d o.slot a.lane else s2)
            else s2.defer d o.slot o.lane op status (a.va.getD 0)
          atqDrop d o opc fmt ord slot bar tosend (sent.filter fun x => x.1 != tag) parks s3
      | _ => s1
    | none => s1

/-- ATQ_REPLY (R397). -/
def execAtqReply (tag : Nat) (status : Nat) (old : BitVec 32) (s : State) : Out := .next (s.atqAnswer tag status old)

end Sys2Proof.Machine
end

