-- ==== Sys2Proof/Machine/Links.lean ====
section
/-! DEFINITION. UALink ports (17 R428 to R435), domains and agreement rounds (R436 to R440, R449), PEER reads and writes as
their home (14 R371), leases and the migration of lines (12 R308, 14 R370). -/

namespace Sys2Proof.Machine

open Sys2Proof

/-! ### Ports -/

/-- A millisecond in cycles (R432). -/
def msCycles : Nat := 1050000

/-- PEERM of every row: the member index of the peer in domain 0 (R434). -/
def State.refreshPeers (s : State) : State :=
  let x := s.domain 0
  { s with fab := { s.fab with links := s.fab.links.map fun l =>
      let r := l.2.row
      let m := if x.en then (List.range x.n).find? fun m => rowPeerId r == x.member m && rowPeerId r != 0 else none
      (l.1, { l.2 with row := mkRow (rowState r) (rowRate r) (rowPeerPort r) (m.getD 0x3F) (rowReplays r) (rowRetrains r) (rowPeerId r) }) } }

/-- Held flits enter the replay buffer while there is room and the port does not retrain (R431, R432). -/
def Link.flush (l : Link) : Link :=
  if l.retraining.isSome then l
  else
    let n := 256 - l.replay.length
    { l with replay := l.replay ++ l.held.take n, held := l.held.drop n }

/-- The port carries a live edge of the domain (R438). -/
def State.carries (s : State) (x : Domain) (p : Nat) : Bool :=
  x.live.any fun e => (e.1 == x.self || e.2.1 == x.self) && s.edgePort x e == p

/-- What a port that goes down means for the domains (R439): a round restarts, or a lost live edge starts one. -/
def State.portLost (s : State) (p : Nat) (before : State) : State :=
  (List.range 8).foldl (fun s d =>
    let x := s.domain d
    if x.en && (x.round.isSome || before.carries x p) then s.agreeStart d else s) s

/-- What a port that comes up means for the domains (R439). -/
def State.portFound (s : State) : State :=
  (List.range 8).foldl (fun s d =>
    let x := s.domain d
    if !(x.en) then s
    else if x.round.isSome || !(s.collBusy d) then s.agreeStart d
    else s.setDomain d { x with wanted := true }) s

/-- The traffic of this device's launches that a port took and its peer has not acknowledged waits at the requester again, in its
order, before what waits there already (R349, R429; log 70). -/
def State.takeBack (s : State) (p : Nat) : State :=
  let mine := (s.fab.sent.filter (·.1 == p)).map (·.2)
  let l := s.link p
  let l1 := mine.foldl (fun (l : Link) o =>
    if l.replay.contains o.msg then { l with replay := l.replay.erase o.msg } else { l with held := l.held.erase o.msg }) l
  let s1 := s.setLink p l1
  { s1 with fab := { s1.fab with sent := s1.fab.sent.filter (·.1 != p), outbox := mine ++ s1.fab.outbox } }

/-- A port goes down (R432): the traffic of its peers goes by another port that reaches them, or waits (R429). -/
def State.portDown (s : State) (p : Nat) : State :=
  let l := s.link p
  let r := l.row
  (((s.setLink p { l with
    row := mkRow 0 (rowRate r) (rowPeerPort r) (natBits r.toNat 39 34) (rowReplays r) (rowRetrains r) (rowPeerId r)
    retraining := none, lower := false }).takeBack p).drainOutbox).portLost p s

/-- A port comes up at a rate, with the peer that training found (R432, R434). -/
def State.portUp (s : State) (p rate : Nat) (peerId : BitVec 32) (peerPort state : Nat) : State :=
  let l := s.link p
  let r := l.row
  let l1 := { l with row := mkRow state rate peerPort 0x3F (rowReplays r) (rowRetrains r) peerId, retraining := none, lower := false, ackAt := s.clock }
  ((s.setLink p l1.flush).refreshPeers.drainOutbox).portFound

/-- A port begins to retrain; RETRAINS saturates (R432, R434). -/
def State.retrain (s : State) (p : Nat) (lower : Bool) : State :=
  let l := s.link p
  let r := l.row
  s.setLink p { l with
    row := mkRow (rowState r) (rowRate r) (rowPeerPort r) (natBits r.toNat 39 34) (rowReplays r) (satAdd (rowRetrains r) 1 255) (rowPeerId r)
    retraining := some s.clock, lower := lower, replayTimes := [] }

/-- REPLAY_LIMIT (R432): 32 replays within a millisecond. -/
def execReplayLimit (port : Nat) (s : State) : Out :=
  let l := s.link port
  if (l.replayTimes.filter fun t => decide (s.clock < t + msCycles)).length < 32 ∨ !(rowUp l.row) ∨ l.retraining.isSome then .next s
  else if rowRate l.row < 2 ∧ rowPeerId l.row ≠ 0 then .next (s.retrain port true)
  else .next (s.portDown port)

/-- RETRAIN_LOCK (R430, R432): a port that retrains, within 10 ms, or that is down, has locked. -/
def execRetrainLock (port : Nat) (rate : Nat) (peerId : BitVec 32) (peerPort : Nat) (s : State) : Out :=
  let l := s.link port
  if 16 ≤ port ∨ (l.retraining.isNone ∧ rowState l.row ≠ 0) ∨ l.retraining.any (fun t => decide (t + 10 * msCycles ≤ s.clock)) then
    .next s
  else if l.lower then .next (s.portUp port (rowRate l.row + 1) (rowPeerId l.row) (rowPeerPort l.row) 2)
  else if 2 < rate ∨ 16 ≤ peerPort ∨ (rate ≠ 0 ∧ peerId = 0) then .next s
  else .next (s.portUp port rate peerId peerPort (if rate = 0 then 1 else 2))

/-- RETRAIN_TIMEOUT (R432): 10 ms have passed. -/
def execRetrainTimeout (port : Nat) (s : State) : Out :=
  match (s.link port).retraining with
  | some t => .next (if t + 10 * msCycles ≤ s.clock then s.portDown port else s)
  | none => .next s

/-- LOSS_OF_SIGNAL (R432). -/
def execLossOfSignal (port : Nat) (s : State) : Out :=
  .next (if rowUp (s.link port).row then s.portDown port else s)

/-- ACK_TIMEOUT (R432): the peer owes acknowledgements and has made none for 1 ms. -/
def execAckTimeout (port : Nat) (s : State) : Out :=
  let l := s.link port
  .next (if rowUp l.row && l.retraining.isNone && !(l.replay.isEmpty) && decide (l.ackAt + msCycles ≤ s.clock) then s.portDown port else s)

/-- MANAGEMENT_RETRAIN (R432). -/
def execManagementRetrain (port : Nat) (s : State) : Out :=
  .next (if port < 16 ∧ (s.link port).retraining.isNone then s.retrain port false else s)

/-- LINK_CLR (R434). -/
def execLinkClr (p : Nat) (s : State) : Out :=
  let l := s.link p
  let r := l.row
  .next (if p < 16 then
      s.setLink p { l with row := mkRow (rowState r) (rowRate r) (rowPeerPort r) (natBits r.toNat 39 34) 0 0 (rowPeerId r) }
    else s)

/-- Bytes of a COPY's destination have landed at a peer: they are counted on its barrier (R357, R365). -/
def State.landed (s : State) (o : OutMsg) : State :=
  match o.msg, s.cores.find? fun c => some o.launch == c.2.launch && c.2.ops.any (·.id == o.op) with
  | .peerWrite _ bs, some (d, c) =>
    match c.op? o.op with
    | some x =>
      match x.body with
      | .copy cmd _ _ =>
        x.counts d (cpBar cmd.record).toNat false (-(bs.length : Int))
          (s.modCmd d x.id fun cmd => { cmd with owed := cmd.owed - bs.length })
      | _ => s
    | none => s
  | _, _ => s

/-- The peer of a port has taken a flit: the first PEER write of its kind among those that are not performed is performed (R371;
log 43). -/
def State.peerTook (s : State) (m : LinkMsg) : State :=
  let s1 :=
    match s.fab.unperformed.find? (·.msg == m) with
    | some o => { s with fab := { s.fab with unperformed := s.fab.unperformed.eraseP (·.msg == m) } }.landed o
    | none => s
  s1

/-- Acknowledged flits of a port: their traffic is the requester's no longer, and the PEER writes among them are performed. -/
def State.performed (s : State) (p : Nat) (ms : List LinkMsg) : State :=
  ms.foldl (fun s m =>
    { s with fab := { s.fab with sent := s.fab.sent.eraseP fun q => q.1 == p && q.2.msg == m } }.peerTook m) s

/-- FLIT_ACK (R431): the oldest flits leave the replay buffer, and held ones follow. -/
def execFlitAck (port n : Nat) (s : State) : Out :=
  let l := s.link port
  let l1 := { l with replay := l.replay.drop n, ackAt := if n = 0 then l.ackAt else s.clock }
  .next ((s.setLink port l1.flush).performed port (l.replay.take n))

/-! ### Agreement -/

/-- The report of a member, made in a round from generation `gen` that has restarted `attempt` times (R439): it begins a round where
none is under way, and restarts one that is from an earlier generation or has restarted less; a report of a later round than this is
taken, and every report that this member has goes on to the ports that are up, so that a member that restarted hears them all
(log 46). -/
def State.reportIn (s : State) (dom member gen attempt : Nat) (rows : List (BitVec 128)) : State :=
  let x0 := s.domain dom
  let newer := decide (x0.base.toNat < gen) || (decide (x0.base.toNat = gen) && decide (x0.attempt < attempt))
  let s0 := if x0.round.isNone || newer then s.agreeFrom dom (BitVec.ofNat 32 gen) attempt else s
  let x := s0.domain dom
  if x.base.toNat ≠ gen ∨ x.attempt ≠ attempt ∨ x.n ≤ member ∨ member = x.self ∨
      x.reports.any (fun r => r.1 == member && r.2 == rows) then s0
  else
    let again := x.reports.any (·.1 == member)
    let x1 := { x with reports := insertBy (·.1) (member, rows) (x.reports.filter fun r => r.1 != member)
                       round := if again then some s0.clock else x.round }
    x1.reports.foldl (fun s r => s.flood (.report dom gen attempt r.1 r.2)) (s0.setDomain dom x1)

/-- A report in a round from the generation before this one: where that round has restarted since this member committed it, the
members of it hold another table, and a new agreement begins (R439; log 46). -/
def State.lateReport (s : State) (dom gen attempt : Nat) : State :=
  let x := s.domain dom
  if gen + 1 = x.gen.toNat ∧ x.round.isNone ∧ x.base.toNat = gen ∧ x.attempt < attempt then s.agreeStart dom else s

/-- AGREEMENT_REPORT (R439). -/
def execAgreementReport (dom member : Nat) (rows : List (BitVec 128)) (s : State) : Out :=
  let x := s.domain dom
  .next (if x.en then s.reportIn dom member (if x.round.isSome then x.base else x.gen).toNat (if x.round.isSome then x.attempt else 0) rows else s)

/-- AGREEMENT_REPORT_TIMEOUT (R439): members not heard within 1 ms report no ports. -/
def execAgreementReportTimeout (dom : Nat) (s : State) : Out :=
  let x := s.domain dom
  match x.round with
  | some t =>
    if s.clock < t + msCycles then .next s
    else
      let rest := (List.range x.n).filter fun m => !(x.reports.any (·.1 == m))
      .next (s.setDomain dom { x with reports := sortBy (·.1) (x.reports ++ rest.map fun m => (m, [])) })
  | none => .next s

/-- After a commit with a spanning tree set, every COLL in flight repeats its headers and sends its marks, and where its members had
agreed, waits for theirs; one that has a status says so (R449, R452). -/
def resumeColl (dom : Nat) (s : State) (c : Coll) : State :=
  let x := s.domain dom
  let own := ((c.headers.find? (·.1 == x.self)).map (·.2)).getD ([], [])
  match c.ended, s.collOp c with
  | some st, _ => s.tellEnded x dom c.ix st own
  | none, some o =>
    match o.body with
    | .coll _ _ _ r .. =>
      if c.stop.isSome then s
      else
        let marks := collMarks r c
        let s1 := if c.agreed then s.modColl dom c.ix fun c => { c with peerMarks := [(x.self, marks)] } else s
        (s1.tell x x.self (.collHeader dom x.gen.toNat c.ix x.self own.1 own.2)).tell x x.self
          (.marks dom x.gen.toNat c.ix x.self marks)
    | _ => s
  | none, none => s

/-- Every COLL in flight goes on after a commit (R449). -/
def State.resumeColls (s : State) (dom : Nat) : State := (s.domain dom).colls.foldl (resumeColl dom) s

/-- AGREEMENT_COMMIT (R438 to R440, R449): every member has been heard, or is taken to report no ports. -/
def execAgreementCommit (dom : Nat) (s : State) : Out :=
  let x := s.domain dom
  if !(x.en) || x.round.isNone || decide (x.reports.length < x.n) then .next s
  else
    let rows := fun m => ((x.reports.find? (·.1 == m)).map (·.2)).getD []
    let live := liveEdges x rows
    let trees := deriveTrees x.n live 8 0 []
    let x1 := { x with gen := x.base + 1, live := live, trees := trees, t := trees.length, round := none, reports := []
                       dstate := if trees.isEmpty then 3 else 2 }
    let s1 := s.setDomain dom x1
    serveHeld dom (.next (if trees.isEmpty then (s1.collEndAll dom 1).agreeWanted dom else (s1.resumeColls dom).agreeWanted dom))

/-! ### Domains -/

/-- A list rises strictly. -/
def strictly : List Nat → Bool
  | [] => true
  | [_] => true
  | a :: b :: r => decide (a < b) && strictly (b :: r)

/-- DOMAIN_ENABLE (R436, R437). -/
def execDomainEnable (d : Nat) (s : State) : Out :=
  let x := s.domain d
  if 8 ≤ d ∨ x.en then .next s
  else
    let ms := (List.range x.n).map fun m => (x.member m).toNat
    match (List.range x.n).find? fun m => x.member m == s.fab.devid with
    | some self =>
      if x.n = 0 ∨ 64 < x.n ∨ !(strictly ms) ∨ s.fab.devid = 0 then .next (s.setDomain d { x with refused := true })
      else
        .next (((s.setDomain d { x with en := true, self := self, gen := 0, t := 0, refused := false, dstate := 1, live := []
                                        trees := [], nextColl := 0, base := 0, attempt := 0, round := none, early := [], past := [] }).refreshPeers).drainOutbox.agreeStart d)
    | none => .next (s.setDomain d { x with refused := true })

/-- COLLs of a domain that end with it get numbers apart from those of its next enable (R445). -/
def State.renumber (s : State) (dom : Nat) : State :=
  (s.collOps dom).foldl (fun s q =>
    match q.2.body with
    | .coll dm ix va r ib ob bar cost granted =>
      let n := 2 ^ 64 + q.2.id
      if ix < 2 ^ 64 then
        (s.modColl dom ix fun c => { c with ix := n }).modCore q.1 fun c => c.modOp q.2.id fun o =>
          { o with body := .coll dm n va r ib ob bar cost granted }
      else s
    | _ => s) s

/-- The other members hear of every COLL of this member that has no status yet that it stops (R437, R452). -/
def State.tellStops (s : State) (dom : Nat) : State :=
  let x := s.domain dom
  (s.collOps dom).foldl (fun s q =>
    match q.2.body with
    | .coll _ ix .. =>
      if 2 ^ 64 ≤ ix ∨ (((x.coll? ix).bind (·.ended)).isSome) then s else s.tell x x.self (.stopped dom x.gen.toNat ix x.self)
    | _ => s) s

/-- DOMAIN_DISABLE (R437): every COLL of the domain ends with ABORTED, and the other members are told (R452). -/
def execDomainDisable (d : Nat) (s : State) : Out :=
  let x := s.domain d
  if 8 ≤ d then .next s
  else if !(x.en) then .next (s.setDomain d { x with refused := false })
  else
    let s1 := ((s.tellStops d).collEndAll d 4).renumber d
    let y := s1.domain d
    .next ((s1.setDomain d { y with en := false, dstate := 0, round := none, reports := [], wanted := false, refused := false
                                    early := [], past := [] }).refreshPeers)

/-! ### What arrives -/

/-- The data of a PEER line arrives on a port (R371): the oldest request for that line whose route is the port takes it, with the cycle
of the request. -/
def State.peerDataIn (s : State) (port pa : Nat) (bytes : List (BitVec 8)) : State :=
  let keys := (List.range 128).filterMap fun i =>
    if s.route (i % 64) (decide (64 ≤ i)) = some port then some (peerKey (i % 64) (decide (64 ≤ i)) pa) else none
  match s.fab.peerReads.find? fun q => keys.contains q.1 with
  | some q =>
    let s1 := s.addLease q.1 bytes q.2
    { s1 with fab := { s1.fab with peerReads := s1.fab.peerReads.erase q } }
  | none => s

/-- The domain that a message of the collectives names. -/
def msgDomain : LinkMsg → Nat
  | .collHeader dom .. => dom
  | .collChunk dom .. => dom
  | .marks dom .. => dom
  | .collDone dom .. => dom
  | .stopped dom .. => dom
  | _ => 0

/-- A flit whose CRC is right, by its message. -/
def takeFlit (port : Nat) (m : LinkMsg) (s : State) : Out :=
  match m with
  | .peerWrite .. | .peerRead _ | .atqCommand .. => .next { s with fab := { s.fab with inbox := s.fab.inbox ++ [(port, m)] } }
  | .peerData pa bytes => .next (s.peerDataIn port pa bytes)
  | .atqReply tag status old => .next (s.atqAnswer tag status old)
  | .report dom gen attempt member rows =>
    let x := s.domain dom
    .next (if !(x.en) then s else if gen < x.gen.toNat then s.lateReport dom gen attempt else s.reportIn dom member gen attempt rows)
  | m => serveHeld (msgDomain m) (collMessage m s)

/-- FLIT_RECEIVE (R431): a flit with an error that FEC cannot correct is discarded and replayed, which REPLAYS counts; a port
that is down or retrains receives nothing. -/
def execFlitReceive (port : Nat) (crcOk : Bool) (m : LinkMsg) (s : State) : Out :=
  let l := s.link port
  let r := l.row
  if 16 ≤ port ∨ !(rowUp r) ∨ l.retraining.isSome then .next s
  else if crcOk then takeFlit port m s
  else
    .next (s.setLink port { l with
      row := mkRow (rowState r) (rowRate r) (rowPeerPort r) (natBits r.toNat 39 34) (satAdd (rowReplays r) 1 65535) (rowRetrains r) (rowPeerId r)
      replayTimes := (l.replayTimes.filter fun t => decide (s.clock < t + msCycles)) ++ [s.clock] })

/-! ### PEER lines at their home, leases, migration -/

/-- PEER_WRITE_APPLY (R371): the first write that waits on a port becomes an event of this device's order. -/
def execPeerWriteApply (port : Nat) (s : State) : Out :=
  match s.firstIn port with
  | some (.peerWrite pa bytes) =>
    let s1 := s.popIn port
    if !(devValid pa) || !(devValid (pa + bytes.length - 1)) then .next s1
    else if s.devPartBad pa bytes.length then
      .next ((s1.postFault 0x50 2 3 0 0xFF 0 0 (BitVec.ofNat 64 pa) 0 0 none false).1)
    else .next ((s1.l2Pass (devLoc pa) true).devWrite pa bytes)
  | _ => .next s

/-- PEER_READ_SERVE (R371): the first read that waits on a port is served; data with an uncorrectable error is never passed
on (R311). -/
def execPeerReadServe (port : Nat) (s : State) : Out :=
  match s.firstIn port with
  | some (.peerRead pa) =>
    let line := pa / 128 * 128
    let s1 := s.popIn port
    if !(devValid line) then .next s1
    else
      let s2 := s1.meet line 128
      .next (if s2.devBad line 128 then (s2.postFault 0x50 1 3 0 0xFF 0 0 (BitVec.ofNat 64 line) 0 0 none false).1
        else (s2.l2Pass (devLoc line) false).sendOn port (.peerData line (s2.devRead line 128)))
  | _ => .next s

/-- LEASE_EXPIRE (R370): a copy whose time is over is gone, from the caches too. -/
def execLeaseExpire (key : Nat) (s : State) : Out :=
  .next (if s.mem.leases.any fun e => e.1 == key && decide (e.2.2 ≤ s.clock) then s.dropLease key else s)

/-- An engine has locked a line of this device's memory (R308, R366): it has translated it for writing and still owns it. -/
def State.locked (s : State) (line : Nat) : Bool :=
  s.cores.any fun c => c.2.ops.any fun o => o.xlat.any fun x =>
    x.1.2 && x.2.own && x.2.pa / 128 * 128 == line && o.ownsV (128 * x.1.1) (128 * x.1.1 + 128)

/-- LINE_MIGRATE (R308): an L2 line that is neither pinned nor locked moves to a slice of a tower, which evicts a line where it is full
(R291); the number of the slice on its base die stays (log 71). -/
def execLineMigrate (pa tower : Nat) (s : State) : Out :=
  let line := pa / 128 * 128
  match s.mem.l2.find? (·.1 == line) with
  | some e =>
    let slice := 8 * tower + e.2.1 % 8
    if 4 ≤ tower ∨ s.locked line ∨ e.2.2.1 ∨ slice = e.2.1 then .next s
    else
      .next { s with mem := { s.mem with l2 := s.mem.l2.filter (·.1 != line) }.l2Enter s.free line slice false e.2.2.2 }
  | none => .next s

end Sys2Proof.Machine
end

