-- ==== Sys2Proof/Machine/Ports.lean ====
section
/-! DEFINITION. The steps of a core between its runs: port boundaries with arbitration (04 R99 to R110), the delivery of
deferred traps (05 R145, R147), the end of a sleep (R136), the toggle of a code-table bank (16 R418), the PC table
(R421) and the halt of a core (05 R140). -/

namespace Sys2Proof.Machine

open Sys2Proof

/-- The core forms issue groups: its launch runs, and neither a halt nor a pre-emption stops it (R114, R140, R146). -/
def State.issues (s : State) (d : Nat) : Bool :=
  let c := s.core d
  !c.halted && !c.halting && !c.stopped &&
  (match s.coreLaunch d with
  | some l => l.phase == .running
  | none => false)

/-- The port may stand at a boundary now (R103, R523): it holds no run, and V port 1 forms no groups in OT2. -/
def State.atBoundary (s : State) (d : Nat) (p : PortId) : Bool :=
  let q := (s.core d).port p
  s.issues d && !q.active && decide (q.due ≤ s.clock) && !(p == .v1 && s.mgmt.ot == 2)

/-- A deferred trap that the thread takes at its next boundary (R145). -/
def Thread.trapDue (t : Thread) : Bool := !t.dtraps.isEmpty && !(t.ecause.getLsbD 10)

/-- A thread that arbitration considers (R103, R109), with its slot and lane. -/
structure Contender where
  slot : Nat
  lane : Nat
  t : Thread
  deriving DecidableEq, Repr

/-- The word at a VA of a launch, where its page lets it be read now. -/
def State.wordAt? (s : State) (l : Launch) (va : BitVec 64) : Option (BitVec 64) :=
  match (translate s l.ptroot.toNat l.priv va .exec).2 with
  | .ok p => (s.locRead p.loc 0 8).map fun r => wordOfBytes r.2
  | .error _ => none
/-- One of the next `n` words of a run holds HALT: a run ends with the word whose E is set (R79). -/
def State.haltsWithin (s : State) (l : Launch) : Nat → BitVec 64 → Bool
  | 0, _ => false
  | n + 1, va =>
    match s.wordAt? l va with
    | none => false
    | some w =>
      match decode w with
      | .ok (.halt _) => true
      | _ => !(splitR w).e && s.haltsWithin l n (va + 8)
/-- The run of a port holds HALT, or a BKPT that halts (R137, R140, R147). -/
def State.runHalts (s : State) (d : Nat) (q : Port) : Bool :=
  q.haltReq != 0 || (match s.coreLaunch d with | some l => s.haltsWithin l (24 - q.count) q.pc | none => false)
/-- The thread has trapped in a run that is still under way and halts the core: it takes its vector once management resumes the core
(R137, R147). -/
def State.heldBack (s : State) (d slot lane : Nat) : Bool :=
  (s.core d).ports.any fun q => q.2.active && q.2.left.contains (slot, lane) && s.runHalts d q.2

/-- The threads that port `p` may choose from: ready, of its role, and not issuing (R103, R104). -/
def Core.cands (c : Core) (p : PortId) (clock : Nat) : List Contender :=
  c.warps.flatMap fun sw =>
    if sw.2.role = portRole p ∧ sw.2.susp = none then
      (sw.2.threads.zipIdx.filter fun tl =>
        tl.1.run == .ready && decide (tl.1.readyAt ≤ clock) && !(tl.1.trapDue) && !(c.inGroup sw.1 tl.2)).map
        fun tl => { slot := sw.1, lane := tl.2, t := tl.1 }
    else []
/-- The candidates of port `p` on core `d`. -/
def State.cands (s : State) (d : Nat) (p : PortId) : List Contender :=
  ((s.core d).cands p s.clock).filter fun x => !(s.heldBack d x.slot x.lane)

/-- The better of two PCs by a test; the lower wins a tie. -/
def pickBy (better : Contender → Contender → Bool) (l : List Contender) : Option Contender :=
  l.foldl (fun b x =>
    match b with
    | none => some x
    | some y => if better x y then some x else some y) none

/-- The lower PC. -/
def lowerPc (x y : Contender) : Bool := x.t.pc.toNat < y.t.pc.toNat

/-- The PC that a boundary chooses (R109). -/
def choosePc (l : List Contender) : Option (BitVec 64) :=
  let worn := l.filter fun x => decide (64 ≤ x.t.waitCtr)
  let fresh := l.filter fun x => !x.t.yielded
  let pick :=
    if !worn.isEmpty then
      pickBy (fun x y => decide (y.t.waitCtr < x.t.waitCtr) || (x.t.waitCtr == y.t.waitCtr && lowerPc x y)) worn
    else if !fresh.isEmpty then pickBy lowerPc fresh
    else pickBy lowerPc l
  pick.map (·.t.pc)

/-- The group of a PC: for each lane the candidate in the lowest slot (R103, which the model follows over the
bound of R110: log 47). -/
def formGroup (pc : BitVec 64) (l : List Contender) : List (Nat × Nat) :=
  (List.range 32).filterMap fun ln => (l.find? fun x => x.lane == ln && x.t.pc == pc).map fun x => (x.slot, x.lane)

/-- Results that have come ready join their registers, but for those of a suspended warp, whose registers its frame holds (R314); what
a register reads does not change (R155). -/
def Core.landAll (c : Core) (clock : Nat) : Core :=
  { c with warps := c.warps.map fun sw =>
      (sw.1, if sw.2.susp.isSome then sw.2 else { sw.2.land clock with threads := sw.2.threads.map (·.land clock) }) }

/-- The counters of a thread after a boundary of its port (R101): the start of a run in which it issues sets them to 0, and one
boundary at which it is ready and not chosen adds 1, though it issue on the other V port or have a trap to take. -/
def Thread.boundary (t : Thread) (chosen : Bool) : Thread :=
  if chosen then { t with waitCtr := 0, yielded := false, freed := none }
  else if t.run = .ready then
    { t with waitCtr := satAdd t.waitCtr 1 65535, freed := t.freed.map fun f => (false, f.2.1, f.2.2) }
  else t
/-- The threads of port `p` after one of its boundaries. -/
def Core.countBoundary (c : Core) (p : PortId) (group : List (Nat × Nat)) : Core :=
  let warps := c.warps.map fun sw =>
    if sw.2.role = portRole p then
      (sw.1, { sw.2 with threads := sw.2.threads.mapIdx fun ln t => t.boundary (group.contains (sw.1, ln)) })
    else sw
  { c with warps := warps }

/-- PORT_BOUNDARY (R103 to R110): the port chooses a PC and forms a group. A PC that sits in no way of the PC table is
found on the overflow list (R420, R421), which delays the first word by 2 cycles. A cycle in which an idle port has no candidate, its
ready threads all issuing on the other V port, is no boundary that counts for them (R101, R103; DESIGN CHOICE, log 68). -/
def execPortBoundary (d : Nat) (p : PortId) (s : State) : Out :=
  if s.atBoundary d p then
    let l := s.cands d p
    match choosePc l with
    | none => .next s
    | some pc =>
      let group := formGroup pc l
      let s1 := s.modCore d fun c => (c.landAll s.clock).countBoundary p group
      let late := if (s.core d).pct.contains (pc, portRole p) then 0 else 2
      .next (s1.modPort d p fun _ =>
        { Port.idle with members := group, pc := pc, due := s.clock + late, active := true })
  else .next s

/-- The ports on which a role's threads issue (R99). -/
def rolePorts : Role → List PortId
  | .c => [.c]
  | .m => [.m]
  | .v => [.v0, .v1]

/-- The PC at which a deferred trap resumes (R145, R147): the waiting word of a thread that waits, or for whose wait this is the
first boundary since it ended, and otherwise the PC it would next have executed. -/
def resumeVa (t : Thread) : BitVec 64 :=
  match t.wait with
  | some w => w.va
  | none =>
    match t.freed with
    | some (true, va, _) => va
    | _ => t.pc

/-- A thread stops waiting (R145): its object no longer counts it. -/
def State.unwait (s : State) (d slot lane : Nat) : State :=
  match (s.thread? d slot lane).bind (·.wait) with
  | some w => (s.modThread d slot lane fun t => { t with wait := none }).syncWait w.core w.off
  | none => s

/-- A thread takes the first of its deferred traps (R143, R145). -/
def State.deliver (s : State) (d slot lane : Nat) (t : Thread) (x : DTrap) : State :=
  let s1 := (s.unwait d slot lane).modThread d slot lane fun t =>
    { t with run := .ready, freed := none, dtraps := t.dtraps.drop 1, readyAt := s.clock + 1 }
  takeTrap s1 d slot lane x.cause x.info (resumeVa t) true

/-- The thread stands at a boundary of its port with a trap to take (R145). -/
def State.trapReady (s : State) (d slot lane : Nat) (w : Warp) (t : Thread) : Bool :=
  t.trapDue && (t.run == .ready || t.run == .waiting || t.run == .sleeping) && w.susp.isNone &&
  decide (t.readyAt ≤ s.clock) && !((s.core d).inGroup slot lane) && (rolePorts w.role).any (s.atBoundary d)

/-- DEFERRED_TRAP_DELIVERY (R145, R147): at a boundary of its port, in place of its next run. -/
def execDeferredTrapDelivery (d slot lane : Nat) (s : State) : Out :=
  match s.warp? d slot, s.thread? d slot lane with
  | some w, some t =>
    if s.trapReady d slot lane w t then
      match t.dtraps with
      | x :: _ => .next (s.deliver d slot lane t x)
      | [] => .next s
    else .next s
  | _, _ => .next s

/-- SLEEP_EXPIRE (R136). -/
def execSleepExpire (d slot lane : Nat) (s : State) : Out :=
  match s.thread? d slot lane with
  | some t =>
    .next (if t.run = .sleeping ∧ t.wake ≤ s.clock then s.modThread d slot lane fun t => { t with run := .ready } else s)
  | none => .next s

/-- BANK_TOGGLE (R418): once for each warp that was present on a CTSWAP, at the end cycle of its run. -/
def execBankToggle (d slot : Nat) (s : State) : Out :=
  match s.warp? d slot with
  | some w =>
    match w.toggles with
    | c :: rest =>
      .next (if c ≤ s.clock then s.modWarp d slot fun w => { w with ctbank := w.ctbank ^^^ 1#32, toggles := rest } else s)
    | [] => .next s
  | none => .next s

/-- Nothing that the core issued is still under way (R114, R140). -/
def Core.quiet (c : Core) : Bool :=
  c.ops.isEmpty && c.issueOrder.isEmpty && c.press.isNone && c.ports.all fun q => !q.2.active

/-- CORE_HALT (R140): once its runs have ended and its operations have completed, the core is halted and the snapshot is
triggered. -/
def execCoreHalt (d : Nat) (s : State) : Out :=
  let c := s.core d
  .next (if c.halting && !c.halted && c.quiet then
      (s.modCore d fun c => { c with halted := true, halting := false }).trigger c.haltSrc 0
    else s)

end Sys2Proof.Machine
end

