-- ==== Sys2Proof/Machine/Faults.lean ====
section
/-! DEFINITION. Page faults (04 R117 to R119, 16 R410 to R415): the suspension of a warp into a context frame (12 R314,
R315), its restore, the context pool, the fault ring of the host (15 R399) and the driver's answers. -/

namespace Sys2Proof.Machine

open Sys2Proof

/-! ### Context frames (R314) -/

/-- What a register of a thread holds once every result that it waits for has come. -/
def Thread.final (t : Thread) (x : Nat) : BitVec 256 :=
  if x = 839 then 1 else lookReg t.pend (t.base x) (t.pend.foldl (fun m p => max m p.ready) 0) x
/-- What a register of a warp holds once every result that it waits for has come. -/
def Warp.final (w : Warp) (x : Nat) : BitVec 256 :=
  lookReg w.pend (w.base x) (w.pend.foldl (fun m p => max m p.ready) 0) x

/-- The code of a run state (R518). -/
def RunState.code : RunState → Nat
  | .ready => 0 | .waiting => 1 | .sleeping => 2 | .suspended => 3 | .saved => 4 | .exited => 5

/-- The outcome of a wait that ended while its thread was saved (R314). -/
def outcomeCode (t : Thread) : Nat :=
  match t.freed with
  | some (_, _, completed) => if completed then 1 else 2
  | none => 0

/-- The 128 bytes of a thread in a frame (R314), for a thread that is suspended on core `d`. -/
def threadEntry (d : Nat) (t : Thread) : List (BitVec 8) :=
  let back := if t.run = .suspended then t.resume else t.run
  let preds := (List.range 8).foldl (fun m i => m + if (t.final (832 + i)).getLsbD 0 then 2 ^ i else 0) 0
  let ks := (List.range 4).flatMap fun i => leBytes 8 (t.final (880 + i)).toNat
  leBytes 8 t.pc.toNat ++ leBytes 4 t.mode.toNat ++ leBytes 4 t.status.toNat ++ leBytes 8 t.epc.toNat ++
  leBytes 4 t.ecause.toNat ++ leBytes 4 0 ++ leBytes 8 t.einfo.toNat ++
  leBytes 1 preds ++ leBytes 1 back.code ++ leBytes 1 (if t.yielded then 1 else 0) ++ leBytes 1 (outcomeCode t) ++
  leBytes 2 t.waitCtr ++
  leBytes 2 ((t.wait.map fun w => w.phase.toNat).getD 0) ++
  leBytes 4 (if back = .sleeping then t.wake else 0) ++
  leBytes 4 ((t.wait.map fun w => (addrFor d w.core w.off).toNat).getD 0) ++
  ks ++ leBytes 40 0

/-- The 8 bytes of a lane's entry for a convergence register (R314). -/
def withdrawnEntry (l : List Withdrawn) (lane k : Nat) : List (BitVec 8) :=
  match l.find? fun x => x.lane == lane && x.creg == k with
  | some x => leBytes 4 (k + 16 * x.row + (if x.rowNan then 1024 else 0) + 2048) ++ leBytes 4 x.decl.toNat
  | none => leBytes 8 0

/-- The header of a frame (R314). -/
def frameHeader (l : Launch) (d slot : Nat) (w : Warp) (x : Susp) : List (BitVec 8) :=
  leBytes 4 0x53464331 ++ leBytes 4 l.id ++ leBytes 2 d ++ leBytes 1 slot ++ leBytes 1 w.role.code ++ leBytes 2 l.nregs ++
  leBytes 2 x.withdrawn.length ++ leBytes 8 x.va.toNat ++ leBytes 8 x.pc.toNat ++ leBytes 224 0

/-- The first 0x6000 bytes of a frame (R314). -/
def frameHead (l : Launch) (d slot : Nat) (w : Warp) (x : Susp) : List (BitVec 8) :=
  frameHeader l d slot w x ++
  w.threads.flatMap (threadEntry d) ++
  (List.range 64).flatMap (fun i => leBytes 8 (w.final (768 + i)).toNat) ++
  (List.range 16).flatMap (fun i => leBytes 32 (w.final (840 + i)).toNat) ++
  (List.range 32).flatMap (fun i => leBytes 2 (findD w.ct i 0).toNat) ++
  leBytes 4 (w.final 1024).toNat ++ leBytes 4 w.ctbank.toNat ++ leBytes 184 0 ++
  (List.range 32).flatMap (fun ln => (List.range 16).flatMap (withdrawnEntry x.withdrawn ln)) ++
  leBytes 0x3A00 0

/-- The v registers of a frame, lane-major (R314). -/
def frameRegs (n : Nat) (w : Warp) : List (BitVec 8) :=
  w.threads.flatMap fun t => (List.range n).flatMap fun i => leBytes 4 (t.final i).toNat

/-- The registers of a warp that is saved take every result that they wait for: what comes later is a result of the time in which it was
saved (R314). -/
def Warp.landAll (w : Warp) : Warp :=
  let last := fun (l : List Pend) => l.foldl (fun m p => max m p.ready) 0
  { w.land (last w.pend) with threads := w.threads.map fun t => t.land (last t.pend) }

/-- A little-endian number in a frame. -/
def frameN (s : State) (a n : Nat) : Nat := leNat (s.devRead a n)

/-- Registers `k`, `k + 1`, … from a frame: those that are not 0, `n` of `z` bytes each. -/
def frameList {w : Nat} (s : State) (a k n z : Nat) : List (Nat × BitVec w) :=
  (List.range n).foldl (fun l i => putD l (k + i) (BitVec.ofNat w (frameN s (a + z * i) z)) 0) []

/-- A thread as its frame gives it back (R119, R314); what the frame has no place for, the device has kept. -/
def Thread.fromFrame (s : State) (d f n lane : Nat) (t : Thread) : Thread :=
  let a := f + 0x100 + 128 * lane
  let back := match frameN s (a + 41) 1, frameN s (a + 43) 1 with
    | 1, 0 => RunState.waiting
    | 2, _ => .sleeping
    | 5, _ => .exited
    | _, _ => .ready
  let obj := BitVec.ofNat 32 (frameN s (a + 52) 4)
  if t.run = .exited then t
  else
    { t with
      wait := if back = .waiting then t.wait.map fun w =>
        { w with core := scrCore d obj, off := scrOff obj, phase := BitVec.ofNat 16 (frameN s (a + 46) 2) } else none
      pc := BitVec.ofNat 64 (frameN s a 8), mode := BitVec.ofNat 32 (frameN s (a + 8) 4)
      status := BitVec.ofNat 32 (frameN s (a + 12) 4), epc := BitVec.ofNat 64 (frameN s (a + 16) 8)
      ecause := BitVec.ofNat 32 (frameN s (a + 24) 4), einfo := BitVec.ofNat 64 (frameN s (a + 32) 8)
      p := BitVec.ofNat 8 (frameN s (a + 40) 1), resume := back, yielded := frameN s (a + 42) 1 != 0
      waitCtr := frameN s (a + 44) 2, wake := frameN s (a + 48) 4, k := frameList s (a + 56) 880 4 8
      v := frameList s (f + 0x6000 + 4 * n * lane) 0 n 4 }

/-- A warp as its frame gives it back (R119, R314). -/
def Warp.fromFrame (s : State) (d f n : Nat) (w : Warp) : Warp :=
  { w with w := frameList s (f + 0x1100) 768 64 8, b := frameList s (f + 0x1300) 840 16 32, ct := frameList s (f + 0x1500) 0 32 2
           lgp := BitVec.ofNat 32 (frameN s (f + 0x1540) 4), ctbank := BitVec.ofNat 32 (frameN s (f + 0x1544) 4)
           threads := w.threads.mapIdx fun lane t => t.fromFrame s d f n lane }

/-- A withdrawn signature as its entry in a frame gives it back (R118, R314). -/
def withdrawnFrom (s : State) (f lane k : Nat) : Option Withdrawn :=
  let a := f + 0x1600 + 128 * lane + 8 * k
  let x := frameN s a 4
  if x.testBit 11 then
    some { creg := natBits x 3 0, row := natBits x 9 4, rowNan := x.testBit 10, decl := BitVec.ofNat 32 (frameN s (a + 4) 4), lane := lane }
  else none
/-- The withdrawn signatures of a frame (R314). -/
def frameSigns (s : State) (f : Nat) : List Withdrawn :=
  (List.range 32).flatMap fun lane => (List.range 16).filterMap (withdrawnFrom s f lane)

/-- A byte range that lies in HBM (R306). -/
def hbmRange (a n : Nat) : Bool := decide (a + n ≤ hbmEnd)

/-- What the device still writes into the frame of a saved warp (R314): the flags that operations raise and the outcome
of a wait. -/
def refreshFrame (w : Warp) (s : State) : State :=
  match w.susp with
  | none => s
  | some x =>
    if !x.posted || x.frame == 0 then s
    else
      (w.threads.zipIdx).foldl (fun s tl =>
        let a := x.frame.toNat + 0x100 + 128 * tl.2
        let put := fun (a : Nat) (bs : List (BitVec 8)) (s : State) => if s.devRead a bs.length = bs then s else s.devWrite a bs
        put (a + 43) (leBytes 1 (outcomeCode tl.1)) (put (a + 12) (leBytes 4 tl.1.status.toNat) s)) s

/-- Every frame in use follows its warp (R314). -/
def State.refreshFrames (s : State) : State :=
  s.cores.foldl (fun s dc => dc.2.warps.foldl (fun s sw => refreshFrame sw.2 s) s) s

/-! ### The context pool (R414) -/

/-- Where entry `i` of the pool's stack lies. -/
def State.poolEntry (s : State) (i : Nat) : Nat := s.ctx.base.toNat + 8 * i

/-- Pop a frame; 0 when the pool is empty (R412, R414), or when the stack's entry cannot be read (R311; log 48). `none` where the stack
or the frame lies outside HBM. -/
def State.popFrame (s : State) (d : Nat) : Option (State × BitVec 64) :=
  if s.ctx.count = 0 then some (s, 0)
  else
    let a := s.poolEntry (s.ctx.count.toNat - 1)
    if !(hbmRange a 8) then none
    else
      let s1 := s.meet a 8
      if s1.devBad a 8 then some ((s1.postFault 0x50 1 0 d 0xFF (((s.core d).launch).getD 0) 0 (BitVec.ofNat 64 a) 0 0 none false).1, 0)
      else
        let f := BitVec.ofNat 64 (leNat (s1.devRead a 8))
        if hbmRange f.toNat 0x20000 then some ({ s1 with ctx := { s1.ctx with count := s1.ctx.count - 1 } }, f) else none

/-- Push a frame (R414). `none` where the stack lies outside HBM. -/
def State.pushFrame (s : State) (f : BitVec 64) : Option State :=
  let a := s.poolEntry s.ctx.count.toNat
  if hbmRange a 8 then
    some { s.devWrite a (leBytes 8 f.toNat) with ctx := { s.ctx with count := s.ctx.count + 1 } }
  else none

/-- The frame of a warp that leaves it goes back to the pool (R146, R414). -/
def State.returnFrame (s : State) (x : Susp) : Option State := if x.frame = 0 then some s else s.pushFrame x.frame

/-- CTXADD (R414, R415). -/
def execCtxadd (v : BitVec 64) (s : State) : Out :=
  if s.ctx.count = s.ctx.cap ∨ v.toNat % 0x20000 ≠ 0 then .next { s with ctx := { s.ctx with err := true } }
  else
    match s.pushFrame v with
    | some s1 => .next s1
    | none => .fault .badPhysical

/-- The translations by which an operation has events to perform (R409, R415): lines of VA, and whether for writes. -/
def Op.translations (d : Nat) (o : Op) : List (Nat × Bool) :=
  let known := fun (l : List LaneAcc) (wr : Bool) => l.filterMap fun a =>
    match a.va, a.loc with
    | some va, some _ => some (va.toNat / 128, wr)
    | _, _ => none
  match o.body with
  | .bufLoad _ _ _ _ _ lanes => known lanes false
  | .bufHeld _ _ _ _ _ _ lanes _ => known lanes true
  | .atq _ _ _ _ _ tosend sent _ => known (tosend ++ sent.map (·.2)) true
  | .copy cmd _ _ => (o.xlat.map (·.1)).filter (cpUses d cmd)
  | _ => o.xlat.map (·.1)

/-- The line of the peer that a message names. -/
def OutMsg.line (m : OutMsg) : Nat :=
  match m.msg with
  | .peerWrite pa _ => pa / 128
  | .peerRead pa => pa / 128
  | _ => 0

/-- The translations that are in use: core, operation, line, and whether for writes. A write that a peer has still to take was
translated too. -/
def State.translating (s : State) : List (Nat × Nat × Nat × Bool) :=
  s.cores.flatMap fun dc => dc.2.ops.flatMap fun o =>
    ((o.translations dc.1 ++ (s.fab.unperformed.filter (·.isOf s dc.1 o.id)).map fun m => (m.line, true)).eraseDups.map fun x =>
      (dc.1, o.id, x))

/-- SYNC (R415): PEND stays 1 while an operation has events to perform by a translation that it had made at the write. -/
def execSync (s : State) : Out := .next { s with ctx := { s.ctx with sync := some s.translating } }

/-- The PEND bit of SYNC (R415). -/
def State.syncPend (s : State) : Bool :=
  match s.ctx.sync with
  | some l => l.any s.translating.contains
  | none => false

/-! ### Suspension (R117, R118, R412) -/

/-- The signatures that the lanes of a warp hold in a register that is signing (R118). -/
def heldIn (c : Core) (slot k : Nat) : List Withdrawn :=
  let v := c.cv k
  if v.st = .signing then
    (List.range 32).filterMap fun ln =>
      match signerSlot v.desc slot ln with
      | some i =>
        if v.signed.getLsbD i then
          let nan := match v.buf with
            | some b => ((find? (c.lb b).rows i).map fun r => r.elems.any (·.2)).getD false
            | none => false
          some { creg := k, row := i, rowNan := nan, decl := v.decl, lane := ln }
        else none
      | none => none
  else []

/-- SIGNATURE_WITHDRAW (R118): the signers' bits fall, and their rows stay in the buffer. -/
def withdraw (slot : Nat) (c : Core) : Core × List Withdrawn :=
  let l := (List.range 16).flatMap (heldIn c slot)
  (l.foldl (fun c x =>
    let v := c.cv x.creg
    c.setCv x.creg { v with signed := v.signed &&& ~~~(1#64 <<< x.row) }) c, l)

/-- A thread is suspended; a sleeper keeps the cycles that remain (R117, R136). -/
def Thread.suspend (clock : Nat) (t : Thread) : Thread :=
  if t.run = .exited then t
  else
    { t with run := .suspended, resume := t.run, freed := none
             wake := if t.run = .sleeping then t.wake - clock else t.wake }

/-- The launch of a core still runs or is being stopped for a pre-emption. -/
def State.alive (s : State) (d : Nat) : Bool :=
  match s.coreLaunch d with
  | some l => l.phase == .running || l.phase == .preempting
  | none => false

/-- The warp with its saved frame, and its record (R412 steps 1 to 3). -/
def suspendWarp (s : State) (d slot : Nat) (l : Launch) (w : Warp) (x : Susp) : Out :=
  match s.popFrame d with
  | none => .fault .badPhysical
  | some (s0, frame) =>
    let (c1, wd) := withdraw slot (s0.core d)
    let x1 := { x with withdrawn := wd, frame := frame, posted := true }
    let w0 := w.landAll
    let w1 := { w0 with threads := w0.threads.map (·.suspend s.clock) }
    let s1 := s0.setCore d c1
    let s2 :=
      if frame = 0 then s1
      else (s1.devWrite frame.toNat (frameHead l d slot w1 x1)).devWrite (frame.toNat + 0x6000) (frameRegs l.nregs w1)
    let r := s2.postFault 0x60 x.access 0 d slot l.key x.pc x.va frame x.ptepa none true
    .next ((r.1.modWarp d slot fun _ => { w1 with susp := some { x1 with seq := r.2 } }).count d 16 1)

/-- The bank toggles that are due at a cycle have taken effect (R418). -/
def Warp.toggled (w : Warp) (clock : Nat) : Warp :=
  let due := w.toggles.filter (· ≤ clock)
  { w with ctbank := if due.length % 2 = 1 then w.ctbank ^^^ 1#32 else w.ctbank, toggles := w.toggles.filter fun c => !(c ≤ clock) }

/-- No thread of a warp is in a run: each run that it was in has come to its end (R73, R412). -/
def State.runsOver (s : State) (d slot : Nat) (w : Warp) : Bool :=
  w.threads.zipIdx.all fun t => t.1.run == .exited || (!((s.core d).inGroup slot t.2) && decide (t.1.readyAt ≤ s.clock))

/-- WARP_SUSPEND (R117, R118, R412): at the end of the run in which it faulted, once no thread of the warp is in a run. -/
def execWarpSuspend (d slot : Nat) (s : State) : Out :=
  match s.warp? d slot, s.coreLaunch d with
  | some w, some l =>
    match w.susp with
    | some x =>
      if x.posted || !(s.alive d) || !(s.runsOver d slot w) ||
          ((s.core d).ports.any fun p => p.2.active && p.2.faulted.contains slot) then .next s
      else suspendWarp s d slot l (w.toggled s.clock) x
    | none => .next s
  | _, _ => .next s

/-! ### Restore (R118, R119, R315) -/

/-- A withdrawn signature at restore (R118): re-signed under R231 where the register has kept its declaration, else
dropped. A final signature issues the operation (R232); a trap there is deferred. -/
def resign (d slot : Nat) (s : State) (x : Withdrawn) : State :=
  let c := s.core d
  let v := c.cv x.creg
  if v.decl ≠ x.decl ∨ v.st ≠ .signing then s
  else
    let s1 := s.modCore d fun c => c.setCv x.creg { v with signed := v.signed ||| (1#64 <<< x.row) }
    let v1 := (s1.core d).cv x.creg
    if v1.signed ≠ v1.mask then s1
    else
      let w := splitR v1.word
      let sat := ((s1.thread? d slot x.lane).map fun t => t.mode.getLsbD 1).getD false
      match issueSigned { d := d, n := x.creg, kind := natBits v1.word.toNat 57 49 - 0xC1, acc := accIx w.d, ru := mbit w.mod 6
                          bw := v1.fBw, sat := sat, slot := slot, lane := x.lane, threads := [(slot, x.lane)]
                          word := v1.word, lt := false } s1 with
      | .ok s2 => s2
      | .error t =>
        ({ s1.modCore d (·.undo x.creg) with nextId := s1.nextId + 1 }).defer d slot x.lane s1.nextId t.1 t.2

/-- A thread of a restored warp (R119, R136). -/
def Thread.restore (clock : Nat) (t : Thread) : Thread :=
  if t.run = .suspended then
    { t with run := t.resume, wake := if t.resume = .sleeping then clock + t.wake else t.wake }
  else t

/-- The header of a frame names this warp (R315), and the frame can be read (R311; log 48). -/
def frameOk (s : State) (l : Launch) (d slot : Nat) (f : Nat) : Bool :=
  !(s.devBad f (0x6000 + 128 * l.nregs)) &&
  s.devRead f 4 == leBytes 4 0x53464331 && s.devRead (f + 4) 4 == leBytes 4 l.id &&
  s.devRead (f + 8) 2 == leBytes 2 d && s.devRead (f + 10) 1 == leBytes 1 slot

/-- The driver has answered the fault of a suspended warp and its record stands in the ring (R399, R413). -/
def State.answered (s : State) (x : Susp) : Bool := x.posted && !(s.q.faults.any fun r => r.seq == x.seq)

/-- WARP_RESTORE (R118, R119, R314, R315, R413): the warp comes back from its frame, or goes on in its slot, with its faulting word. -/
def execWarpRestore (d slot : Nat) (s : State) : Out :=
  match s.warp? d slot, s.coreLaunch d with
  | some w, some l =>
    match w.susp with
    | some x =>
      let f := x.frame.toNat
      let s0 := if x.frame = 0 then s else s.meet f (0x6000 + 128 * l.nregs)
      if !(s.answered x) || !(s.alive d) then .next s
      else if x.frame ≠ 0 ∧ !(frameOk s0 l d slot f) then
        let s1 := if s0.devBad f (0x6000 + 128 * l.nregs) then
            (s0.postFault 0x50 1 0 d slot l.key x.pc x.frame 0 0 none false).1 else s0
        .next (s1.abortBy l.key 0x0B 0 d slot 0 0 0)
      else
        match s0.returnFrame x with
        | none => .fault .badPhysical
        | some s1 =>
          let s2 := s1.modWarp d slot fun w =>
            let w1 := if x.frame = 0 then w else w.fromFrame s0 d f l.nregs
            { w1 with susp := none, threads := w1.threads.map (·.restore s.clock) }
          let signs := if x.frame = 0 then x.withdrawn else frameSigns s0 f
          .next ((signs.foldl (resign d slot) s2).modCore d Core.pctUpdate)
    | none => .next s
  | _, _ => .next s

/-! ### The fault ring and the driver's answers (R399, R413) -/

/-- What a fault has parked of an operation goes on (R413): the command, or the lanes of an ATQ on the page (R349). -/
def Op.unpark (seq : BitVec 32) (o : Op) : Op :=
  { o with parked := if o.parked = some seq then none else o.parked
           body := match o.body with
             | .atq opc fmt ord slot bar tosend sent parks => .atq opc fmt ord slot bar tosend sent (parks.filter (·.2 != seq))
             | b => b }

/-- A fault that is answered and whose record stands in the ring leaves the list; a parked command goes on. -/
def State.settle (s : State) (r : FaultRec) : State :=
  if r.written && !r.outstanding then
    let s1 := { s with q := { s.q with faults := s.q.faults.filter fun x => x.seq != r.seq } }
    match r.op with
    | some id => s1.modCore r.core fun c => c.modOp id (·.unpark r.seq)
    | none => s1
  else s

/-- Replace the record of a fault. -/
def State.putFault (s : State) (r : FaultRec) : State :=
  { s with q := { s.q with faults := s.q.faults.map fun x => if x.seq = r.seq then r else x } }

/-- The registers of the host fault ring (R374): 0 BASE, 1 SIZE, 2 HEAD, 3 TAIL. -/
def State.hfl (s : State) (i : Nat) : Nat := (findD s.q.hfl i 0).toNat
def State.setHfl (s : State) (i : Nat) (v : BitVec 64) : State := { s with q := { s.q with hfl := putD s.q.hfl i v 0 } }

/-- An MSI-X message leaves the device (R511). -/
def State.msi (s : State) (v : Nat) : State := { s with q := { s.q with msix := s.q.msix ++ [v] } }

/-- FAULT_RECORD_WRITE (R399; HFLTAIL counts modulo 2^32, log 69): the next record in SEQ order, when the ring is configured and has room. -/
def execFaultRecordWrite (s : State) : Out :=
  match s.q.faults.find? fun r => !r.written with
  | none => .next s
  | some r =>
    let size := s.hfl 1
    let head := s.hfl 2
    let tail := s.hfl 3
    if size < 4 ∨ 16 < size ∨ (tail + 2 ^ 64 - head) % 2 ^ 32 = 2 ^ size then .next s
    else
      let s1 := (s.hostWrite (s.hfl 0 + 64 * (tail % 2 ^ size)) (leBytes 64 r.record.toNat)).setHfl 3
        (BitVec.ofNat 64 ((tail + 1) % 2 ^ 32))
      let r1 := { r with written := true }
      .next (((if head % 2 ^ 32 = tail % 2 ^ 32 then s1.msi 1 else s1).putFault r1).settle r1)

/-- HFLHEAD_WRITE (R399). -/
def execHflheadWrite (v : BitVec 64) (s : State) : Out := .next (s.setHfl 2 v)

/-- A RESUME that names no outstanding fault is counted (R413). -/
def State.resumeBad (s : State) : State :=
  { s with ctx := { s.ctx with resumeBad := BitVec.ofNat 32 (satAdd s.ctx.resumeBad.toNat 1 (2 ^ 32 - 1)) } }

/-- A launch is pre-empted: RESUME writes for it are held (R413). -/
def State.isPreempted (s : State) (key : Nat) : Bool :=
  match s.launchOf key with
  | some l => l.phase == .preempted
  | none => false

/-- The outstanding fault of a SEQ. -/
def State.outstanding (s : State) (seq : BitVec 32) : Option FaultRec :=
  s.q.faults.find? fun r => r.seq == seq && r.outstanding

/-- ACTION 0 on an outstanding fault (R413). -/
def resumeNow (r : FaultRec) (s : State) : State :=
  let r1 := { r with outstanding := false }
  (s.putFault r1).settle r1

/-- ACTION 1 on an outstanding fault (R413): a FRAMEEXH record, and the launch ends with status FRAMEEXH. -/
def exhaustNow (r : FaultRec) (s : State) : State :=
  let f := fun (hi lo : Nat) => BitVec.ofNat 64 (natBits r.record.toNat hi lo)
  let s1 := resumeNow { r with op := none } s
  let s2 := (s1.postFault 0x61 (natBits r.record.toNat 51 48) (natBits r.record.toNat 71 64) r.core r.slot r.launch
    (f 255 192) (f 319 256) (f 383 320) (f 447 384) none false).1
  s2.abortBy r.launch 0x0C 0 r.core r.slot 0 0 0

/-- A RESUME write (R413, R415). -/
def State.resumeWrite (s : State) (seq : BitVec 32) (exhaust : Bool) : State :=
  match s.outstanding seq with
  | none => s.resumeBad
  | some r =>
    if s.isPreempted r.launch then
      s.modLaunch r.launch fun l => { l with heldResume := l.heldResume ++ [(seq, exhaust)] }
    else if exhaust then exhaustNow r s else resumeNow r s

/-- RESUME_ACTION0 (R413). -/
def execResumeAction0 (seq : BitVec 32) (s : State) : Out := .next (s.resumeWrite seq false)

/-- RESUME_FRAMEEXH (R413). -/
def execResumeFrameexh (seq : BitVec 32) (s : State) : Out := .next (s.resumeWrite seq true)

end Sys2Proof.Machine
end

