-- ==== Sys2Proof/Machine/Launch.lean ====
section
/-! DEFINITION. Launches from the doorbell to their end (15 R374 to R387, 04 R90 to R98, R114 to R116, 05 R134, R146,
18 R474): queues, packets and their checks, dependences, the choice of a map, seeding, pre-emption, resumption, the
end, the abort, and event records on their way to the host. -/

namespace Sys2Proof.Machine

open Sys2Proof

/-! ### Queues (R377, R378) -/

/-- An ignored host write is counted (R375). -/
def State.cfgIgnored (s : State) : State :=
  { s with q := { s.q with cfgIgn := BitVec.ofNat 32 (satAdd s.q.cfgIgn.toNat 1 (2 ^ 32 - 1)) } }

/-- A descriptor that a write with EN = 1 may give a disabled queue (R375, R377). -/
def descOk (x : BitVec 512) : Bool :=
  natBits x.toNat 511 256 == 0 && natBits x.toNat 191 140 == 0 && natBits x.toNat 135 134 == 0 &&
  1 ≤ natBits x.toNat 131 128 && natBits x.toNat 131 128 ≤ 12 &&
  !(qdDevq x && (qdPriv x || qdLoc x)) &&
  (qdRoot x).toNat % 32768 == 0 && hbmRange (qdRoot x).toNat 32768 && qdBase x % 256 == 0 && (qdLoc x || inHbm (qdBase x))

/-- QUEUE_ENABLE (R375, R377): HEAD, TAIL and ERR start at 0; while EN = 1 every other field is locked. -/
def execQueueEnable (q : Nat) (desc : BitVec 512) (s : State) : Out :=
  if 64 ≤ q then .next s
  else if qdEn (s.qdesc q) || !(descOk desc) then .next s.cfgIgnored
  else .next (s.setQdesc q (setBits (setBits (setBits (setBits desc 255 224 0) 223 192 0) 139 139 0) 138 138 1))

/-- A launch that has neither been seeded nor ended holds back its queue (R379): it waits for its dependences, its temperatures or its
cores, or after an abort for the end of its record. -/
def Launch.waits (l : Launch) : Bool :=
  match l.phase with
  | .waitDeps => true
  | .waitMap _ => true
  | .placed => true
  | .ending .. => l.seededAt == 0
  | _ => false

/-- QUEUE_DISABLE (R377): the front end takes no further packet; a launch that waits holds the queue back no longer
(R382) and continues. -/
def execQueueDisable (q : Nat) (s : State) : Out :=
  if 64 ≤ q ∨ !(qdEn (s.qdesc q)) then .next s
  else
    let s1 := s.setQdesc q (setBits (s.qdesc q) 138 138 0)
    .next { s1 with launches := s1.launches.map fun l => if l.queue = q ∧ l.waits then { l with queue := 64 + q } else l }

/-- DOORBELL (R375, R378, R387, R514): a refused value stops the queue and posts a record, which may have to wait for room. -/
def execDoorbell (q : Nat) (tail : BitVec 32) (s : State) : Out :=
  let x := s.qdesc q
  if 64 ≤ q ∨ !s.mgmt.ready then .next s
  else if !(qdEn x) then .next s.cfgIgnored
  else
    let n := (tail.toNat + 2 ^ 32 - qdHead x) % 2 ^ 32
    if n ≤ qdSlots x ∧ qdUsed x ≤ n then .next (s.setQdesc q (setBits x 255 224 tail.toNat))
    else
      .next ((s.setQdesc q (setBits (setBits x 139 139 1) 138 138 0)).postOrWait 0
        (mkEvent 7 0x22 0 0 0 0 0 (BitVec.ofNat 64 q) (tail.zeroExtend 64)))

/-! ### The packet (R379 to R381) -/

/-- The tower whose dispatcher leads a launch (R381). -/
def Launch.lead (l : Launch) : Nat := towerOf l.originCore

/-- The queue that the front end serves next (R379). -/
def State.nextQueue (s : State) : Option Nat :=
  let ready := (List.range 64).filter fun q =>
    let x := s.qdesc q
    qdEn x && qdUsed x != 0 && !(s.launches.any fun l => l.queue == q && l.waits)
  let best := ready.foldl (fun m q => max m (qdPrio (s.qdesc q))) 0
  let top := ready.filter fun q => qdPrio (s.qdesc q) == best
  match top.find? fun q => decide (s.q.lastServed < q) with
  | some q => some q
  | none => top.head?

/-- The packet in a slot; its bytes, or a packet of zeros, with a fault record, where they hold an uncorrectable error (R310, R311;
log 48). `none` where the slot lies outside HBM. -/
def State.readPacket (s : State) (x : BitVec 512) : Option (State × BitVec 2048) :=
  let a := qdBase x + 256 * (qdHead x % qdSlots x)
  let va := BitVec.ofNat 64 a
  if qdLoc x then some (s, BitVec.ofNat 2048 (leNat (s.hostRead a 256)))
  else if !(hbmRange a 256) then none
  else
    let s1 := s.meet a 256
    if s1.devBad a 256 then some ((s1.postFault 0x50 1 0 0 0xFF 0 va va 0 0 none false).1, 0)
    else some (s1, BitVec.ofNat 2048 (leNat (s1.devRead a 256)))

/-- Dependence `i` of a packet: ID and VALUE (R380). -/
def Launch.dep (l : Launch) (i : Nat) : Nat × Nat := (l.pk (64 * i + 563) (64 * i + 544), l.pk (64 * i + 543) (64 * i + 512))
/-- The number of placement maps (R380). -/
def Launch.nmaps (l : Launch) : Nat := l.pk 446 444
/-- The roles of the slots, 3 for an unused one (R380). -/
def Launch.roleOf (l : Launch) (slot : Nat) : Nat := l.pk (2 * slot + 257) (2 * slot + 256)
/-- The slots that the launch uses (R380). -/
def Launch.slots (l : Launch) : List Nat := (List.range 32).filter fun i => l.roleOf i != 3
def Launch.entry (l : Launch) : BitVec 64 := BitVec.ofNat 64 (l.pk 63 0)
def Launch.argva (l : Launch) : BitVec 64 := BitVec.ofNat 64 (l.pk 127 64)
def Launch.mapva (l : Launch) : BitVec 64 := BitVec.ofNat 64 (l.pk 255 192)
/-- The threshold of a map: THRi, or PLTHRESH (R380, R383). -/
def Launch.thr (l : Launch) (s : State) (i : Nat) : Nat :=
  let t := l.pk (8 * i + 455) (8 * i + 448)
  if t = 0 then natBits s.q.plThresh.toNat 7 0 else t
/-- The cores of the ward. -/
def Launch.ward (l : Launch) : List Nat := (List.range 512).filter l.inWard

/-- What a dispatcher's read of a map answers. -/
inductive MapRead where
  | ok (s : State) (bytes : List (BitVec 8))
  | no
  | wait (s : State)
  | bad

/-- A dispatcher reads bytes under the queue's tables (R380). -/
def readMap (root : Nat) (priv : Bool) (key : Nat) : List (BitVec 64 × Nat) → State → MapRead
  | [], s => .ok s []
  | (va, n) :: r, s =>
    match translate s root priv va .read with
    | (_, .error .bad) => .bad
    | (_, .error _) => .no
    | (s0, .ok p) =>
      let s1 := if p.loc.own then s0.meet p.loc.pa n else s0
      if p.loc.ty = 3 ∧ !(s1.peerOk p.loc.peer p.loc.pport) then .no
      else if p.loc.own && s1.devBad p.loc.pa n then .no
      else
        match (s1.l2Pass p.loc false).locRead p.loc 0 n with
        | none => .wait (s1.askPeer key 0 0 p.loc)
        | some (s2, bs) =>
          match readMap root priv key r s2 with
          | .ok s3 bs2 => .ok s3 (bs ++ bs2)
          | q => q

/-- Every map of a packet, each as its halves (R93). -/
def readMaps (l : Launch) (key : Nat) (s : State) : MapRead :=
  readMap l.ptroot.toNat l.priv key (lineParts l.mapva (2 * l.ww * l.wh * l.nmaps)) s

/-- Check 1 of R381, but for the reading of the maps. -/
def packetOk (l : Launch) (s : State) : Bool :=
  let n := s.q.evtSize.toNat
  l.pk 2047 768 == 0 && l.pk 511 480 == 0 && l.pk 431 426 == 0 && l.pk 415 413 == 0 && l.pk 407 406 == 0 &&
  l.pk 399 396 == 0 && l.pk 391 389 == 0 && l.pk 383 372 == 0 &&
  (List.range 4).all (fun i => l.pk (64 * i + 575) (64 * i + 564) == 0 && decide ((l.dep i).1 < max n 1)) &&
  decide (l.cev < max n 1) &&
  1 ≤ l.nmaps && l.nmaps ≤ 4 &&
  vaOk l.priv l.entry && l.entry.toNat % 8 == 0 && vaOk l.priv l.mapva && l.mapva.toNat % 2 == 0

/-- The ward is legal (R91). -/
def wardOk (l : Launch) : Bool :=
  [1, 2, 4, 8, 16, 32].contains l.ww && [1, 2, 4, 8, 16].contains l.wh && l.wx % l.ww == 0 && l.wy % l.wh == 0 &&
  decide (l.wx + l.ww ≤ 32) && decide (l.wy + l.wh ≤ 16)

/-- The halves of one map. -/
def mapHalves (l : Launch) (bytes : List (BitVec 8)) (i : Nat) : List Nat :=
  let n := l.ww * l.wh
  (List.range n).map fun j => leNat ((bytes.drop (2 * (n * i + j))).take 2)

/-- The core that a half names (R93). -/
def halfCore (h : Nat) : Nat := dcidOf (natBits h 8 4) (natBits h 3 0)

/-- A map that passes R94. -/
def mapOk (l : Launch) (halves : List Nat) : Bool :=
  let cores := halves.map halfCore
  halves.all (fun h => decide (h < 512)) && cores.all l.inWard && cores.eraseDups.length == cores.length

/-- The checks 2 to 7 of R381: the status of the first that fails. -/
def dispatchCheck (l : Launch) (s : State) (bytes : List (BitVec 8)) : Option Nat :=
  if !(wardOk l) then some 0x01
  else if l.slots.isEmpty then some 0x07
  else if l.nregs % 32 ≠ 0 ∨ l.nregs < 32 ∨ 768 < l.nregs ∨ 8192 < l.slots.length * l.nregs then some 0x03
  else if 256 < l.pk 440 432 ∨ l.pk 440 432 % 16 ≠ 0 then some 0x04
  else if l.tvec ≠ 0 ∧ !(vaOk false l.tvec && l.tvec.toNat % 8 == 0) then some 0x05
  else if !((List.range l.nmaps).all fun i => mapOk l (mapHalves l bytes i)) then some 0x02
  else if !(l.ward.all fun d => s.mem.coreSvc.getLsbD d) then some 0x02
  else none

/-- The entry of an event id exists in HBM (R306). -/
def State.eventPlace (s : State) (id : Nat) : Bool := hbmRange (s.q.evtBase.toNat + 8 * id) 8

/-- The end of a launch reaches its event entry and then its lead tower's queue (R386, R387, R532). -/
def State.endRecord (s : State) (l : Launch) (status : Nat) (cause d slot lane : Nat) (data0 data1 : BitVec 64) : State :=
  let s1 := if l.cev = 0 ∨ s.q.evtSize.toNat ≤ l.cev then s else s.eventAdd l.originCore l.key l.cev 1 (status != 0)
  s1.post l.lead (mkEvent (if status = 0 then 1 else 2) status cause l.id d slot lane data0 data1)

/-- The launch's end can be recorded now: its queue has room, and its event entry exists. -/
def State.canEnd (s : State) (l : Launch) : Bool := s.eventRoom l.lead
def State.endsBadly (s : State) (l : Launch) : Bool := l.cev != 0 && decide (l.cev < s.q.evtSize.toNat) && !(s.eventPlace l.cev)

/-- A launch leaves the list. -/
def State.dropLaunch (s : State) (key : Nat) : State := { s with launches := s.launches.filter (·.key != key) }

/-- A launch that ends before it is placed (R381, R382): no thread is reported. -/
def State.refuse (s : State) (l : Launch) (status : Nat) : Out :=
  if !(s.canEnd l) then .next s
  else if s.endsBadly l then .fault .badPhysical
  else .next ((s.endRecord l status 0 l.originCore 0 0 0 0).dropLaunch l.key)

/-- The queue has given its packet at HEAD (R378). -/
def State.taken (s : State) (q : Nat) : State :=
  let x := s.qdesc q
  let s1 := s.setQdesc q (setBits x 223 192 (qdHead x + 1))
  { s1 with q := { s1.q with lastServed := q }, nextId := s1.nextId + 1 }

/-- The launch of a packet. -/
def newLaunch (s : State) (q : Nat) (x : BitVec 512) (p : BitVec 2048) : Launch :=
  { key := s.nextId, queue := q, packet := p, priv := qdPriv x, prio := min (natBits p.toNat 443 442) (qdPrio x)
    ptroot := qdRoot x, phase := .waitDeps, map := 0, maps := [], cores := [], seededAt := 0, firstAt := none
    report := none, abortAt := 0, swept := false, saved := [], savePieces := [], heldResume := [] }

/-- A taken packet joins the launches, or ends at a check (DISPATCH_CHECK, R381). -/
def dispatch (q : Nat) (l : Launch) (s : State) : Out :=
  if !(packetOk l s) then (s.taken q).refuse l 0x06
  else
    match readMaps l l.key s with
    | .bad => .fault .badPhysical
    | .wait s1 => .next s1
    | .no => (s.taken q).refuse l 0x06
    | .ok s1 bytes =>
      match dispatchCheck l s1 bytes with
      | some st => (s1.taken q).refuse l st
      | none =>
        let maps := (List.range l.nmaps).map fun i => (mapHalves l bytes i).map halfCore
        .next { s1.taken q with launches := s1.launches ++ [{ l with maps := maps }] }

/-- PACKET_TAKE (R378, R379, R381); a packet that may end at a check waits for room in the lead tower's event queue
(R387). -/
def execPacketTake (s : State) : Out :=
  if s.mgmt.stage ≠ 7 ∨ s.mgmt.ot = 3 then .next s
  else
    match s.nextQueue with
    | none => .next s
    | some q =>
      let x := s.qdesc q
      match s.readPacket x with
      | none => .fault .badPhysical
      | some (s1, p) =>
        let l := newLaunch s1 q x p
        if s1.canEnd l then dispatch q l s1 else .next s

/-! ### Dependences and maps (R382, R383) -/

/-- A dependence is met (R382). -/
def State.depMet (s : State) (x : Nat × Nat) : Bool := x.1 == 0 || decide (x.2 ≤ natBits (s.eventEntry x.1).toNat 31 0)
/-- A met dependence has failed (R382). -/
def State.depFailed (s : State) (l : Launch) (x : Nat × Nat) : Bool :=
  x.1 != 0 && (s.eventEntry x.1).getLsbD 63 && l.pk 447 447 == 0

/-- The dispatcher reads the event entries of dependences, which meets the errors of their memory (R310). -/
def State.meetDeps (s : State) (deps : List (Nat × Nat)) : State :=
  deps.foldl (fun s x => if x.1 = 0 then s else s.eventMeet x.1) s

/-- DEPENDENCE_MET (R382): a launch whose dependence cannot be read ends as if that had failed (R311; log 48). -/
def execDependenceMet (key : Nat) (s0 : State) : Out :=
  match s0.launchOf key with
  | none => .next s0
  | some l =>
    let deps := (List.range 4).map l.dep
    let s := s0.meetDeps deps
    if l.phase ≠ .waitDeps then .next s0
    else if deps.any fun x => x.1 != 0 && !(s.eventPlace x.1) then .fault .badPhysical
    else if let some x := deps.find? fun x => x.1 != 0 && s.eventBad x.1 then
      (if s.canEnd l then (s.eventRecord 1 l.originCore key x.1).refuse l 0x08 else .next s0)
    else if !(deps.all s.depMet) then .next s
    else if deps.any (s.depFailed l) then s.refuse l 0x08
    else .next (s.modLaunch key fun l => { l with phase := .waitMap s.clock })

/-- The temperature of a column in 1/16 °C: the highest of its eleven most recent readings (R26). -/
def State.columnTemp (s : State) (col : Nat) : Int :=
  (List.range 11).foldl (fun m i =>
    match find? s.mgmt.sensors (11 * col + i) with
    | some r => max m r.1.toInt
    | none => m) (-32768)

/-- The columns at or above a threshold (R383, R385). -/
def State.hotColumns (s : State) (thr : Nat) : List Nat :=
  (List.range 64).filter fun c => decide ((16 * thr : Int) ≤ s.columnTemp c)

/-- The first map whose threshold every column stays below (R383). -/
def State.coolMap (s : State) (l : Launch) : Option Nat :=
  (List.range l.nmaps).find? fun i => (s.hotColumns (l.thr s i)).isEmpty

/-- The chosen map is fixed (R95, R383). -/
def State.place (s : State) (key i : Nat) : State :=
  s.modLaunch key fun l => { l with phase := .placed, map := i, cores := l.maps.getD i [] }

/-- Every reading stands from before a cycle: what the dispatcher tests now it tested by then (R383). -/
def State.readBefore (s : State) (c : Nat) : Bool := s.mgmt.sensors.all fun r => decide (r.2.2 < c)

/-- MAP_CHOICE (R95, R383): a map qualifies within 1 ms of the moment at which the dependences were met. -/
def execMapChoice (key : Nat) (s : State) : Out :=
  match s.launchOf key with
  | none => .next s
  | some l =>
    match l.phase, s.coolMap l with
    | .waitMap since, some i =>
      .next (if s.clock < since + msCycles || s.readBefore (since + msCycles) then s.place key i else s)
    | _, _ => .next s

/-- THERMAL_FORCED (R383, R385, R387): no map qualified within 1 ms. -/
def execThermalForced (key : Nat) (s : State) : Out :=
  match s.launchOf key with
  | none => .next s
  | some l =>
    match l.phase with
    | .waitMap since =>
      if s.clock < since + msCycles ∨ ((s.coolMap l).isSome ∧ s.readBefore (since + msCycles)) then .next s
      else
        let thr := l.thr s 0
        let mask := (s.hotColumns thr).foldl (fun m c => m + 2 ^ c) 0
        .next ((s.place key 0).postOrWait l.lead
          (mkEvent 5 0x20 0 l.id l.originCore 0 0 (BitVec.ofNat 64 mask) (BitVec.ofNat 64 thr)))
    | _ => .next s

/-! ### Placement and seeding (R98, R296, R301, R384) -/

/-- Two launches need a common core. -/
def Launch.meets (l x : Launch) : Bool := l.cores.any x.cores.contains

/-- No launch holds any core of this one (R384). -/
def State.coresFree (s : State) (l : Launch) : Bool := l.cores.all fun d => (s.core d).launch.isNone

/-- Another launch comes first on a core that this one needs (R384): one of higher priority that waits for its cores, or a
pre-empted one, of at least this priority for a new launch. -/
def State.outranked (s : State) (l : Launch) : Bool :=
  s.launches.any fun x => x.key != l.key && l.meets x &&
    ((x.phase == .placed && decide (l.prio < x.prio)) ||
     (x.phase == .preempted && (decide (l.prio < x.prio) || (l.phase == .placed && l.prio == x.prio))))

/-- What R301 and R303 compare: partition, fused flag, ward. -/
def Launch.part (l : Launch) : Nat × Bool × Nat × Nat × Nat × Nat :=
  (l.pk 440 432, l.pk 441 441 == 1, l.wx, l.wy, l.ww, l.wh)

/-- The lines of an L1 survive the change to another launch (R301, R303). -/
def keepsL1 (a : Option (Nat × Bool × Nat × Nat × Nat × Nat)) (b : Nat × Bool × Nat × Nat × Nat × Nat) : Bool :=
  match a with
  | none => true
  | some a => a.1 == b.1 && a.2.1 == b.2.1 && (!b.2.1 || a == b)

/-- PARTITION_WRITEBACK (R301) on one core: dirty lines go to their L2 slices, or to their arcades, and every line falls. -/
def emptyL1 (d : Nat) (s : State) : State :=
  (((s.core d).l1.filter (·.2)).foldl (fun s e => s.l2Fill e.1 true) s).modCore d fun c => { c with l1 := [] }

/-- The partition of a core changes to that of a launch (R301). -/
def State.repartition (s : State) (l : Launch) (d : Nat) : State :=
  let s1 := if keepsL1 (s.core d).lastPart l.part then s else emptyL1 d s
  s1.modCore d fun c => { c with lastPart := some l.part }

/-- A core that no launch holds: its cache tags, TLB, halts and debug enable stay. -/
def Core.freed (c : Core) : Core :=
  { Core.reset with l1 := c.l1, tlb := c.tlb, lastPart := c.lastPart, bad := c.bad, halted := c.halted, halting := c.halting
                    haltSrc := c.haltSrc, debugHalt := c.debugHalt }

/-- A thread at seeding (R98). -/
def seedThread (l : Launch) : Thread :=
  { pc := l.entry, v := [], p := 0, k := [], mode := 0, status := 0, epc := 0, ecause := 0, einfo := 0, run := .ready
    resume := .ready, waitCtr := 0, yielded := false, wait := none, wake := 0, tabPc := l.entry, lateFlags := none, pend := []
    dtraps := [], acqAt := 0, freed := none, readyAt := 0 }

/-- A role code of the packet (R380). -/
def roleOfCode : Nat → Role
  | 0 => .c | 1 => .m | _ => .v

/-- A warp at seeding (R98). -/
def seedWarp (l : Launch) (wg slot : Nat) : Warp :=
  { role := roleOfCode (l.roleOf slot)
    w := putD (putD [] 768 l.argva 0) 769 (BitVec.ofNat 64 wg) 0
    b := [], lgp := 5, ctbank := 0, ct := [], pend := [], toggles := [], susp := none
    threads := List.replicate 32 (seedThread l) }

/-- A core at seeding (R98, R296): the whole partition is zeroed. -/
def seedCore (l : Launch) (wg : Nat) (c : Core) : Core :=
  let c1 := { c.freed with launch := some l.key, wg := wg, warps := l.slots.map fun i => (i, seedWarp l wg i)
                           bad := c.bad.filter fun u => decide (l.scratchBytes ≤ u) }
  c1.pctUpdate

/-- LAUNCH_SEED (R98, R296, R301, R384): every core is free, and no launch comes first. -/
def execLaunchSeed (key : Nat) (s : State) : Out :=
  match s.launchOf key with
  | none => .next s
  | some l =>
    if l.phase ≠ .placed ∨ s.mgmt.ot = 3 ∨ !(s.coresFree l) ∨ s.outranked l then .next s
    else
      let s1 := l.cores.zipIdx.foldl (fun s dw =>
        (s.repartition l dw.1).modCore dw.1 (seedCore l dw.2)) s
      .next (s1.modLaunch key fun l => { l with phase := .running, seededAt := s.clock })

/-! ### Pre-emption (R114 to R116, R384) -/

/-- Save pool bytes that a launch needs (R384). -/
def Launch.saveNeed (l : Launch) : Nat := 0x200000 * l.cores.length

/-- Save pool bytes in use (R384). -/
def State.poolUsed (s : State) : Nat :=
  s.launches.foldl (fun n l => if l.phase = .preempting ∨ l.phase = .preempted then n + l.saveNeed else n) 0

/-- The command of an ATQ lane that has left its engine waits at this requester for a port that reaches its peer (R115, R429). -/
def State.cmdWaits (s : State) (d : Nat) (o : Op) (lane : Nat) : Bool :=
  s.fab.outbox.any fun m => m.isOf s d o.id && m.lane == lane && (s.route m.peer m.pport).isNone &&
    (match m.msg with | .atqCommand .. => true | _ => false)

/-- The command of an ATQ lane is held for a peer that no port reaches, or parked on a page that is missing (R115, R146). -/
def laneCut (s : State) (parks : List (Nat × BitVec 32)) (a : LaneAcc) : Bool :=
  match a.va, a.loc with
  | some _, some p => (s.route p.peer p.pport).isNone
  | some va, none => parks.any (·.1 == va.toNat / 65536)
  | none, _ => false

/-- An operation that cannot finish without help from outside the ward (R115). -/
def needsHelp (s : State) (d : Nat) (o : Op) : Bool :=
  o.parked.isSome ||
  (match o.body with
  | .atq _ _ _ _ _ tosend sent parks => tosend.any (laneCut s parks) || sent.any fun x => s.cmdWaits d o x.2.lane
  | .coll .. => true
  | _ => false)

/-- The launch may be pre-empted (R115). -/
def State.mayPreempt (s : State) (l : Launch) : Bool :=
  l.cores.all fun d => !((s.core d).ops.any (needsHelp s d)) && !((s.core d).warps.any fun w => w.2.susp.isSome)

/-- The launch to pre-empt (R384): of the lower-priority launches that hold a core which is needed, the one seeded last
among those that R115 permits. -/
def State.victim (s : State) (l : Launch) : Option Launch :=
  (s.launches.filter fun x =>
    x.phase == .running && decide (x.prio < l.prio) && (l.cores.any fun d => (s.core d).launch == some x.key) && s.mayPreempt x).foldl
    (fun b x =>
      match b with
      | none => some x
      | some y => if y.seededAt ≤ x.seededAt then some x else some y) none

/-- Every core of a launch. -/
def State.modCores (s : State) (l : Launch) (f : Core → Core) : State := l.cores.foldl (fun s d => s.modCore d f) s

/-- PREEMPT (R114 step 1, R384): `key` waits for cores; its victim's ports form no more groups. -/
def execPreempt (key : Nat) (s : State) : Out :=
  match s.launchOf key with
  | none => .next s
  | some l =>
    if l.phase ≠ .placed ∧ l.phase ≠ .preempted then .next s
    else
      match s.victim l with
      | none => .next s
      | some x =>
        if s.q.saveSize.toNat < s.poolUsed + x.saveNeed then .next s
        else .next ((s.modLaunch x.key fun l => { l with phase := .preempting }).modCores x fun c => { c with stopped := true })

/-- A thread is saved (R101, R114, R136). -/
def Thread.save (clock : Nat) (t : Thread) : Thread :=
  match t.run with
  | .exited => t
  | .suspended => t
  | _ => { t with run := .saved, resume := t.run, wake := if t.run = .sleeping then t.wake - clock else t.wake }

/-- A thread is restored (R116). -/
def Thread.unsave (clock : Nat) (t : Thread) : Thread :=
  if t.run = .saved then
    { t with run := t.resume, wake := if t.resume = .sleeping then clock + t.wake else t.wake }
  else t

def Core.mapThreads (c : Core) (f : Thread → Thread) : Core :=
  { c with warps := c.warps.map fun w => (w.1, { w.2 with threads := w.2.threads.map f }) }

/-- The reservations of a core go back to its tower (R474). -/
def State.giveBack (s : State) (d : Nat) : State :=
  let r := (s.core d).reserve
  (r.foldl (fun s br => s.modTower (towerOf d) fun t =>
    { t with tokens := put t.tokens br.1 (satAdd (findD t.tokens br.1 0) br.2 (Config.bucketCap br.1)) }) s).modCore d
    fun c => { c with reserve := [] }

/-- One core of a pre-empted launch is saved and released (R114 steps 3 and 4). -/
def saveCore (key : Nat) (s : State) (d : Nat) : State :=
  let s1 := s.giveBack d
  let c := (s1.core d).mapThreads (·.save s.clock)
  (s1.modLaunch key fun l => { l with saved := put l.saved d c }).setCore d c.freed

/-- Pieces of the save pool that no pre-empted launch uses, as many as a launch has cores (R384). -/
def State.freePieces (s : State) (l : Launch) : List Nat :=
  let used := s.launches.flatMap (·.savePieces)
  ((List.range (used.length + l.cores.length)).filter fun i => !(used.contains i)).take l.cores.length

/-- The bytes of a piece of a context area: R114 leaves its layout open, so each is a free value (log 12). -/
def saveBytes (s : State) (piece : Nat) : List (BitVec 8) :=
  (List.range 0x200000).map fun i => BitVec.ofNat 8 (Config.freeBits s.free (0x200000 * piece + i))

/-- The ward is written to the launch's context area (R114 step 3). -/
def State.writeArea (s : State) (key : Nat) (pieces : List Nat) : State :=
  let s1 := pieces.foldl (fun s p => s.devWrite (s.q.saveBase.toNat + 0x200000 * p) (saveBytes s p)) s
  { s1 with free := s1.free + 1 }.modLaunch key fun l => { l with savePieces := pieces }

/-- PREEMPT_SAVE (R114): the runs have ended, and every operation has completed. -/
def execPreemptSave (key : Nat) (s : State) : Out :=
  match s.launchOf key with
  | none => .next s
  | some l =>
    if l.phase ≠ .preempting ∨ !(l.cores.all fun d => (s.core d).quiet) then .next s
    else
      .next ((l.cores.foldl (saveCore key) (s.writeArea key (s.freePieces l))).modLaunch key fun l =>
        { l with phase := .preempted })

/-- One core of a pre-empted launch comes back (R116, R301). -/
def restoreCore (l : Launch) (s : State) (d : Nat) : State :=
  let s1 := s.repartition l d
  let c := s1.core d
  let x := (findD l.saved d Core.reset).mapThreads (·.unsave s.clock)
  s1.setCore d { x with l1 := c.l1, tlb := c.tlb, lastPart := c.lastPart, bad := x.bad, halted := c.halted, pct := []
                        halting := c.halting, haltSrc := c.haltSrc, debugHalt := c.debugHalt, stopped := false }.pctUpdate

/-- LAUNCH_RESUME (R116, R384): held RESUME writes are applied (R413). -/
def execLaunchResume (key : Nat) (s : State) : Out :=
  match s.launchOf key with
  | none => .next s
  | some l =>
    if l.phase ≠ .preempted ∨ s.mgmt.ot = 3 ∨ !(s.coresFree l) ∨ s.outranked l then .next s
    else
      let s1 := (l.cores.foldl (restoreCore l) s).modLaunch key fun l =>
        { l with phase := .running, saved := [], savePieces := [], heldResume := [] }
      .next (l.heldResume.foldl (fun s r => s.resumeWrite r.1 r.2) s1)

/-! ### The end of a launch (R134, R146, R386, R474) -/

/-- Nothing that a launch issued is under way, and its threads are exited. -/
def Core.over (c : Core) : Bool :=
  c.ops.isEmpty && c.issueOrder.isEmpty && c.press.isNone && c.warps.all fun w => w.2.threads.all fun t => t.run == .exited

/-- A core of a launch that ends is released: its registers hold what they held (R151, R486). -/
def State.release1 (l : Launch) (s : State) (d : Nat) : State :=
  let s1 := (s.giveBack d).modCore d fun c => { c.freed with warps := c.warps }
  { s1 with ran := put s1.ran d { l with saved := [] } }

/-- LAUNCH_END (R134): OK, or CVRPEND where a register is still signing. -/
def execLaunchEnd (key : Nat) (s : State) : Out :=
  match s.launchOf key with
  | none => .next s
  | some l =>
    if l.phase ≠ .running ∨ !(l.cores.all fun d => (s.core d).over) ∨ !(s.canEnd l) then .next s
    else if s.endsBadly l then .fault .badPhysical
    else
      let pending := l.cores.any fun d => (s.core d).cvr.any fun v => v.2.st == .signing
      let s1 :=
        if pending then s.endRecord l 0x0A 0 l.originCore 0 0 0 0
        else s.endRecord l 0 0 l.originCore 0 0 (BitVec.ofNat 64 (l.firstAt.getD 0)) (BitVec.ofNat 64 s.clock)
      .next ((l.cores.foldl (State.release1 l) s1).dropLaunch key)

/-- The command of an ATQ lane is held for an unreachable peer, a missing page or a credit (R146). -/
def laneHeld (s : State) (d : Nat) (parks : List (Nat × BitVec 32)) (a : LaneAcc) : Bool :=
  laneCut s parks a || a.loc.any fun p => !(s.atqCredit d p.peer)

/-- A launch that the ordered shutdown ends (R524): its runs finish, and what has begun goes on. -/
def Launch.shutting (l : Launch) : Bool :=
  match l.phase with
  | .ending status _ => status == 0x0E
  | _ => false

/-- The operation waits for its tokens (R471). -/
def Op.gated (o : Op) : Bool :=
  match o.body with
  | .copy _ _ granted => !granted
  | .coll _ _ _ _ _ _ _ _ granted => !granted
  | .adm _ _ _ granted => !granted
  | _ => false
def MatOp.gated (o : MatOp) : Bool := o.cost != 0 && !o.granted

/-- A COLL that ends takes no tokens (R146). -/
def Op.tokenless (o : Op) : Op :=
  { o with parked := none
           body := match o.body with
             | .coll dom ix va r ib ob bar _ _ => .coll dom ix va r ib ob bar 0 true
             | b => b }

/-- What an abort leaves of an operation (R146): none where it is abandoned at once. The ordered shutdown drops only what
waits at a gate (R524). -/
def keepOp (s : State) (l : Launch) (d : Nat) (o : Op) : Option Op :=
  if l.shutting then (if o.gated then none else some o)
  else
  match o.body with
  | .atq opc fmt ord slot bar tosend sent parks =>
    let rest := tosend.filter fun a => !(laneHeld s d parks a)
    if rest.isEmpty && sent.isEmpty then none
    else some { o with parked := none, body := .atq opc fmt ord slot bar rest sent [] }
  | .coll .. => some o.tokenless
  | _ => if o.parked.isSome || o.gated then none else some o

/-- Every COLL of a core of an aborted launch ends with status ABORTED, and the other members hear of it (R146, R452). -/
def abortColls (d : Nat) (s : State) : State :=
  (s.core d).ops.foldl (fun s o =>
    match o.body with
    | .coll dom ix .. =>
      let x := s.domain dom
      let s1 :=
        match x.coll? ix with
        | some _ => s.collAbort dom ix
        | none => s.setDomain dom { x with colls := x.colls ++ [endingColl d o ix 4] }
      s1.tell x x.self (.stopped dom x.gen.toNat ix x.self)
    | _ => s) s

/-- One core of a launch that aborts (R146): its threads wait no longer (R456), and what waited at the gates of its tower leaves them. A COLL that the shutdown drops leaves its
domain. -/
def sweepCore (l : Launch) (s : State) (d : Nat) : State :=
  let c0 := s.core d
  let s0 := if l.shutting then
      (c0.ops.filter Op.gated).foldl (fun s o =>
        match o.body with
        | .coll dom ix .. => s.dropColl dom ix 4
        | _ => s) s
    else s
  let s1 := s0.modCore d fun c =>
    { c.mapThreads fun t => { t with run := .exited, wait := none, dtraps := [] } with
      ports := []
      ops := c.ops.filterMap (keepOp s l d)
      issueOrder := c.issueOrder.filter fun o => !o.gated }
  let s2 := s1.modTower (towerOf d) fun t =>
    { t with gates := t.gates.filterMap fun g =>
        let r := g.2.filter fun q => q.2.1 != d
        if r.isEmpty then none else some (g.1, r) }
  let s3 := c0.awaited.foldl (fun s x => s.syncWait x.1 x.2) s2
  ((if l.shutting then s3 else abortColls d s3).modCore d fun c => { c with warps := c.warps.map fun w => (w.1, { w.2 with susp := none }) }).modCore d
    Core.pctUpdate

/-- The frames of a launch's suspended warps, in its cores or saved (R146). -/
def State.framesOf (s : State) (l : Launch) : List (BitVec 64) :=
  (l.cores.flatMap fun d => (s.core d).warps.filterMap fun w =>
    if (s.core d).launch = some l.key then w.2.susp.map (·.frame) else none) ++
  (l.saved.flatMap fun c => c.2.warps.filterMap fun w => w.2.susp.map (·.frame))

/-- Frames go back to the pool (R146, R414). -/
def returnFrames : List (BitVec 64) → State → Option State
  | [], s => some s
  | f :: r, s =>
    if f = 0 then returnFrames r s
    else
      match s.pushFrame f with
      | some s1 => returnFrames r s1
      | none => none

/-- The faults of a launch are no longer outstanding (R146): a later RESUME that names one is counted. -/
def State.dropFaults (s : State) (key : Nat) : State :=
  let drop := fun (r : FaultRec) => if r.launch = key then { r with outstanding := false, op := none } else r
  { s with q := { s.q with faults := (s.q.faults.map drop).filter fun r => !(r.launch == key && r.written) } }

/-- The sweep of an abort (R146): threads exited, frames returned, and what is abandoned at once dropped. -/
def State.sweep (s : State) (l : Launch) : Option State :=
  if l.swept then some s
  else
    match returnFrames (s.framesOf l) s with
    | none => none
    | some s1 =>
      let mine := l.cores.filter fun d => (s1.core d).launch == some l.key
      let s2 := (mine.foldl (sweepCore l) s1).dropFaults l.key
      some (s2.modLaunch l.key fun l => { l with swept := true })

/-- The command of a tag is dropped unsent: its lane is answered by nobody (R146). -/
def dropTag (tag : Nat) (o : Op) : Op :=
  match o.body with
  | .atq opc fmt ord slot bar tosend sent parks =>
    { o with body := .atq opc fmt ord slot bar tosend (sent.filter (·.1 != tag)) parks }
  | _ => o
/-- An ATQ of which nothing is left. -/
def Op.atqEmpty (o : Op) : Bool :=
  match o.body with
  | .atq _ _ _ _ _ tosend sent _ => tosend.isEmpty && sent.isEmpty
  | _ => false

/-- One message of an aborted launch that waits for a peer that no port reaches is dropped (R146, R429). -/
def State.dropMsg (s : State) (m : OutMsg) : State :=
  match m.msg with
  | .peerRead pa => { s with fab := { s.fab with peerReads := s.fab.peerReads.eraseP (·.1 == peerKey m.peer m.pport pa) } }
  | .peerWrite .. => { s with fab := { s.fab with unperformed := s.fab.unperformed.erase m } }
  | .atqCommand _ cmd =>
    let tag := atqTag cmd
    { s with cores := s.cores.map fun c =>
               if c.2.launch = some m.launch then
                 (c.1, { c.2 with ops := (c.2.ops.map fun o => if o.id = m.op then dropTag tag o else o).filter fun o =>
                   !(o.id == m.op && o.atqEmpty) })
               else c
             fab := { s.fab with tags := s.fab.tags.eraseP (·.1 == tag) } }
  | _ => s

/-- What a launch that aborts has waiting for a peer that no port reaches is dropped (R429): such a write is never performed, such a
command is never applied, and such a read may be asked for again. -/
def State.dropOutbox (s : State) (key : Nat) : State :=
  (s.fab.outbox.filter (·.launch == key)).foldl State.dropMsg
    { s with fab := { s.fab with outbox := s.fab.outbox.filter (·.launch != key) } }

/-- The record of a launch that aborts (R146, R385, R532). -/
def State.abortRecord (s : State) (l : Launch) (status cause : Nat) : State :=
  match status, l.report with
  | 9, some (d, slot, lane, epc, info) => s.endRecord l 9 cause d slot lane epc info
  | st, _ => s.endRecord l st 0 l.originCore 0 0 0 0

/-- LAUNCH_ABORT (R146): the sweep, and once every operation that goes on has completed, one record and the end. -/
def execLaunchAbort (key : Nat) (s : State) : Out :=
  match s.launchOf key with
  | none => .next s
  | some l =>
    match l.phase with
    | .ending status cause =>
      if l.shutting && l.cores.any fun d => (s.core d).launch == some key && (s.core d).ports.any (·.2.active) then .next s
      else
      match (s.dropOutbox key).sweep l with
      | none => .fault .badPhysical
      | some s1 =>
        let mine := l.cores.filter fun d => (s1.core d).launch == some l.key
        if !(mine.all fun d => (s1.core d).over) ∨ !(s1.canEnd l) then .next s1
        else if s1.endsBadly l then .fault .badPhysical
        else .next ((mine.foldl (State.release1 l) (s1.abortRecord l status cause)).dropLaunch key)
    | _ => .next s

/-- ABORT (R146, R374): every launch with this id that has been taken and has not ended. -/
def execAbort (id : BitVec 32) (s : State) : Out :=
  .next ((s.launches.filter fun l => l.id == id.toNat).foldl (fun s l =>
    s.abortBy l.key 0x0D 0 l.originCore 0 0 0 0) s)

/-! ### Events (R385 to R387) -/

/-- EVSIGNAL (R375, R386). -/
def execEvsignal (v : BitVec 64) (s : State) : Out :=
  let id := natBits v.toNat 51 32
  if id = 0 then .next s
  else if s.q.evtSize.toNat ≤ id then .next s.cfgIgnored
  else if !(s.eventPlace id) then .fault .badPhysical
  else .next (s.eventAdd 0 0 id (natBits v.toNat 31 0) (v.getLsbD 63))

/-- The registers of the host event ring (R374): 0 BASE, 1 SIZE, 2 HEAD, 3 TAIL, 4 LOST. -/
def State.hev (s : State) (i : Nat) : Nat := (findD s.q.hev i 0).toNat
def State.setHev (s : State) (i : Nat) (v : BitVec 64) : State := { s with q := { s.q with hev := putD s.q.hev i v 0 } }

/-- A record that waited for room in a tower's event queue is posted (R387). -/
def State.postHeld (s : State) (t : Nat) : State :=
  match (s.tower t).posting with
  | r :: rest => if s.eventRoom t then (s.modTower t fun w => { w with posting := rest }).post t r else s
  | [] => s

/-- EVENT_RECORD_COPY (R387; HEVTAIL counts modulo 2^32, log 69): the oldest record of a tower's queue goes to the host ring, or is dropped from it. -/
def execEventRecordCopy (t : Nat) (s : State) : Out :=
  match (s.tower t).events with
  | [] => .next s
  | r :: rest =>
    let s1 := (s.modTower t fun w => { w with events := rest }).postHeld t
    let size := s.hev 1
    let head := s.hev 2
    let tail := s.hev 3
    if size < 4 ∨ 16 < size ∨ (tail + 2 ^ 64 - head) % 2 ^ 32 = 2 ^ size then
      .next (s1.setHev 4 (BitVec.ofNat 64 (satAdd (s.hev 4) 1 (2 ^ 64 - 1))))
    else
      let s2 := (s1.hostWrite (s.hev 0 + 32 * (tail % 2 ^ size)) (leBytes 32 r.toNat)).setHev 3
        (BitVec.ofNat 64 ((tail + 1) % 2 ^ 32))
      .next (if head % 2 ^ 32 = tail % 2 ^ 32 then s2.msi 0 else s2)

end Sys2Proof.Machine
end

