-- ==== Sys2Proof/Machine/Host.lean ====
section
/-! DEFINITION. What the host does to the device: writes to the registers of BAR0 (15 R374, R375; 16 R415, R423; 17 R435,
R436; 18 R476; 25 R513) and BAR4 (25 R515), accesses through BAR2 (R514), the cadastre's enable (16 R423); and the
errors that arise in memories and on channel dies (12 R310, 01 R18). -/

namespace Sys2Proof.Machine

open Sys2Proof

/-! ### The cadastre's enable (R423) -/

/-- Physical bytes of zeros, or of the block numbers, that KVEN writes. -/
def zeros (n : Nat) : List (BitVec 8) := List.replicate n 0

/-- KVEN_ENABLE (R423): the table, the counts and the free queue are initialised. -/
def execKvenEnable (s : State) : Out :=
  let c := s.cad
  let n := c.n.toNat
  let b := c.bkt.toNat
  if c.en then .next s
  else if n < 1 ∨ 2 ^ 22 < n ∨ b < 4 ∨ 24 < b ∨ c.va.toNat % 65536 ≠ 0 then .next s.cfgIgnored
  else if !(hbmRange c.tab.toNat (128 * 2 ^ b) && hbmRange c.ref.toNat (2 * n) && hbmRange c.fq.toNat (4 * n)) then
    .fault .badPhysical
  else
    let s1 := ((s.devWrite c.tab.toNat (zeros (128 * 2 ^ b))).devWrite c.ref.toNat (zeros (2 * n))).devWrite c.fq.toNat
      ((List.range n).flatMap (leBytes 4))
    .next { s1 with cad := { c with en := true, free := n, head := 0 } }

/-- KVEN_DISABLE (R423). -/
def execKvenDisable (s : State) : Out := .next { s with cad := { s.cad with en := false } }

/-! ### BAR2 (R513, R514) -/

def State.bar2Size (s : State) : Nat := 2 ^ (30 + s.mem.bar2Log)

/-- The lines of device memory that hold some of `n` bytes at `a` pass L2 (R305). -/
def State.passLines (s : State) (wr : Bool) (a n : Nat) : State :=
  (List.range ((a + n + 127) / 128 - a / 128)).foldl (fun s i =>
    let line := (a / 128 + i) * 128
    if devValid line then s.l2Pass (devLoc line) wr else s) s

/-- Bytes that the host writes at a physical address: those outside R306 are discarded (R514). -/
def State.windowWrite (s : State) (a : Nat) (bs : List (BitVec 8)) : State :=
  let s1 := s.passLines true a bs.length
  if bs.zipIdx.all fun b => devValid (a + b.2) then s1.devWrite a bs
  else bs.zipIdx.foldl (fun s b => if devValid (a + b.2) then s.devWrite (a + b.2) [b.1] else s) s1

/-- BAR2_WRITE (R514). -/
def execBar2Write (off : Nat) (bytes : List (BitVec 8)) (s : State) : Out :=
  .next (if off + bytes.length ≤ s.bar2Size then s.windowWrite (s.mem.w2base.toNat + off) bytes else s)

/-- A byte that the host reads (R514): all ones outside R306; of a unit with an uncorrectable error, which is never
passed on as data (R311), a free value. -/
def windowByte (s : State) (a : Nat) : BitVec 8 :=
  if !(devValid a) then 0xFF
  else if s.devBad a 1 then BitVec.ofNat 8 (Config.freeBits s.free a)
  else s.mem.readByte a

/-- BAR2_READ (R514): the bytes go to the host. -/
def execBar2Read (off size : Nat) (s : State) : Out :=
  let a := s.mem.w2base.toNat + off
  let s1 := (s.meet a size).passLines false a size
  let bytes := (List.range size).map fun i => windowByte s (a + i)
  .next (if off + size ≤ s.bar2Size then { s1 with mem := { s1.mem with hostRead := bytes }, free := s.free + 1 } else s)

/-- BAR2_RESIZE (R512, R513). -/
def execBar2Resize (log2GiB : Nat) (s : State) : Out :=
  if 6 < log2GiB then .next s
  else
    let base := s.mem.w2base.toNat / 2 ^ (30 + log2GiB) * 2 ^ (30 + log2GiB)
    .next { s with mem := { s.mem with bar2Log := log2GiB, w2base := BitVec.ofNat 64 base } }

/-! ### Registers of BAR0 -/

/-- The registers of BAR0 that a host write can reach. -/
inductive Reg where
  | desc (q : Nat) | bell (q : Nat)
  | evtBase | evtSize | hev (i : Nat) | hfl (i : Nat) | saveBase | saveSize | evsignal | plThresh | abort | cfgIgn
  | ctxBase | ctxCap | ctxCount | ctxAdd | resume | sync
  | kven | kvn | kvbkt | kvtab | kvref | kvfq | kvva
  | link (p : Nat) | devid | dom0 (d : Nat) | member (d m : Nat)
  | w2base | hbmEcc (h : Nat) | eccBase (t : Nat) | eccControl (t : Nat) | pcfg (i : Nat) | pval (i : Nat)
  deriving DecidableEq, Repr

/-- The register that covers an offset of BAR0, its own offset and its width in bytes (R374, R415, R423, R435, R436, R476,
R513). Read-only registers and unassigned offsets have none: writes to them are ignored (R512). -/
def regAt (o : Nat) : Option (Reg × Nat × Nat) :=
  let one := fun (r : Reg) (base w : Nat) => if base ≤ o ∧ o < base + w then some (r, base, w) else none
  let many := fun (f : Nat → Reg) (base stride n w : Nat) =>
    if base ≤ o ∧ o < base + stride * n ∧ (o - base) % stride < w then
      some (f ((o - base) / stride), base + (o - base) / stride * stride, w)
    else none
  one .w2base 0x8 8 <|> many .desc 0x100000 0x40 64 64 <|> many .bell 0x200000 0x1000 64 4 <|>
  one .evtBase 0x110000 8 <|> one .evtSize 0x110008 4 <|> many .hev 0x110010 8 3 8 <|> many .hfl 0x110040 8 3 8 <|>
  one .saveBase 0x110080 8 <|> one .saveSize 0x110088 8 <|> one .evsignal 0x1100C0 8 <|> one .plThresh 0x110100 4 <|>
  one .abort 0x110108 4 <|> one .cfgIgn 0x110110 4 <|>
  one .ctxBase 0x110200 8 <|> one .ctxCap 0x110208 4 <|> one .ctxCount 0x110210 4 <|> one .ctxAdd 0x110218 8 <|>
  one .resume 0x110220 8 <|> one .sync 0x110230 8 <|>
  one .kven 0x110300 4 <|> one .kvn 0x110308 4 <|> one .kvbkt 0x110310 4 <|> one .kvtab 0x110318 8 <|>
  one .kvref 0x110320 8 <|> one .kvfq 0x110328 8 <|> one .kvva 0x110330 8 <|>
  many .link 0x110400 0x10 16 16 <|> one .devid 0x110500 4 <|> many .dom0 0x111000 0x400 8 8 <|>
  (if 0x111000 ≤ o ∧ o < 0x113000 ∧ 0x100 ≤ o % 0x400 ∧ o % 0x400 < 0x200 then
    some (.member ((o - 0x111000) / 0x400) ((o % 0x400 - 0x100) / 4), o / 4 * 4, 4) else none) <|>
  many .hbmEcc 0x130100 0x10 8 8 <|> many .eccBase 0x130180 0x10 4 8 <|> many .eccControl 0x1301C0 0x10 4 8 <|>
  many .pcfg 0x140000 0x10 16384 8 <|> many .pval 0x140008 0x10 16384 8

/-- The current value of a register, into which a narrower write puts its bytes; write-only registers read 0. -/
def Reg.cur (s : State) : Reg → Nat
  | .desc q => (s.qdesc q).toNat
  | .evtBase => s.q.evtBase.toNat
  | .evtSize => s.q.evtSize.toNat
  | .hev i => s.hev i
  | .hfl i => s.hfl i
  | .saveBase => s.q.saveBase.toNat
  | .saveSize => s.q.saveSize.toNat
  | .plThresh => s.q.plThresh.toNat
  | .cfgIgn => s.q.cfgIgn.toNat
  | .ctxBase => s.ctx.base.toNat
  | .ctxCap => s.ctx.cap.toNat
  | .kven => if s.cad.en then 1 else 0
  | .kvn => s.cad.n.toNat
  | .kvbkt => s.cad.bkt.toNat
  | .kvtab => s.cad.tab.toNat
  | .kvref => s.cad.ref.toNat
  | .kvfq => s.cad.fq.toNat
  | .kvva => s.cad.va.toNat
  | .devid => s.fab.devid.toNat
  | .dom0 d => (s.domain d).reg0.toNat
  | .member d m => ((s.domain d).member m).toNat
  | .w2base => s.mem.w2base.toNat
  | .hbmEcc h => (findD s.mem.hbmEcc h 0).toNat
  | .eccBase t => (s.tower t).eccBase.toNat
  | .eccControl t => (s.tower t).eccControl.toNat
  | .pcfg i => (findD s.mem.pcfg i 0).toNat
  | .pval i => (findD s.mem.pval i 0).toNat
  | _ => 0

/-- Whether a write may give a register this value (R375); the others have no stated range. -/
def Reg.inRange (s : State) (v : Nat) : Reg → Bool
  | .evtBase => v % 4096 == 0 && inHbm v
  | .evtSize => 1 ≤ v && v ≤ 2 ^ 20
  | .hev 0 => v % 4096 == 0
  | .hev 1 => 4 ≤ v && v ≤ 16
  | .hfl 0 => v % 4096 == 0
  | .hfl 1 => 4 ≤ v && v ≤ 16
  | .saveBase => v % 0x200000 == 0 && hbmRange v s.q.saveSize.toNat
  | .saveSize => v % 0x200000 == 0 && hbmRange s.q.saveBase.toNat v
  | .ctxBase => s.ctx.count == 0 && v % 4096 == 0 && inHbm v
  | .ctxCap => s.ctx.count == 0 && 1 ≤ v && v ≤ 65536
  | .kvn => !s.cad.en && 1 ≤ v && v ≤ 2 ^ 22
  | .kvbkt => !s.cad.en && 4 ≤ v && v ≤ 24
  | .kvtab | .kvref | .kvfq => !s.cad.en && v % 4096 == 0 && inHbm v
  | .kvva => !s.cad.en && v % 65536 == 0 && vaForm (BitVec.ofNat 64 v)
  | .devid => v != 0
  | .w2base => v % s.bar2Size == 0
  | _ => true

/-- Fields of a disabled descriptor may take these values (R375, R377): a field is checked where it changes. -/
def descFieldsOk (old new : BitVec 512) : Bool :=
  let same := fun (hi lo : Nat) => natBits old.toNat hi lo == natBits new.toNat hi lo
  (same 131 128 || (1 ≤ natBits new.toNat 131 128 && natBits new.toNat 131 128 ≤ 12)) &&
  (same 127 64 || ((qdRoot new).toNat % 32768 == 0 && hbmRange (qdRoot new).toNat 32768)) &&
  (same 63 0 || (qdBase new % 256 == 0 && (qdLoc new || inHbm (qdBase new))))

/-- A write to a launch queue descriptor (R375, R377). -/
def writeDesc (q v : Nat) (s : State) : Out :=
  let old := s.qdesc q
  let new := BitVec.ofNat 512 v
  if qdEn new then execQueueEnable q new s
  else if qdEn old then
    let others := fun (x : BitVec 512) => (natBits x.toNat 511 256, natBits x.toNat 191 140, natBits x.toNat 137 0)
    execQueueDisable q (if others old = others new then s else s.cfgIgnored)
  else if descFieldsOk old new then
    let keep := setBits (setBits (setBits new 511 256 0) 191 140 0) 135 134 0
    .next (s.setQdesc q (setBits (setBits (setBits keep 255 224 (qdTail old)) 223 192 (qdHead old)) 139 139 (natBits old.toNat 139 139)))
  else .next s.cfgIgnored

/-- A write to dword 0 of a domain table (R436, R437); `en` tells that the write covers EN. -/
def writeDom (d v : Nat) (en : Bool) (s : State) : Out :=
  let x := s.domain d
  let n := natBits v 46 40
  let s1 := if x.en then s else s.setDomain d { x with n := n }
  if !en then .next s1
  else if v.testBit 63 then execDomainEnable d s1
  else execDomainDisable d s1

/-- Clear a counter whose bytes the write covers and zeroes (R476). -/
def clearEcc (old : BitVec 64) (v : Nat) (cover : Nat → Bool) : BitVec 64 :=
  let hit := fun (lo n : Nat) => ((List.range n).all fun i => cover (lo + i)) && natBits v (8 * (lo + n) - 1) (8 * lo) == 0
  let a := if hit 0 4 then setBits old 31 0 0 else old
  if hit 4 2 then setBits a 47 32 0 else a

/-- A register takes a value within its range. -/
def Reg.store (v : Nat) (cover : Nat → Bool) (r : Reg) (s : State) : Out :=
  let w32 := BitVec.ofNat 32 v
  let w64 := BitVec.ofNat 64 v
  match r with
  | .desc q => writeDesc q v s
  | .bell q => execDoorbell q w32 s
  | .evtBase => .next { s with q := { s.q with evtBase := w64 } }
  | .evtSize => .next { s with q := { s.q with evtSize := w32 } }
  | .hev i => .next (s.setHev i w64)
  | .hfl 2 => execHflheadWrite w64 s
  | .hfl i => .next (s.setHfl i w64)
  | .saveBase => .next { s with q := { s.q with saveBase := w64 } }
  | .saveSize => .next { s with q := { s.q with saveSize := w64 } }
  | .evsignal => execEvsignal w64 s
  | .plThresh => .next { s with q := { s.q with plThresh := w32 &&& 0xFF#32 } }
  | .abort => execAbort w32 s
  | .cfgIgn => .next (if v = 0 then { s with q := { s.q with cfgIgn := 0 } } else s)
  | .ctxBase => .next { s with ctx := { s.ctx with base := w64 } }
  | .ctxCap => .next { s with ctx := { s.ctx with cap := w32 } }
  | .ctxCount => .next (if v.testBit 31 then { s with ctx := { s.ctx with err := false } } else s)
  | .ctxAdd => execCtxadd w64 s
  | .resume =>
    match natBits v 63 62 with
    | 0 => execResumeAction0 w32 s
    | 1 => execResumeFrameexh w32 s
    | _ => .next s.resumeBad
  | .sync => execSync s
  | .kven => if v.testBit 0 then execKvenEnable s else execKvenDisable s
  | .kvn => .next { s with cad := { s.cad with n := w32 } }
  | .kvbkt => .next { s with cad := { s.cad with bkt := w32 } }
  | .kvtab => .next { s with cad := { s.cad with tab := w64 } }
  | .kvref => .next { s with cad := { s.cad with ref := w64 } }
  | .kvfq => .next { s with cad := { s.cad with fq := w64 } }
  | .kvva => .next { s with cad := { s.cad with va := w64 } }
  | .link p => if v.testBit 72 then execLinkClr p s else .next s
  | .devid =>
    .next (if (List.range 8).any fun d => (s.domain d).en then s else { s with fab := { s.fab with devid := w32 } })
  | .dom0 d => writeDom d v (cover 7) s
  | .member d m =>
    let x := s.domain d
    .next (if x.en then s else s.setDomain d { x with members := putD x.members m w32 0 })
  | .w2base => .next { s with mem := { s.mem with w2base := w64 } }
  | .hbmEcc h => .next { s with mem := { s.mem with hbmEcc := putD s.mem.hbmEcc h (clearEcc (findD s.mem.hbmEcc h 0) v cover) 0 } }
  | .eccBase t => .next (s.modTower t fun x => { x with eccBase := clearEcc x.eccBase v cover })
  | .eccControl t => .next (s.modTower t fun x => { x with eccControl := clearEcc x.eccControl v cover })
  | .pcfg i => .next { s with mem := { s.mem with pcfg := putD s.mem.pcfg i (w64 &&& 0x1FF#64) 0 } }
  | .pval i => .next { s with mem := { s.mem with pval := putD s.mem.pval i (w64 &&& 0xFFFFFFFFFFFF#64) 0 } }

/-- Put `k` bytes of a value, from byte `from'`, into a register value at byte `at'`. -/
def mergeBytes (old : Nat) (at' k part : Nat) : Nat :=
  old - natBits old (8 * (at' + k) - 1) (8 * at') * 2 ^ (8 * at') + part * 2 ^ (8 * at')

/-- A host write of `n` bytes of a register (R374, R375): ignored and counted outside the range. -/
def regWrite (r : Reg) (base : Nat) (o n : Nat) (part : Nat) (s : State) : Out :=
  let v := mergeBytes (r.cur s) (o - base) n part
  if r.inRange s v then r.store v (fun b => decide (o - base ≤ b ∧ b < o - base + n)) s else .next s.cfgIgnored

/-- A host write of the low `n` bytes of `v` at an offset of BAR0, register by register. -/
def bar0Write (v : Nat) : Nat → Nat → Nat → State → Out
  | 0, _, _, s => .next s
  | fuel + 1, o, n, s =>
    if n = 0 then .next s
    else
      match regAt o with
      | none => bar0Write (v / 256) fuel (o + 1) (n - 1) s
      | some (r, base, w) =>
        let k := min n (base + w - o)
        match regWrite r base o k (v % 2 ^ (8 * k)) s with
        | .next s1 => bar0Write (v / 2 ^ (8 * k)) fuel (o + k) (n - k) s1
        | x => x

/-! ### What the host reads (R374, R415, R434 to R436, R476, R512, R513, R515) -/

/-- DEVSTAT (R513). -/
def State.devstat (s : State) : Nat :=
  s.mgmt.stage + (if s.mgmt.ready then 256 else 0) + (if s.mgmt.recov then 512 else 0) + s.mgmt.ot * 1024

/-- The value that a register of `regAt` reads as: write-only registers read 0. -/
def Reg.read (s : State) : Reg → Nat
  | .ctxCount => s.ctx.count.toNat + (if s.ctx.err then 2 ^ 31 else 0)
  | .sync => if s.syncPend then 1 else 0
  | .link p => (s.link p).row.toNat
  | r => r.cur s

/-- The value, the offset and the width of a read-only register that covers an offset of BAR0. -/
def readOnlyAt (s : State) (o : Nat) : Option (Nat × Nat × Nat) :=
  let one := fun (v : Nat) (base w : Nat) => if base ≤ o ∧ o < base + w then some (v, base, w) else none
  one s.devstat 0 8 <|> one s.mem.coreSvc.toNat 0x40 64 <|> one (s.hev 3) 0x110028 8 <|> one (s.hev 4) 0x110030 8 <|>
  one (findD s.q.hfl 3 0).toNat 0x110058 8 <|> one s.ctx.resumeBad.toNat 0x110228 4 <|> one s.cad.free 0x110338 4 <|>
  (if 0x111000 ≤ o ∧ o < 0x113000 ∧ 8 ≤ o % 0x400 ∧ o % 0x400 < 16 then
    some ((s.domain ((o - 0x111000) / 0x400)).reg8.toNat, o / 8 * 8, 8) else none) <|>
  (if 0x130000 ≤ o ∧ o < 0x130100 ∧ o % 0x40 < 18 then
    some (findD (s.tower ((o - 0x130000) / 0x40)).corr (o % 0x40 / 2) 0, o / 2 * 2, 2) else none)

/-- A byte that the host reads in BAR0; an unassigned offset reads 0 (R512). -/
def State.bar0Byte (s : State) (o : Nat) : BitVec 8 :=
  match readOnlyAt s o <|> (regAt o).map fun r => (r.1.read s, r.2) with
  | some (v, base, _) => BitVec.ofNat 8 (v / 2 ^ (8 * (o - base)))
  | none => 0

/-- The `n` bytes that the host reads at an offset of BAR0, as one little-endian number. -/
def State.bar0Read (s : State) (off n : Nat) : Nat := leNat ((List.range n).map fun i => s.bar0Byte (off + i))

/-- A byte that the host reads in BAR4 (R515). -/
def State.bar4ByteAt (s : State) (o : Nat) : BitVec 8 :=
  let m := s.mgmt
  if o < 8 then m.mbReq.extractLsb' (8 * o) 8
  else if o = 0x10 then BitVec.ofNat 8 ((if m.busy then 1 else 0) + (if m.overrun then 2 else 0))
  else if o = 0x11 then BitVec.ofNat 8 m.result
  else if o = 0x12 ∨ o = 0x13 then BitVec.ofNat 8 (m.rspLen / 256 ^ (o - 0x12))
  else if 0x1000 ≤ o ∧ o < 0x2000 then findD m.mbArg (o - 0x1000) 0
  else if 0x2000 ≤ o ∧ o < 0x3000 then findD m.mbRsp (o - 0x2000) 0
  else 0

/-! ### The mailbox (R515) -/

/-- OVERRUN (R515): MBBELL is written while BUSY = 1. -/
def execOverrun (s : State) : Out := .next (if s.mgmt.busy then { s with mgmt := { s.mgmt with overrun := true } } else s)

/-- A submission (R515): BUSY is set, and the request and its arguments are copied. -/
def submit (s : State) : Out :=
  let m := s.mgmt
  if m.busy then execOverrun s
  else
    let len := natBits m.mbReq.toNat 31 16
    let args := (List.range (min len 4096)).map fun i => findD m.mbArg i 0
    .next { s with mgmt := { m with busy := true, serving := some (natBits m.mbReq.toNat 15 0, len, args), served := false } }

/-- A byte that the host writes to BAR4 (R515). -/
def bar4Byte (o : Nat) (b : BitVec 8) (s : State) : State :=
  let m := s.mgmt
  if o < 8 then
    { s with mgmt := { m with mbReq := BitVec.ofNat 64 (mergeBytes m.mbReq.toNat o 1 b.toNat) &&& 0xFFFFFFFF#64 } }
  else if o = 0x10 then (if b.getLsbD 1 then { s with mgmt := { m with overrun := false } } else s)
  else if 0x1000 ≤ o ∧ o < 0x2000 then { s with mgmt := { m with mbArg := putD m.mbArg (o - 0x1000) b 0 } }
  else s

/-- A host write to BAR4; a write that reaches MBBELL submits the request (R515). -/
def bar4Write (o n v : Nat) (s : State) : Out :=
  let s1 := (leBytes n v).zipIdx.foldl (fun s b => bar4Byte (o + b.2) b.1 s) s
  if o < 0x10 ∧ 8 < o + n then submit s1 else .next s1

/-- CONFIG_REGISTER_WRITE (R374, R375, R512, R515): a host write of `size` bytes of `v` at an offset of BAR0 or BAR4. A
register with a row of its own acts as that row does. -/
def execConfigRegisterWrite (bar off size : Nat) (v : BitVec 512) (s : State) : Out :=
  if 64 < size then .next s
  else
    match bar with
    | 0 => bar0Write (v.toNat % 2 ^ (8 * size)) size off size s
    | 4 => bar4Write off size v.toNat s
    | _ => .next s

/-! ### Errors that arise of themselves -/

/-- The counter of an error in the data of a device address: its HBM4 controller, or the base die of its arcade or of the slice that
holds it (R308, R310, R475). -/
def State.countEcc (s : State) (pa : Nat) (inL2 unc : Bool) : State :=
  let slice := ((s.mem.l2.find? fun e => e.1 == pa / 128 * 128).map (·.2.1)).getD (homeSlice pa)
  if inL2 then s.modTower (slice / 8) fun t => { t with eccBase := eccAdd t.eccBase unc }
  else if inHbm pa then { s with mem := s.mem.countHbm pa unc }
  else s.modTower ((pa - arcadeBase 0) / 0x10000000 % 4) fun t => { t with eccBase := eccAdd t.eccBase unc }

/-- An error in the scratchpad or the L1 of a core is counted at the control die of its tower (R475). -/
def State.countControl (s : State) (d : Nat) (unc : Bool) : State :=
  s.modTower (towerOf d) fun t => { t with eccControl := eccAdd t.eccControl unc }

/-- A unit of device memory takes an error: a corrected one is otherwise invisible (R310), an uncorrectable one stays (R311). -/
def State.unitError (s : State) (u : EccUnit) (unc : Bool) : State := if unc then { s with mem := s.mem.addBad u } else s

/-- MEMORY_ERROR (R310, R311, R475) in the unit that holds an address: unit 0 is HBM4 or an arcade, 1 the L2 copy of a line,
2 + d the scratchpad of core d, 514 + d the L1 copy of a line in core d. The caches carry a code over 8 bytes; an error in a copy
stands for an error of the line wherever it is read (log 3). -/
def execMemoryError (unit : Nat) (pa : Nat) (uncorrectable : Bool) (s : State) : Out :=
  let key := pa / 128 * 128
  let cacheUnit : EccUnit := (pa / 8 * 8, 8)
  if unit = 0 then
    .next (if devValid pa then (s.countEcc pa false uncorrectable).unitError (eccUnit pa) uncorrectable else s)
  else if unit = 1 then
    .next (if devValid pa && s.mem.l2.any (·.1 == key) then (s.countEcc pa true uncorrectable).unitError cacheUnit uncorrectable
      else s)
  else if unit < 514 then
    let u := pa / 8 * 8
    let s1 := s.countControl (unit - 2) uncorrectable
    if 0x40000 ≤ pa then .next s
    else .next (if uncorrectable then s1.modCore (unit - 2) fun c => { c with bad := if c.bad.contains u then c.bad else insertBy id u c.bad }
      else s1)
  else
    let d := unit - 514
    .next (if d < 512 && devValid pa && (s.core d).l1.any (·.1 == key) then
        (s.countControl d uncorrectable).unitError cacheUnit uncorrectable
      else s)

/-- CHANNEL_DIE_FAULT (R18): a residue of channel `ch` is left wrong. -/
def execChannelDieFault (d acc ch row col : Nat) (mask : BitVec 9) (s : State) : Out :=
  if 9 ≤ ch ∨ 64 ≤ row ∨ 64 ≤ col ∨ 8 ≤ acc ∨ (s.core d).launch.isNone then .next s
  else
    let k := ch * 4096 + 64 * row + col
    .next (s.modCore d fun c =>
      let a := c.ac acc
      let r := ((findD a.res k 0) ^^^ mask.toNat) % Config.modulus ch
      c.setAc acc { a with res := putD a.res k r 0 })

end Sys2Proof.Machine
end

