-- ==== Sys2Proof/Machine/Sign.lean ====
section
/-! DEFINITION. SHA-512 and Ed25519 (00_scope.md R2, 25 R519, R520), which the manual takes from RFC 8032: the digest of a byte string,
the public key and the signature of a secret key, and the check of a signature. -/

namespace Sys2Proof.Machine

/-! ### SHA-512 -/

/-- The round constants: the first 64 bits of the fractions of the cube roots of the first 80 primes. -/
def shaK : List W64 :=
  [0x428a2f98d728ae22#64, 0x7137449123ef65cd#64, 0xb5c0fbcfec4d3b2f#64, 0xe9b5dba58189dbbc#64, 0x3956c25bf348b538#64,
   0x59f111f1b605d019#64, 0x923f82a4af194f9b#64, 0xab1c5ed5da6d8118#64, 0xd807aa98a3030242#64, 0x12835b0145706fbe#64,
   0x243185be4ee4b28c#64, 0x550c7dc3d5ffb4e2#64, 0x72be5d74f27b896f#64, 0x80deb1fe3b1696b1#64, 0x9bdc06a725c71235#64,
   0xc19bf174cf692694#64, 0xe49b69c19ef14ad2#64, 0xefbe4786384f25e3#64, 0x0fc19dc68b8cd5b5#64, 0x240ca1cc77ac9c65#64] ++
  [0x2de92c6f592b0275#64, 0x4a7484aa6ea6e483#64, 0x5cb0a9dcbd41fbd4#64, 0x76f988da831153b5#64, 0x983e5152ee66dfab#64,
   0xa831c66d2db43210#64, 0xb00327c898fb213f#64, 0xbf597fc7beef0ee4#64, 0xc6e00bf33da88fc2#64, 0xd5a79147930aa725#64,
   0x06ca6351e003826f#64, 0x142929670a0e6e70#64, 0x27b70a8546d22ffc#64, 0x2e1b21385c26c926#64, 0x4d2c6dfc5ac42aed#64,
   0x53380d139d95b3df#64, 0x650a73548baf63de#64, 0x766a0abb3c77b2a8#64, 0x81c2c92e47edaee6#64, 0x92722c851482353b#64] ++
  [0xa2bfe8a14cf10364#64, 0xa81a664bbc423001#64, 0xc24b8b70d0f89791#64, 0xc76c51a30654be30#64, 0xd192e819d6ef5218#64,
   0xd69906245565a910#64, 0xf40e35855771202a#64, 0x106aa07032bbd1b8#64, 0x19a4c116b8d2d0c8#64, 0x1e376c085141ab53#64,
   0x2748774cdf8eeb99#64, 0x34b0bcb5e19b48a8#64, 0x391c0cb3c5c95a63#64, 0x4ed8aa4ae3418acb#64, 0x5b9cca4f7763e373#64,
   0x682e6ff3d6b2b8a3#64, 0x748f82ee5defb2fc#64, 0x78a5636f43172f60#64, 0x84c87814a1f0ab72#64, 0x8cc702081a6439ec#64] ++
  [0x90befffa23631e28#64, 0xa4506cebde82bde9#64, 0xbef9a3f7b2c67915#64, 0xc67178f2e372532b#64, 0xca273eceea26619c#64,
   0xd186b8c721c0c207#64, 0xeada7dd6cde0eb1e#64, 0xf57d4f7fee6ed178#64, 0x06f067aa72176fba#64, 0x0a637dc5a2c898a6#64,
   0x113f9804bef90dae#64, 0x1b710b35131c471b#64, 0x28db77f523047d84#64, 0x32caab7b40c72493#64, 0x3c9ebe0a15c9bebc#64,
   0x431d67c49c100d4c#64, 0x4cc5d4becb3e42b6#64, 0x597f299cfc657e2a#64, 0x5fcb6fab3ad6faec#64, 0x6c44198c4a475817#64]

/-- The first hash value: the first 64 bits of the fractions of the square roots of the first 8 primes. -/
def shaStart : List W64 :=
  [0x6a09e667f3bcc908#64, 0xbb67ae8584caa73b#64, 0x3c6ef372fe94f82b#64, 0xa54ff53a5f1d36f1#64, 0x510e527fade682d1#64,
   0x9b05688c2b3e6c1f#64, 0x1f83d9abfb41bd6b#64, 0x5be0cd19137e2179#64]

/-- A dword of 8 bytes, most significant first. -/
def bigWord (bs : List (BitVec 8)) : W64 := bs.foldl (fun acc b => (acc <<< 8) ||| b.setWidth 64) 0

/-- The `n` bytes of a number, most significant first. -/
def bigBytes (n v : Nat) : List (BitVec 8) := (List.range n).map fun i => BitVec.ofNat 8 (v >>> (8 * (n - 1 - i)))

/-- The message schedule, newest word first: `n` words more. -/
def shaSchedule : Nat → List W64 → List W64
  | 0, ws => ws
  | n + 1, ws =>
    let at' := fun i => ws.getD (i - 1) 0
    let s0 := (at' 15).rotateRight 1 ^^^ (at' 15).rotateRight 8 ^^^ (at' 15 >>> 7)
    let s1 := (at' 2).rotateRight 19 ^^^ (at' 2).rotateRight 61 ^^^ (at' 2 >>> 6)
    shaSchedule n ((at' 16 + s0 + at' 7 + s1) :: ws)

/-- One round: the eight working words take a constant and a word of the schedule. -/
def shaRound (h : List W64) (kw : W64 × W64) : List W64 :=
  match h with
  | [a, b, c, d, e, f, g, x] =>
    let t1 := x + (e.rotateRight 14 ^^^ e.rotateRight 18 ^^^ e.rotateRight 41) + ((e &&& f) ^^^ (~~~e &&& g)) + kw.1 + kw.2
    let t2 := (a.rotateRight 28 ^^^ a.rotateRight 34 ^^^ a.rotateRight 39) + ((a &&& b) ^^^ (a &&& c) ^^^ (b &&& c))
    [t1 + t2, a, b, c, d + t1, e, f, g]
  | _ => h

/-- The compression of one block of 128 bytes. -/
def shaBlock (h : List W64) (block : List (BitVec 8)) : List W64 :=
  let first := (List.range 16).map fun i => bigWord ((block.drop (8 * i)).take 8)
  let ws := (shaSchedule 64 first.reverse).reverse
  List.zipWith (· + ·) h ((shaK.zip ws).foldl shaRound h)

/-- The message with its padding: a one bit, zeros, and its length in bits as 16 bytes. -/
def shaPad (m : List (BitVec 8)) : List (BitVec 8) :=
  m ++ 0x80 :: List.replicate ((239 - m.length % 128) % 128) 0 ++ bigBytes 16 (8 * m.length)

/-- The SHA-512 digest of a byte string: 64 bytes. -/
def sha512 (m : List (BitVec 8)) : List (BitVec 8) :=
  let p := shaPad m
  ((List.range (p.length / 128)).foldl (fun h i => shaBlock h ((p.drop (128 * i)).take 128)) shaStart).flatMap fun w => bigBytes 8 w.toNat

/-! ### Ed25519 (RFC 8032, pure mode) -/

/-- The field's prime, 2^255 - 19. -/
def edP : Nat := 2 ^ 255 - 19
/-- The order of the base point. -/
def edL : Nat := 2 ^ 252 + 27742317777372353535851937790883648493

/-- A power in the field: `n` bits of the exponent, from the least significant. -/
def edPow : Nat → Nat → Nat → Nat
  | 0, _, _ => 1
  | n + 1, a, e => (if e % 2 = 1 then a else 1) * edPow n (a * a % edP) (e / 2) % edP
/-- A reciprocal in the field. -/
def edInv (a : Nat) : Nat := edPow 255 (a % edP) (edP - 2)
/-- A difference in the field. -/
def edSub (a b : Nat) : Nat := (a + edP - b % edP) % edP
/-- The curve's constant, -121665 / 121666. -/
def edD : Nat := (edP - 121665) * edInv 121666 % edP

/-- A point of the curve, in extended coordinates: x = X / Z, y = Y / Z and x y = T / Z. -/
structure EdPoint where
  x : Nat
  y : Nat
  z : Nat
  t : Nat
  deriving DecidableEq, Repr

/-- The sum of two points. -/
def EdPoint.add (p q : EdPoint) : EdPoint :=
  let a := edSub p.y p.x * edSub q.y q.x % edP
  let b := (p.y + p.x) * (q.y + q.x) % edP
  let c := 2 * p.t * q.t * edD % edP
  let d := 2 * p.z * q.z % edP
  let e := edSub b a
  let f := edSub d c
  let g := (d + c) % edP
  let h := (b + a) % edP
  { x := e * f % edP, y := g * h % edP, z := f * g % edP, t := e * h % edP }

/-- The neutral point. -/
def edZero : EdPoint := { x := 0, y := 1, z := 1, t := 0 }

/-- A multiple of a point: `n` bits of the factor, from the least significant. -/
def edMul : Nat → EdPoint → Nat → EdPoint
  | 0, _, _ => edZero
  | n + 1, p, k => if k % 2 = 1 then p.add (edMul n (p.add p) (k / 2)) else edMul n (p.add p) (k / 2)

/-- The same point of the curve. -/
def EdPoint.same (p q : EdPoint) : Bool :=
  p.x * q.z % edP == q.x * p.z % edP && p.y * q.z % edP == q.y * p.z % edP

/-- The x of a point from its y and its sign; none where there is none. -/
def edRecoverX (y sign : Nat) : Option Nat :=
  let x2 := edSub (y * y) 1 * edInv (edD * y * y + 1) % edP
  let r := edPow 255 x2 ((edP + 3) / 8)
  let x := if r * r % edP = x2 then r else r * edPow 255 2 ((edP - 1) / 4) % edP
  if edP ≤ y ∨ x * x % edP ≠ x2 ∨ (x = 0 ∧ sign = 1) then none
  else some (if x % 2 = sign then x else edP - x)

/-- The 32 bytes of a point: its y, least significant byte first, with the low bit of its x in bit 255. -/
def EdPoint.bytes (p : EdPoint) : List (BitVec 8) :=
  let i := edInv p.z
  let v := p.y * i % edP + 2 ^ 255 * (p.x * i % edP % 2)
  (List.range 32).map fun k => BitVec.ofNat 8 (v >>> (8 * k))

/-- The number in bytes, least significant first. -/
def edNat (bs : List (BitVec 8)) : Nat := bs.foldr (fun b acc => b.toNat + 256 * acc) 0

/-- The point that 32 bytes stand for. -/
def edPoint (bs : List (BitVec 8)) : Option EdPoint :=
  let v := edNat bs
  let y := v % 2 ^ 255
  (edRecoverX y (v / 2 ^ 255)).map fun x => { x := x, y := y, z := 1, t := x * y % edP }

/-- The base point: y = 4 / 5, x even. -/
def edBase : EdPoint :=
  let y := 4 * edInv 5 % edP
  let x := (edRecoverX y 0).getD 0
  { x := x, y := y, z := 1, t := x * y % edP }

/-- The scalar and the prefix of a secret key. -/
def edSecret (secret : List (BitVec 8)) : Nat × List (BitVec 8) :=
  let h := sha512 secret
  let a := edNat (h.take 32)
  (a % 2 ^ 254 / 8 * 8 + 2 ^ 254, h.drop 32)

/-- The public key of a secret key: 32 bytes. -/
def edPublic (secret : List (BitVec 8)) : List (BitVec 8) := (edMul 256 edBase (edSecret secret).1).bytes

/-- The signature of a message: 64 bytes. -/
def edSign (secret m : List (BitVec 8)) : List (BitVec 8) :=
  let (a, pre) := edSecret secret
  let r := edNat (sha512 (pre ++ m)) % edL
  let rb := (edMul 256 edBase r).bytes
  let k := edNat (sha512 (rb ++ edPublic secret ++ m)) % edL
  let v := (r + k * a) % edL
  rb ++ (List.range 32).map fun i => BitVec.ofNat 8 (v >>> (8 * i))

/-- The check of a signature of a message under a public key: eight times [S]B against eight times R + [k]A. -/
def edVerify (key m sig : List (BitVec 8)) : Bool :=
  match edPoint key, edPoint (sig.take 32) with
  | some a, some r =>
    let v := edNat (sig.drop 32)
    let k := edNat (sha512 (sig.take 32 ++ key ++ m)) % edL
    key.length == 32 && sig.length == 64 && decide (v < edL) &&
      (edMul 4 (edMul 256 edBase v) 8).same (edMul 4 (r.add (edMul 256 a k)) 8)
  | _, _ => false

/-! ### The keys of the device -/

/-- What Ed25519 says of an image under the vendor's public key (R519); where the image holds the signed bytes and the signature is
stated nowhere (log 16). -/
def signatureOk (image : List (BitVec 8)) : Bool :=
  edVerify Config.vendorKey (Config.signedPart image) (Config.signatureOf image)

/-- The public identity key, and the signature of a report with the identity key (R520). -/
def identityKey : List (BitVec 8) := edPublic Config.identitySecret
def identitySign (m : List (BitVec 8)) : List (BitVec 8) := edSign Config.identitySecret m

end Sys2Proof.Machine
end

