-- ==== Sys2Proof/Machine/Mgmt.lean ====
section
/-! DEFINITION. The management processor (25 R515 to R528; 01 R20 to R26; 10 R268, R270; 05 R148 to R151; 18 R469): bring-up,
firmware, the mailbox requests, sensors, risers, cooling, the ordered shutdown, and the snapshot. -/

namespace Sys2Proof.Machine

open Sys2Proof

/-! ### Small things -/

/-- Exactly `n` bytes of a list. -/
def fit (n : Nat) (l : List (BitVec 8)) : List (BitVec 8) := (l ++ zeros n).take n

/-- The number in bytes [lo, lo + n) of a request. -/
def argN (a : List (BitVec 8)) (lo n : Nat) : Nat := leNat ((a.drop lo).take n)

/-- A management entry of the event log (R521): TYPE 8; the manual states no other field (log 5). -/
def State.mgmtEntry (s : State) : State :=
  let f := Config.freeBits s.free
  ({ s with free := s.free + 1 }).logEntry
    (mkEvent 8 (f 0) (f 1) (f 2) (f 3) (f 4) (f 5) (BitVec.ofNat 64 (f 6)) (BitVec.ofNat 64 (f 7)) |||
      (BitVec.ofNat 256 (f 8 % 2 ^ 32) <<< 96))

/-- The four towers. -/
def State.allTowers (s : State) (f : Nat → Tower → Tower) : State := (List.range 4).foldl (fun s t => s.modTower t (f t)) s

/-! ### Tokens and the operating table (R469, R522, R523) -/

/-- TOKEN_REFILL (R469): the next microsecond has come. -/
def execTokenRefill (s : State) : Out :=
  if s.clock / 1050 ≤ s.mgmt.tick then .next s
  else
    let fill := fun (t : Tower) (b : Nat) =>
      { t with tokens := put t.tokens b (satAdd (findD t.tokens b 0) (findD t.refill b 0) (Config.bucketCap b)) }
    .next ({ s with mgmt := { s.mgmt with tick := s.mgmt.tick + 1 } }.allTowers fun _ t => [0, 1, 2].foldl fill t)

/-- The hottest reading of a tower's channel dies (R16, R25, R26): layers 2 to 10 of its columns. -/
def State.channelTemp (s : State) (t : Nat) : Int :=
  (towerColumns t).foldl (fun m col => (List.range 9).foldl (fun m i =>
    match find? s.mgmt.sensors (11 * col + 2 + i) with
    | some r => max m r.1.toInt
    | none => m) m) (-32768)

/-- The towers, the one with the hottest channel die first. -/
def State.hotTowers (s : State) : List Nat := sortBy (fun t => (32768 - s.channelTemp t).toNat) [0, 1, 2, 3]

/-- How much of a cut of MATRIX refill each of these towers bears, each in turn as much as it can (R469). -/
def shareCut (cut : Nat) : List Nat → List (Nat × Nat)
  | [] => []
  | t :: ts => (t, min cut (Config.refillOf 1 0)) :: shareCut (cut - Config.refillOf 1 0) ts

/-- The refill value of a tower's bucket under a table (R469): in OT1 management may cut the MATRIX values, by an amount of its own
choice (log 10), the hottest tower first. -/
def State.refillIn (s : State) (ot t b : Nat) : Nat :=
  if ot = 1 ∧ b = 0 then Config.refillOf 1 0 - findD (shareCut (Config.freeBits s.free 0) s.hotTowers) t 0 else Config.refillOf ot b

/-- The operating table that the loops ask for (R522). -/
def tableOf (top bottom : Bool) : Nat := (if top then 1 else 0) + (if bottom then 2 else 0)

/-- OPERATING_TABLE_CHANGE (R522, R523): the refill registers, the record, the event log. -/
def State.setTable (s : State) (ot : Nat) : State :=
  let s1 := s.allTowers fun t x => { x with refill := [0, 1, 2].map fun b => (b, s.refillIn ot t b) }
  { s1 with mgmt := { s1.mgmt with ot := ot }, free := s1.free + 1 }.postOrWait 0 (mkEvent 5 0x21 0 0 0 0 0 (BitVec.ofNat 64 ot) 0)

/-- Every launch that has been taken and has not ended ends with status SHUTDOWN (R524). -/
def State.endAll (s : State) : State :=
  s.launches.foldl (fun s l => s.abortBy l.key 0x0E 0 l.originCore 0 0 0 0) s

/-- A loop is lost or restored (R522): the table follows, and OT3 begins the ordered shutdown (R524). -/
def State.loops (s : State) (top bottom : Bool) : State :=
  let ot := tableOf top bottom
  let s1 := { s with mgmt := { s.mgmt with topLost := top, bottomLost := bottom } }.mgmtEntry
  if ot = s.mgmt.ot then s1
  else
    let s2 := s1.setTable ot
    if ot = 3 then { s2 with mgmt := { s2.mgmt with shutdownAt := some s.clock } }.endAll else s2

/-- A loop is within limits: a flow of 50 % of nominal or more, and a supply of 60 °C or less (R522). -/
def Loop.good (l : Loop) : Bool := decide (50 ≤ l.flow) && decide (l.supply ≤ 960)
/-- A new reading of a loop (R522). -/
def Loop.read (l : Loop) (clock flow : Nat) (supply : Int) : Loop :=
  let l1 := { l with flow := flow, supply := supply }
  { l1 with lowSince := if flow < 50 then l.lowSince.or (some clock) else none
            goodSince := if l1.good then l.goodSince.or (some clock) else none }
/-- The flow has stayed below 50 % for 1 s, or the supply exceeds 60 °C (R522). -/
def Loop.lost (l : Loop) (clock : Nat) : Bool := l.lowSince.any (fun c => c + secondCycles ≤ clock) || decide (960 < l.supply)
/-- The loop has been within limits for 10 s (R522). -/
def Loop.restored (l : Loop) (clock : Nat) : Bool := l.goodSince.any fun c => c + 10 * secondCycles ≤ clock

/-- The loop of the top, or of the bottom. -/
def Mgmt.loop (m : Mgmt) (top : Bool) : Loop := if top then m.cooling.1 else m.cooling.2
/-- A reading of a loop comes from outside (log 39). -/
def State.readLoop (s : State) (top : Bool) (flow : Nat) (supply : Int) : State :=
  let l := (s.mgmt.loop top).read s.clock flow supply
  { s with mgmt := { s.mgmt with cooling := if top then (l, s.mgmt.cooling.2) else (s.mgmt.cooling.1, l) } }

/-- LOOP_LOST (R522): the flow has been too low for 1 s, or the supply is too warm. -/
def execLoopLost (top : Bool) (s : State) : Out :=
  let m := s.mgmt
  if m.ot = 3 ∨ (if top then m.topLost else m.bottomLost) ∨ !((m.loop top).lost s.clock) then .next s
  else .next (s.loops (m.topLost || top) (m.bottomLost || !top))

/-- LOOP_RESTORED (R522): after 10 s within limits; OT3 is left only through reset. -/
def execLoopRestored (top : Bool) (s : State) : Out :=
  let m := s.mgmt
  if m.ot = 3 ∨ !(if top then m.topLost else m.bottomLost) ∨ !((m.loop top).restored s.clock) then .next s
  else .next (s.loops (m.topLost && !top) (m.bottomLost && top))

/-- What still runs 1 ms into the shutdown is abandoned (R524), whatever ended its launch. -/
def State.abandonOps (s : State) : State :=
  s.launches.foldl (fun s l =>
    match l.phase with
    | .ending .. => l.cores.foldl (fun s d =>
        if (s.core d).launch = some l.key then
          let s1 := (s.core d).ops.foldl (fun s o =>
            match o.body with
            | .coll dom ix .. => s.dropColl dom ix 4
            | _ => s) s
          s1.modCore d fun c => { c with ops := [], issueOrder := [], press := none }
        else s) s
    | _ => s) s

/-- The end of the ordered shutdown (R524): caches written back, stacked SRAM committed, log saved, stage 9, and the dies
above the base lose power. -/
def State.powerDown (s : State) : State :=
  { s with cores := []
           mem := { s.mem with l2 := s.mem.l2.map fun e => (e.1, e.2.1, e.2.2.1, false) }
           mgmt := { s.mgmt with stage := 9, shutdownAt := none } }

/-- SHUTDOWN_GRACE_EXPIRE (R524): after 1 ms, what runs is abandoned; once every launch has ended and every record has left
for the host, the device powers down. -/
def execShutdownGraceExpire (s : State) : Out :=
  match s.mgmt.shutdownAt with
  | none => .next s
  | some t =>
    if s.clock < t + msCycles then .next s
    else if !s.launches.isEmpty then .next s.abandonOps
    else if (List.range 4).any fun t => !(s.tower t).events.isEmpty then .next s
    else .next s.powerDown

/-! ### Sensors, risers, channels (R20 to R26, R268, R525) -/

/-- SENSOR_SAMPLE (R26). -/
def execSensorSample (col layer : Nat) (reading : BitVec 16) (s : State) : Out :=
  .next (if col < 64 ∧ layer < 11 then
      { s with mgmt := { s.mgmt with sensors := put s.mgmt.sensors (11 * col + layer) (reading, s.clock) } }
    else s)

/-- The riser timing register of a core and channel as it reads (R21). -/
def State.riser (s : State) (d ch : Nat) : BitVec 32 := findD s.mgmt.risers (9 * d + ch) 0

/-- The register with RATE and DELAY (R21): TRAINED is 1 at the rate at which training locked the riser. -/
def riserValue (s : State) (d ch rate delay : Nat) : BitVec 32 :=
  let trained := decide (3 < s.mgmt.stage) && decide ((Config.riserTraining d ch).1 = rate)
  BitVec.ofNat 32 (rate % 4 + 16 * (delay % 16) + (if trained then 2048 else 0))

/-- A write of RATE and DELAY: the riser keeps its old value until it is idle (R22). -/
def State.setRiser (s : State) (d ch rate delay : Nat) : State :=
  let k := 9 * d + ch
  let m := s.mgmt
  let old := s.riser d ch
  let held := if (find? m.riserHeld k).isSome then m.riserHeld else put m.riserHeld k old
  { s with mgmt := { m with risers := put m.risers k (riserValue s d ch rate delay), riserHeld := held } }

/-- RISER_TIMING_APPLY (R22): no matrix operation, drain, MSTR or bypass is in flight on the riser. -/
def execRiserTimingApply (d ch : Nat) (s : State) : Out :=
  let c := s.core d
  .next (if c.issueOrder.isEmpty && c.press.isNone then
      { s with mgmt := { s.mgmt with riserHeld := erase s.mgmt.riserHeld (9 * d + ch) } }
    else s)

/-- RISER_REPAIR (R525): one more retry on a riser (log 39). When it needs more than 16 within one second, its rate falls, or at
quarter rate its core is marked. -/
def execRiserRepair (d ch : Nat) (s : State) : Out :=
  let k := 9 * d + ch
  let m := s.mgmt
  let recent := (m.retries ++ [(k, s.clock)]).filter fun e => decide (s.clock < e.2 + secondCycles)
  if 512 ≤ d ∨ 9 ≤ ch then .next s
  else if (recent.filter (·.1 == k)).length ≤ 16 then .next { s with mgmt := { m with retries := recent } }
  else
    let s1 := { s with mgmt := { m with retries := recent.filter (·.1 != k) } }
    let rate := natBits (s.riser d ch).toNat 1 0
    if rate < 2 then .next (s1.setRiser d ch (rate + 1) (natBits (s.riser d ch).toNat 7 4)).mgmtEntry
    else .next { s1 with mgmt := { s1.mgmt with marked := if m.marked.contains d then m.marked else m.marked ++ [d] } }

/-- CORE_OUT_OF_SERVICE (R525): no launch holds the marked core. -/
def execCoreOutOfService (d : Nat) (s : State) : Out :=
  if !(s.mgmt.marked.contains d) ∨ (s.core d).launch.isSome then .next s
  else
    .next ({ s with mgmt := { s.mgmt with marked := s.mgmt.marked.filter (· != d) }
                    mem := { s.mem with coreSvc := s.mem.coreSvc &&& ~~~(1#512 <<< d) } }.mgmtEntry)

/-- The correction counter of a channel rose by 64 within one second, and management has not dealt with it (R268). -/
def Tower.fenceDue (t : Tower) (ch : Nat) : Bool := t.met.contains ch

/-- An operation has finished on a press of the tower in this cycle: a management write of the containment registers comes before
such, or in a later cycle (R267). -/
def State.drained (s : State) (t : Nat) : Bool := (s.tower t).pressAt.any fun p => p.1 == s.clock

/-- The rise of a channel's counter that has met the threshold is dealt with, and the channel starts its count of 64 again. -/
def Tower.spend (w : Tower) (ch : Nat) : Tower :=
  { w with met := w.met.filter (· != ch), corrTimes := w.corrTimes.filter fun e => e.1 != ch }

/-- Management may write 0 to the correction counter of a channel (R475); it is free to, where it fences (log 39). -/
def Tower.zeroCorr (w : Tower) (free ch : Nat) : Tower :=
  if Config.freeBits free 0 = 0 then { w with corr := erase w.corr ch } else w

/-- FCH and FV are written (R266, R268). A channel that is fenced starts its count of 64 again. -/
def State.fence (s : State) (t ch : Nat) (on : Bool) : State :=
  let s1 := (s.modTower t fun w =>
    let fenced := w.contain.getLsbD 7
    let w1 := { w with contain := setBits (setBits w.contain 11 8 ch) 7 7 (if on then 1 else 0)
                       secondReported := w.secondReported && !(on && !fenced) }
    (if on then w1.spend ch else w1).zeroCorr s.free (if on then ch else natBits w.contain.toNat 11 8)).mgmtEntry
  { s1 with free := s1.free + 1 }

/-- CHANNEL_FENCE_THRESHOLD (R268): the channel is fenced; while another one is, it is not, and is reported once. -/
def execChannelFenceThreshold (t ch : Nat) (s : State) : Out :=
  let w := s.tower t
  let r := w.contain
  if 4 ≤ t ∨ 9 ≤ ch ∨ !(w.fenceDue ch) ∨ s.drained t then .next s
  else if !(r.getLsbD 7) then .next (s.fence t ch true)
  else
    let s1 := s.modTower t (·.spend ch)
    if natBits r.toNat 11 8 = ch ∨ w.secondReported then .next s1
    else
      .next ((s1.modTower t fun w => { w with secondReported := true }).postOrWait t
        (mkEvent 4 3 0 0 0 0 0 (r.setWidth 64) (r.extractLsb' 64 64)))

/-- LAYER_CLOCK_GATING (R151): a layer of a core's tower is gated; `denied` tells that a wake would be refused. -/
def execLayerClockGating (d layer : Nat) (asleep denied : Bool) (s : State) : Out :=
  let l := s.mgmt.asleep
  .next { s with mgmt := { s.mgmt with asleep := if asleep then put l (16 * d + layer) denied else erase l (16 * d + layer) } }

/-! ### Bring-up and firmware (R519, R527) -/

/-- The image that flash holds passes the boot ROM's checks (R519). -/
def Mgmt.imageGood (m : Mgmt) : Bool :=
  !m.flashBad && (m.flash == Config.factoryImage || signatureOk m.flash) && decide (m.minSvn ≤ Config.imageSvn m.flash)

/-- The cores and channels of the device. -/
def riserKeys : List (Nat × Nat) := (List.range 512).flatMap fun d => (List.range 9).map fun ch => (d, ch)

/-- Riser training (R21, R527 stage 3): a riser that cannot lock at quarter rate takes its core out of service. -/
def State.trainRisers (s : State) : State :=
  let reg := fun (k : Nat × Nat) =>
    let x := Config.riserTraining k.1 k.2
    (9 * k.1 + k.2, BitVec.ofNat 32 (x.1 % 3 + 16 * (x.2 % 16) + 2048))
  let lost := riserKeys.filter fun k => decide (3 ≤ (Config.riserTraining k.1 k.2).1)
  let good := riserKeys.filter fun k => decide ((Config.riserTraining k.1 k.2).1 < 3)
  { s with mgmt := { s.mgmt with risers := good.map reg }
           mem := { s.mem with coreSvc := lost.foldl (fun c k => c &&& ~~~(1#512 <<< k.1)) s.mem.coreSvc } }

/-- UALink port training (R432, R527 stage 6); a lower rate only with an S4 at the peer port (R430). -/
def trainPort (s : State) (p : Nat) : State :=
  let (state, rate, peer, pport) := Config.portTraining p
  if state = 0 then s
  else if rate % 3 = 0 ∨ peer = 0 then s.portUp p 0 peer (pport % 16) 1
  else s.portUp p (rate % 3) peer (pport % 16) 2

/-- The first reading of every sensor (R26, R527 stage 7). -/
def State.firstReadings (s : State) : State :=
  let keys := (List.range 64).flatMap fun c => (List.range 11).map fun l => (c, l)
  { s with mgmt := { s.mgmt with sensors := keys.map fun k => (11 * k.1 + k.2, Config.firstReading k.1 k.2, s.clock) } }

/-- Stage 4 (R527, R528): every half-line of HBM4 holds the value that initialisation leaves, with valid check bits. -/
def State.initHbm (s : State) : State :=
  let m := s.mem
  { s with mem := { m with dev := m.dev.filter fun c => !(inHbm c.1), bad := m.bad.filter fun u => !(inHbm u.1), checks := [] } }

/-- Stage 5 (R527): L2, arcades and scratchpads are zero. -/
def State.zeroArrays (s : State) : State :=
  let m := s.mem
  { s with cores := s.cores.map fun c => (c.1, { c.2 with scratch := [], l1 := [], bad := [] })
           mem := { m with dev := m.dev.filter fun c => inHbm c.1, bad := m.bad.filter fun u => inHbm u.1, l2 := [], leases := [] } }

/-- The device enters a stage of bring-up (R527). -/
def State.stage (s : State) (n : Nat) : State := { s with mgmt := { s.mgmt with stage := n } }
/-- A stage has failed: recovery (R519, R527). -/
def State.recovery (s : State) : State := { s with mgmt := { s.mgmt with stage := 8, recov := true, running := none } }

/-- POWER_ON_RESET (R519, R527): the stage that DEVSTAT shows runs, and the device enters the next, becomes READY, or enters
recovery. -/
def execPowerOnReset (s : State) : Out :=
  let m := s.mgmt
  let n := m.stage
  let s0 := { s with free := s.free + 1 }
  if 7 < n ∨ m.ready then .next s
  else if n ≠ 2 ∧ n ≠ 7 ∧ Config.stageFails s.free n then .next s0.recovery
  else
    match n with
    | 0 => .next (s0.stage 1)
    | 1 => .next ({ s0 with fab := { s0.fab with devid := Config.fusedSerial } }.stage 2)
    | 2 => .next (if m.imageGood then { s0 with mgmt := { m with running := some m.flash } }.stage 3 else s0.recovery)
    | 3 => .next (s0.trainRisers.stage 4)
    | 4 => .next (s0.initHbm.stage 5)
    | 5 => .next (s0.zeroArrays.stage 6)
    | 6 => .next (((List.range 16).foldl trainPort s0).stage 7)
    | _ => let s1 := s0.firstReadings
           .next { s1 with mgmt := { s1.mgmt with ready := true } }

/-- A final piece of firmware that was accepted is being written to flash (R519). -/
def Mgmt.flashing (m : Mgmt) : Bool :=
  m.busy && m.served && m.result == 0 &&
  (match m.serving with
  | some (9, _, a) => (argN a 4 1).testBit 0
  | _ => false)

/-- POWER_LOSS (R519): everything but flash and fuses is lost; an image whose write was under way fails the check. What
the host holds is not the device's. -/
def execPowerLoss (s : State) : Out :=
  let m := s.mgmt
  let r := State.reset
  .next { r with mgmt := { r.mgmt with flash := m.flash, minSvn := m.minSvn, flashLog := m.flashLog
                                       flashBad := m.flashBad || m.flashing }
                 mem := { r.mem with host := s.mem.host }
                 agenda := s.agenda, free := s.free, nextId := s.nextId }

/-! ### The mailbox (R515 to R517) -/

/-- A request is answered: RESULT and the response (R515). -/
def State.answer (s : State) (result : Nat) (rsp : List (BitVec 8)) : State :=
  let m := s.mgmt
  let bytes := rsp.zipIdx.foldl (fun l b => putD l b.2 b.1 0) m.mbRsp
  { s with mgmt := { m with served := true, result := result, rspLen := rsp.length, mbRsp := bytes } }

/-- The request being served, where it has this code and has not been answered. -/
def Mgmt.request (m : Mgmt) (code : Nat) : Option (Nat × List (BitVec 8)) :=
  match m.serving with
  | some (c, len, args) => if m.busy && !m.served && c == code && (m.stage == 7 || m.stage == 8) then some (len, args) else none
  | none => none

/-- Serve a request of a code whose LEN must be `n` (R517); in recovery only FWUPDATE, ATTEST and LOGREAD are accepted
(R519). -/
def serve (code n : Nat) (f : List (BitVec 8) → State → State) (s : State) : Out :=
  match s.mgmt.request code with
  | none => .next s
  | some (len, args) =>
    if s.mgmt.recov ∧ ¬(code = 2 ∨ code = 9 ∨ code = 10) then .next (s.answer 1 [])
    else if len ≠ n then .next (s.answer 2 [])
    else .next (f args s)

/-- SENSOR (R516, R517). -/
def execSensor (s : State) : Out :=
  serve 1 2 (fun a s =>
    let col := argN a 0 1
    let layer := argN a 1 1
    if 64 ≤ col ∨ 11 ≤ layer then s.answer 2 []
    else
      match find? s.mgmt.sensors (11 * col + layer) with
      | some r => s.answer 0 (leBytes 2 r.1.toNat ++ leBytes 8 r.2)
      | none => { s with free := s.free + 1 }.answer 0 (leBytes 10 (Config.freeBits s.free 0))) s

/-- An entry of the event log by its number (R517, R521): 32 zero bytes where it is not held. -/
def Mgmt.logBytes (m : Mgmt) (n : Nat) : List (BitVec 8) :=
  let age := (m.logNext + 2 ^ 32 - 1 - n % 2 ^ 32) % 2 ^ 32
  if m.logNext ≤ age ∨ 65536 ≤ age then leBytes 32 0
  else
    match m.flashLog.reverse[age]? with
    | some e => leBytes 32 e.2.toNat
    | none => leBytes 32 0

/-- LOGREAD (R516, R517). -/
def execLogread (s : State) : Out :=
  serve 2 6 (fun a s =>
    let first := argN a 0 4
    let n := argN a 4 2
    if n < 1 ∨ 128 < n then s.answer 2 []
    else s.answer 0 ((List.range n).flatMap fun i => s.mgmt.logBytes (first + i))) s

/-- RISERSET (R21, R22, R516, R517). -/
def execRiserset (s : State) : Out :=
  serve 3 8 (fun a s =>
    let d := argN a 0 2
    let ch := argN a 2 1
    let v := argN a 4 4
    if 512 ≤ d ∨ 9 ≤ ch ∨ argN a 3 1 ≠ 0 then s.answer 2 []
    else if natBits v 1 0 = 3 then s.answer 3 []
    else
      let s0 := s.setRiser d ch (natBits v 1 0) (natBits v 7 4)
      let s1 := if natBits (s.riser d ch).toNat 1 0 = natBits v 1 0 then s0 else s0.mgmtEntry
      s1.answer 0 (leBytes 4 (s1.riser d ch).toNat)) s

/-- FENCE (R268, R516, R517); a write of the registers waits for the next cycle where an operation has finished on a press of the
tower in this one (R267). -/
def execMbFence (s : State) : Out :=
  serve 4 2 (fun a s =>
    let t := argN a 0 1
    let ch := argN a 1 1
    if 4 ≤ t ∨ (9 ≤ ch ∧ ch ≠ 15) then s.answer 2 []
    else if s.drained t then s
    else
      let s1 := s.fence t ch (decide (ch ≠ 15))
      s1.answer 0 (leBytes 16 (s1.tower t).contain.toNat)) s

/-- INJECT (R270, R271, R516, R517). -/
def execInject (s : State) : Out :=
  serve 5 16 (fun a s =>
    let t := argN a 0 1
    let v := argN a 8 8
    if 4 ≤ t ∨ argN a 1 7 ≠ 0 then s.answer 2 []
    else if 8 < natBits v 54 51 then s.answer 4 []
    else
      let old := (s.tower t).injector
      let x := BitVec.ofNat 64 v &&& 0xBFF8FFF0000001FF#64
      let x1 := if v.testBit 63 then x else x ||| (old &&& (1#64 <<< 62))
      let s1 := s.modTower t fun w => { w with injector := x1, injFrom := s.nextId }
      s1.answer 0 (leBytes 8 x1.toNat)) s

/-- CHECKBITS (R310, R526): data and check symbols are written as one event, past every cache; the error that they imply is met by
a later access. -/
def execCheckbits (s : State) : Out :=
  serve 6 80 (fun a s =>
    let pa := argN a 0 8
    if pa % 64 ≠ 0 ∨ !(inHbm pa) then s.answer 2 []
    else
      let data := (a.drop 8).take 64
      let check := (a.drop 72).take 8
      let s1 := (s.uncache (pa / 128 * 128)).devWrite pa data
      let m := s1.mem
      let s2 := if check = Config.checkSymbols data then s1
        else { s1 with mem := { m with checks := insertBy (·.1) (pa, check) m.checks } }
      s2.answer 0 []) s

/-! ### The snapshot (R148 to R151, R518) -/

/-- `n` bytes that the manual does not state, numbered from `k` (log 5). -/
def freeBytes (s : State) (k n : Nat) : List (BitVec 8) := (List.range n).map fun i => BitVec.ofNat 8 (Config.freeBits s.free (k + i))

/-- The entry of a thread in a core's image (R518); a slot without a warp has none, and its bytes are free. -/
def snapThread (s : State) (c : Core) (tidx : Nat) : List (BitVec 8) :=
  match (c.warp? (tidx / 32)).bind fun w => w.threads[tidx % 32]? with
  | some t =>
    let preds := (List.range 8).foldl (fun m i => m + if (t.at s.clock (832 + i)).getLsbD 0 then 2 ^ i else 0) 0
    leBytes 8 t.pc.toNat ++ leBytes 4 t.status.toNat ++ leBytes 4 t.ecause.toNat ++ leBytes 2 t.waitCtr ++
      leBytes 1 t.run.code ++ leBytes 1 (if t.yielded then 1 else 0) ++ leBytes 1 preds ++ leBytes 3 0
  | none => freeBytes s (24 * tidx) 21 ++ zeros 3

/-- The code of a convergence register's state (R518). -/
def CvrState.code : CvrState → Nat
  | .idle => 0 | .declared => 1 | .signing => 2 | .issued => 3

/-- The state of a core from byte 16 of its image (R518). -/
def snapCore (s : State) (c : Core) : List (BitVec 8) :=
  (List.range 1024).flatMap (snapThread s c) ++
  [PortId.c, .m, .v0, .v1].flatMap (fun p =>
    let q := c.port p
    leBytes 8 q.pc.toNat ++ leBytes 1 q.count ++ leBytes 1 (if q.active then 1 else 0) ++ leBytes 6 0) ++
  (List.range 16).flatMap fun k =>
    let v := c.cv k
    leBytes 1 v.st.code ++ leBytes 7 0 ++ leBytes 8 v.mask.toNat ++ leBytes 8 v.signed.toNat

/-- The accumulator of the operation on a press. -/
def pressAcc (c : Core) : Option Nat :=
  c.press.bind fun p => (c.issueOrder.find? (·.id == p.1)).bind fun o =>
    match o.kind with
    | .mdrain acc .. => some acc
    | .mdraina acc .. => some acc
    | .mchk acc .. => some acc
    | _ => none

/-- The elements that the operation on a press has written so far, in row-major count, and its decode step: rounding once its results
are formed, and the first test before (R518; log 5). -/
def pressAt (c : Core) : Nat × Nat :=
  match c.press.bind fun p => c.issueOrder.find? (·.id == p.1) with
  | some o =>
    match o.io.todo, o.kind with
    | some l, .mdrain _ _ _ df .. =>
      let total := 64 * rowBytesOf df
      ((total - (l.map (·.2.length)).foldl (· + ·) 0) * 4096 / max 1 total, 3)
    | _, _ => (0, 1)
  | none => (0, if c.press.isSome then 1 else 0)

/-- The state of a press (R518); of a press without an operation the accumulator index is free. -/
def snapPress (s : State) (c : Core) : List (BitVec 8) :=
  leBytes 1 ((pressAcc c).getD (Config.freeBits s.free 24600 % 8)) ++ leBytes 2 (pressAt c).1 ++ leBytes 1 (pressAt c).2

/-- The state of a copy engine (R518): its oldest command. -/
def snapCopy (s : State) (c : Core) : List (BitVec 8) :=
  match c.ops.findSome? fun o => (match o.body with | .copy cmd .. => some cmd | _ => none) with
  | some cmd => leBytes 8 cmd.recVa.toNat ++ leBytes 8 (cpDone cmd) ++ leBytes 4 (cpBar cmd.record).toNat
  | none => freeBytes s 24610 20

/-- The state of a dispatcher (R518); seeding is one step, so no launch is being seeded between steps. -/
def snapDispatch (s : State) : List (BitVec 8) :=
  (List.range 64).flatMap (fun q => leBytes 4 (qdHead (s.qdesc q))) ++ leBytes 4 0 ++
  (List.range 64).flatMap fun c => leBytes 2 (BitVec.ofInt 16 (s.columnTemp c)).toNat

/-- The state of an L2 slice (R518); every access is one step, so between steps none is outstanding. -/
def snapSlice (s : State) (i : Nat) : List (BitVec 8) :=
  let l := s.mem.l2.filter fun e => e.2.1 == i
  leBytes 4 l.length ++ leBytes 4 (l.filter fun e => e.2.2.1).length ++ leBytes 4 0

/-- The state of an HBM4 controller (R518), with no request outstanding between steps. -/
def snapHbm (s : State) (i : Nat) : List (BitVec 8) :=
  let e := findD s.mem.hbmEcc i 0
  leBytes 4 0 ++ leBytes 4 (natBits e.toNat 31 0) ++ leBytes 2 (natBits e.toNat 47 32)

/-- The state of a UALink port (R518). -/
def snapLink (s : State) (i : Nat) : List (BitVec 8) :=
  leBytes 16 (s.link i).row.toNat ++ leBytes 2 (s.link i).replay.length

/-- How many blocks there are of each kind (R518). -/
def snapCount (kind : Nat) : Nat := [512, 512, 512, 4, 32, 8, 16].getD kind 0

/-- The state of a block from byte 16 (R518). -/
def snapBlock (s : State) (kind i : Nat) : List (BitVec 8) :=
  match kind with
  | 0 => snapCore s (s.core i)
  | 1 => snapPress s (s.core i)
  | 2 => snapCopy s (s.core i)
  | 3 => snapDispatch s
  | 4 => snapSlice s i
  | 5 => snapHbm s i
  | _ => snapLink s i

/-- SNAPSHOT_LATCH (R149, R150): in a cycle after the trigger, every block latches the state of that one cycle. -/
def execSnapshotLatch (s : State) : Out :=
  match s.mgmt.snapPending with
  | none => .next s
  | some (src, tag, cycle) =>
    if s.clock ≤ cycle then .next s
    else
      let image := (List.range 7).flatMap fun k => (List.range (snapCount k)).map fun i => (k, i, snapBlock s k i)
      let ctl := setBits (setBits (setBits (setBits s.mgmt.snapCtl 63 32 tag.toNat) 7 4 src) 1 1 1) 0 0 0
      .next { s with mgmt := { s.mgmt with snapCtl := ctl, snapPending := none, snapImage := image, snapClock := s.clock }
                     free := s.free + 1 }

/-- Serve SNAPCTL operation `op` (R517); an operation above 3 is answered with BADARG where operation 0 is served. -/
def serveSnap (op : Nat) (f : List (BitVec 8) → State → State) (s : State) : Out :=
  match s.mgmt.request 7 with
  | none => .next s
  | some (_, a) =>
    let k := argN a 0 1
    if k = op then serve 7 8 f s
    else if op = 0 ∧ 3 < k then serve 7 8 (fun _ s => s.answer 2 []) s
    else .next s

/-- The response of SNAPCTL operations 0 to 2 (R517). -/
def State.answerCtl (s : State) : State := s.answer 0 (leBytes 8 s.mgmt.snapCtl.toNat)

/-- SNAPCTL arm (R149, R517). -/
def execSnapctlArm (s : State) : Out :=
  serveSnap 0 (fun _ s =>
    { s with mgmt := { s.mgmt with snapCtl := setBits (setBits s.mgmt.snapCtl 1 1 0) 0 0 1 } }.answerCtl) s

/-- SNAPCTL set PROGEN (R149, R517). -/
def execSnapctlProgen (s : State) : Out :=
  serveSnap 1 (fun a s =>
    { s with mgmt := { s.mgmt with snapCtl := setBits s.mgmt.snapCtl 2 2 (argN a 1 1 % 2) } }.answerCtl) s

/-- SNAPCTL read the control register (R517). -/
def execSnapctlReadctl (s : State) : Out := serveSnap 2 (fun _ s => s.answerCtl) s

/-- The layer that holds a block: the control die for cores, presses, copy engines and dispatchers, else the base die (R16). -/
def blockLayer (kind i : Nat) : Nat :=
  match kind with
  | 0 | 1 | 2 => 16 * i + 1
  | 3 => 16 * (128 * i) + 1
  | 4 => 16 * (128 * (i / 8))
  | 5 => 16 * (128 * (i / 2))
  | _ => 16 * (128 * (i / 4))

/-- Management wakes the layer that holds what it reads (R151): none where the wake is denied. -/
def State.wake (s : State) (key : Nat) : Option State :=
  match find? s.mgmt.asleep key with
  | none => some s
  | some true => none
  | some false => some { s with mgmt := { s.mgmt with asleep := erase s.mgmt.asleep key } }

/-- SNAPCTL read a block (R151, R517, R518). -/
def execSnapctlReadblock (s : State) : Out :=
  serveSnap 3 (fun a s =>
    let kind := argN a 2 2
    let i := argN a 4 2
    let page := argN a 6 2
    if !(s.mgmt.snapCtl.getLsbD 1) ∨ 6 < kind ∨ snapCount kind ≤ i then s.answer 2 []
    else
      match s.wake (blockLayer kind i) with
      | none => s.answer 5 []
      | some s1 =>
        let body := ((s.mgmt.snapImage.find? fun x => x.1 == kind && x.2.1 == i).map (·.2.2)).getD []
        let image := leBytes 8 s.mgmt.snapClock ++ leBytes 8 s.mgmt.snapCtl.toNat ++ body
        s1.answer 0 (fit 4096 (image.drop (4096 * page)))) s

/-! ### Core control (R137, R140, R151) -/

/-- Serve CORECTL operation `op` (R517); an operation above 3 is answered with BADARG where operation 0 is served. -/
def serveCore (op : Nat) (f : Nat → List (BitVec 8) → State → State) (s : State) : Out :=
  match s.mgmt.request 8 with
  | none => .next s
  | some (_, a) =>
    let d := argN a 0 2
    let k := argN a 2 1
    if k = op then serve 8 12 (fun a s => if 512 ≤ d then s.answer 2 [] else f d a s) s
    else if op = 0 ∧ 3 < k then serve 8 12 (fun _ s => s.answer 2 []) s
    else .next s

/-- CORECTL halt (R140): the core halts as by HALT, with source 4 of the snapshot (R149). -/
def execCorectlHalt (s : State) : Out :=
  serveCore 0 (fun d _ s =>
    ((s.modCore d fun c => if c.halted || c.halting then c else { c with halting := true, haltSrc := 4 })).answer 0 []) s

/-- CORECTL resume (R140). -/
def execCorectlResume (s : State) : Out :=
  serveCore 1 (fun d _ s => (s.modCore d fun c => { c with halted := false, halting := false }).answer 0 []) s

/-- CORECTL debug-halt enable (R137). -/
def execCorectlDebugen (s : State) : Out :=
  serveCore 2 (fun d a s => (s.modCore d fun c => { c with debugHalt := (argN a 3 1).testBit 0 }).answer 0 []) s

/-- A register of a halted core (R151, R486, R517), of its launch or of the one that ended last there: class, slot, lane and index; none outside their ranges, and none for a slot
that holds no warp (DESIGN CHOICE, log 52). -/
def readReg (s : State) (d cls slot lane ix : Nat) : Option Nat :=
  match (s.coreLaunch d).or (find? s.ran d), s.warp? d slot, s.thread? d slot lane with
  | some l, some w, some t =>
    let e : Env := { s := s, at' := s.clock, num := s.free, d := d, port := .c, slot := slot, lane := lane, l := l, w := w, t := t, va := t.pc, word := 0 }
    match cls with
    | 0 => if ix < l.nregs then some (t.final ix).toNat else none
    | 1 => if ix < 64 then some (w.final (768 + ix)).toNat else none
    | 2 => if ix < 8 then some (t.final (832 + ix)).toNat else none
    | 3 => if ix < 16 then some (w.final (840 + ix)).toNat else none
    | 4 => if ix < 4 then some (t.final (880 + ix)).toNat else none
    | 5 => if ix ≤ 0x11 then some (e.sysreg ix).toNat else none
    | 6 => if ix = 0 then some t.pc.toNat else none
    | _ => none
  | _, _, _ => none

/-- CORECTL read a register (R151, R517). -/
def execCorectlReadreg (s : State) : Out :=
  serveCore 3 (fun d a s =>
    if !(s.core d).halted ∨ argN a 7 1 ≠ 0 ∨ argN a 10 2 ≠ 0 then s.answer 2 []
    else
      match readReg s d (argN a 4 1) (argN a 5 1) (argN a 6 1) (argN a 8 2) with
      | none => s.answer 2 []
      | some v =>
        match s.wake (16 * d + 1) with
        | none => s.answer 5 []
        | some s1 => s1.answer 0 (leBytes 32 v)) s

/-! ### Firmware, identity, the end of a request -/

/-- The whole image of an update is verified before flash is written; a request that fails changes no state (R516, R519). -/
def flashImage (image : List (BitVec 8)) (commit : Bool) (s : State) : State :=
  let m := s.mgmt
  let svn := Config.imageSvn image
  if !(signatureOk image) then s.answer 6 []
  else if svn < m.minSvn then s.answer 7 []
  else
    { s with mgmt := { m with pieces := [], flash := image, flashBad := false, minSvn := if commit then svn else m.minSvn } }.answer 0 []

/-- FWUPDATE (R517, R519). -/
def execFwupdate (s : State) : Out :=
  match s.mgmt.request 9 with
  | none => .next s
  | some (len, a) =>
    let off := argN a 0 4
    let flags := argN a 4 4
    let m := s.mgmt
    if len < 8 ∨ 4096 < len ∨ 4 ≤ flags then .next (s.answer 2 [])
    else if off ≠ m.pieces.length then .next ({ s with mgmt := { m with pieces := [] } }.answer 2 [])
    else
      let held := m.pieces ++ (a.drop 8).take (len - 8)
      .next (if flags.testBit 0 then flashImage held (flags.testBit 1) s
        else { s with mgmt := { m with pieces := held } }.answer 0 [])

/-- The report of R520: of the image that runs, not of the one that flash holds since; in recovery its digest is free (log 16). -/
def attestReport (nonce : List (BitVec 8)) (s : State) : List (BitVec 8) :=
  let m := s.mgmt
  let body := fit 32 nonce ++ leBytes 4 s.fab.devid.toNat ++ leBytes 4 Config.fusedSerial.toNat ++
    leBytes 4 ((m.running.map Config.imageSvn).getD 0) ++ leBytes 4 m.minSvn ++ sha512 Config.bootRom ++
    (match m.running with | some i => sha512 i | none => freeBytes s 25000 64) ++ sha512 Config.fuses ++ identityKey ++
    leBytes 4 (Config.attestState m.ot m.stage m.recov).toNat ++ zeros 84
  body ++ identitySign body

/-- ATTEST (R516, R517, R520). -/
def execAttest (s : State) : Out := serve 10 32 (fun a s => { s with free := s.free + 1 }.answer 0 (attestReport a s)) s

/-- BADCMD (R516): a CODE that the table does not list. -/
def execBadcmd (s : State) : Out :=
  match s.mgmt.serving with
  | some (c, _, _) =>
    .next (if s.mgmt.busy && !s.mgmt.served && (c == 0 || decide (10 < c)) && (s.mgmt.stage == 7 || s.mgmt.stage == 8) then s.answer 1 [] else s)
  | none => .next s

/-- MAILBOX_COMPLETE (R515): BUSY clears, and MSI-X vector 2 is sent. -/
def execMailboxComplete (s : State) : Out :=
  .next (if s.mgmt.busy && s.mgmt.served then
      { s with mgmt := { s.mgmt with busy := false, served := false, serving := none } }.msi 2
    else s)

end Sys2Proof.Machine
end

