-- ==== Sys2Proof/Machine/Dispatch.lean ====
section
/-! DEFINITION. Which meaning each instruction has: one arm per row of the opcode table. -/

namespace Sys2Proof.Machine

open Sys2Proof

/-- Execute one instruction or step of the device. -/
def exec (i : Instr) (s : State) : Host.Outcome State Fault Refusal :=
  match i with
  | .iadd w => Sys2Proof.Machine.execIadd w s
  | .isub w => Sys2Proof.Machine.execIsub w s
  | .iaddc w => Sys2Proof.Machine.execIaddc w s
  | .imul w => Sys2Proof.Machine.execImul w s
  | .imulh w => Sys2Proof.Machine.execImulh w s
  | .imad w => Sys2Proof.Machine.execImad w s
  | .imin w => Sys2Proof.Machine.execImin w s
  | .imax w => Sys2Proof.Machine.execImax w s
  | .iabs w => Sys2Proof.Machine.execIabs w s
  | .idiv w => Sys2Proof.Machine.execIdiv w s
  | .irem w => Sys2Proof.Machine.execIrem w s
  | .icmp w => Sys2Proof.Machine.execIcmp w s
  | .sel w => Sys2Proof.Machine.execSel w s
  | .and w => Sys2Proof.Machine.execAnd w s
  | .or w => Sys2Proof.Machine.execOr w s
  | .xor w => Sys2Proof.Machine.execXor w s
  | .andn w => Sys2Proof.Machine.execAndn w s
  | .not w => Sys2Proof.Machine.execNot w s
  | .shl w => Sys2Proof.Machine.execShl w s
  | .shr w => Sys2Proof.Machine.execShr w s
  | .sar w => Sys2Proof.Machine.execSar w s
  | .rol w => Sys2Proof.Machine.execRol w s
  | .fshl w => Sys2Proof.Machine.execFshl w s
  | .fshr w => Sys2Proof.Machine.execFshr w s
  | .bfx w => Sys2Proof.Machine.execBfx w s
  | .bfi w => Sys2Proof.Machine.execBfi w s
  | .popc w => Sys2Proof.Machine.execPopc w s
  | .clz w => Sys2Proof.Machine.execClz w s
  | .brev w => Sys2Proof.Machine.execBrev w s
  | .mov w => Sys2Proof.Machine.execMov w s
  | .movi w => Sys2Proof.Machine.execMovi w s
  | .movhi w => Sys2Proof.Machine.execMovhi w s
  | .iadd64 w => Sys2Proof.Machine.execIadd64 w s
  | .lea w => Sys2Proof.Machine.execLea w s
  | .fadd w => Sys2Proof.Machine.execFadd w s
  | .fsub w => Sys2Proof.Machine.execFsub w s
  | .fmul w => Sys2Proof.Machine.execFmul w s
  | .ffma w => Sys2Proof.Machine.execFfma w s
  | .fmin w => Sys2Proof.Machine.execFmin w s
  | .fmax w => Sys2Proof.Machine.execFmax w s
  | .fcmp w => Sys2Proof.Machine.execFcmp w s
  | .fclass w => Sys2Proof.Machine.execFclass w s
  | .frnd w => Sys2Proof.Machine.execFrnd w s
  | .frcp w => Sys2Proof.Machine.execFrcp w s
  | .frsq w => Sys2Proof.Machine.execFrsq w s
  | .fsqrt w => Sys2Proof.Machine.execFsqrt w s
  | .fex2 w => Sys2Proof.Machine.execFex2 w s
  | .flg2 w => Sys2Proof.Machine.execFlg2 w s
  | .fsin w => Sys2Proof.Machine.execFsin w s
  | .fcos w => Sys2Proof.Machine.execFcos w s
  | .ftanh w => Sys2Proof.Machine.execFtanh w s
  | .hadd2 w => Sys2Proof.Machine.execHadd2 w s
  | .hmul2 w => Sys2Proof.Machine.execHmul2 w s
  | .hfma2 w => Sys2Proof.Machine.execHfma2 w s
  | .cvt w => Sys2Proof.Machine.execCvt w s
  | .cvtblk w => Sys2Proof.Machine.execCvtblk w s
  | .unblk w => Sys2Proof.Machine.execUnblk w s
  | .cbxp w => Sys2Proof.Machine.execCbxp w s
  | .cbq w => Sys2Proof.Machine.execCbq w s
  | .ckacc w => Sys2Proof.Machine.execCkacc w s
  | .cktest w => Sys2Proof.Machine.execCktest w s
  | .shfl w => Sys2Proof.Machine.execShfl w s
  | .shflp w => Sys2Proof.Machine.execShflp w s
  | .vote w => Sys2Proof.Machine.execVote w s
  | .red w => Sys2Proof.Machine.execRed w s
  | .scan w => Sys2Proof.Machine.execScan w s
  | .lgset w => Sys2Proof.Machine.execLgset w s
  | .matchLanes w => Sys2Proof.Machine.execMatchLanes w s
  | .bcast w => Sys2Proof.Machine.execBcast w s
  | .pand w => Sys2Proof.Machine.execPand w s
  | .por w => Sys2Proof.Machine.execPor w s
  | .pxor w => Sys2Proof.Machine.execPxor w s
  | .pnot w => Sys2Proof.Machine.execPnot w s
  | .pmov w => Sys2Proof.Machine.execPmov w s
  | .mfsr w => Sys2Proof.Machine.execMfsr w s
  | .mtsr w => Sys2Proof.Machine.execMtsr w s
  | .pairedWord w => Sys2Proof.Machine.execPairedWord w s
  | .mset w => Sys2Proof.Machine.execMset w s
  | .mma w => Sys2Proof.Machine.execMma w s
  | .mmaL w => Sys2Proof.Machine.execMmaL w s
  | .mmar w => Sys2Proof.Machine.execMmar w s
  | .mmarL w => Sys2Proof.Machine.execMmarL w s
  | .mmas w => Sys2Proof.Machine.execMmas w s
  | .mmasL w => Sys2Proof.Machine.execMmasL w s
  | .mzero w => Sys2Proof.Machine.execMzero w s
  | .mldr w => Sys2Proof.Machine.execMldr w s
  | .mstr w => Sys2Proof.Machine.execMstr w s
  | .macc w => Sys2Proof.Machine.execMacc w s
  | .mscl w => Sys2Proof.Machine.execMscl w s
  | .mdrain w => Sys2Proof.Machine.execMdrain w s
  | .mdraina w => Sys2Proof.Machine.execMdraina w s
  | .mchk w => Sys2Proof.Machine.execMchk w s
  | .mbnd w => Sys2Proof.Machine.execMbnd w s
  | .mrel w => Sys2Proof.Machine.execMrel w s
  | .maxsc w => Sys2Proof.Machine.execMaxsc w s
  | .seedscan w => Sys2Proof.Machine.execSeedscan w s
  | .seedfit w => Sys2Proof.Machine.execSeedfit w s
  | .seedx w => Sys2Proof.Machine.execSeedx w s
  | .lds w => Sys2Proof.Machine.execLds w s
  | .sts w => Sys2Proof.Machine.execSts w s
  | .ldsb w => Sys2Proof.Machine.execLdsb w s
  | .stsb w => Sys2Proof.Machine.execStsb w s
  | .ats w => Sys2Proof.Machine.execAts w s
  | .cass w => Sys2Proof.Machine.execCass w s
  | .strm w => Sys2Proof.Machine.execStrm w s
  | .ldrm w => Sys2Proof.Machine.execLdrm w s
  | .atrm w => Sys2Proof.Machine.execAtrm w s
  | .brset w => Sys2Proof.Machine.execBrset w s
  | .brget w => Sys2Proof.Machine.execBrget w s
  | .ldb w => Sys2Proof.Machine.execLdb w s
  | .stb w => Sys2Proof.Machine.execStb w s
  | .atb w => Sys2Proof.Machine.execAtb w s
  | .casb w => Sys2Proof.Machine.execCasb w s
  | .atq w => Sys2Proof.Machine.execAtq w s
  | .copy w => Sys2Proof.Machine.execCopy w s
  | .pref w => Sys2Proof.Machine.execPref w s
  | .cflush w => Sys2Proof.Machine.execCflush w s
  | .cinv w => Sys2Proof.Machine.execCinv w s
  | .fence w => Sys2Proof.Machine.execFence w s
  | .lfence w => Sys2Proof.Machine.execLfence w s
  | .binit w => Sys2Proof.Machine.execBinit w s
  | .barv w => Sys2Proof.Machine.execBarv w s
  | .bexp w => Sys2Proof.Machine.execBexp w s
  | .bwait w => Sys2Proof.Machine.execBwait w s
  | .btest w => Sys2Proof.Machine.execBtest w s
  | .binv w => Sys2Proof.Machine.execBinv w s
  | .racq w => Sys2Proof.Machine.execRacq w s
  | .rcom w => Sys2Proof.Machine.execRcom w s
  | .rtake w => Sys2Proof.Machine.execRtake w s
  | .rrel w => Sys2Proof.Machine.execRrel w s
  | .evpost w => Sys2Proof.Machine.execEvpost w s
  | .lnch w => Sys2Proof.Machine.execLnch w s
  | .ctw w => Sys2Proof.Machine.execCtw w s
  | .ctswap w => Sys2Proof.Machine.execCtswap w s
  | .kval w => Sys2Proof.Machine.execKval w s
  | .kvfr w => Sys2Proof.Machine.execKvfr w s
  | .kvsh w => Sys2Proof.Machine.execKvsh w s
  | .kvmap w => Sys2Proof.Machine.execKvmap w s
  | .coll w => Sys2Proof.Machine.execColl w s
  | .ltrd w => Sys2Proof.Machine.execLtrd w s
  | .admitTok w => Sys2Proof.Machine.execAdmitTok w s
  | .nop w => Sys2Proof.Machine.execNop w s
  | .bra w => Sys2Proof.Machine.execBra w s
  | .brx w => Sys2Proof.Machine.execBrx w s
  | .call w => Sys2Proof.Machine.execCall w s
  | .ret w => Sys2Proof.Machine.execRet w s
  | .exit w => Sys2Proof.Machine.execExit w s
  | .yield w => Sys2Proof.Machine.execYield w s
  | .sleep w => Sys2Proof.Machine.execSleep w s
  | .trap w => Sys2Proof.Machine.execTrap w s
  | .rett w => Sys2Proof.Machine.execRett w s
  | .bkpt w => Sys2Proof.Machine.execBkpt w s
  | .snap w => Sys2Proof.Machine.execSnap w s
  | .halt w => Sys2Proof.Machine.execHalt w s
  | .tlbi w => Sys2Proof.Machine.execTlbi w s
  | .portBoundary d p => Sys2Proof.Machine.execPortBoundary d p s
  | .deferredTrapDelivery d slot lane => Sys2Proof.Machine.execDeferredTrapDelivery d slot lane s
  | .sleepExpire d slot lane => Sys2Proof.Machine.execSleepExpire d slot lane s
  | .bankToggle d slot => Sys2Proof.Machine.execBankToggle d slot s
  | .coreHalt d => Sys2Proof.Machine.execCoreHalt d s
  | .plateExecute d => Sys2Proof.Machine.execPlateExecute d s
  | .pressOperation d => Sys2Proof.Machine.execPressOperation d s
  | .pressComplete d => Sys2Proof.Machine.execPressComplete d s
  | .seedExecute d => Sys2Proof.Machine.execSeedExecute d s
  | .maxscComplete d op => Sys2Proof.Machine.execMaxscComplete d op s
  | .ldbLaneLand d op lane => Sys2Proof.Machine.execLdbLaneLand d op lane s
  | .bufferLanePerform d op lane => Sys2Proof.Machine.execBufferLanePerform d op lane s
  | .strmLaneWrite d op lane => Sys2Proof.Machine.execStrmLaneWrite d op lane s
  | .ldrmGranule d op g => Sys2Proof.Machine.execLdrmGranule d op g s
  | .atrmLaneApply d op lane => Sys2Proof.Machine.execAtrmLaneApply d op lane s
  | .atqSend d op lane => Sys2Proof.Machine.execAtqSend d op lane s
  | .atqApply queue => Sys2Proof.Machine.execAtqApply queue s
  | .atqReply tag status old => Sys2Proof.Machine.execAtqReply tag status old s
  | .copyElement d op => Sys2Proof.Machine.execCopyElement d op s
  | .cacheMaintComplete d op => Sys2Proof.Machine.execCacheMaintComplete d op s
  | .evpostApply d op => Sys2Proof.Machine.execEvpostApply d op s
  | .lnchEnqueue d op => Sys2Proof.Machine.execLnchEnqueue d op s
  | .cadastrePerform d op => Sys2Proof.Machine.execCadastrePerform d op s
  | .ltrdRead d op => Sys2Proof.Machine.execLtrdRead d op s
  | .admissionGrant t bucket => Sys2Proof.Machine.execAdmissionGrant t bucket s
  | .lineMigrate pa tower => Sys2Proof.Machine.execLineMigrate pa tower s
  | .leaseExpire key => Sys2Proof.Machine.execLeaseExpire key s
  | .peerWriteApply port => Sys2Proof.Machine.execPeerWriteApply port s
  | .peerReadServe port => Sys2Proof.Machine.execPeerReadServe port s
  | .warpSuspend d slot => Sys2Proof.Machine.execWarpSuspend d slot s
  | .warpRestore d slot => Sys2Proof.Machine.execWarpRestore d slot s
  | .doorbell q tail => Sys2Proof.Machine.execDoorbell q tail s
  | .queueEnable q desc => Sys2Proof.Machine.execQueueEnable q desc s
  | .queueDisable q => Sys2Proof.Machine.execQueueDisable q s
  | .dependenceMet key => Sys2Proof.Machine.execDependenceMet key s
  | .mapChoice key => Sys2Proof.Machine.execMapChoice key s
  | .thermalForced key => Sys2Proof.Machine.execThermalForced key s
  | .launchSeed key => Sys2Proof.Machine.execLaunchSeed key s
  | .preempt key => Sys2Proof.Machine.execPreempt key s
  | .preemptSave key => Sys2Proof.Machine.execPreemptSave key s
  | .launchResume key => Sys2Proof.Machine.execLaunchResume key s
  | .launchEnd key => Sys2Proof.Machine.execLaunchEnd key s
  | .launchAbort key => Sys2Proof.Machine.execLaunchAbort key s
  | .eventRecordCopy t => Sys2Proof.Machine.execEventRecordCopy t s
  | .evsignal v => Sys2Proof.Machine.execEvsignal v s
  | .abort id => Sys2Proof.Machine.execAbort id s
  | .hflheadWrite v => Sys2Proof.Machine.execHflheadWrite v s
  | .configRegisterWrite bar off size v => Sys2Proof.Machine.execConfigRegisterWrite bar off size v s
  | .ctxadd v => Sys2Proof.Machine.execCtxadd v s
  | .resumeAction0 seq => Sys2Proof.Machine.execResumeAction0 seq s
  | .resumeFrameexh seq => Sys2Proof.Machine.execResumeFrameexh seq s
  | .linkClr p => Sys2Proof.Machine.execLinkClr p s
  | .domainEnable d => Sys2Proof.Machine.execDomainEnable d s
  | .domainDisable d => Sys2Proof.Machine.execDomainDisable d s
  | .bar2Write off bytes => Sys2Proof.Machine.execBar2Write off bytes s
  | .bar2Read off size => Sys2Proof.Machine.execBar2Read off size s
  | .flitReceive port crcOk m => Sys2Proof.Machine.execFlitReceive port crcOk m s
  | .flitAck port n => Sys2Proof.Machine.execFlitAck port n s
  | .replayLimit port => Sys2Proof.Machine.execReplayLimit port s
  | .retrainLock port rate peerId peerPort => Sys2Proof.Machine.execRetrainLock port rate peerId peerPort s
  | .retrainTimeout port => Sys2Proof.Machine.execRetrainTimeout port s
  | .lossOfSignal port => Sys2Proof.Machine.execLossOfSignal port s
  | .ackTimeout port => Sys2Proof.Machine.execAckTimeout port s
  | .managementRetrain port => Sys2Proof.Machine.execManagementRetrain port s
  | .agreementReport dom member rows => Sys2Proof.Machine.execAgreementReport dom member rows s
  | .agreementReportTimeout dom => Sys2Proof.Machine.execAgreementReportTimeout dom s
  | .agreementCommit dom => Sys2Proof.Machine.execAgreementCommit dom s
  | .markVectorMessage dom coll member marks => Sys2Proof.Machine.execMarkVectorMessage dom coll member marks s
  | .collHeaderExchange dom coll member fields headers => Sys2Proof.Machine.execCollHeaderExchange dom coll member fields headers s
  | .collChunkMessage dom coll chunk member up data => Sys2Proof.Machine.execCollChunkMessage dom coll chunk member up data s
  | .collCompletionRound dom coll => Sys2Proof.Machine.execCollCompletionRound dom coll s
  | .memberStopped dom coll member => Sys2Proof.Machine.execMemberStopped dom coll member s
  | .riserTimingApply d ch => Sys2Proof.Machine.execRiserTimingApply d ch s
  | .riserRepair d ch => Sys2Proof.Machine.execRiserRepair d ch s
  | .coreOutOfService d => Sys2Proof.Machine.execCoreOutOfService d s
  | .channelFenceThreshold t ch => Sys2Proof.Machine.execChannelFenceThreshold t ch s
  | .sensorSample col layer reading => Sys2Proof.Machine.execSensorSample col layer reading s
  | .loopLost top => Sys2Proof.Machine.execLoopLost top s
  | .loopRestored top => Sys2Proof.Machine.execLoopRestored top s
  | .unassignedOpcode w => Sys2Proof.Machine.execUnassignedOpcode w s
  | .bar2Resize log2GiB => Sys2Proof.Machine.execBar2Resize log2GiB s
  | .layerClockGating d layer asleep denied => Sys2Proof.Machine.execLayerClockGating d layer asleep denied s
  | .memoryError unit pa uncorrectable => Sys2Proof.Machine.execMemoryError unit pa uncorrectable s
  | .channelDieFault d acc ch row col mask => Sys2Proof.Machine.execChannelDieFault d acc ch row col mask s
  | .snapshotLatch => Sys2Proof.Machine.execSnapshotLatch s
  | .tokenRefill => Sys2Proof.Machine.execTokenRefill s
  | .faultRecordWrite => Sys2Proof.Machine.execFaultRecordWrite s
  | .packetTake => Sys2Proof.Machine.execPacketTake s
  | .sync => Sys2Proof.Machine.execSync s
  | .kvenEnable => Sys2Proof.Machine.execKvenEnable s
  | .kvenDisable => Sys2Proof.Machine.execKvenDisable s
  | .shutdownGraceExpire => Sys2Proof.Machine.execShutdownGraceExpire s
  | .powerOnReset => Sys2Proof.Machine.execPowerOnReset s
  | .sensor => Sys2Proof.Machine.execSensor s
  | .logread => Sys2Proof.Machine.execLogread s
  | .riserset => Sys2Proof.Machine.execRiserset s
  | .mbFence => Sys2Proof.Machine.execMbFence s
  | .inject => Sys2Proof.Machine.execInject s
  | .checkbits => Sys2Proof.Machine.execCheckbits s
  | .snapctlArm => Sys2Proof.Machine.execSnapctlArm s
  | .snapctlProgen => Sys2Proof.Machine.execSnapctlProgen s
  | .snapctlReadctl => Sys2Proof.Machine.execSnapctlReadctl s
  | .snapctlReadblock => Sys2Proof.Machine.execSnapctlReadblock s
  | .corectlHalt => Sys2Proof.Machine.execCorectlHalt s
  | .corectlResume => Sys2Proof.Machine.execCorectlResume s
  | .corectlDebugen => Sys2Proof.Machine.execCorectlDebugen s
  | .corectlReadreg => Sys2Proof.Machine.execCorectlReadreg s
  | .fwupdate => Sys2Proof.Machine.execFwupdate s
  | .attest => Sys2Proof.Machine.execAttest s
  | .mailboxComplete => Sys2Proof.Machine.execMailboxComplete s
  | .overrun => Sys2Proof.Machine.execOverrun s
  | .badcmd => Sys2Proof.Machine.execBadcmd s
  | .powerLoss => Sys2Proof.Machine.execPowerLoss s

end Sys2Proof.Machine
end

