-- ==== Sys2Proof/Machine/Fetch.lean ====
section
/-! DEFINITION. What happens next: the fetch of a word (05 R122, R133), the steps that fall due in a cycle, the steps that
could come about, the advance of the clock (05 R128, 18 R477), and a machine that is ready to fetch a given word. -/

namespace Sys2Proof.Machine

open Sys2Proof

/-- What the machine does next (log 1): a step, an outcome at once, or the first of several steps that has an effect. -/
inductive Plan where
  | run (i : Instr) (s : State)
  | done (o : Out)
  | search (l : List Instr) (s : State)

/-! ### Fetch -/

/-- The first instruction of a launch issues (R385). -/
def State.markFirst (s : State) (key : Nat) : State :=
  s.modLaunch key fun l => if l.firstAt.isNone then { l with firstAt := some s.clock } else l

/-- The group traps where its word could not be fetched (R122, R133): `epc` and the information. -/
def fetchTrap (s : State) (d : Nat) (p : PortId) (cause : Nat) (info epc : BitVec 64) : Out :=
  let q := (s.core d).port p
  let s1 := q.members.foldl (fun s m =>
    (takeTrap s d m.1 m.2 cause info epc false).modThread d m.1 m.2 fun t => { t with readyAt := s.clock + 1 }) s
  .next (endRun s1 d p [] (s.clock + 1))

/-- The page of the word is not present (R117, R133): every warp of the group is suspended. -/
def fetchMiss (s : State) (d : Nat) (p : PortId) (va : BitVec 64) (ptepa : Nat) : Out :=
  let q := (s.core d).port p
  let gone := (q.members.map (·.1)).eraseDups
  let s1 := gone.foldl (fun s sl => markFault d va (sl, va, ptepa, Access.exec.code) s) s
  .next (endRun (s1.modPort d p fun q => { q with faulted := q.faulted ++ gone }) d p [] s.clock)

/-- The word's bytes meet an uncorrectable error (R311). -/
def fetchBad (s : State) (d : Nat) (p : PortId) (va : BitVec 64) : Out :=
  let q := (s.core d).port p
  let slot := (q.members.head?.map (·.1)).getD 0
  fetchTrap (s.postFault 0x50 8 0 d slot (((s.core d).launch).getD 0) va va 0 0 none false).1 d p Cause.uncmem va va

/-- The extent of a word that does not decode (R73): that of its block fields where its instruction takes blocks, which for LDSB and
STSB are MOD[8:3] (R328). -/
def rawExtent (word : BitVec 64) : Nat :=
  if word.getLsbD 58 then 1
  else if natBits word.toNat 57 49 = 0x102 ∨ natBits word.toNat 57 49 = 0x103 then
    (mfld (splitR word).mod 8 6 + 1) * (mfld (splitR word).mod 5 3 + 1)
  else
    match rRows.find? (·.op == natBits word.toNat 57 49) with
    | some r => if r.sp.block then RForm.h (splitR word) * RForm.wd (splitR word) else 1
    | none => 1

/-- A fetched word issues (R84). One that does not decode traps, with the 25th-word check first; its extent is that of its
block fields (log 23). -/
def issueFetched (s : State) (d : Nat) (p : PortId) (word : BitVec 64) : Plan :=
  let w := splitR word
  let late := decide (24 ≤ ((s.core d).port p).count)
  match decode word with
  | .ok i => .run i s
  | .error .resField => .done (trapGroup s (headR w) (rawExtent word) (if late then Cause.illrun else Cause.resfield) word)
  | .error .illOpnd => .done (trapGroup s (headR w) (rawExtent word) (if late then Cause.illrun else Cause.illopnd) word)

/-- Fetch the next word of the group that runs on a port (R122, R133, R403). -/
def fetchNew (s : State) (d : Nat) (p : PortId) (l : Launch) : Plan :=
  let pc := ((s.core d).port p).pc
  if !(vaOk l.priv pc) then .done (fetchTrap s d p Cause.addrform (vaOf pc.toNat) (pc - 8))
  else
    match translateOn s d l.ptroot.toNat l.priv pc .exec with
    | (_, .error .bad) => .done (.fault .badPhysical)
    | (s1, .error (.miss pte)) => .done (fetchMiss s1 d p pc pte)
    | (s1, .error .unc) => .done (fetchBad s1 d p pc)
    | (s1, .error _) => .done (fetchTrap s1 d p Cause.prot pc pc)
    | (s1, .ok page) =>
      if page.loc.ty = 3 ∧ !(s1.peerOk page.loc.peer page.loc.pport) then .done (fetchTrap s1 d p Cause.prot pc pc)
      else if page.loc.own && s1.devBad page.loc.pa 8 then .done (fetchBad (s1.meet page.loc.pa 8) d p pc)
      else
        match s1.locRead page.loc 0 8 with
        | none => .done (.next (freezeWord (s1.askPeer l.key 0 0 page.loc) d p))
        | some (s2, bs) => issueFetched ((s2.l2Pass page.loc false).markFirst l.key) d p (wordOfBytes bs)

/-- The word that a port issues: the one that is frozen there after its issue (R326), or the next of its run. -/
def fetch (s : State) (d : Nat) (p : PortId) (l : Launch) : Plan :=
  match ((s.core d).port p).issued with
  | some i => issueFetched s d p i.word
  | none => fetchNew s d p l

/-! ### Steps that fall due -/

/-- The issue ports of a core (R99). -/
def allPorts : List PortId := [.c, .m, .v0, .v1]

/-- A step of one warp that has fallen due: a bank toggle (R418), the end of a sleep (R136), a deferred trap (R145). -/
def warpDue (s : State) (d slot : Nat) (w : Warp) : Option Instr :=
  if w.toggles.any fun c => decide (c ≤ s.clock) then some (.bankToggle d slot)
  else
    match w.threads.zipIdx.find? fun tl => tl.1.run == .sleeping && decide (tl.1.wake ≤ s.clock) with
    | some tl => some (.sleepExpire d slot tl.2)
    | none => (w.threads.zipIdx.find? fun tl => s.trapReady d slot tl.2 w tl.1).map fun tl => .deferredTrapDelivery d slot tl.2

/-- A boundary at which a port of the core finds threads (R103). -/
def boundaryDue (s : State) (d : Nat) : Option Instr :=
  (allPorts.find? fun p => s.atBoundary d p && !(s.cands d p).isEmpty).map fun p => .portBoundary d p

/-- A step that has fallen due outside the words. -/
def State.dueStep (s : State) : Option Instr :=
  if s.mgmt.stage < 8 ∧ !s.mgmt.ready then some .powerOnReset
  else if s.mgmt.tick < s.clock / 1050 then some .tokenRefill
  else
    match s.cores.findSome? fun dc => dc.2.warps.findSome? fun sw => warpDue s dc.1 sw.1 sw.2 with
    | some i => some i
    | none => s.cores.findSome? fun dc => boundaryDue s dc.1

/-- The first port with a word due, cores and ports in ascending order. -/
def State.dueWord (s : State) : Option (Nat × PortId) :=
  s.cores.findSome? fun dc =>
    (allPorts.find? fun p => (dc.2.port p).active && decide ((dc.2.port p).due ≤ s.clock)).map fun p => (dc.1, p)

/-! ### Steps that could come about -/

/-- The next steps of this member in a COLL (R445, R446, R449, R451). -/
def State.collSteps (s : State) (dom ix chunks : Nat) : List Instr :=
  let x := s.domain dom
  match x.coll? ix with
  | none => [.collCompletionRound dom ix]
  | some c =>
    (if c.headers.any (·.1 == x.self) then [] else [.collHeaderExchange dom ix x.self [] []]) ++
    (if c.agreed then (List.range chunks).map fun ch => .collChunkMessage dom ix ch x.self true [] else []) ++
    [.markVectorMessage dom ix x.self [], .collCompletionRound dom ix]

/-- The next steps of an operation in flight. -/
def opSteps (s : State) (d : Nat) (o : Op) : List Instr :=
  match o.body with
  | .bufLoad _ _ _ _ _ lanes => lanes.map fun a => .ldbLaneLand d o.id a.lane
  | .bufCount _ _ _ lanes => lanes.map fun a => .bufferLanePerform d o.id a.1
  | .bufHeld _ _ _ _ _ _ lanes done => ((lanes.take 1).map (·.lane) ++ done.map (·.1)).map (.bufferLanePerform d o.id)
  | .strm _ _ lanes => (lanes.take 1).map (.strmLaneWrite d o.id)
  | .ldrm _ _ _ _ gs => (gs.take 1).map (.ldrmGranule d o.id)
  | .atrm _ _ lanes => lanes.map fun a => .atrmLaneApply d o.id a.1
  | .atrmHeld _ _ _ _ lanes done => ((lanes.take 1).map (·.1) ++ done.map (·.1)).map (.atrmLaneApply d o.id)
  | .atq _ _ _ _ _ tosend _ _ => tosend.map fun a => .atqSend d o.id a.lane
  | .copy .. => [.copyElement d o.id]
  | .cache .. => [.cacheMaintComplete d o.id]
  | .evpost .. => [.evpostApply d o.id]
  | .lnch .. => [.lnchEnqueue d o.id]
  | .cad .. => [.cadastrePerform d o.id]
  | .ltrd .. => [.ltrdRead d o.id]
  | .adm .. => []
  | .maxsc .. => [.maxscComplete d o.id]
  | .seed .. => [.seedExecute d]
  | .coll dom ix _ r .. => s.collSteps dom ix (clChunks r)

/-- The next steps of a core's engines. -/
def coreSteps (s : State) (d : Nat) (c : Core) : List Instr :=
  (if c.halting then [.coreHalt d] else []) ++
  (c.warps.filterMap fun sw => sw.2.susp.map fun x => if x.posted then .warpRestore d sw.1 else .warpSuspend d sw.1) ++
  (if c.issueOrder.isEmpty && c.press.isNone && !(c.ops.any Op.wantsPress) then [] else [.pressComplete d, .plateExecute d, .pressOperation d]) ++
  (c.ops.flatMap fun o => if o.parked.isSome then [] else opSteps s d o)

/-- The next steps of a launch. -/
def launchSteps (l : Launch) : List Instr :=
  match l.phase with
  | .waitDeps => [.dependenceMet l.key]
  | .waitMap _ => [.mapChoice l.key, .thermalForced l.key]
  | .placed => [.launchSeed l.key, .preempt l.key]
  | .running => [.launchEnd l.key]
  | .preempting => [.preemptSave l.key]
  | .preempted => [.launchResume l.key, .preempt l.key]
  | .ending _ _ => [.launchAbort l.key]

/-- The next steps of a tower. -/
def towerSteps (t : Nat) (w : Tower) : List Instr :=
  (if w.events.isEmpty then [] else [.eventRecordCopy t]) ++ w.gates.map (fun g => .admissionGrant t g.1) ++
  w.met.map fun ch => .channelFenceThreshold t ch

/-- The mailbox requests, by code (R516); codes 7 and 8 have a step for each operation. -/
def mailboxSteps (m : Mgmt) : List Instr :=
  if m.served then [.mailboxComplete]
  else
    match m.serving with
    | none => []
    | some (c, _, _) =>
      match c with
      | 1 => [.sensor] | 2 => [.logread] | 3 => [.riserset] | 4 => [.mbFence] | 5 => [.inject] | 6 => [.checkbits]
      | 7 => [.snapctlArm, .snapctlProgen, .snapctlReadctl, .snapctlReadblock]
      | 8 => [.corectlHalt, .corectlResume, .corectlDebugen, .corectlReadreg]
      | 9 => [.fwupdate] | 10 => [.attest] | _ => [.badcmd]

/-- Whether the loop of the top, or of the bottom, is to be declared lost or restored (R522). -/
def loopSteps (s : State) (top : Bool) : List Instr :=
  let l := s.mgmt.loop top
  if if top then s.mgmt.topLost else s.mgmt.bottomLost then (if l.restored s.clock then [.loopRestored top] else [])
  else if l.lost s.clock then [.loopLost top] else []

/-- The next steps of management. -/
def mgmtSteps (s : State) : List Instr :=
  loopSteps s true ++ loopSteps s false ++
  (if s.mgmt.snapPending.isSome then [.snapshotLatch] else []) ++ mailboxSteps s.mgmt ++
  s.mgmt.riserHeld.map (fun k => .riserTimingApply (k.1 / 9) (k.1 % 9)) ++ s.mgmt.marked.map Instr.coreOutOfService ++
  (if s.mgmt.shutdownAt.isSome then [.shutdownGraceExpire] else [])

/-- The next steps of the links, the domains and the fault ring. -/
def fabricSteps (s : State) : List Instr :=
  (s.fab.inbox.map (·.1)).eraseDups.flatMap (fun p => [.peerWriteApply p, .peerReadServe p]) ++
  ((s.fab.inbox.filterMap fun x => match x.2 with | .atqCommand q _ => some q | _ => none).eraseDups.map Instr.atqApply) ++
  s.fab.links.flatMap (fun l => if l.2.retraining.isSome then [.retrainTimeout l.1] else [.replayLimit l.1, .ackTimeout l.1]) ++
  s.fab.domains.flatMap (fun d => if d.2.round.isSome then [.agreementReportTimeout d.1, .agreementCommit d.1] else []) ++
  ((s.mem.leases.filter fun e => decide (e.2.2 ≤ s.clock)).map fun e => .leaseExpire e.1) ++
  (if s.q.faults.any fun r => !r.written then [.faultRecordWrite] else [])

/-- The steps that could come about of themselves, in the order in which they are tried (log 1): what management writes comes
before what finishes in the same cycle on a press, and cores go in ascending order (R267). -/
def State.openSteps (s : State) : List Instr :=
  mgmtSteps s ++ s.cores.flatMap (fun dc => coreSteps s dc.1 dc.2) ++ s.launches.flatMap launchSteps ++ [.packetTake] ++
  s.towers.flatMap (fun t => towerSteps t.1 t.2) ++ fabricSteps s

/-! ### The clock -/

/-- How often event `evt` of R477 occurs on a core in one cycle, for the events that are counted by cycle. -/
def cycleEvents (s : State) (d evt : Nat) : Nat :=
  if evt = 1 then 1
  else if 12 ≤ evt ∧ evt ≤ 14 then
    if (findD (s.tower (towerOf d)).gates (evt - 12) []).any fun q => q.2.1 == d then 1 else 0
  else if evt = 6 then
    ((s.core d).ports.filter fun q => decide (q.2.banked.1 ≤ s.clock ∧ s.clock < q.2.banked.1 + q.2.banked.2)).length
  else if evt = 15 then
    (s.core d).warps.foldl (fun n w => n + (w.2.threads.filter fun t => t.wait.isSome).length) 0
  else 0

/-- One cycle passes (R128): the counters of R477 that count by cycle, and the PC tables (R420). -/
def State.advance (s : State) : State :=
  let pairs := (s.mem.pcfg.map fun k => (k.1 / 32, natBits k.2.toNat 7 0)).eraseDups
  let s1 := pairs.foldl (fun s x =>
    match cycleEvents s x.1 x.2 with
    | 0 => s
    | n => s.count x.1 x.2 n) s
  let next := s1.clock + 1
  { s1 with clock := next, cores := s1.cores.map fun c => (c.1, c.2.pctSettle next) }

/-! ### The turn -/

/-- The device's own turn: what has fallen due, then a word, and then, with `full`, any step that has an effect, or else
one cycle (log 1). -/
def State.turn (s : State) (full : Bool) : Plan :=
  match s.dueStep with
  | some i => .run i s
  | none =>
    match s.dueWord with
    | some (d, p) =>
      let s1 := { s with cur := (d, p) }
      match s1.coreLaunch d with
      | some l => fetch s1 d p l
      | none => .done (.next (s1.modPort d p fun _ => Port.idle))
    | none => if full then .search s.openSteps s else .done (.next s.advance)

/-- What happens next (log 1): the head of the agenda, or the device's own turn where it is empty. A word is no step of
the agenda: words issue from their ports. -/
def State.plan (s : State) : Plan :=
  match s.agenda with
  | [] => s.turn true
  | .timed :: r => { s with agenda := r }.turn false
  | .ev i :: r => if i.form.isSome then .done (.next { s with agenda := r }) else .run i { s with agenda := r }
  | .hostStore a bs :: r => .done (.next ({ s with agenda := r }.hostWrite a bs))
  | .loopReading top flow supply :: r => .done (.next ({ s with agenda := r }.readLoop top flow supply))

/-! ### A machine that is ready to fetch (log 11) -/

/-- The launch packet of `readyLaunch` (R380): ENTRY 0x400000, TVEC 0x400100, warp slots 0, 1 and 2 with the roles C, M
and V, 768 registers, 256 KiB of scratchpad, the ward of core (0, 0). -/
def readyPacket : BitVec 2048 :=
  BitVec.ofNat 2048 (0x400000 + 0x400100 * 2 ^ 128 + (2 ^ 64 - 28) * 2 ^ 256 + 2 ^ 320 + 2 ^ 400 + 2 ^ 408 + 768 * 2 ^ 416 +
    256 * 2 ^ 432 + 2 ^ 444)

/-- A privileged launch that holds core 0 and runs, with its page tables at 0x100000. -/
def readyLaunch (key : Nat) : Launch :=
  { key := key, queue := 0, packet := readyPacket, priv := true, prio := 0, ptroot := 0x100000, phase := .running, map := 0
    maps := [[0]], cores := [0], seededAt := 0, firstAt := none, report := none, abortAt := 0, swept := false, saved := []
    savePieces := [], heldResume := [] }

/-- The roles that may issue an instruction (R100): where it is no word, any. -/
def roleFor (i : Option Instr) : PortId :=
  match i with
  | some (.pairedWord w) => if halfFloat w.a.op.toNat || halfFloat w.b.op.toNat then .v0 else .c
  | some i =>
    match i.form with
    | some (.r op _) =>
      if (0x40 ≤ op && op < 0x80) then .v0
      else if (0xC0 ≤ op && op < 0x100) then .m
      else .c
    | _ => .c
  | none => .c

/-- The slot whose warp issues on a port in `readyLaunch`. -/
def readySlot : PortId → Nat
  | .c => 0 | .m => 1 | _ => 2

/-- Core 0 as `readyLaunch` holds it, with a group of one thread about to fetch at ENTRY, and no boundary of another port in
that cycle. -/
def readyCore (key clock : Nat) (p : PortId) : Core :=
  let l := readyLaunch key
  let c := seedCore l 0 Core.reset
  let busy := allPorts.foldl (fun c q => c.setPort q { Port.idle with due := clock + 1 }) c
  busy.setPort p { Port.idle with members := [(readySlot p, 0)], pc := l.entry, due := clock, active := true }

/-- Page tables that map the 64 KiB at VA 0x400000 to the same physical address, and the word there (R401, R402). -/
def readyBytes (w : BitVec 64) : List (Nat × List (BitVec 8)) :=
  [(0x100000, leBytes 8 (2 ^ 63 + 0x110000 + 0x100)), (0x110000, leBytes 8 (2 ^ 63 + 0x120000 + 0x100)),
   (0x120000 + 8 * 0x40, leBytes 8 (2 ^ 63 + 0x400000 + 0x5C7)), (0x400000, bytesOfWord w)]

/-- The state with a word where the next step fetches it: READY, a launch that runs on core 0, and nothing due before its
word (log 11). -/
def State.fetching (s : State) (w : BitVec 64) (p : PortId) : State :=
  let key := s.nextId
  let s1 := (readyBytes w).foldl (fun s ab => s.devWrite ab.1 ab.2) s
  { s1 with agenda := [], nextId := key + 1, launches := s.launches ++ [readyLaunch key], cores := [(0, readyCore key s.clock p)]
            mgmt := { s.mgmt with stage := 7, ready := true, tick := s.clock / 1050 } }

end Sys2Proof.Machine
end

