-- ==== Sys2Proof/Machine/Step.lean ====
section
/-! DEFINITION. One step of the machine (log 1), and a state whose next step fetches a given word (log 11). -/

namespace Sys2Proof.Machine

open Sys2Proof

/-- The frames of saved warps follow what the step did (R314). -/
def tidy (o : Out) : Out :=
  match o with
  | .next s => .next s.refreshFrames
  | .fault f => .fault f
  | .refused r => .refused r

/-- The first of several steps that changes the state; where none does, one cycle passes. -/
def firstThat (s : State) : List Instr → Out
  | [] => .next s.advance
  | i :: r =>
    match exec i s with
    | .next s' => if s' = s then firstThat s r else .next s'
    | .fault f => .fault f
    | .refused x => .refused x

/-- What the machine does with its plan. -/
def follow (p : Plan) : Out :=
  match p with
  | .run i s => exec i s
  | .done o => o
  | .search l s => firstThat s l

/-- One step. -/
def step (s : State) : Host.Outcome State Fault Refusal := tidy (follow s.plan)

/-- The state with an instruction where the next step fetches it (log 11): the 64-bit word in a page of code, and a launch
that runs on core 0 with a group about to fetch it on a port whose role may issue it. -/
def State.withFetchWord (s : State) (_nbits w : Nat) : State :=
  s.fetching (BitVec.ofNat 64 w) (roleFor (decodeTableWord 64 w))

end Sys2Proof.Machine
end

