-- ==== Sys2Proof/Safety.lean ====
section
/-! DEFINITION. The terms in which statements about the machine are made: what a word needs in order to issue, what it
gives a thread and a warp, what it leaves alone, and the invariant that every step keeps. -/

namespace Sys2Proof.Machine

open Sys2Proof

/-! ### The word that issues -/

/-- The core whose word is executing. -/
def State.here (s : State) : Nat := s.cur.1
/-- The issue port whose word is executing. -/
def State.portNow (s : State) : Port := (s.core s.cur.1).port s.cur.2

/-- The group that executes a word: its threads, with what each sees. -/
def State.group (s : State) (w : WSpec) (l : Launch) : List Env := mkEnvs s s.cur.1 s.cur.2 l s.portNow.pc w.word

/-- The checks of R84 that precede a word's execution pass on the current port, whose run is under way for launch `l`:
the run has room (R79), every v register named exists (R69), a word that must end its run does (R79), the port's role may
issue it (R100) and a privileged word stands in a privileged launch (R132). -/
structure Issues (w : WSpec) (s : State) (l : Launch) : Prop where
  launch : s.coreLaunch s.here = some l
  active : s.portNow.active = true
  room : s.portNow.count < 24
  regs : ∀ x ∈ w.vregs, x < l.nregs
  ends : w.ends = true → w.h.e = true
  role : portRole s.cur.2 ∈ w.roles
  priv : w.priv = true → l.priv = true

/-- The thread executes the word: it meets no STALLSHORT trap and its guard is true (R66, R76). -/
def Env.executes (e : Env) (w : WSpec) : Prop := e.stall w.h (w.reads e) = none ∧ e.guard w.h = true
/-- The thread passes the word by: its guard is false (R66). -/
def Env.skips (e : Env) (w : WSpec) : Prop := e.stall w.h (w.reads e) = none ∧ e.guard w.h = false

/-- The threads that execute the word, in the group's order, which is lane order (R103). -/
def State.executing (s : State) (w : WSpec) (l : Launch) : List Env :=
  (s.group w l).filter fun e => (e.stall w.h (w.reads e)).isNone && e.guard w.h

/-- The lowest thread of its warp, in the group's order, whose guard is true (R106); no thread of the warp stalls short. -/
def Env.leads (e : Env) (w : WSpec) (es : List Env) : Prop :=
  es.find? (fun x => x.slot == e.slot && x.guard w.h) = some e ∧
    ∀ x ∈ es, x.slot = e.slot → x.stall w.h (w.reads x) = none

/-! ### What a word gives -/

/-- What a word gives a thread that executes it: register results with their latencies, status flags, and its PC where the
word moves it. -/
structure Gives where
  regs : List RegW := []
  flags : BitVec 32 := 0
  pc : Option (BitVec 64) := none

/-- A result of a word of `n` issue cycles that was frozen for `fz` lands: it is read from cycle `issue + fz + n - 1 +
latency` on (R74, R155, R326). -/
def RegW.lands (q : RegW) (e : Env) (n fz : Nat) : Pend :=
  { reg := q.reg, val := q.val, ready := e.s.clock + fz + n - 1 + q.lat, rank := portRank e.port }

/-- Thread `u` after a word of `n` issue cycles: its own registers take the results (p7 takes none, R68), the flags are ORed
into sr.status (R125), the PC moves on or where the word says, and at the end of the run the cycle of its next run is
fixed (R73). Everything else of the thread is as before. -/
def Env.after (e : Env) (h : Head) (n fz : Nat) (g : Gives) (u : Thread) : Thread :=
  { u with
    pend := u.pend ++ (g.regs.filter fun q => !(warpReg q.reg) && q.reg != 839).map (·.lands e n fz)
    status := u.status ||| g.flags
    pc := g.pc.getD (u.pc + 8)
    readyAt := if h.e then e.s.clock + n + h.stall + fz else u.readyAt }

/-- A trap that a thread takes: its cause, its information, and the flags raised beside it (R142). -/
structure Trap where
  cause : Nat
  info : BitVec 64
  flags : BitVec 32 := 0
  deriving DecidableEq, Repr

/-- Thread `u` that takes a trap at a word (R143): sr.epc names the word, sr.ecause holds the cause with HND, and SNAPPED
where the trap triggered the snapshot, sr.einfo the information; the thread goes to the trap vector of its launch, or exits
where there is none, and joins the entry of that PC in the PC table (R420). No register result of the word is left. -/
def Env.trapsTo (e : Env) (h : Head) (n fz : Nat) (x : Trap) (snapped : Bool) (u : Thread) : Thread :=
  { u with
    status := u.status ||| x.flags
    epc := e.va
    ecause := BitVec.ofNat 32 (x.cause + 1024 + if snapped then 512 else 0)
    einfo := x.info
    pc := if e.l.tvec = 0 then u.pc else e.l.tvec
    tabPc := if e.l.tvec = 0 then u.tabPc else e.l.tvec
    run := if e.l.tvec = 0 then .exited else u.run
    readyAt := e.s.clock + n + h.stall + fz }

/-- What a warp is outside its threads, its results to come and its bank toggles to come. -/
def Warp.shell (w : Warp) : Warp := { w with threads := [], pend := [], toggles := [] }
/-- What a core is outside its warps, its ports, its PC table and a halt asked for. -/
def Core.shell (c : Core) : Core := { c with warps := [], ports := [], pct := [], halting := false, haltSrc := 3 }

/-- Nothing changes outside the warps and ports of core `d`: every byte of device memory, of host memory and of every
scratchpad, every accumulator, latch buffer, convergence register, operation in flight and register of the device is as
before; only performance counters count (R477). -/
structure SameOutside (d : Nat) (s t : State) : Prop where
  clock : t.clock = s.clock
  others : ∀ k, k ≠ d → t.core k = s.core k
  core : (t.core d).shell = (s.core d).shell
  towers : t.towers = s.towers
  mem : { t.mem with pval := s.mem.pval } = s.mem
  q : t.q = s.q
  ctx : t.ctx = s.ctx
  cad : t.cad = s.cad
  fab : t.fab = s.fab
  agenda : t.agenda = s.agenda
  nextId : t.nextId = s.nextId
  ran : t.ran = s.ran
  /-- of a warp, only its threads and its results to come change -/
  warps : ∀ sl, (t.warp? d sl).map Warp.shell = (s.warp? d sl).map Warp.shell

/-- As `SameOutside`, and no trap is taken: management and every launch are as before. -/
structure Quiet (d : Nat) (s t : State) : Prop extends SameOutside d s t where
  mgmt : t.mgmt = s.mgmt
  launches : t.launches = s.launches

/-- The rule of a word. `spec`: what it needs in order to issue. `pre`: what else the rule asks of the state and of the
threads that execute the word, in lane order. `frozen`: for how many cycles it may be frozen. `traps`: the threads that
take a trap of the word's own, and which. `gives`: what it gives every other thread that executes it. `base`: the state that
the word's own effect leaves, but for what it gives its threads. -/
structure Rule where
  spec : WSpec
  pre : State → Launch → List Env → Prop := fun _ _ _ => True
  frozen : State → List Env → Nat → Prop := fun _ _ n => n = 0
  traps : List Env → Env → Option Trap := fun _ _ => none
  gives : List Env → Env → Gives := fun _ _ => {}
  base : State → List Env → State := fun s _ => s

/-- The word follows its rule: where it is well formed, the other checks of R84 pass and `pre` holds, it completes. A
thread that executes it is given what the rule says, or takes the trap that the rule says; a thread that passes it by only
moves on; a warp takes the results for its own registers from its lead thread, where that one does not trap (R106, R107);
threads that are not in the group, and the registers of warps without an executing thread, are as the word's own effect
leaves them, but that a warp that met a missing page earlier in the run is not suspended before the run ends (R412); and so is
everything outside the core's warps and ports. -/
def Completes (i : Instr) (r : Rule) : Prop :=
  WellFormed i = true → ∀ s l, Issues r.spec s l → r.pre s l (s.executing r.spec l) →
    ∃ t fz, exec i s = .next t ∧ r.frozen s (s.executing r.spec l) fz ∧
      (∀ e ∈ s.group r.spec l, e.executes r.spec → r.traps (s.executing r.spec l) e = none →
        t.thread? s.here e.slot e.lane = ((r.base s (s.executing r.spec l)).thread? s.here e.slot e.lane).map
          (e.after r.spec.h r.spec.n fz (r.gives (s.executing r.spec l) e))) ∧
      (∀ e ∈ s.group r.spec l, e.executes r.spec → ∀ x, r.traps (s.executing r.spec l) e = some x →
        ∃ snapped, (∀ u, (r.base s (s.executing r.spec l)).thread? s.here e.slot e.lane = some u →
            snapWanted (r.base s (s.executing r.spec l)) u = false → snapped = false) ∧
          t.thread? s.here e.slot e.lane = ((r.base s (s.executing r.spec l)).thread? s.here e.slot e.lane).map
            (e.trapsTo r.spec.h r.spec.n fz x snapped)) ∧
      (∀ e ∈ s.group r.spec l, e.skips r.spec →
        t.thread? s.here e.slot e.lane = ((r.base s (s.executing r.spec l)).thread? s.here e.slot e.lane).map
          (e.after r.spec.h r.spec.n fz {})) ∧
      (∀ e ∈ s.group r.spec l, e.leads r.spec (s.group r.spec l) → r.traps (s.executing r.spec l) e = none →
        (t.warp? s.here e.slot).map (·.pend) = ((r.base s (s.executing r.spec l)).warp? s.here e.slot).map fun w =>
          w.pend ++ ((r.gives (s.executing r.spec l) e).regs.filter fun q => warpReg q.reg).map (·.lands e r.spec.n fz)) ∧
      (∀ sl ln, (∀ e ∈ s.group r.spec l, (e.slot, e.lane) ≠ (sl, ln)) →
        t.thread? s.here sl ln = ((r.base s (s.executing r.spec l)).thread? s.here sl ln).map fun u =>
          if sl ∈ s.portNow.faulted ∧ ((t.core s.here).port s.cur.2).active = false then
            { u with readyAt := max u.readyAt (s.clock + r.spec.n + r.spec.h.stall + fz) }
          else u) ∧
      (∀ sl, (∀ e ∈ s.group r.spec l, e.slot = sl → e.skips r.spec) →
        (t.warp? s.here sl).map (·.pend) = ((r.base s (s.executing r.spec l)).warp? s.here sl).map (·.pend)) ∧
      SameOutside s.here (r.base s (s.executing r.spec l)) t ∧
      ((∀ e ∈ s.group r.spec l, e.skips r.spec ∨ (e.executes r.spec ∧ r.traps (s.executing r.spec l) e = none)) →
        Quiet s.here (r.base s (s.executing r.spec l)) t)

end Sys2Proof.Machine

namespace Sys2Proof.Spec

open Sys2Proof Sys2Proof.Machine

/-! ### Terms of the rules -/

/-- `bits(x, lo + 31, lo)` of R10 on an integer. -/
def bits (x : Int) (lo : Nat) : W32 := BitVec.ofInt 32 (x / 2 ^ lo)
/-- A source extended by U (R161): `zext(a, 32)` or `sext(a, 32)`. -/
def ext (u : Bool) (a : W32) : Int := if u then a.toNat else a.toInt

/-- A word that gives register results and nothing else. -/
def word (spec : WSpec) (f : Env → List RegW) : Rule := { spec := spec, gives := fun _ e => { regs := f e } }

/-- A block with two sources: element by element, each from its own registers (R70, R71). -/
def block2 (op : Nat) (w : RForm) (lat : Nat) (f : W32 → W32 → W32) : Rule :=
  word (rWord op w (src1Regs w ++ src2Regs w) (dstRegs w)) fun e =>
    (List.range (elems w)).map fun i => wr32 (dstReg w i) (f (e.r32 (src1 w i)) (e.r32 (src2 w i))) lat
/-- A block with one source. -/
def block1 (op : Nat) (w : RForm) (lat : Nat) (f : W32 → W32) : Rule :=
  word (rWord op w (src1Regs w) (dstRegs w)) fun e =>
    (List.range (elems w)).map fun i => wr32 (dstReg w i) (f (e.r32 (src1 w i))) lat
/-- A block that also reads its old destination, the third argument (R72). -/
def block3 (op : Nat) (w : RForm) (lat : Nat) (f : W32 → W32 → W32 → W32) : Rule :=
  word (rWord op w (src1Regs w ++ src2Regs w ++ dstRegs w) (dstRegs w)) fun e =>
    (List.range (elems w)).map fun i =>
      wr32 (dstReg w i) (f (e.r32 (src1 w i)) (e.r32 (src2 w i)) (e.r32 (dstReg w i))) lat

/-- Every row of a list of words follows its rule. -/
def All (l : List (Instr × Rule)) : Prop := ∀ q ∈ l, Completes q.1 q.2

/-- The low 32 bits of a shift of `x` by a shift amount: MOD[4:0] with I = 1, the register otherwise (R167). -/
def shiftRule (op : Nat) (w : RForm) (f : W32 → Nat → W32) : Rule :=
  word (rWord op w (src1Regs w ++ if mbit w.mod 5 then [] else src2Regs w) (dstRegs w)) fun e =>
    (List.range (elems w)).map fun i =>
      wr32 (dstReg w i) (f (e.r32 (src1 w i)) (if mbit w.mod 5 then mfld w.mod 4 0 else (e.r32 (src2 w i)).toNat)) 2

/-- POS and LEN of a bit-field operand (R169). -/
def pos (b : W32) : Nat := b.toNat % 32
def len (b : W32) : Nat := min (b.toNat / 256 % 64) (32 - pos b)

/-- Some element of a block has a divisor of 0. -/
def zeroDivisor (w : RForm) (e : Env) : Bool := (List.range (elems w)).any fun i => e.r32 (src2 w i) == 0
/-- IDIV and IREM (R158, R163): DIVZ is raised at a divisor of 0, and with TDIVI = 1 the thread takes INTDIV. -/
def division (op : Nat) (w : RForm) (f : W32 → W32 → W32) : Rule :=
  { block2 op w 10 f with
    traps := fun _ e =>
      if zeroDivisor w e && e.t.mode.getLsbD 8 then some { cause := 0x32, info := 0, flags := 0x40 } else none
    gives := fun _ e =>
      { regs := (List.range (elems w)).map fun i => wr32 (dstReg w i) (f (e.r32 (src1 w i)) (e.r32 (src2 w i))) 10
        flags := if zeroDivisor w e then 0x40 else 0 } }

/-! ### Floating point -/

/-- The flags of a word: every flag of every element (R177). -/
def flagsOf (l : List (RegW × W32)) : W32 := l.foldl (fun a r => a ||| r.2) 0
/-- Some raised flag among INV, OVF, INX and DIVZ has its enable TINV, TOVF, TINX or TDIVZ set (R124, R125, R177). -/
def fpTraps (e : Env) (fl : W32) : Bool :=
  [(3, 4), (4, 5), (5, 6), (6, 7)].any fun q => fl.getLsbD q.1 && e.t.mode.getLsbD q.2
/-- FPEXC with every flag that the word raised, where an enabled one is among them (R177). -/
def fpTrap (e : Env) (fl : W32) : Option Trap :=
  if fpTraps e fl then some { cause := 0x30, info := fl.zeroExtend 64, flags := fl } else none
/-- A word of class 1: V warps only (R175); its flags go to sr.status, and a thread whose enabled flag is raised traps
(R177). -/
def floats (spec : WSpec) (f : Env → List (RegW × W32)) : Rule :=
  { spec := { spec with roles := [.v] }
    traps := fun _ e => fpTrap e (flagsOf (f e))
    gives := fun _ e => { regs := (f e).map (·.1), flags := flagsOf (f e) } }
/-- A code as a register result with flags. -/
def code (x : Nat) (r : Nat × W32) (lat : Nat) : RegW × W32 := (wr32 x (BitVec.ofNat 32 r.1) lat, r.2)
def float2 (op : Nat) (w : RForm) (lat : Nat) (f : Env → Nat → Nat → Nat × W32) : Rule :=
  floats (rWord op w (src1Regs w ++ src2Regs w) (dstRegs w)) fun e =>
    (List.range (elems w)).map fun i => code (dstReg w i) (f e (e.r32 (src1 w i)).toNat (e.r32 (src2 w i)).toNat) lat
def float1 (op : Nat) (w : RForm) (lat : Nat) (f : Env → Nat → Nat × W32) : Rule :=
  floats (rWord op w (src1Regs w) (dstRegs w)) fun e =>
    (List.range (elems w)).map fun i => code (dstReg w i) (f e (e.r32 (src1 w i)).toNat) lat
def float3 (op : Nat) (w : RForm) (lat : Nat) (f : Env → Nat → Nat → Nat → Nat × W32) : Rule :=
  floats (rWord op w (src1Regs w ++ src2Regs w ++ dstRegs w) (dstRegs w)) fun e =>
    (List.range (elems w)).map fun i =>
      code (dstReg w i) (f e (e.r32 (src1 w i)).toNat (e.r32 (src2 w i)).toNat (e.r32 (dstReg w i)).toNat) lat
/-- The rounding mode of a word (R180): RM with RO = 1, sr.mode.RM otherwise. -/
def rm (w : RForm) (e : Env) : Nat := if mbit w.mod 6 then mfld w.mod 5 4 else natBits e.t.mode.toNat 3 2

/-- Element `k` of a register of two BF16 elements, and the register of two results (R188). -/
def half (k a : Nat) : Nat := a / 2 ^ (16 * k) % 65536
def pair (f : Nat → Nat × W32) : Nat × W32 := ((f 0).1 + 65536 * (f 1).1, (f 0).2 ||| (f 1).2)

/-- The 32 elements of a block as the lanes of a warp supply them (R193, R204). -/
def blockIn (w : RForm) (e : Env) : List FV :=
  (laneWords (e.active (headR w)) e.w e.at' w.s1.toNat).map fun x => (efFmt w).value (efBits w x)
/-- FPEXC of a thread, or of an active thread of its warp (R193): each keeps its own flags in sr.status; sr.einfo holds those of
the first that raised an enabled one (log 54). -/
def together (w : RForm) (fl : Env → W32) (e : Env) : Option Trap :=
  match fpTrap e (fl e) with
  | some x => some x
  | none => ((e.active (headR w)).findSome? fun q => fpTrap q (fl q)).map fun x => { x with flags := fl e }
/-- CVTBLK: `f` gives a lane its word of the image, with flags, from the 32 elements (R193, R194). -/
def blocks (op : Nat) (w : RForm) (f : Env → Nat × W32) : Rule :=
  { spec := { rWord op w [w.s1.toNat] [w.d.toNat] with roles := [.v] }
    traps := fun _ e => together w (fun q => (f q).2) e
    gives := fun _ e => { regs := [wr32 w.d.toNat (BitVec.ofNat 32 (f e).1) 6], flags := (f e).2 } }
/-- The word of an image of `body` words and a trailer that lies in a lane (R194). -/
def imageWord (body : Nat) (bs : List (BitVec 8)) (lane : Nat) : Nat :=
  if lane < body then leNat ((bs.drop (4 * lane)).take 4) else if lane = body then leNat (bs.drop (4 * body)) else 0
/-- The codes of the 32 elements of an image, as UNBLK rounds them, and their flags (R197). -/
def unblkAll (w : RForm) (e : Env) : List Nat × W32 :=
  let ws := laneWords (e.active (headR w)) e.w e.at' w.s1.toNat
  let body := if mbit w.mod 1 then 8 else 4
  let image := (ws.take body).flatMap (leBytes 4) ++ leBytes 2 (ws.getD body 0)
  let rs := (if mbit w.mod 1 then decE4m3b image else decE2m1b image).map
    ((efFmt w).convert (rm w e) (e.t.mode.getLsbD 1))
  (rs.map (·.1), rs.foldl (fun a r => a ||| r.2) 0)

/-! ### Lanes, system registers, control -/

/-- A word over the active lanes of each warp, which `f` is given (R204). -/
def lanes (spec : WSpec) (f : List Env → Env → List RegW) : Rule := word spec fun e => f (e.active spec.h) e
/-- The lane of R207 for a mode and a selector, where it is valid. -/
def route (mode : Nat) (e : Env) (k : Nat) : Option Nat :=
  let l := e.lane
  let g := e.lgSize
  let b := l / g * g
  if mode = 0 then (if k < g then some (b + k) else none)
  else if mode = 1 then (if b + k ≤ l then some (l - k) else none)
  else if mode = 2 then (if l + k < b + g then some (l + k) else none)
  else (if k < g then some (l ^^^ k) else none)
/-- The contributors of a lane's group (R210). -/
def contributors (w : RForm) (e : Env) : List Env :=
  (e.peers (e.active (headR w))).filter fun q => (q.r32 w.s2.toNat).getLsbD 0

/-- The system registers (R123 to R128), by number. -/
def sysValue (n : Nat) (e : Env) : Nat :=
  let t := e.s.tower (towerOf e.d)
  let held := fun b => min (findD t.tokens b 0) (2 ^ 20 - 1)
  [e.t.mode.toNat, e.t.status.toNat, e.t.epc.toNat, e.t.ecause.toNat, e.t.einfo.toNat, e.l.tvec.toNat,
   (if e.l.priv then 256 else 0) + e.w.role.code, (srWard e.l).toNat, (srCore e.d).toNat, e.lane % 2 ^ 64, e.slot % 2 ^ 64,
   e.l.id % 2 ^ 64, e.at' % 2 ^ 64, t.contain.toNat % 2 ^ 64, t.contain.toNat / 2 ^ 64,
   held 0 + held 1 * 2 ^ 20 + held 2 * 2 ^ 40, e.w.ctbank.toNat].getD n ((e.w.at e.at' 1024).toNat % 2 ^ 64)

/-- The 32 operations of a paired half (R63), by number, with their flags: `d` is the old D and `x` is S. -/
def paired (e : Env) (d x : W32) : List (Nat × W32) :=
  let m := natBits e.t.mode.toNat 3 2
  let i := fun v : W32 => (v.toNat, (0 : W32))
  let a := d.toNat
  let b := x.toNat
  [i (d + x), i (d - x), i (d * x), i (if d.toInt ≤ x.toInt then d else x), i (if x.toInt ≤ d.toInt then d else x),
   i (d &&& x), i (d ||| x), i (d ^^^ x), i (d &&& ~~~x), i (if 32 ≤ b then 0 else bits (a * 2 ^ b) 0),
   i (if 32 ≤ b then 0 else bits (a / 2 ^ b) 0), i (bits d.toInt (min b 31)), i x, i (bits |x.toInt| 0), i (~~~x),
   i (BitVec.ofNat 32 ((List.range 32).countP fun k => b.testBit k)),
   i (if x = 0 then 32 else BitVec.ofNat 32 (31 - Nat.log2 b)), i x.reverse,
   f32.add m a b, f32.sub m a b, f32.mul m a b, (fminmax false a b, 0), (fminmax true a b, 0),
   pair fun k => bf16.add m (half k a) (half k b), pair fun k => bf16.mul m (half k a) (half k b),
   frcp m b, frsq b, fex2 b, flg2 b, fsqrt m b, i (d &&& x), i (d ||| x)]

/-- A branch target of R132, `n` words from the word. -/
def relative (va : W64) (n : Int) : W64 := BitVec.ofInt 64 ((va.toNat : Int) + 8 * n)
/-- A word that moves the PC to its target, which must be a multiple of 8 in the form of a launch's address, and takes ADDRFORM with
the target otherwise (R132). -/
def jumps (spec : WSpec) (target : Env → W64) (regs : Env → List RegW) : Rule :=
  let ok := fun e => (target e).toNat % 8 = 0 ∧ vaOk e.l.priv (target e)
  { spec := { spec with ends := true }
    traps := fun _ e => if ok e then none else some { cause := 0x13, info := target e }
    gives := fun _ e => { regs := regs e, pc := some (target e) } }

/-! ### Words of a whole group, and words whose threads act in turn -/

/-- The executing thread of a word that executes once for its issue group: the lowest lane whose guard is true, unless it has
trapped at the word (R222). -/
def executor (h : Head) (es : List Env) : Option Env := es.head?.filter (·.isFirst h)
/-- A word that executes once for its issue group, in its executing thread alone, whose checks are the only ones (R222): `trap`
says which trap that thread takes; otherwise `next` gives the state, and `regs` the registers of every warp present. -/
def once (spec : WSpec) (trap : List Env → Env → Option (Nat × W64)) (next : List Env → Env → State → State)
    (regs : Env → List RegW := fun _ => []) : Rule :=
  { spec := spec.byFirst
    traps := fun es e =>
      if (executor spec.h es).map (fun h => (h.slot, h.lane)) = some (e.slot, e.lane) then
        (trap es e).map fun t => { cause := t.1, info := t.2 } else none
    gives := fun es _ =>
      { regs := match executor spec.h es with | some h => if (trap es h).isSome then [] else regs h | none => [] }
    base := fun s es =>
      match executor spec.h es with
      | some h => (match trap es h with | none => next es h s | some x => h.recordOf 1 x s)
      | none => s }

/-- Its trap, or the state that it leaves. -/
def failed {α : Type} : Except (Nat × W64) α → Option (Nat × W64)
  | .error t => some t
  | .ok _ => none
def reached (s : State) : Except (Nat × W64) State → State
  | .ok t => t
  | .error _ => s

/-- A thread makes an acquire (R370). -/
def acquires (e : Env) (s : State) : State := s.modThread e.d e.slot e.lane fun t => { t with acqAt := s.clock }
/-- What one thread of a word does in its turn: the state that it leaves, its result, whether the group has to wait for it,
whether it makes an acquire, and the value that its operation keeps of it. -/
structure Turn where
  s : State
  res : TRes := {}
  waits : Bool := false
  acq : Bool := false
  kept : Option (BitVec 64) := none

/-- The threads of a word act in lane order, each on what those before it left (R329, R333). -/
def takeTurns (f : Env → State → Turn) : List Env → State → State × List (Env × Turn)
  | [], s => (s, [])
  | e :: es, s =>
    let q := f e s
    let r := takeTurns f es (if q.acq then acquires e q.s else q.s)
    (r.1, (e, q) :: r.2)
/-- What came of one thread. -/
def turnOf (f : Env → State → Turn) (es : List Env) (e : Env) : TRes :=
  (((takeTurns f es e.s).2.find? fun q => q.1.slot == e.slot && q.1.lane == e.lane).map (·.2.res)).getD {}
/-- The trap of a result. -/
def trapOf (r : TRes) : Option Trap := r.trap.map fun t => { cause := t.1, info := t.2, flags := r.flags }
/-- A word whose threads act in turn; `after` is what the word does then, with what came of each thread. -/
def turns (spec : WSpec) (f : List Env → Env → State → Turn) (pre : State → List Env → Prop)
    (frozen : List Env → Nat → Prop) (after : List Env → List (Env × Turn) → State → State := fun _ _ s => s) : Rule :=
  { spec := spec
    pre := fun s _ es => pre s es
    frozen := fun _ es n => frozen es n
    traps := fun es e => trapOf (turnOf (f es) es e)
    gives := fun es e => { regs := (turnOf (f es) es e).writes, flags := (turnOf (f es) es e).flags }
    base := fun s es => after es (takeTurns (f es) es s).2 (takeTurns (f es) es s).1 }
/-- Every thread that executes the word changes as `f` says. -/
def eachDoes (f : Env → Thread → Thread) (s : State) (es : List Env) : State :=
  es.foldl (fun s e => s.modThread e.d e.slot e.lane (f e)) s

/-! ### Matrix words -/

/-- The first of some checks that fails, with what it gives. -/
def firstFail {α : Type} (l : List (Bool × α)) : Option α := (l.find? (·.1)).map (·.2)

/-- The checks of MSET in their order, with their causes (R225, R227). -/
def msetChecks (c : Core) (mask x : W64) : Option Nat :=
  let isM := fun sl => (c.warp? sl).any fun w => w.role == .m
  let fa := dsFa x
  let fb := dsFb x
  firstFail
    [(decide (fa ∈ [5, 9, 10, 11] ∨ fb = 10), 0x03),
     (decide (12 ≤ fa ∨ 12 ≤ fb ∨ dsKq x = 0 ∨ 16 < dsKq x ∨ natBits x.toNat 7 6 ≠ 0), 0x23),
     (decide ((fa = 3 ∨ fa = 4 ∨ fb = 3 ∨ fb = 4) ∧ dsKq x % 2 = 1), 0x23),
     (decide (fb = 9 ∧ 4 < dsKq x), 0x23),
     (decide (mask = 0 ∨ (dsTw x = false ∧ natBits mask.toNat 63 32 ≠ 0) ∨ (dsTw x = true ∧ dsWa x = dsWb x)), 0x23),
     (!(isM (dsWa x)) || (dsTw x && !(isM (dsWb x))), 0x23)]

/-- The number of registers of an A row of `k` elements (R228). -/
def rowRegs (f k : Nat) : Nat := [k, k / 2, k / 4, 9 * k / 32, 5 * k / 32, 0, k / 4, k / 4, k / 2].getD f 0
/-- The bytes of an A row that lies in the registers from `base` on (R228): of the last register of a block, two. -/
def rowString (e : Env) (f k base : Nat) : List (BitVec 8) :=
  let reg := fun i => leBytes 4 (e.r32 (base + i)).toNat
  if f = 3 ∨ f = 4 then
    let body := if f = 3 then 8 else 4
    (List.range (k / 32)).flatMap fun b =>
      (List.range body).flatMap (fun i => reg ((body + 1) * b + i)) ++ (reg ((body + 1) * b + body)).take 2
  else (List.range (rowRegs f k)).flatMap reg

/-- One thread signs (R230, R231): the checks in their order, then the record of its row. The first signature takes the lowest
free buffer for the register and records D, MOD, S2 and the value of BW (R223); every one puts its expanded row into the buffer
at its slot (R226), marks the slot signed and raises the flags of the row; the last one issues the operation (R232). -/
def signs (kind : Nat) (w : RForm) (waited : Bool) (e : Env) (s : State) : Turn :=
  let n := w.s1.toNat - 864
  let c := s.core e.d
  let v := c.cv n
  let x := v.desc
  let bw := e.r64 (768 + mfld w.mod 5 0)
  let slot := if e.slot = dsWa x then some e.lane else if dsTw x = true ∧ e.slot = dsWb x then some (32 + e.lane) else none
  let i := slot.getD 0
  let first := v.st != .signing
  let c0 := if v.st = .issued then c.dropBuf n else c
  let b := bTrap e.l x kind (bw.setWidth 32)
  let number := BitVec.ofNat 64 n
  match firstFail
      [(v.st == .idle, (0x23, e.word)), (!(fbMatches kind (dsFb x)), (0x23, e.word)),
       (slot.isNone || !(v.mask.getLsbD i) || v.signed.getLsbD i, (0x22, number)),
       (!first && !(decide (v.fD = w.d ∧ v.fMod = w.mod ∧ v.fS2 = w.s2 ∧ v.fBw = bw)), (0x21, number)),
       (decide (e.l.nregs < w.s2.toNat + rowRegs (dsFa x) (dsK x)), (0x03, e.word)),
       (first && b.isSome, b.getD (0, 0)),
       (first && !waited && !((List.range 4).any c.bufFree) && (List.range 4).all c.bufHeld, (0x22, number))] with
  | some t => { s := s, res := TRes.trapped t.1 t.2 }
  | none =>
    if first && !((List.range 4).any c0.bufFree) then { s := s.setCore e.d c0, waits := true }
    else
      let c1 := if first then (c.dropBuf n).takeBuf n else c
      let v1 := c1.cv n
      let b := v1.buf.getD 0
      let ps := (packedValues (dsFa x) (dsK x) [] (rowString e (dsFa x) (dsK x) w.s2.toNat)).map
        (expandOf (dsFa x) (dsAnchA x) (e.t.mode.getLsbD 1))
      let row : Row := { flags := ps.foldl (fun f p => f ||| p.flags) 0, elems := ps.map fun p => (p.e, p.nan) }
      let v2 := { v1 with st := .signing, signed := v1.signed ||| (1#64 <<< i), fD := w.d, fMod := w.mod, fS2 := w.s2, fBw := bw
                          word := if first then e.word else v1.word }
      let s1 := s.setCore e.d { c1.setCv n v2 with latch := put c1.latch b { c1.lb b with rows := put (c1.lb b).rows i row } }
      let raised := fun (t : State) => if row.flags = 0 then t else t.raise e.d e.slot e.lane row.flags
      if v2.signed = v2.mask then
        match issueSigned { d := e.d, n := n, kind := kind, acc := w.d.toNat - 856, ru := mbit w.mod 6, bw := bw
                            sat := e.t.mode.getLsbD 1, slot := e.slot, lane := e.lane, threads := [(e.slot, e.lane)]
                            word := e.word, lt := false } s1 with
        | .ok t => { s := raised t }
        | .error t => { s := e.recordOf 1 t (s1.modCore e.d (·.undo n)), res := TRes.trapped t.1 t.2 }
      else { s := raised s1 }

/-- A signing word (R222, R228, R230, R231): its threads sign in lane order, from those that have not signed in an earlier cycle of
the frozen word, and it completes where none of them has to wait for a buffer. `r` is what it needs in order to issue. -/
def signing (kind op : Nat) (w : RForm) (r : WSpec) : Rule :=
  let regs := fun (c : Core) =>
    let v := c.cv (w.s1.toNat - 864)
    if v.st = .idle then 0 else rowRegs (dsFa v.desc) (dsK v.desc)
  let port := fun (e : Env) => (e.s.core e.d).port e.port
  let before := fun (e : Env) => (port e).partDone.find? fun q => q.1 == (e.slot, e.lane)
  let todo := fun (es : List Env) => es.filter fun e => (before e).isNone
  let turn := fun (es : List Env) (e : Env) =>
    signs kind w ((port e).issued.isSome && (todo es).head?.map (fun q => (q.slot, q.lane)) == some (e.slot, e.lane)) e
  { spec := r
    pre := fun s _ es =>
      r = { rWord op w [] [] with
              roles := [.m], n := max 1 ((regs (s.core s.here) + 7) / 8), vregs := [w.s2.toNat]
              reads := fun e =>
                (let k := regs (e.s.core e.d)
                 if w.s2.toNat + k ≤ e.l.nregs then (List.range k).map (w.s2.toNat + ·) else []) ++ [768 + mfld w.mod 5 0] } ∧
      ∀ q ∈ (takeTurns (turn es) (todo es) s).2, q.2.waits = false
    traps := fun es e =>
      match before e with
      | some q => q.2.map fun t => { cause := t.1, info := t.2 }
      | none => trapOf (turnOf (turn es) (todo es) e)
    base := fun s es => (takeTurns (turn es) (todo es) s).1 }

/-- A word of class 3 that executes once for its group. -/
def matrix (op : Nat) (w : RForm) (roles : List Role) (srcs : List Nat) : WSpec :=
  { rWord op w srcs [] with roles := roles }

/-- The scratchpad access of a thread: which core and offset its address names (R293). -/
def accOf (n : Nat) (addr : Env → W32) (e : Env) : SAcc :=
  { env := e, addr := addr e, core := scrCore e.d (addr e), off := scrOff (addr e), n := n }
/-- The address passes the checks of R294. -/
def inPlace (n z : Nat) (addr : Env → W32) (e : Env) : Bool := (scrCheck e.l e.d (addr e) n z).isNone
/-- No access of the word has to wait for an engine (R325, R364, R366). -/
def noWait (n z : Nat) (addr : Env → W32) (s : State) (es : List Env) : Prop :=
  ∀ e ∈ es, inPlace n z addr e = true → (accOf n addr e).waits s = false
/-- The bank conflicts of the group's own accesses freeze the word at least that long (R299). -/
def banked (n z : Nat) (addr : Env → W32) (es : List Env) (fz : Nat) : Prop :=
  bankConflict ((es.filter (inPlace n z addr)).map fun e => (accOf n addr e).span) ≤ fz
/-- A turn of a thread with an access of `n` bytes aligned to `z`: the trap of R294, or `f` at its core and offset. -/
def access (n z : Nat) (addr : Env → W32) (f : Env → Nat → Nat → State → Turn) (e : Env) (s : State) : Turn :=
  match scrCheck e.l e.d (addr e) n z with
  | some t => { s := s, res := TRes.trapped t.1 t.2 }
  | none => f e (scrCore e.d (addr e)) (scrOff (addr e)) s
/-- UNCMEM of a thread, with its fault record (R311). -/
def uncorrectable (e : Env) (acc : Nat) (addr : W32) (s : State) : Turn :=
  { s := e.uncRecord acc (addr.zeroExtend 64) s, res := TRes.trapped 0x50 (addr.zeroExtend 64) }
/-- A load of the bytes of an access. -/
def loads (n z : Nat) (addr : Env → W32) (regs : List (BitVec 8) → List RegW) : List Env → Env → State → Turn := fun _ =>
  access n z addr fun e core off s =>
    if (s.core core).scrBad off n then uncorrectable e 1 (addr e) s
    else { s := s, res := { writes := regs ((s.core core).scrRead off n) } }
/-- A store of bytes at a place; BARCLOBBER and an error in part of a unit keep it from its effect (R311, R466). -/
def storeAt (n : Nat) (addr : Env → W32) (bytes : Env → List (BitVec 8)) (e : Env) (core off : Nat) (s : State) : Turn :=
  match storeTrap s (addr e) core off n with
  | some t => { s := e.recordOf 2 t s, res := TRes.trapped t.1 t.2 }
  | none => { s := s.plainStore core off (bytes e), kept := some 0 }
/-- A store of bytes. -/
def stores (n z : Nat) (addr : Env → W32) (bytes : Env → List (BitVec 8)) : List Env → Env → State → Turn := fun _ =>
  access n z addr (storeAt n addr bytes)
/-- The new value of an atomic operation and its flags (R331). -/
def atomic (opc : Nat) (u : Bool) (old x : W32) : W32 × W32 :=
  let sum := f32.add 0 old.toNat x.toNat
  [(bits (old.toNat + x.toNat) 0, 0), (if ext u old ≤ ext u x then old else x, 0), (if ext u x ≤ ext u old then old else x, 0),
   (old &&& x, 0), (old ||| x, 0), (old ^^^ x, 0), (x, (0 : W32)), (BitVec.ofNat 32 sum.1, sum.2)].getD opc (0, 0)

/-- One atomic operation on the word at a place (R331); `regs` are the results that the old word gives. -/
def atomicAt (opc : Nat) (u acq : Bool) (x : Env → W32) (addr : Env → W32) (regs : W32 → List RegW) (e : Env) (core off : Nat)
    (s : State) : Turn :=
  if (s.core core).scrBad off 4 then uncorrectable e 4 (addr e) s
  else
    match storeTrap s (addr e) core off 4 with
    | some t => { s := s, res := TRes.trapped t.1 t.2 }
    | none =>
      let old := BitVec.ofNat 32 (leNat ((s.core core).scrRead off 4))
      let r := atomic opc u old (x e)
      { s := s.plainStore core off (leBytes 4 r.1.toNat), res := { writes := regs old, flags := r.2 }, acq := acq
        kept := some (old.zeroExtend 64) }

/-! ### Words that act for each warp, or on the state of a device -/

/-- What came of a thread, among results. -/
def outcome (out : List ((Nat × Nat) × TRes)) (e : Env) : TRes :=
  ((out.find? fun q => q.1 == (e.slot, e.lane)).map (·.2)).getD {}
/-- A word whose group acts on the state as `f` says: the state that it leaves, and what comes of its threads; a thread of which
nothing is said only moves on. -/
def acts (spec : WSpec) (f : List Env → State → State × List ((Nat × Nat) × TRes))
    (pre : State → List Env → Prop := fun _ _ => True) (frozen : List Env → Nat → Prop := fun _ n => n = 0) : Rule :=
  { spec := spec
    pre := fun s _ es => pre s es
    frozen := fun _ es n => frozen es n
    traps := fun es e => trapOf (outcome (f es e.s).2 e)
    gives := fun es e => { regs := (outcome (f es e.s).2 e).writes, flags := (outcome (f es e.s).2 e).flags }
    base := fun s es => (f es s).1 }
/-- The warp threads that execute a word once for each warp: the lowest active lane of each warp present, unless it has trapped
at the word (R324). -/
def warpLeads (h : Head) (es : List Env) : List (Env × List Env) :=
  (warpsOf es).filterMap fun q => (q.2.head?.filter (·.isLowest h)).map fun e => (e, q.2)
/-- The warps present act one after another, by ascending lowest lane (R106, R324): `f` is given the warp thread and the
executing threads of the warp. -/
def byWarp (h : Head) (f : Env → List Env → State → State × List ((Nat × Nat) × TRes)) (es : List Env) (s : State) :
    State × List ((Nat × Nat) × TRes) :=
  (warpLeads h es).foldl (fun (a : State × List ((Nat × Nat) × TRes)) q =>
    let r := f q.1 q.2 a.1; (r.1, a.2 ++ r.2)) (s, [])
/-- A thread takes a trap, or every one of some threads does. -/
def hits (e : Env) (t : Nat × W64) : List ((Nat × Nat) × TRes) := [((e.slot, e.lane), TRes.trapped t.1 t.2)]
def hitsAll (es : List Env) (t : Nat × W64) : List ((Nat × Nat) × TRes) := es.flatMap fun e => hits e t
/-- Every thread of some threads has these results. -/
def gets (es : List Env) (ws : List RegW) : List ((Nat × Nat) × TRes) :=
  es.map fun e => ((e.slot, e.lane), ({ writes := ws } : TRes))
/-- An operation of some threads enters flight for a thread of them, counted at a barrier or owning what is given (R78). -/
def enters (e : Env) (es : List Env) (deferred : Bool) (body : OpBody) (s : State)
    (f : Op → Op := fun o => o) : State :=
  s.issueOp e.d (f { newOp s es deferred body with slot := e.slot, lane := e.lane })
/-- No access of a thread of the group is held back by an engine (R364). -/
def noneHeld (s : State) (es : List Env) : Prop :=
  ∀ e ∈ es, (s.core e.d).hasHeld [(e.slot, e.lane)] s.nextId = false
/-- The lanes of a warp whose turn kept a value, with the values. -/
def keptBy (r : List (Env × Turn)) (slot : Nat) : List (Nat × BitVec 64) :=
  r.filterMap fun q => if q.1.slot = slot then q.2.kept.map fun v => (q.1.lane, v) else none
/-! ### Buffer accesses -/

/-- Bytes go to one translated place: into memory of this device, or to the host, or to a peer as a message that stays unperformed
until it is taken; no copy of a HOST or PEER line outlives the write (R345, R370, R371). -/
def puts (w : Who) (p : Loc) (bs : List (BitVec 8)) (s : State) : State :=
  if p.ty = 2 then (s.hostWrite p.pa bs).dropLease (lineKey p)
  else if p.ty = 3 then
    let m : OutMsg := { launch := w.key, op := w.op, lane := w.lane, peer := p.peer, pport := p.pport, msg := .peerWrite p.pa bs }
    ((s.dropLease (lineKey p)).unperform m).sendPeer m
  else s.devWrite p.pa bs
/-- Bytes go to a place and, where they cross it, on into the next line. -/
def putsAll (w : Who) (p : Loc) (bs : List (BitVec 8)) (s : State) : State :=
  ((lineParts (BitVec.ofNat 64 p.pa) bs.length).foldl (fun (a : List (BitVec 8) × State) x =>
    (a.1.drop x.2, puts w { p with pa := x.1.toNat } (a.1.take x.2) a.2)) (bs, s)).2

/-- What one lane of STB, ATB or CASB does at its place (R331, R332, R344 to R346): the bytes that it writes, and the old value
that it answers, or its cause, with true where the trap is deferred. -/
def performs (kind : BufKind) (opc fmt z : Nat) (w : Who) (lane : Nat) (va : W64) (p : Loc) (data cmp : W64) (s : State) :
    LaneOut :=
  let n := if kind = .atomic then 4 else z
  let old := leNat (if p.ty = 2 then s.hostRead p.pa n else s.devRead p.pa n)
  let answer := (.ok (BitVec.ofNat 64 old) : Except (Nat × Bool) W64)
  if kind = .store then
    if p.own && s.devPartBad p.pa n then { s := s, old := .error (0x50, true) }
    else { s := putsAll w p (leBytes n data.toNat) s, old := .ok 0 }
  else if p.own && s.devBad p.pa n then { s := s, old := .error (0x50, true) }
  else if p.ty = 2 ∧ Config.hostRefuses (64 * (s.free + w.op) + lane) = true then { s := s, old := .error (Cause.prot, true) }
  else if kind = .atomic then
    let r := atomic opc (fmt == 9) (BitVec.ofNat 32 old) (data.setWidth 32)
    { s := puts w p (leBytes 4 r.1.toNat) (s.pin p), old := answer, flags := r.2 }
  else if old ≠ cmp.toNat then { s := s.pin p, old := answer }
  else
    match translateOn s w.d w.root w.priv va .atomic with
    | (t, .error x) => { s := t, old := .error (x.cause, false) }
    | (t, .ok _) => { s := puts w p (leBytes z data.toNat) (t.pin p), old := answer }

/-- What a lane that its engine held back does (R333, R346, R409): as `performs`, but that whether the page of a CASB grants writes is
what its lane kept at issue. -/
def performsHeld (kind : BufKind) (opc fmt z : Nat) (w : Who) (va : W64) (p : Loc) (a : LaneAcc) (s : State) : LaneOut :=
  let old := leNat (if p.ty = 2 then s.hostRead p.pa z else s.devRead p.pa z)
  if kind = .cas ∧ (p.own && s.devBad p.pa z) = false ∧ ¬ (p.ty = 2 ∧ Config.hostRefuses (64 * (s.free + w.op) + a.lane) = true) ∧
      old = a.cmp.toNat then
    if a.wr then
      { s := puts w p (leBytes z a.data.toNat) ((translateOn s w.d w.root w.priv va .atomic).1.pin p), old := .ok (BitVec.ofNat 64 old) }
    else { s := s, old := .error (Cause.prot, true) }
  else performs kind opc fmt z w a.lane va p a.data a.cmp s

/-- The datum and the compare value of a lane (R341). -/
def operands (kind : BufKind) (d z : Nat) (e : Env) : W64 × W64 :=
  let pair := fun i => BitVec.ofNat 64 ((e.r32 (d + i)).toNat + 2 ^ 32 * (e.r32 (d + i + 1)).toNat)
  let one := fun i => BitVec.ofNat 64 (e.r32 (d + i)).toNat
  if kind = .load then (0, 0)
  else if kind = .store then (BitVec.ofNat 64 (leNat (e.dataBytes d z)), 0)
  else if kind = .cas then (if z = 8 then (pair 2, pair 0) else (one 1, one 0))
  else (one 0, 0)

/-- The lanes of a warp that take part in its access, as an engine takes them (R343): a lane out of bounds has no address. -/
def taking (kind : BufKind) (d : Nat) (p : BufPlan) : List LaneAcc :=
  p.lanes.filterMap fun x =>
    let q := operands kind d p.z x.1
    match x.2 with
    | .trap _ _ => none
    | .oob => some { lane := x.1.lane, va := none, loc := none, data := q.1, cmp := q.2, wr := true }
    | .ok va loc => some { lane := x.1.lane, va := some va, loc := if kind = .queue then none else some loc
                           data := q.1, cmp := q.2, wr := true }
/-- The fault records of the lanes that meet an uncorrectable error in a walk (R398). -/
def walkRecords (code : Nat) (p : BufPlan) (s : State) : State :=
  p.lanes.foldl (fun s x => match x.2 with | .trap c i => x.1.recordOf code (c, i) s | _ => s) s
/-- The active threads of the warp of a plan (R529). -/
def crew (h : Head) (p : BufPlan) : List Env := (p.es.head?.map (·.active h)).getD []
/-- What comes of the lanes of a plan at issue: their traps, and OOB (R318). -/
def laneResults (p : BufPlan) : List ((Nat × Nat) × TRes) :=
  p.lanes.map fun x => ((x.1.slot, x.1.lane), match x.2 with
    | .trap c i => TRes.trapped c i
    | .oob => { flags := flOOB }
    | .ok _ _ => {})
/-- How R343 to R346 prepare the access of one warp, whose lowest executing thread is `e0`: what every lane traps with, or the
record, the slot and the barrier, with each line translated once before any lane applies, and then lane by lane: where it lies,
that it is out of bounds, or its trap. -/
def prepared (q : BufWord) (es : List Env) (e0 : Env) (s : State) : State × BufPlan :=
  let r := e0.reg (840 + q.b)
  let z := fmtSize (brFmt r)
  let slot := (e0.r64 q.wx).setWidth 32
  let bar := (e0.r64 q.wx).extractLsb' 32 32
  let trap :=
    if bufIllegal q (brFmt r) e0.l.nregs then some (0x03, e0.word)
    else (if q.kind = .store then none else scrCheckLocal e0.l slot (32 * z) 16).or (scrCheckLocal e0.l bar 16 16)
  let o := fun (e : Env) => ((e.r32 q.s1).toNat : Int) + e.lane * brStride r
  let va := fun (e : Env) =>
    if q.kind = .load ∨ q.kind = .store ∨ o e % z = 0 then
      brPlace r (if q.kind = .load then brR r else if q.kind = .store then brW r else brA r) (o e) z
    else none
  let access := if q.kind = .load ∨ q.kind = .cas then Access.read else if q.kind = .store then .write else .atomic
  let lines := if q.kind = .queue then [] else
    ((es.filterMap va).flatMap fun x => (lineParts x z).map fun y => BitVec.ofNat 64 (y.1.toNat / 128 * 128)).eraseDups
  let t := translateLines e0.who access lines s
  let place := lanePlace s q t.2 z
  match trap with
  | some x => (s, { es := es, br := r, z := 1, slot := 0, bar := 0, lanes := es.map fun e => (e, .trap x.1 x.2), miss := none
                    bad := false })
  | none =>
    (t.1, { es := es, br := r, z := z, slot := slot.toNat, bar := bar.toNat
            lanes := es.map fun e => (e,
              match va e with
              | none =>
                if brOobt r = true ∨ e.t.mode.getLsbD 9 = true then
                  .trap 0x12 (BitVec.ofNat 32 q.b ++ BitVec.ofInt 32 (o e))
                else .oob
              | some x =>
                if q.kind = .queue then .ok x { ty := 3, pa := 0, peer := 0, pport := false }
                else match place x with | .ok p => .ok x p | .error y => .trap y.cause x)
            miss := es.findSome? fun e => (va e).bind fun x => match place x with | .error (.miss p) => some (x, p) | _ => none
            bad := t.2.any fun x => match x.2 with | .error .bad => true | _ => false })
/-- The accesses of the warps present, prepared one after another. -/
def prepares (q : BufWord) (es : List Env) (s : State) : State × List BufPlan :=
  (warpsOf es).foldl (fun (a : State × List BufPlan) x =>
    match x.2 with
    | [] => a
    | e :: _ => ((prepared q x.2 e a.1).1, a.2 ++ [(prepared q x.2 e a.1).2])) (s, [])

/-- What comes of the record that an engine word reads at issue as one direct read (R351): its bytes; the trap of the executing
thread; or what keeps the word from completing: a missing page, an error in a page table, an owner of its lines (R366), an earlier
access of the thread that is held back (R325, R364), or a PEER line that has still to arrive. -/
inductive Fetched where
  | bytes (s : State) (bs : List (BitVec 8))
  | trap (s : State) (t : Nat × W64)
  | stops
def fetches (e : Env) (va : W64) (n : Nat) (s : State) : Fetched :=
  let u := { e.who with op := s.nextId }
  match translateAll u .read (lineParts va n) s with
  | (_, .error (.miss _)) => .stops
  | (_, .error .bad) => .stops
  | (t, .error x) => .trap (e.recordOf 1 (x.cause, va) t) (x.cause, va)
  | (t, .ok ps) =>
    if (ps.any (·.1.own) && t.ownedV e.l.ptroot.toNat va.toNat (va.toNat + n) s.nextId) ||
        (s.core e.d).hasHeld [(e.slot, e.lane)] s.nextId then .stops
    else
      match readLocs u ps t with
      | .ok t2 bs => .bytes (ps.foldl (fun s p => s.l2Pass p.1 false) t2) bs
      | .err t2 x => .trap (e.recordOf 1 (x.cause, va) t2) (x.cause, va)
      | .wait _ => .stops
def Fetched.reads : Fetched → Prop
  | .stops => False
  | _ => True
/-- The command that a COPY record makes, before anything is read of its source (R352). -/
def copyOf (e : Env) (c : Core) (va : W64) (r : CopyRec) : CopyCmd :=
  { recVa := va, record := r, bufs := cpBufs e r (cpStreams e.l c r), streams := cpStreams e.l c r, oobt := e.t.mode.getLsbD 9
    inp := [], ixs := [], out := none, copyIx := 0, written := 0, owed := 0, uncorr := none }
/-- The checks of R355 on a command, in their order: the record and its stream records, which must be read without an error;
alignment and range of its scratchpad addresses; its court; and overlap. -/
def copyTrap (e : Env) (c : Core) (va : W64) (r : CopyRec) : Option (Nat × W64) :=
  let cmd := copyOf e c va r
  (firstFail [(!(cpRecordOk r), (0x41, va)),
    ((cpStreamBad e.l c r).isSome, (0x50, ((cpStreamBad e.l c r).getD 0).zeroExtend 64)),
    (cpRecordTrap r cmd.streams, (0x41, va))]).or
  ((cpPlaceTrap e.l (cpPlaces r (cpSize0 cmd.streams))).or
    (firstFail [(cpCourtBad e.l r,
        (0x17, courtInfo (cpF r 208 204) (cpF r 203 200) (2 ^ cpF r 211 209) (2 ^ cpF r 214 212))),
      (cpOverlap e.d cmd, (0x40, va))]))

/-- One element event of a write (R362, R466): the piece `p` goes into the scratchpad of core `d`, unless it would change an armed
object with waiters. -/
def putPiece (d : Nat) (p : Nat × List (BitVec 8)) (s : State) : State :=
  { (engineStore s d d p.1 p.2).1 with free := s.free + 1 }
/-- What an operation has still to write, and owns, once `p` of the pieces `left` is written. -/
def piecesLeft (d : Nat) (io : Pieces) (left : List (Nat × List (BitVec 8))) (p : Nat × List (BitVec 8)) (s : State) : Pieces :=
  { got := io.got, todo := some (left.erase p), clobber := io.clobber.or (engineStore s d d p.1 p.2).2 }
def spansLeft (d : Nat) (left : List (Nat × List (BitVec 8))) (p : Nat × List (BitVec 8)) : List (Nat × Nat × Nat) :=
  (left.erase p).map fun q => (d, q.1, q.1 + q.2.length)
/-- The head `o` of the issue order, before `r`, writes the piece `p`. -/
def headWrites (d : Nat) (o : MatOp) (r : List MatOp) (left : List (Nat × List (BitVec 8))) (p : Nat × List (BitVec 8)) (s : State) :
    State :=
  (putPiece d p s).modCore d fun c =>
    { c with issueOrder := { o with io := piecesLeft d o.io left p s, ownS := spansLeft d left p } :: r }

/-- What SEEDSCAN, SEEDFIT and SEEDX find as they begin (R285 to R290): flags, a deferred trap, and their writes. -/
def seedDoes (l : Launch) (c : Core) (kind addr dst j : Nat) (w : SeedWork) : Prop :=
  let r := BitVec.ofNat 512 (leNat (c.scrRead addr 64))
  let place := scrOff (sbRaddr r)
  let n := sbH r * sbW r
  let xs := (List.range n).map fun i => bf16.value (leNat (c.scrRead (place + 2 * i) 2))
  let basis := fun seed => beta seed (sbJ r) (sbKind r) (sbH r) (sbW r)
  let corr := fun seed => dot (basis seed) (xs.map fixOf)
  let fails := fun cause (a : Nat) => w = { trap := some (cause, BitVec.ofNat 64 a) }
  let finite := ∀ x ∈ xs, x.finite = true
  if c.scrBad addr 64 then fails Cause.uncmem addr
  else if kind = 2 then
    if srValid r then
      w = { writes := granules dst ((List.range 4096).map fun i => BitVec.ofInt 8
        (betaAt (beta (srSeed r) j (srKind r) (srH r) (srW r)) (srH r) (srW r) (i / 64) (i % 64))) }
    else fails Cause.seedrec addr
  else if sbValid l r = false then fails Cause.seedrec addr
  else if c.scrBad place (2 * n) then fails Cause.uncmem place
  else if kind = 0 then
    let put := fun (best : BitVec 64) (code nanin : Nat) => w.writes =
      granules (addr + 24) (leBytes 8 best.toNat ++ leBytes 4 code) ++
        granules (addr + 40) [BitVec.ofNat 8 (2 * natBits r.toNat 322 321 + nanin)]
    w.trap = none ∧ (¬ finite → put (sbStart r) 0x7FC00000 1 ∧ w.flags = flINV) ∧
    (finite → ∃ i, i < sbCount r ∧
      let best := sbStart r + BitVec.ofNat 64 i
      (∀ k, k < sbCount r → let x := sbStart r + BitVec.ofNat 64 k
        (corr x).natAbs < (corr best).natAbs ∨ (corr x).natAbs = (corr best).natAbs ∧ best.toNat ≤ x.toNat) ∧
      let q := f32.convert 0 false (FV.ofInt (corr best) (-133))
      put best q.1 0 ∧ w.flags = q.2)
  else
    let b := basis (sbBest r)
    let nnz := (b.filter (· ≠ 0)).length
    let put := fun (elems : List (Nat × List (BitVec 8))) (alpha : Int) (fields : Nat) => w.writes = elems ++
      granules (addr + 38) (leBytes 2 (BitVec.ofInt 16 alpha).toNat ++ [BitVec.ofNat 8 fields])
    w.trap = none ∧ (¬ finite → put [] 0 1 ∧ w.flags = flINV) ∧ (finite → nnz = 0 → put [] 0 4 ∧ w.flags = 0) ∧
    (finite → nnz ≠ 0 → ∃ a0 : Int,
      let num := corr (sbBest r) * 2 ^ (-133 - sbE r).toNat
      let den := nnz * 2 ^ (133 + sbE r).toNat
      (2 * (num - a0 * den)).natAbs ≤ den ∧ ((2 * (num - a0 * den)).natAbs = den → a0 % 2 = 0) ∧
      let a := max (-32767) (min 32767 a0)
      let elems := if a = 0 then [] else (b.zip xs).zipIdx.filterMap fun x =>
        if x.1.1 = 0 then none
        else some (place + 2 * x.2, bf16.result 0 (x.1.2.add 0 (FV.ofInt (-(a * x.1.1)) (sbE r))))
      put (elems.map fun x => (x.1, leBytes 2 x.2.1)) a (if 32767 < a0.natAbs then 2 else 0) ∧
      w.flags = elems.foldl (fun f x => f ||| x.2.2) 0)

/-- The register of a warp thread that names a barrier in its high half and a place in its low half. -/
def lowOf (e : Env) (x : BitVec 10) : BitVec 32 := (e.r64 x.toNat).setWidth 32
def highOf (e : Env) (x : BitVec 10) : BitVec 32 := (e.r64 x.toNat).extractLsb' 32 32

end Sys2Proof.Spec

namespace Sys2Proof

open Sys2Proof.Machine

/-! ### Safe steps -/

/-- The step answers a next state. -/
def SafeStep (s : State) : Prop := ∃ t, step s = .next t

/-- The invariant that every step keeps: device memory, host memory and every scratchpad, those of saved cores too, are in their
canonical form, so that equal contents are equal data (log 3, log 4). -/
structure Inv (s : State) : Prop where
  dev : Memory.wf s.mem.dev = true
  host : rising s.mem.host = true
  cores : ∀ c ∈ s.cores, Memory.wfScratch c.2.scratch = true
  saved : ∀ l ∈ s.launches, ∀ c ∈ l.saved, Memory.wfScratch c.2.scratch = true

end Sys2Proof
end

