-- ==== Sys2Proof/Certificates/Slice0/Obligations.lean ====
section
/-! DEFINITION. The statements: the rules of the manual that say what an instruction or the machine does. Their terms stand in Safety.lean; each
statement's docstring names the rule that it formalises. -/

section

open Sys2Proof Sys2Proof.Machine Sys2Proof.Spec

/-! ### Class 0: integers, logic, moves (06) -/

/-- R161: the integer arithmetic of each element, from the integers that a and b are. R166: bitwise logic, population count,
leading zeros and bit reversal. R167, R168, R169: shifts, funnel shifts and bit fields. R158, R163: division truncates toward
zero; a zero divisor gives the values of the table and raises DIVZ, and the thread traps in their place where TDIVI is 1. -/
def Obligations.IntegerResults : Prop :=
  (∀ w : RForm, All
  [(.iadd w, block2 0x000 w 2 fun a b => bits (a.toNat + b.toNat) 0),
   (.isub w, block2 0x001 w 2 fun a b => bits (a.toNat - b.toNat) 0),
   (.imul w, block2 0x003 w 4 fun a b => bits (a.toNat * b.toNat) 0),
   (.imad w, block3 0x005 w 4 fun a b d => bits (d.toNat + a.toNat * b.toNat) 0),
   (.imulh w, block2 0x004 w 4 fun a b => bits (ext (mbit w.mod 6) a * ext (mbit w.mod 6) b) 32),
   (.imin w, block2 0x006 w 2 fun a b => if ext (mbit w.mod 6) a ≤ ext (mbit w.mod 6) b then a else b),
   (.imax w, block2 0x007 w 2 fun a b => if ext (mbit w.mod 6) b ≤ ext (mbit w.mod 6) a then a else b),
   (.iabs w, block1 0x008 w 2 fun a => bits |a.toInt| 0)]) ∧
  (∀ w : RForm, All
  [(.and w, block2 0x00D w 2 fun a b => a &&& b), (.or w, block2 0x00E w 2 fun a b => a ||| b),
   (.xor w, block2 0x00F w 2 fun a b => a ^^^ b), (.andn w, block2 0x010 w 2 fun a b => a &&& ~~~b),
   (.not w, block1 0x011 w 2 fun a => ~~~a),
   (.popc w, block1 0x01A w 2 fun a => BitVec.ofNat 32 ((List.range 32).countP fun i => a.toNat.testBit i)),
   (.clz w, block1 0x01B w 2 fun a => if a = 0 then 32 else BitVec.ofNat 32 (31 - Nat.log2 a.toNat)),
   (.brev w, block1 0x01C w 2 fun a => a.reverse)]) ∧
  (∀ w : RForm, All
  [(.shl w, shiftRule 0x012 w fun a k => if 32 ≤ k then 0 else bits (a.toNat * 2 ^ k) 0),
   (.shr w, shiftRule 0x013 w fun a k => if 32 ≤ k then 0 else bits (a.toNat / 2 ^ k) 0),
   (.sar w, shiftRule 0x014 w fun a k => bits a.toInt (min k 31)),
   (.rol w, shiftRule 0x015 w fun a k => bits (a.toNat * 2 ^ (k % 32)) 0 ||| bits (a.toNat / 2 ^ (32 - k % 32)) 0),
   (.fshl w, block2 0x016 w 2 fun a b => bits ((a.toNat * 2 ^ 32 + b.toNat) * 2 ^ mfld w.mod 4 0) 32),
   (.fshr w, block2 0x017 w 2 fun a b => bits ((a.toNat * 2 ^ 32 + b.toNat) / 2 ^ mfld w.mod 4 0) 0),
   (.bfx w, block2 0x018 w 2 fun a b =>
     let f := a.toNat / 2 ^ pos b % 2 ^ len b
     if len b = 0 then 0
     else bits (if mbit w.mod 6 ∨ f < 2 ^ (len b - 1) then (f : Int) else (f : Int) - 2 ^ len b) 0),
   (.bfi w, block3 0x019 w 2 fun a b d =>
     let mask := bits ((2 ^ len b - 1) * 2 ^ pos b) 0
     (d &&& ~~~mask) ||| (bits (a.toNat * 2 ^ pos b) 0 &&& mask))]) ∧
  (∀ w : RForm, All
  [(.idiv w, division 0x009 w fun a b =>
     if b = 0 then 0xFFFFFFFF else bits (Int.tdiv (ext (mbit w.mod 6) a) (ext (mbit w.mod 6) b)) 0),
   (.irem w, division 0x00A w fun a b =>
     if b = 0 then a else
       bits (ext (mbit w.mod 6) a - ext (mbit w.mod 6) b * Int.tdiv (ext (mbit w.mod 6) a) (ext (mbit w.mod 6) b)) 0)])

/-- R162, R164, R165: carry chains, comparisons and selection. -/
def Obligations.CarryCompareSelectResults : Prop := ∀ w : RForm,
  Completes (.iaddc w)
    (word (rWord 0x002 w (src1Regs w ++ src2Regs w ++ if mbit w.mod 3 then [] else [832 + mfld w.mod 2 0]) (dstRegs w))
      fun e =>
        let cin : Nat := if mbit w.mod 3 then 0 else if e.pred (mfld w.mod 2 0) then 1 else 0
        let sum := (e.r32 w.s1.toNat).toNat + (e.r32 w.s2.toNat).toNat + cin
        [wr32 w.d.toNat (bits sum 0) 2, wrP (832 + mfld w.mod 2 0) (sum.testBit 32) 2]) ∧
  Completes (.icmp w)
    (word (rWord 0x00B w (src1Regs w ++ src2Regs w ++ if mfld w.mod 4 3 = 0 then [] else dstRegs w) (dstRegs w)) fun e =>
        let a := ext (mbit w.mod 6) (e.r32 w.s1.toNat)
        let b := ext (mbit w.mod 6) (e.r32 w.s2.toNat)
        let old := (e.r32 w.d.toNat).getLsbD 0
        let t := [decide (a = b), decide (a ≠ b), decide (a < b), decide (a ≤ b), decide (b < a), decide (b ≤ a)].getD
          (mfld w.mod 2 0) false
        [wrP w.d.toNat (if mfld w.mod 4 3 = 0 then t else if mfld w.mod 4 3 = 1 then old && t else old || t) 2]) ∧
  Completes (.sel w)
    (word (rWord 0x00C w (src1Regs w ++ src2Regs w ++ [832 + mfld w.mod 2 0]) (dstRegs w)) fun e =>
      (List.range (elems w)).map fun i => wr32 (dstReg w i)
        (if (e.pred (mfld w.mod 2 0) ^^ mbit w.mod 3) then e.r32 (src1 w i) else e.r32 (src2 w i)) 2)

/-- R170, R171, R172: moves, immediates and 64-bit sums. R173, R174: the predicate instructions. That PMOV of a register of more
than 32 bits that is no w register, clock among them, tests its low 32 bits is the model's choice (log 53); R174 does not say it. -/
def Obligations.MovePredicateResults : Prop :=
  ((∀ w : IForm, All
    [(.movi w, word (iWord 0x01E w [] [w.d.toNat]) fun _ =>
       if w.mod3.getLsbD 0 then wr64 w.d.toNat (BitVec.ofInt 64 w.imm.toInt) 2 else [wr32 w.d.toNat w.imm 2]),
     (.movhi w, word (iWord 0x01F w [w.d.toNat] [w.d.toNat]) fun e =>
       wr64 w.d.toNat (BitVec.ofNat 64 (w.imm.toNat * 2 ^ 32 + (e.r64 w.d.toNat).toNat % 2 ^ 32)) 2)]) ∧
  ∀ w : RForm, All
    [(.mov w, word (rWord 0x01D w (src1Regs w) (dstRegs w)) fun e =>
       if classOf w.d = .k ∨ classOf w.s1 = .k then wr64 w.d.toNat (e.r64 w.s1.toNat) 2
       else (List.range (elems w)).map fun i => wr32 (dstReg w i) (e.r32 (src1 w i)) 2),
     (.iadd64 w, word (rWord 0x020 w (regs64 w.s1.toNat ++ regs64 w.s2.toNat) (regs64 w.d.toNat)) fun e =>
       wr64 w.d.toNat (BitVec.ofNat 64 ((e.r64 w.s1.toNat).toNat + (e.r64 w.s2.toNat).toNat)) 2),
     (.lea w, word (rWord 0x021 w (regs64 w.s1.toNat ++ [w.s2.toNat]) (regs64 w.d.toNat)) fun e =>
       wr64 w.d.toNat (BitVec.ofInt 64 ((e.r64 w.s1.toNat).toNat +
         ext (mbit w.mod 6) (e.r32 w.s2.toNat) * 2 ^ mfld w.mod 2 0)) 2)]) ∧
  (∀ w : RForm,
  let p := fun (e : Env) (x : BitVec 10) => (e.r32 x.toNat).getLsbD 0
  All
  [(.pand w, word (rWord 0x087 w [w.s1.toNat, w.s2.toNat] [w.d.toNat]) fun e =>
     [wrP w.d.toNat ((p e w.s1 ^^ mbit w.mod 1) && (p e w.s2 ^^ mbit w.mod 0)) 2]),
   (.por w, word (rWord 0x088 w [w.s1.toNat, w.s2.toNat] [w.d.toNat]) fun e =>
     [wrP w.d.toNat ((p e w.s1 ^^ mbit w.mod 1) || (p e w.s2 ^^ mbit w.mod 0)) 2]),
   (.pxor w, word (rWord 0x089 w [w.s1.toNat, w.s2.toNat] [w.d.toNat]) fun e => [wrP w.d.toNat (p e w.s1 ^^ p e w.s2) 2]),
   (.pnot w, word (rWord 0x08A w [w.s1.toNat] [w.d.toNat]) fun e => [wrP w.d.toNat (!(p e w.s1)) 2]),
   (.pmov w, word (rWord 0x08B w [w.s1.toNat] [w.d.toNat]) fun e =>
     [wrP w.d.toNat (if classOf w.s1 = .w then decide (e.r64 w.s1.toNat ≠ 0) else decide (e.r32 w.s1.toNat ≠ 0)) 2])])

/-! ### Class 1: floating point, conversions, codebook, checksums (07) -/

/-- R177, R180, R182: FADD, FSUB, FMUL and FFMA round the exact value once, by RM or by sr.mode.RM; FMIN and FMAX pass a NaN
over; FRND rounds to an integral value and raises no flag. A word whose raised flag is enabled traps with FPEXC. R188: HADD2,
HMUL2 and HFMA2 compute the two BF16 elements of a register apart and raise the flags of both. -/
def Obligations.FloatResults : Prop :=
  (∀ w : RForm,
  let nan := fun a => (f32.value a).isNan
  All
  [(.fadd w, float2 0x040 w 4 fun e => f32.add (rm w e)), (.fsub w, float2 0x041 w 4 fun e => f32.sub (rm w e)),
   (.fmul w, float2 0x042 w 4 fun e => f32.mul (rm w e)), (.ffma w, float3 0x043 w 4 fun e => f32.fma (rm w e)),
   (.fmin w, float2 0x044 w 4 fun _ a b =>
     (if nan a then (if nan b then f32.nan else b) else if nan b then a
      else if (f32.value b).lt true (f32.value a) then b else a, 0)),
   (.fmax w, float2 0x045 w 4 fun _ a b =>
     (if nan a then (if nan b then f32.nan else b) else if nan b then a
      else if (f32.value a).lt true (f32.value b) then b else a, 0)),
   (.frnd w, float1 0x048 w 4 fun e a => (frnd (rm w e) a, 0))]) ∧
  (∀ w : RForm, All
  [(.hadd2 w, float2 0x051 w 4 fun e a b => pair fun k => bf16.add (rm w e) (half k a) (half k b)),
   (.hmul2 w, float2 0x052 w 4 fun e a b => pair fun k => bf16.mul (rm w e) (half k a) (half k b)),
   (.hfma2 w, float3 0x053 w 4 fun e a b d => pair fun k => bf16.fma (rm w e) (half k a) (half k b) (half k d))])

/-- R183, R184: FCMP sets or combines a predicate, unordered operands meeting only NE and UN; FCLASS gives a one-hot mask;
neither raises a flag. R185: the special functions, element by element, with ten cycles of latency; their values are those of
R186 and R187. -/
def Obligations.FloatClassSpecialResults : Prop :=
  (∀ w : RForm, All
  [(.fcmp w,
     word { rWord 0x046 w (src1Regs w ++ src2Regs w ++ if mfld w.mod 4 3 = 0 then [] else dstRegs w) (dstRegs w) with
       roles := [.v] } fun e =>
       let a := f32.value (e.r32 w.s1.toNat).toNat
       let b := f32.value (e.r32 w.s2.toNat).toNat
       let ord := !(a.isNan || b.isNan)
       let old := (e.r32 w.d.toNat).getLsbD 0
       let lt := a.lt false b
       let gt := b.lt false a
       let t := [ord && !lt && !gt, !ord || lt || gt, ord && lt, ord && !gt, ord && gt, ord && !lt, !ord, ord].getD
         (mfld w.mod 2 0) false
       [wrP w.d.toNat (if mfld w.mod 4 3 = 0 then t else if mfld w.mod 4 3 = 1 then old && t else old || t) 4]),
   (.fclass w, float1 0x047 w 4 fun _ a =>
     (match f32.value a with
      | .nan => 256
      | .inf neg => if neg then 1 else 128
      | .fin neg m _ =>
        if m = 0 then (if neg then 8 else 16) else if m < 2 ^ 23 then (if neg then 4 else 32) else if neg then 2 else 64, 0))]) ∧
  (∀ w : RForm, All
  [(.frcp w, float1 0x049 w 10 fun e => frcp (rm w e)), (.frsq w, float1 0x04A w 10 fun _ => frsq),
   (.fsqrt w, float1 0x04B w 10 fun e => fsqrt (rm w e)), (.fex2 w, float1 0x04C w 10 fun _ => fex2),
   (.flg2 w, float1 0x04D w 10 fun _ => flg2), (.fsin w, float1 0x04E w 10 fun _ => fsincos false),
   (.fcos w, float1 0x04F w 10 fun _ => fsincos true), (.ftanh w, float1 0x050 w 10 fun _ => ftanh)])

/-- R187: the table of special inputs. Negative finite inputs are the codes whose value is finite, negative and not zero. -/
def Obligations.SpecialInputs : Prop := ∀ mode : Nat,
  let pinf := 0x7F800000
  let ninf := 0xFF800000
  let nan := 0x7FC00000
  let nz := 0x80000000
  let one := 0x3F800000
  [0, nz, pinf, ninf, one].map (frcp mode) =
    [(pinf, flDIVZ), (ninf, flDIVZ), (0, 0), (nz, 0), (one, 0)] ∧
  [0, nz, pinf, ninf, one].map frsq = [(pinf, flDIVZ), (ninf, flDIVZ), (0, 0), (nan, flINV), (one, 0)] ∧
  [0, nz, pinf, ninf, one].map (fsqrt mode) = [(0, 0), (nz, 0), (pinf, 0), (nan, flINV), (one, 0)] ∧
  [0, nz, pinf, ninf, one].map fex2 = [(one, 0), (one, 0), (pinf, 0), (0, 0), (0x40000000, 0)] ∧
  [0, nz, pinf, ninf, one].map flg2 = [(ninf, flDIVZ), (ninf, flDIVZ), (pinf, 0), (nan, flINV), (0, 0)] ∧
  [0, nz, pinf, ninf].map (fsincos false) = [(0, 0), (nz, 0), (nan, flINV), (nan, flINV)] ∧
  [0, nz, pinf, ninf].map (fsincos true) = [(one, 0), (one, 0), (nan, flINV), (nan, flINV)] ∧
  [0, nz, pinf, ninf].map ftanh = [(0, 0), (nz, 0), (one, 0), (0xBF800000, 0)] ∧
  ∀ a m e, (f32.value a = .fin true m e → m ≠ 0 →
      frsq a = (nan, flINV) ∧ fsqrt mode a = (nan, flINV) ∧ flg2 a = (nan, flINV)) ∧
    (f32.value a = .nan →
      frcp mode a = (nan, 0) ∧ frsq a = (nan, 0) ∧ fsqrt mode a = (nan, 0) ∧ fex2 a = (nan, 0) ∧ flg2 a = (nan, 0) ∧
      fsincos false a = (nan, 0) ∧ fsincos true a = (nan, 0) ∧ ftanh a = (nan, 0)) ∧
    ∀ neg, f32.value a = .fin neg m e → 0x41200000 ≤ a % 2 ^ 31 →
      ftanh a = (if neg then 0xBF800000 else one, 0)

/-- R189 to R197: CVT converts each element once, from SF into DF, with the mode and the saturation of the word or of sr.mode;
CVTBLK and UNBLK carry a block of 32 elements between the lanes of a warp and its image, and an FPEXC of one thread is taken by
every executing thread of its warp. R198 to R202: CBXP copies two entries of the code table; CBQ gives the indexes of the
nearest entries and keeps the other nibbles; CKACC folds modulo 2^61 - 1; CKTEST compares folds, and traps with CKFAIL or, with
NT = 1, writes the outcome. The sr.einfo of a thread that takes FPEXC only because another thread of its warp raised an enabled flag
is the model's choice (log 54); R193 does not say it. -/
def Obligations.ConversionTableResults : Prop :=
  (∀ w : RForm,
  let mode := fun e : Env => if cvtRO w then cvtRM w else natBits e.t.mode.toNat 3 2
  let sat := fun e : Env => if cvtSO w then cvtSV w else e.t.mode.getLsbD 1
  Completes (.cvt w)
    (floats (rWord 0x054 w (if 10 ≤ cvtSF w then regs64 w.s1.toNat else src1Regs w)
        (if 10 ≤ cvtDF w then regs64 w.d.toNat else dstRegs w)) fun e =>
      let c := fun i => fmtConvert (cvtDF w) (mode e) (sat e) (fmtValue (cvtSF w)
        (if 10 ≤ cvtSF w then (e.r64 w.s1.toNat).toNat else (e.r32 (src1 w i)).toNat))
      if 10 ≤ cvtDF w then (wr64 w.d.toNat (BitVec.ofNat 64 (c 0).1) 4).map fun q => (q, (c 0).2)
      else (List.range (elems w)).map fun i => code (dstReg w i) (c i) 4) ∧
  Completes (.cvtblk w) (blocks 0x055 w fun e =>
    let (bs, fl) := if mbit w.mod 1 then encE4m3b (rm w e) (e.t.mode.getLsbD 1) (blockIn w e)
      else encE2m1b (rm w e) (e.t.mode.getLsbD 1) (blockIn w e)
    (imageWord (if mbit w.mod 1 then 8 else 4) bs e.lane, fl)) ∧
  Completes (.unblk w) (blocks 0x056 w fun e => (((unblkAll w e).1).getD e.lane 0, (unblkAll w e).2))) ∧
  (∀ w : RForm,
  let q := mfld w.mod 1 0
  let p : Int := 2 ^ 61 - 1
  Completes (.cbxp w) (float1 0x057 w 6 fun e a =>
    (e.w.ctEntry (a / 2 ^ (8 * q) % 16) + 65536 * e.w.ctEntry (a / 2 ^ (8 * q + 4) % 16), 0)) ∧
  Completes (.cbq w) (floats (rWord 0x058 w (src1Regs w ++ dstRegs w) (dstRegs w)) fun e =>
    (List.range (elems w)).map fun i =>
      let a := (e.r32 (src1 w i)).toNat
      let old := (e.r32 (dstReg w i)).toNat
      let x := cbIndex e.w (half 0 a)
      let y := cbIndex e.w (half 1 a)
      code (dstReg w i)
        (old % 2 ^ (8 * q) + (x.1 + 16 * y.1) * 2 ^ (8 * q) + old / 2 ^ (8 * q + 8) * 2 ^ (8 * q + 8), x.2 ||| y.2) 6) ∧
  Completes (.ckacc w)
    (word { rWord 0x059 w ([w.s1.toNat] ++ (if mbit w.mod 0 then [w.s2.toNat] else []) ++ [w.d.toNat]) [] with
        roles := [.v] } fun e =>
      let x := ext (mbit w.mod 6) (e.r32 w.s1.toNat)
      let t := if mbit w.mod 0 then x * ext (mbit w.mod 6) (e.r32 w.s2.toNat) else x
      wr64 w.d.toNat (BitVec.ofInt 64 (((e.r64 w.d.toNat).toNat + if mbit w.mod 2 then -t else t) % p)) 4) ∧
  Completes (.cktest w)
    { spec := { rWord 0x05A w [w.s1.toNat, w.s2.toNat] (if mbit w.mod 0 then [w.d.toNat] else []) with roles := [.v] }
      traps := fun _ e =>
        if !(mbit w.mod 0) && decide (((e.r64 w.s1.toNat).toNat : Int) % p ≠ ((e.r64 w.s2.toNat).toNat : Int) % p) then
          some { cause := 0x31, info := BitVec.ofNat 64 (w.s1.toNat - 880) } else none
      gives := fun _ e =>
        { regs := if mbit w.mod 0 then
            [wr32 w.d.toNat (if ((e.r64 w.s1.toNat).toNat : Int) % p = ((e.r64 w.s2.toNat).toNat : Int) % p then 0 else 1) 4]
            else [] } })

/-! ### Class 2: lanes, system registers, paired words (08, 05, 03) -/

/-- R207, R208, R214: SHFL pulls each register from its source lane, or keeps its own where the selector is not valid; SHFLP
writes what the highest-numbered sender sends, and nothing where no lane sends; BCAST gives the warp what lane LANE supplies.
R209, R210, R211, R212, R213: VOTE and MATCH over the active lanes of a lane group; RED and SCAN combine the contributors in
lane order, from the identity, raise EMPTY where there is none, and trap with FPEXC like R177; LGSET writes sr.lgp. -/
def Obligations.CrossLaneResults : Prop :=
  (∀ w : RForm,
  let k := fun e i => if mbit w.mod 4 then natBits w.s2.toNat 4 0 else (e.r32 (src2 w i)).toNat
  let srcs := src1Regs w ++ if mbit w.mod 4 then [] else src2Regs w
  Completes (.shfl w) (word (rWord 0x080 w srcs (dstRegs w)) fun e =>
    (List.range (elems w)).map fun i => wr32 (dstReg w i)
      (match route (mfld w.mod 6 5) e (k e i) with
       | some l => e.w.supply e.at' l (src1 w i)
       | none => e.r32 (src1 w i)) 6) ∧
  Completes (.shflp w) (lanes (rWord 0x081 w srcs (dstRegs w)) fun es e =>
    (List.range (elems w)).filterMap fun i =>
      ((es.filter fun q => route ([0, 2, 1, 3].getD (mfld w.mod 6 5) 0) q (k q i) = some e.lane).getLast?).map fun q =>
        wr32 (dstReg w i) (q.r32 (src1 w i)) 6) ∧
  Completes (.bcast w)
    (word { rWord 0x08E w [] [] with
        vregs := if mbit w.mod 5 then [w.s1.toNat, w.s1.toNat + 1] else [w.s1.toNat]
        reads := fun e => if e.lane = mfld w.mod 4 0 then (if mbit w.mod 5 then regs64 w.s1.toNat else [w.s1.toNat]) else [] }
      fun e =>
        let v := fun x => (e.w.supply e.at' (mfld w.mod 4 0) x).toNat
        wr64 w.d.toNat (BitVec.ofNat 64 (v w.s1.toNat + if mbit w.mod 5 then v (w.s1.toNat + 1) * 2 ^ 32 else 0)) 6)) ∧
  (∀ w : RForm,
  let q := 832 + mfld w.mod 2 0
  let scan := fun (pre : Env → Env → Bool) (e : Env) =>
    (contributors w e).foldl (fun (a : W32 × W32) x =>
      if pre x e then
        let t := redStep (mfld w.mod 6 3) (mbit w.mod 7) (natBits e.t.mode.toNat 3 2) a.1 (x.r32 w.s1.toNat)
        (t.1, a.2 ||| t.2)
      else a) (redIdentity (mfld w.mod 6 3) (mbit w.mod 7), 0)
  let combine := fun (op : Nat) (pre : Env → Env → Bool) =>
    ({ spec := rWord op w [w.s1.toNat, w.s2.toNat] [w.d.toNat]
       traps := fun _ e => fpTrap e (scan pre e).2
       gives := fun _ e =>
         { regs := [wr32 w.d.toNat (scan pre e).1 6, wrP q (!(contributors w e).isEmpty) 6]
           flags := (scan pre e).2 ||| if (contributors w e).isEmpty then flEMPTY else 0 } } : Rule)
  Completes (.vote w) (lanes (rWord 0x082 w [w.s1.toNat] [w.d.toNat]) fun es e =>
    let one := (e.peers es).filter fun x => (x.r32 w.s1.toNat).getLsbD 0
    [[wrP w.d.toNat (!one.isEmpty) 6], [wrP w.d.toNat (one.length == (e.peers es).length) 6],
     [wr32 w.d.toNat (laneMask (one.map (·.lane))) 6],
     [wrP w.d.toNat ((e.peers es).all fun x => (e.peers es).all fun y => x.r32 w.s1.toNat == y.r32 w.s1.toNat) 6]].getD
      (mfld w.mod 1 0) []) ∧
  Completes (.matchLanes w) (lanes (rWord 0x086 w [w.s1.toNat] [w.d.toNat]) fun es e =>
    let same := (e.peers es).filter fun x => x.r32 w.s1.toNat == e.r32 w.s1.toNat
    [wr32 w.d.toNat (laneMask (same.map (·.lane))) 6,
     wrP q ((e.peers es).all fun x => x.r32 w.s1.toNat == e.r32 w.s1.toNat) 6]) ∧
  Completes (.red w) (combine 0x083 fun _ _ => true) ∧
  Completes (.scan w) (combine 0x084 fun x e => if mbit w.mod 8 then decide (x.lane < e.lane) else decide (x.lane ≤ e.lane)) ∧
  Completes (.lgset w)
    (word (rWord 0x085 w [] []) fun _ => [{ reg := 1024, val := BitVec.ofNat 256 (mfld w.mod 2 0), lat := 6 }]))

/-- R123 to R130: MFSR gives the register that SRN names, whole to a w register and one half to a v register; MTSR writes it in
every thread that executes, reserved fields apart, for the next word on. R139, R140, R141: SNAP triggers the snapshot once for
each thread that executes, with its tag, where SNAPCTL lets programs do so (that each of several threads triggers it, in lane order,
is the model's choice, log 27); HALT and TLBI are privileged; TLBI takes every entry from every TLB of the device; HALT changes no
thread, and its core halts at the end of the run. -/
def Obligations.SystemWordResults : Prop :=
  (∀ w : RForm,
  let n := mfld w.mod 7 0
  Completes (.mfsr w) (word (rWord 0x08C w [] [w.d.toNat]) fun e =>
    let v := sysValue n e
    if classOf w.d = .w then wr64 w.d.toNat (BitVec.ofNat 64 v) 4
    else [wr32 w.d.toNat (BitVec.ofNat 32 (if mbit w.mod 8 then v / 2 ^ 32 else v)) 4]) ∧
  Completes (.mtsr w)
    { spec := rWord 0x08D w [w.s1.toNat] []
      base := eachDoes fun e t =>
            let old := sysValue n e
            let x := (e.r32 w.s1.toNat).toNat
            let v := if classOf w.s1 = .w then (e.r64 w.s1.toNat).toNat
              else if mbit w.mod 8 then x * 2 ^ 32 + old % 2 ^ 32 else old / 2 ^ 32 % 2 ^ 32 * 2 ^ 32 + x
            if n = 0 then { t with mode := BitVec.ofNat 32 (v % 2 ^ 11) }
            else if n = 1 then { t with status := BitVec.ofNat 32 (v % 2 ^ 9) ||| t.flagsAt e.s.clock }
            else if n = 2 then { t with epc := BitVec.ofNat 64 v }
            else if n = 3 then { t with ecause := BitVec.ofNat 32 (v % 2 ^ 11) }
            else if n = 4 then { t with einfo := BitVec.ofNat 64 v } else t }) ∧
  (∀ w : RForm,
  let snaps := fun (s : State) es => if s.mgmt.snapCtl.getLsbD 2 then
    es.foldl (fun s (e : Env) => s.trigger 1 (e.r32 w.s1.toNat)) s else s
  let flushed := fun (s : State) (es : List Env) => if es = [] then s else
    { s with cores := s.cores.map fun c => (c.1, { c.2 with tlb := [] })
             towers := s.towers.map fun t => (t.1, { t.2 with tlb := [] }) }
  Completes (.snap w)
    { spec := rWord 0x1CB w [w.s1.toNat] [], base := snaps } ∧
  Completes (.halt w) { spec := { rWord 0x1CC w [] [] with priv := true } } ∧
  (WellFormed (.halt w) = true → ∀ s l, Issues { rWord 0x1CC w [] [] with priv := true } s l →
    s.executing { rWord 0x1CC w [] [] with priv := true } l ≠ [] → ∃ t, exec (.halt w) s = .next t ∧
      if w.e then (t.core s.here).halting = true else 1 ≤ ((t.core s.here).port s.cur.2).haltReq) ∧
  Completes (.tlbi w)
    { spec := { rWord 0x1CD w [] [] with priv := true }
      base := flushed })

/-- R62, R63, R64, R106: the halves of a paired word whose guards are true write what their operations give of the old D and of
S; both read before either writes; an FPEXC of one leaves both unwritten. Where a half writes a w register, its guard is the
same in the lanes of each warp here; otherwise the first lane with a true guard gives the value. -/
def Obligations.PairedWordResults : Prop := ∀ w : PForm,
  let on := fun (e : Env) (h : Half) => h.g.toNat = 7 ∨ (e.r32 (832 + h.g.toNat)).getLsbD 0 = true
  let res := fun (e : Env) (h : Half) =>
    code h.d.toNat ((paired e (e.r32 h.d.toNat) (e.r32 h.s.toNat)).getD h.op.toNat (0, 0))
      (if h.op.toNat < 2 then 2 else if h.op.toNat = 2 then 4 else if h.op.toNat < 0x12 ∨ 0x1D < h.op.toNat then 2
       else if h.op.toNat < 0x19 then 4 else 10)
  let both := fun (e : Env) => (if on e w.a then [res e w.a] else []) ++ if on e w.b then [res e w.b] else []
  let rule : Rule := { floats (pairedSpec w) both with spec := pairedSpec w }
  Completes (.pairedWord w)
    { rule with
      pre := fun _ _ es => ∀ h ∈ [w.a, w.b], classOf h.d = .w → ∀ e ∈ es, ∀ x ∈ es, e.slot = x.slot → (on e h ↔ on x h) } ∧
  (WellFormed (.pairedWord w) = true → ∀ s l, Issues (pairedSpec w) s l →
    (∀ e ∈ s.group (pairedSpec w) l, e.executes (pairedSpec w) ∧ fpTrap e (flagsOf (both e)) = none) →
    ∃ t, exec (.pairedWord w) s = .next t ∧ ∀ e ∈ s.group (pairedSpec w) l,
      ∃ new, (t.warp? s.here e.slot).map (·.pend) = (s.warp? s.here e.slot).map (fun u => u.pend ++ new) ∧ new.Perm ([w.a, w.b].filterMap fun h =>
        if classOf h.d = .w then (((s.group (pairedSpec w) l).find? fun x => x.slot == e.slot && decide (on x h)).map fun x =>
          (res x h).1.lands x 1 0) else none))

/-! ### Class 7: control (05) -/

/-- R131, R132: NOP only moves on; BRA, BRX, CALL and RET go to their target, which must be word aligned and in the form of an
address, or take ADDRFORM; CALL writes the address of the next word. Their word must end its run. R134, R135, R136: EXIT ends a
thread, YIELD puts its waiting counter to 0 and lets other groups pass, SLEEP #0 changes nothing and SLEEP #n ends n cycles
later; each must end its run. R137, R138, R143: TRAP takes SWTRAP with its immediate in sr.einfo and BKPT takes BRK, and a BKPT
halts the core at the end of the run where its debug halt is enabled; RETT clears HND and goes to sr.epc, or to the word after
it with .NEXT, or takes ADDRFORM. -/
def Obligations.ControlWordResults : Prop :=
  ((∀ w : RForm, All
    [(.nop w, word (rWord 0x1C0 w [] []) fun _ => []),
     (.brx w, jumps (rWord 0x1C2 w [w.s1.toNat] []) (fun e =>
       if classOf w.s1 = .w then e.r64 w.s1.toNat else relative e.va (e.r32 w.s1.toNat).toInt) fun _ => []),
     (.ret w, jumps (rWord 0x1C4 w [w.s1.toNat] []) (fun e => e.r64 w.s1.toNat) fun _ => [])]) ∧
  ∀ w : IForm, All
    [(.bra w, jumps (iWord 0x1C1 w [] []) (fun e => relative e.va w.imm.toInt) fun _ => []),
     (.call w, jumps (iWord 0x1C3 w [] [w.d.toNat]) (fun e => relative e.va w.imm.toInt) fun e =>
       wr64 w.d.toNat (e.va + 8) 2)]) ∧
  ((∀ w : RForm,
    Completes (.exit w)
      { spec := { rWord 0x1C5 w [] [] with ends := true }
        pre := fun _ _ es => ∀ e ∈ es, e.t.dtraps = []
        base := eachDoes fun _ t => { t with run := .exited } } ∧
    Completes (.yield w)
      { spec := { rWord 0x1C6 w [] [] with ends := true }
        base := eachDoes fun _ t => { t with waitCtr := 0, yielded := true } }) ∧
  ∀ w : IForm, Completes (.sleep w)
    { spec := { iWord 0x1C7 w [] [] with ends := true }
      base := eachDoes fun e t =>
        if w.imm.toNat = 0 then t else { t with run := .sleeping, wake := e.s.clock + w.imm.toNat } }) ∧
  ((∀ w : IForm, All
    [(.trap w, { spec := iWord 0x1C8 w [] [], traps := fun _ _ => some { cause := 9, info := BitVec.ofNat 64 w.imm.toNat } }),
     (.bkpt w, { spec := iWord 0x1CA w [] [], traps := fun _ _ => some { cause := 8, info := BitVec.ofNat 64 w.imm.toNat } })] ∧
    (WellFormed (.bkpt w) = true → ∀ s l, Issues (iWord 0x1CA w [] []) s l → (s.core s.here).debugHalt = true →
      s.executing (iWord 0x1CA w [] []) l ≠ [] → ∃ t, exec (.bkpt w) s = .next t ∧
        if w.e then (t.core s.here).halting = true
        else (t.core s.here).halting = true ∨ ((t.core s.here).port s.cur.2).haltReq = 2)) ∧
  ∀ w : RForm,
    let r := jumps (rWord 0x1C9 w [] []) (fun e => if mbit w.mod 0 then e.t.epc + 8 else e.t.epc) fun _ => []
    Completes (.rett w) { r with
      base := fun s es => eachDoes (fun _ => Thread.rett) s (es.filter fun e => (r.traps es e).isNone) })

/-! ### Class 3: matrix words, the press, seeds (09, 10, 11) -/

/-- R226, R227, R245: MSET declares a register with the descriptor and the mask, once the checks of R227 pass, and MREL drops
the signatures of a signing or issued one; both count a declaration and free its buffer. R223, R228, R230, R231: the threads of
a signing word sign in lane order, each trapping alone on the checks of R230. The first signature takes the lowest free buffer
and records the fields of the operation; every signer's row enters the buffer, expanded, at the slot of the signer, which stands
signed, with the flags of the row raised; the last signer issues the operation. The word completes where no signer has to wait
for a buffer; otherwise it issues again. -/
def Obligations.SigningWordResults : Prop :=
  (∀ w : RForm, All
  [(.mset w, once (matrix 0x0C0 w [.m] [w.s1.toNat, w.s2.toNat])
     (fun _ e => (msetChecks (e.s.core e.d) (e.r64 w.s1.toNat) (e.r64 w.s2.toNat)).map fun c => (c, e.word))
     fun _ e s => s.modCore e.d fun c =>
       let n := w.d.toNat - 864
       let r := (c.dropBuf n).cv n
       (c.dropBuf n).setCv n
         { r with st := .declared, desc := e.r64 w.s2.toNat, mask := e.r64 w.s1.toNat, signed := 0, decl := r.decl + 1 }),
   (.mrel w, once (matrix 0x0CD w [.m] []) (fun _ _ => none) fun _ e s =>
     let n := w.s1.toNat - 864
     if ((s.core e.d).cv n).st = .signing ∨ ((s.core e.d).cv n).st = .issued then
       s.modCore e.d fun c =>
         let r := (c.dropBuf n).cv n
         (c.dropBuf n).setCv n { r with st := .declared, signed := 0, decl := r.decl + 1 }
     else s)]) ∧
  ∀ w : RForm, ∀ x ∈ [(Instr.mma w, 0, 0x0C1), (.mmar w, 1, 0x0C2), (.mmas w, 2, 0x0C3)],
    ∀ r : WSpec, Completes x.1 (signing x.2.1 x.2.2 w r)

/-- R233: a .L word reissues the latched rows of an issued register in the executing thread, after its checks; R223: the kinds
MMA, MMAR and MMAS. -/
def Obligations.LatchedIssueResults : Prop := ∀ w : RForm,
  ∀ x ∈ [(Instr.mmaL w, 0, 0x0C1), (.mmarL w, 1, 0x0C2), (.mmasL w, 2, 0x0C3)],
  let n := w.s1.toNat - 864
  let req := fun (es : List Env) (e : Env) => ({
    d := e.d, n := n, kind := x.2.1, acc := w.d.toNat - 856, ru := mbit w.mod 6, bw := e.r64 (768 + mfld w.mod 5 0)
    sat := e.t.mode.getLsbD 1, slot := e.slot, lane := e.lane, threads := es.map fun e => (e.slot, e.lane), word := e.word
    lt := true } : IssueReq)
  Completes x.1 (once (matrix x.2.2 w [.m] [768 + mfld w.mod 5 0])
    (fun es e =>
      let v := (e.s.core e.d).cv n
      let b := (e.r64 (768 + mfld w.mod 5 0)).setWidth 32
      if v.st ≠ .issued then some (0x23, e.word)
      else if (signerSlot v.desc e.slot e.lane).all fun i => !(v.mask.getLsbD i) then some (0x22, BitVec.ofNat 64 n)
      else if !(fbMatches x.2.1 (dsFb v.desc)) then some (0x23, e.word)
      else (bTrap e.l v.desc x.2.1 b).or (failed (issueSigned (req es e) e.s)))
    fun es e s => reached s (issueSigned (req es e) s))

/-- R232, R235, R45: when an operation issues, and what it leaves. Its accumulator holds the bound B + K·maxmag(A)·mag(B), at most
M/2 - 1, and the anchor ANCHA + ANCHB, which the old one has to equal unless the bound was 0; it stands last in the issue order
with its kind, accumulator, descriptor, mask, buffer, signers and token cost, and the register is declared again, or issued with
RU = 1. Operations that enter in one cycle stand in the order of their ports (R219), so it stands last unless an operation of a
higher port entered in its cycle before. What fails a check takes the trap of the check, and nothing changes. What the anchor register
holds of a sum outside I16, and that a later sum is compared with what the register took of it, is the model's choice (log 20), and
so is the copy of the code table that is bound at the issue (log 57). -/
def Obligations.IssueBoundAndAnchor : Prop := ∀ (q : IssueReq) (s : State),
  let c := s.core q.d
  let v := c.cv q.n
  let x := v.desc
  let at' := (q.bw.setWidth 32 : W32)
  let len := if q.kind = 1 then 16 else if q.kind = 2 then 64 else 0
  let rec' := c.scrRead (scrOff at') len
  let tile := BitVec.ofNat 128 (leNat rec')
  let seed := BitVec.ofNat 512 (leNat rec')
  let anchB := if q.kind = 1 then rp9Anchor tile else if q.kind = 2 then srE seed
    else if intFormat (dsFb x) then 0 else dsAnchB x
  let magB := if q.kind = 1 then rp9Bound tile else if q.kind = 2 then srBound seed else maxmag (dsFb x)
  let sum := (if intFormat (dsFa x) then 0 else dsAnchA x) + anchB
  let bound := (c.ac q.acc).bound + 16 * dsKq x * maxmag (dsFa x) * magB
  let trap := firstFail
    [(c.scrBad (scrOff at') len, (0x50, at'.zeroExtend 64)),
     (decide (q.kind = 1) && !(rp9HeaderOk tile), (0x41, at'.zeroExtend 64)),
     (decide (q.kind = 1 ∧ ¬(rp9Rows tile = dsK x ∧ rp9Cols tile = dsN x)), (0x23, q.word)),
     (decide (q.kind = 2) && !(srValid seed), (0x25, at'.zeroExtend 64)),
     (decide (q.kind = 2 ∧ 64 < dsK x), (0x23, q.word)),
     (decide ((c.ac q.acc).bound ≠ 0 ∧ (c.ac q.acc).anchor ≠ anchorReg sum), (0x23, q.word)),
     (decide (29488744969157759 < bound), (0x20, BitVec.ofNat 64 q.acc))]
  q.kind < 3 →
  (∀ y, trap = some y → issueSigned q s = .error y) ∧
  (trap = none → ∃ t o, issueSigned q s = .ok t ∧
    (t.core q.d).ac q.acc = { c.ac q.acc with bound := bound, anchor := anchorReg sum } ∧
    (-32768 ≤ sum ∧ sum ≤ 32767 → ((t.core q.d).ac q.acc).anchor.toInt = sum) ∧
    o ∈ (t.core q.d).issueOrder ∧ o.entered = (s.clock, portRank s.cur.2) ∧
    (t.core q.d).issueOrder.map (·.id) = (enterOrder o c.issueOrder).map (·.id) ∧
    ((∀ p ∈ c.issueOrder, p.entered.1 = s.clock → p.entered.2 ≤ portRank s.cur.2) →
      (t.core q.d).issueOrder.map (·.id) = c.issueOrder.map (·.id) ++ [s.nextId] ∧ (t.core q.d).issueOrder.getLast? = some o) ∧
    o.id = s.nextId ∧ o.slot = q.slot ∧ o.lane = q.lane ∧ o.threads = q.threads ∧ o.ownS = [] ∧
    o.cost = (if q.kind = 2 then (srC seed + 3) / 4 * dsK x + 8 else dsK x) ∧
    (∃ table who, o.kind = .mma q.kind q.acc x v.mask (v.buf.getD 0) (scrOff at') rec' table q.sat who q.lt ∧
      (dsFb x = 5 → ∀ u, c.warp? (dsWa x) = some u → table = (List.range 16).map fun i => BitVec.ofNat 16 (u.ctEntry i)) ∧
      ∀ sl ln, (sl, ln) ∈ who ↔ (∃ i, i < 64 ∧ v.mask.getLsbD i = true ∧ sl = (if i < 32 then dsWa x else dsWb x) ∧ ln = i % 32) ∨
        (q.lt = true ∧ sl = q.slot ∧ ln = q.lane)) ∧
    ((t.core q.d).cv q.n).st = (if q.ru then .issued else .declared) ∧ ((t.core q.d).cv q.n).signed = 0 ∧
    ((t.core q.d).cv q.n).desc = x ∧ ((t.core q.d).cv q.n).buf = (if q.ru then v.buf else none) ∧
    (∀ k, k ≠ q.n → (t.core q.d).cv k = c.cv k) ∧ ∀ k, k ≠ q.acc → (t.core q.d).ac k = c.ac k)

/-- R238, R239, R241, R242, R243, R244: MZERO, MLDR, MSTR, MACC and MSCL set bound and anchor as they issue and enter the issue
order after their checks; MBND reads the bound or the anchor. That their HEADROOM names the
destination is the model's choice (log 32), and so is what the anchor register holds of a sum outside I16 (log 20). R284, R286: the seed words enter flight after the checks of their
addresses; SEEDX owns the 4096 bytes of its destination, the others the 64 bytes of their record. -/
def Obligations.MatrixWordResults : Prop :=
  (∀ w : RForm,
  let a := w.d.toNat - 856
  let x := fun (e : Env) => (e.s.core e.d).ac (w.s1.toNat - 856)
  let y := fun (e : Env) => (e.s.core e.d).ac (w.s2.toNat - 856)
  let holds := fun (e : Env) (b : Nat) (n : BitVec 16) (s : State) =>
    s.modCore e.d fun c => c.setAc a { c.ac a with bound := b, anchor := n }
  let tile := fun (e : Env) => e.r32 w.s1.toNat
  let bar := fun (e : Env) => e.r32 w.s2.toNat
  let head := fun (e : Env) => BitVec.ofNat 128 (leNat ((e.s.core e.d).scrRead (scrOff (tile e)) 16))
  let threads := fun es => es.map fun e : Env => (e.slot, e.lane)
  let rows := 64 - 8 * mfld w.mod 5 3
  let cols := 64 - 8 * mfld w.mod 2 0
  All
  [(.mzero w, once (matrix 0x0C4 w [.m] []) (fun _ _ => none) fun _ e s =>
     (holds e 0 0 s).enter e.d e.slot e.lane [] [] 0 (.mzero a)),
   (.mldr w, once (matrix 0x0C7 w [.m] [w.s1.toNat, w.s2.toNat]) (fun _ e => mldrTrap e.l (e.s.core e.d) a (tile e) (bar e))
     fun es e s => (holds e (rp9Bound (head e)) (BitVec.ofInt 16 (rp9Anchor (head e))) s).enter e.d e.slot e.lane (threads es) [] 0
       (.mldr a (scrOff (tile e)) (bar e).toNat (head e))),
   (.mstr w, once (matrix 0x0C8 w [.m, .v] [w.s1.toNat, w.s2.toNat])
     (fun _ e => (tileTrap e.l (tile e) (bar e)).or (tileBytesTrap e.l (tile e) rows cols))
     fun es e s => s.enter e.d e.slot e.lane (threads es) [(e.d, scrOff (tile e), scrOff (tile e) + 16 + 11 * (rows * cols))] 0
       (.mstr a (scrOff (tile e)) (bar e).toNat rows cols ((s.core e.d).ac a).bound ((s.core e.d).ac a).anchor.toInt)),
   (.macc w, once (matrix 0x0C9 w [.m] [])
     (fun _ e =>
       if (x e).bound ≠ 0 ∧ (y e).bound ≠ 0 ∧ (x e).anchor ≠ (y e).anchor then some (0x23, e.word)
       else if 29488744969157759 < (x e).bound + (y e).bound then some (0x20, BitVec.ofNat 64 a) else none)
     fun _ e s => (holds e ((x e).bound + (y e).bound) (if (x e).bound ≠ 0 then (x e).anchor else (y e).anchor) s).enter
       e.d e.slot e.lane [] [] 0 (.macc a (w.s1.toNat - 856) (w.s2.toNat - 856))),
   (.mscl w, once (matrix 0x0CA w [.m] [w.s2.toNat])
     (fun _ e => if 29488744969157759 < (x e).bound * (bar e).toInt.natAbs then some (0x20, BitVec.ofNat 64 a) else none)
     fun _ e s => (holds e ((x e).bound * (bar e).toInt.natAbs) (x e).anchor s).enter e.d e.slot e.lane [] [] 0
       (.mscl a (w.s1.toNat - 856) (bar e).toInt)),
   (.mbnd w, once (matrix 0x0CC w [.m] []) (fun _ _ => none) (fun _ _ s => s) fun e =>
     wr64 w.d.toNat (BitVec.ofInt 64 (if mbit w.mod 0 then (x e).anchor.toInt else (x e).bound)) 4)]) ∧
  (∀ w : RForm,
  let bar := fun (e : Env) => e.r32 w.s2.toNat
  let dst := fun (e : Env) => (e.r64 w.s1.toNat).extractLsb' 32 32
  let flies := fun (es : List Env) (e : Env) (s : State) (own : Span) (body : OpBody) =>
    s.issueOp e.d { newOp s es true body with slot := e.slot, lane := e.lane, ownS := [own] }
  let record := fun (kind : Nat) (es : List Env) (e : Env) (s : State) =>
    flies es e s (e.d, scrOff (e.r32 w.s1.toNat), scrOff (e.r32 w.s1.toNat) + 64)
      (.seed kind (scrOff (e.r32 w.s1.toNat)) (scrOff 0) 0 (bar e).toNat none Pieces.none)
  All
  [(.seedscan w, once (matrix 0x0CF w [.m] [w.s1.toNat, w.s2.toNat])
     (fun _ e => drainTrap e.l [(e.r32 w.s1.toNat, 64), (bar e, 16)]) (record 0)),
   (.seedfit w, once (matrix 0x0D0 w [.m] [w.s1.toNat, w.s2.toNat])
     (fun _ e => drainTrap e.l [(e.r32 w.s1.toNat, 64), (bar e, 16)]) (record 1)),
   (.seedx w, once (matrix 0x0D1 w [.m] [w.s1.toNat, w.s2.toNat])
     (fun _ e => drainTrap e.l [((e.r64 w.s1.toNat).setWidth 32, 64), (dst e, 4096), (bar e, 16)])
     fun es e s => flies es e s (e.d, scrOff (dst e), scrOff (dst e) + 4096)
       (.seed 2 (scrOff ((e.r64 w.s1.toNat).setWidth 32)) (scrOff (dst e)) (mfld w.mod 2 0) (bar e).toNat none Pieces.none))])

/-- R246, R254 to R256, R263, R264: the drains and MCHK enter the issue order with the place, format, mode and saturation of
the word; MDRAINA takes a fresh buffer for its register, which then stands issued, and MAXSC enters flight with its blocks. That
MAXSC is no deferred transfer is the model's choice (log 33), and so is that MCHK and MAXSC write the register of each warp that
executed (log 33). A MDRAINA that was frozen for a buffer has passed the check of the buffers (R256, R263). -/
def Obligations.DrainWordResults : Prop := ∀ w : RForm,
  let a := w.d.toNat - 856
  let n := w.s1.toNat - 864
  let bar := fun (e : Env) => e.r32 w.s2.toNat
  let size := 64 * [256, 128, 68, 36, 256, 64].getD (mfld w.mod 2 0) 256
  let dst := fun (e : Env) => e.r32 w.s1.toNat
  let v := fun (e : Env) => (e.s.core e.d).cv n
  let slots := fun (es : List Env) => (es.map fun e => e.slot).eraseDups
  let waited := fun (e : Env) => ((e.s.core e.d).port e.port).issued.isSome
  Completes (.mdrain w) (once (matrix 0x0C5 w [.m, .v] [w.s1.toNat, w.s2.toNat])
    (fun _ e => drainTrap e.l [(dst e, size), (bar e, 16)])
    fun es e s => s.enter e.d e.slot e.lane (es.map fun e => (e.slot, e.lane)) [(e.d, scrOff (dst e), scrOff (dst e) + size)] 64
      (.mdrain a (scrOff (dst e)) (bar e).toNat (mfld w.mod 2 0) (rm w e)
        (if mbit w.mod 8 then mbit w.mod 7 else e.t.mode.getLsbD 1) ((s.core e.d).ac a).anchor.toInt)) ∧
  Completes (.mdraina w)
    { once (matrix 0x0C6 w [.m, .v] [w.s2.toNat])
        (fun _ e =>
          if (v e).st = .idle ∨ (v e).st = .signing ∨ intFormat (dsFa (v e).desc) ∨ dsKq (v e).desc ≠ 4 then some (0x23, e.word)
          else (drainTrap e.l [(bar e, 16)]).or
            (if (e.s.core e.d).bufChoice (v e).buf = .held ∧ waited e = false then some (0x22, BitVec.ofNat 64 n) else none))
        fun es e s =>
          let s1 := s.modCore e.d fun c =>
            ((c.dropBuf n).takeBuf n).setCv n { ((c.dropBuf n).takeBuf n).cv n with st := .issued }
          s1.enter e.d e.slot e.lane (es.map fun e => (e.slot, e.lane)) [] 0
            (.mdraina a ((((s1.core e.d).cv n).buf).getD 0) (bar e).toNat ((s.core e.d).ac a).anchor.toInt
              (dsAnchA (v e).desc)) with
      pre := fun _ _ es => ∀ e, executor (headR w) es = some e →
        (e.s.core e.d).bufChoice (v e).buf ≠ .wait ∧ (waited e = true → (e.s.core e.d).bufChoice (v e).buf ≠ .held) } ∧
  Completes (.mchk w) (once (matrix 0x0CB w [.m, .v] [w.s2.toNat]) (fun _ e => drainTrap e.l [(bar e, 16)])
    fun es e s => s.enter e.d e.slot e.lane [] [] 0 (.mchk (w.s1.toNat - 856) w.d.toNat (bar e).toNat (slots es))) ∧
  Completes (.maxsc w) (once (matrix 0x0CE w [.m] [w.s1.toNat, w.s2.toNat])
    (fun _ e => maxscTrap e (bar e).toNat (mbit w.mod 0) ((e.r64 w.s1.toNat).setWidth 32)
      ((e.r64 w.s1.toNat).extractLsb' 32 32))
    fun es e s => s.issueOp e.d
      { newOp s es false (.maxsc (scrOff ((e.r64 w.s1.toNat).setWidth 32)) (bar e).toNat (mbit w.mod 0) w.d.toNat
          ((e.r64 w.s1.toNat).extractLsb' 32 32).toNat (slots es)) with slot := e.slot, lane := e.lane })

/-! ### Class 4: scratchpads (13) -/

/-- R293, R294, R327, R328, R329, R311: LDS and LDSB give their registers the bytes at the address, STS and STSB store theirs,
thread by thread in lane order; an address fails with the traps of R294; nothing else of any memory changes. R330, R331, R332,
R333: ATS gives the old word and writes the new one; CASS gives the old value and writes S2 where it equals D; both act in lane
order, and a .REL word waits for earlier deferred transfers of its threads, CASS only where a compare succeeds in its turn. -/
def Obligations.ScratchWordResults : Prop :=
  (∀ w : MForm,
  let z : Nat := 2 ^ mfld w.mod 2 0
  let addr := fun (e : Env) => BitVec.ofInt 32 ((e.r32 w.s1.toNat).toNat + w.off.toInt * z)
  let n := ldsbH w * ldsbW w
  let regs := blockRegs w.d.toNat (ldsbH w) (ldsbW w)
  All
  [(.lds w, turns (mWord 0x100 w 1 [w.s1.toNat] (dataRegs w.d.toNat z))
     (loads z z addr fun bs => loadRegs w.d.toNat z (mbit w.mod 3) bs 14) (noWait z z addr) (banked z z addr)),
   (.sts w, turns (mWord 0x101 w 1 (w.s1.toNat :: dataRegs w.d.toNat z) []) (stores z z addr fun e => e.dataBytes w.d.toNat z)
     (noWait z z addr) (banked z z addr)),
   (.ldsb w, turns (mWord 0x102 w n [w.s1.toNat] regs)
     (loads (n * z) z addr fun bs => regs.zipIdx.map fun r => wr32 r.1 (BitVec.ofNat 32 (leNat ((bs.drop (r.2 * z)).take z))) 14)
     (noWait (n * z) z addr) (banked (n * z) z addr)),
   (.stsb w, turns (mWord 0x103 w n (w.s1.toNat :: regs) [])
     (stores (n * z) z addr fun e => regs.flatMap fun r => leBytes z (e.r32 r).toNat) (noWait (n * z) z addr)
     (banked (n * z) z addr))]) ∧
  ((∀ w : MForm,
    let addr := fun (e : Env) => BitVec.ofInt 32 ((e.r32 w.s1.toNat).toNat + w.off.toInt * 4)
    let ord := mfld w.mod 8 7
    Completes (.ats w) (turns (mWord 0x104 w 1 [w.s1.toNat, w.d.toNat] [w.d.toNat])
      (fun _ => access 4 4 addr (atomicAt (mfld w.mod 5 3) (mbit w.mod 6) (ord == 1 || ord == 3) (fun e => e.r32 w.d.toNat) addr
        fun old => [wr32 w.d.toNat old 14]))
      (fun s es => noWait 4 4 addr s es ∧
        (ord = 2 ∨ ord = 3 → ∀ e ∈ es, inPlace 4 4 addr e = true → e.deferredLeft s = false)) (banked 4 4 addr))) ∧
  ∀ w : RForm,
    let z := if mfld w.mod 2 0 = 3 then 8 else 4
    let addr := fun (e : Env) => e.r32 w.s1.toNat
    let ord := mfld w.mod 4 3
    let arg := fun (e : Env) (x : Nat) => if z = 8 then (e.r64 x).toNat else (e.r32 x).toNat
    let regs := fun x => if z = 8 then regs64 x else [x]
    let turn : Env → State → Spec.Turn := access z z addr fun e core off s =>
        if (s.core core).scrBad off z then uncorrectable e 4 (addr e) s
        else
          let old := leNat ((s.core core).scrRead off z)
          let res : TRes := { writes := if z = 8 then wr64 w.d.toNat (BitVec.ofNat 64 old) 14
                                        else [wr32 w.d.toNat (BitVec.ofNat 32 old) 14] }
          if old = arg e w.d.toNat then
            let waits := (ord == 2 || ord == 3) && e.deferredLeft e.s
            match storeTrap s (addr e) core off z with
            | some t => { s := s, res := TRes.trapped t.1 t.2, waits := waits }
            | none =>
              { s := s.plainStore core off (leBytes z (arg e w.s2.toNat)), res := res, waits := waits, acq := ord == 1 || ord == 3 }
          else { s := s, res := res, acq := mbit w.mod 5 }
    Completes (.cass w) (turns (rWord 0x105 w (w.s1.toNat :: regs w.d.toNat ++ regs w.s2.toNat) (regs w.d.toNat))
      (fun _ => turn) (fun s es => noWait z z addr s es ∧ ∀ q ∈ (takeTurns turn es s).2, q.2.waits = false) (banked z z addr)))

/-! ### Class 4: remote scratchpad words (13) -/

/-- R336, R337, R338: each lane of STRM and ATRM is a direct access whose operation counts later on the barrier of its warp,
the lanes performed; a lane's own address is checked before the barrier and the slot of its warp. That an ATRM may count on a
barrier of another core is the model's choice (log 62). ATRM keeps the old words for its slot, and with .REL the engine keeps the
accesses of the word back while earlier deferred transfers of a warp's threads have writes to perform; LDRM enters flight for each warp and owns its destination. Each
operation is one of every active thread of its warp, and of the warp thread (R324, R529). -/
def Obligations.RemoteScratchResults : Prop := ∀ w : RForm,
  let z : Nat := 2 ^ mfld w.mod 2 0
  let addr := fun (e : Env) => e.r32 w.s1.toNat
  let bar := fun (e : Env) => scrCheck e.l e.d (highOf e w.s2) 16 16
  let slot := fun (e : Env) => scrCheckLocal e.l (lowOf e w.s2) 128 16
  let ord := mfld w.mod 8 7
  let mates := fun (es : List Env) (e : Env) => es.filter (·.slot == e.slot)
  let held := fun (s : State) (es : List Env) =>
    (ord == 2 || ord == 3) && es.any fun e => (s.core e.d).hasDeferred ((mates es e).map fun x => (x.slot, x.lane)) s.nextId
  let passes := fun (n : Nat) (t : Env → Option (Nat × W64)) (es : List Env) =>
    es.filter fun e => (t (warpThread es e)).isNone && inPlace n n addr e
  let first := fun (n : Nat) (t : Env → Option (Nat × W64)) (f : List Env → Env → State → Spec.Turn) (es : List Env) (e : Env)
      (s : State) =>
    match scrCheck e.l e.d (addr e) n n, t (warpThread es e) with
    | none, some x => { s := s, res := TRes.trapped x.1 x.2 }
    | _, _ => f es e s
  let both := fun (e : Env) => (bar e).or (slot e)
  let perWarp := fun (f : Env → List Env → State → State) (es : List Env) (s : State) =>
    (warpsOf es).foldl (fun s q => match q.2 with | [] => s | e :: _ => f e q.2 s) s
  All
  [(.strm w, turns { rWord 0x106 w (w.s1.toNat :: w.s2.toNat :: dataRegs w.d.toNat z) [] with roles := [.c] }
     (first z bar (stores z z addr fun e => e.dataBytes w.d.toNat z))
     (fun s es => noWait z z addr s (passes z bar es)) (fun es => banked z z addr (passes z bar es))
     fun es r s => perWarp (fun e _ s =>
       if keptBy r e.slot = [] then s
       else s.issueOp e.d { newOp s (e.active (headR w)) false
         (.strm z (highOf e w.s2).toNat ((keptBy r e.slot).map (·.1))) with word := e.s.nextId }) es s),
   (.atrm w, turns { rWord 0x108 w [w.s1.toNat, w.s2.toNat, w.d.toNat] [] with roles := [.c] }
     (first 4 both fun es e s =>
       if held e.s es then access 4 4 addr (fun _ _ _ s => { s := s }) e s
       else access 4 4 addr (atomicAt (mfld w.mod 5 3) (mbit w.mod 6) (ord == 1 || ord == 3) (fun e => e.r32 w.d.toNat) addr
         fun _ => []) e s)
     (fun s es => held s es = false → noWait 4 4 addr s (passes 4 both es))
     (fun es => banked 4 4 addr (passes 4 both es))
     fun es r s => perWarp (fun e _ s =>
       let hs := (passes 4 both es).filter (·.slot == e.slot)
       let lead := (e.active (headR w)).headD e
       if held e.s es then
         if hs = [] then s
         else s.issueOp e.d { newOp s (e.active (headR w)) false (.atrmHeld (mfld w.mod 5 3) (mbit w.mod 6)
                (lowOf lead w.s2).toNat (highOf lead w.s2).toNat
                (hs.map fun x => (x.lane, (addr x).toNat, x.r32 w.d.toNat)) []) with
              word := e.s.nextId, rel := true, acq := ord == 3 }
       else if keptBy r e.slot = [] then s
       else s.issueOp e.d { newOp s (e.active (headR w)) false (.atrm (lowOf e w.s2).toNat (highOf e w.s2).toNat
         ((keptBy r e.slot).map fun v => (v.1, v.2.setWidth 32))) with word := e.s.nextId }) es s),
   (.ldrm w, acts { rWord 0x107 w [w.s1.toNat, w.s2.toNat] [] with roles := [.c] } (byWarp (headR w) fun e _ s =>
     let src := lowOf e w.s1
     let n := (lowOf e w.s2).toNat
     match ldrmTrap e src (highOf e w.s1) (lowOf e w.s2) (highOf e w.s2) with
     | some t => (s, hits e t)
     | none =>
       (s.issueOp e.d { newOp s (e.active (headR w)) true (.ldrm (scrCore e.d src) (scrOff src) (scrOff (highOf e w.s1)) (highOf e w.s2).toNat
            (List.range (n / 16))) with ownS := [(e.d, scrOff (highOf e w.s1), scrOff (highOf e w.s1) + n)] }, [])))]

/-! ### Class 5: buffers, caches, fences, copies (12, 13) -/

/-- R316, R317, R339: BRSET gives the b register of each warp the record at the address of its warp thread, where it is valid,
and traps with RECORD otherwise; BRGET gives a quarter of a record. R318, R319: a lane lies at the base plus the swizzled offset,
for an offset within the extent and a granted access; the swizzles exchange bits within a block, so that different offsets lie
apart and every offset stays in its block. -/
def Obligations.BufferRecordResults : Prop :=
  (∀ w : RForm,
  let addr := fun (e : Env) => e.r32 w.s1.toNat
  let span := fun (e : Env) => (e.d, scrOff (addr e), scrOff (addr e) + 32)
  let leads := fun (es : List Env) => (warpLeads (headR w) es).map (·.1)
  Completes (.brset w)
    (acts { rWord 0x140 w [w.s1.toNat] [] with roles := [.c] } (byWarp (headR w) fun e _ s =>
        match scrCheckLocal e.l (addr e) 32 32 with
        | some t => (s, hits e t)
        | none =>
          let r := BitVec.ofNat 256 (leNat ((s.core e.d).scrRead (scrOff (addr e)) 32))
          if (s.core e.d).scrBad (scrOff (addr e)) 32 then
            (e.uncRecord 1 ((addr e).zeroExtend 64) s, hits e (0x50, (addr e).zeroExtend 64))
          else if brValid r then (s, gets [e] [{ reg := w.d.toNat, val := r, lat := 2 }])
          else (s, hits e (0x41, (addr e).zeroExtend 64)))
      (fun s es => noneHeld s (leads es) ∧ ∀ e ∈ leads es, s.ownedS e.d (span e).2.1 (span e).2.2 s.nextId = false)
      (fun es fz => bankConflict ((leads es).map span) ≤ fz)) ∧
  Completes (.brget w) (word { rWord 0x141 w [w.s1.toNat] [] with roles := [.c] } fun e =>
    wr64 w.d.toNat (BitVec.ofNat 64 ((e.reg w.s1.toNat).toNat / 2 ^ (64 * mfld w.mod 1 0))) 2)) ∧
  ((∀ (b : BitVec 256) (v : W32) (lane : Nat), brOffset b v lane = v.toNat + lane * (b.extractLsb' 128 32).toInt) ∧
  (∀ (b : BitVec 256) (granted : Bool) (o : Int) (z : Nat),
    let va := vaOf ((b.extractLsb' 0 54).toInt + brSwizzle b o.toNat)
    brPlace b granted o z =
      if 0 ≤ o ∧ o + z ≤ (b.extractLsb' 64 40).toNat ∧ granted = true ∧ va.toNat % 65536 + z ≤ 65536 then some va else none) ∧
  (∀ (b : BitVec 256) (o : Nat),
    let size := fmtSize (brFmt b)
    let e := o % (64 * size) / size
    brSwizzle b o = [o, o ^^^ (o / 2 ^ 10 % 8 * 128), o ^^^ (o / 2 ^ 11 % 8 * 256),
      o - o % (64 * size) + (e % 8 * 8 + e / 8) * size + o % (64 * size) % size].getD (brSwz b) o) ∧
  ∀ b : BitVec 256, brFmt b ≤ 11 → ∀ o p, brSwizzle b o / brBlock b = o / brBlock b ∧ (brSwizzle b o = brSwizzle b p → o = p))

/-- R340 to R349, R366, R529: LDB and ATQ enter flight for each warp: with the size, slot and barrier of the access, with its lanes,
those out of bounds without an address, on behalf of every active thread of the warp, owning the elements of the slot that its
lanes fill; LDB once every line of the warp is translated, whole where its lanes cover one line exactly once, ATQ with the
format code of R396. A lane out of bounds raises OOB, or traps under OOBT; a lane whose line may not be read traps. R350: PREF
translates the lines of its lanes and brings those that it may read into the caches, and asks for a HOST or PEER line of which no
usable copy is held; no lane of it traps. -/
def Obligations.BufferLoadQueueResults : Prop :=
  (∀ w : RForm,
  let load : BufWord := { kind := .load, opc := 0, ord := 0, facq := false, b := mfld w.mod 3 0, s1 := w.s1.toNat, d := 0,
                          wx := w.s2.toNat }
  let queue : BufWord := { kind := .queue, opc := mfld w.mod 8 6, ord := mfld w.mod 5 4, facq := false, b := mfld w.mod 3 0
                           s1 := w.s1.toNat, d := w.d.toNat, wx := w.s2.toNat }
  let each := fun (q : BufWord) (f : Env → BufPlan → State → State) (es : List Env) (s : State) =>
    ((prepares q es s).2.foldl (fun s p => match p.es.head? with | some e => f e p s | none => s) (prepares q es s).1,
     (prepares q es s).2.flatMap laneResults)
  let slots := fun (d : Nat) (p : BufPlan) (z : Nat) (ls : List LaneAcc) =>
    ls.map fun a => (d, p.slot + z * a.lane, p.slot + z * a.lane + z)
  Completes (.ldb w) (acts (bufWord 0x142 w load)
    (each load fun e p s =>
      let ls := taking .load 0 p
      let t := touchLanes e.d e.l p.acq false p.z p.locs (walkRecords 1 p s)
      if ls = [] then walkRecords 1 p s
      else t.issueOp e.d { newOp t (crew (headR w) p) true (.bufLoad p.z p.slot p.bar (wholeLine p.z ls) [] ls) with
                             ownS := slots e.d p p.z ls })
    fun s es => ∀ p ∈ (prepares load es s).2, p.miss = none ∧ p.bad = false) ∧
  Completes (.atq w) (acts (bufWord 0x146 w queue) (each queue fun e p s =>
    let ls := taking .queue w.d.toNat p
    let ord := mfld w.mod 5 4
    if ls = [] then s
    else s.issueOp e.d { newOp s (crew (headR w) p) true
            (.atq (mfld w.mod 8 6) (if brFmt p.br = 0 then 2 else brFmt p.br - 8) ord p.slot p.bar ls [] []) with
              rel := ord == 2 || ord == 3, acq := ord == 1 || ord == 3, ownS := slots e.d p 4 ls })) ∧
  Completes (.pref w)
    (acts { rWord 0x148 w [] [] with
        roles := [.c], vregs := [w.s1.toNat], reads := fun _ => [840 + mfld w.mod 3 0, w.s1.toNat] }
      fun es s => ((warpsOf es).foldl (fun s x =>
        match x.2 with
        | [] => s
        | e0 :: _ =>
          let r := e0.reg (840 + mfld w.mod 3 0)
          let z := fmtSize (brFmt r)
          let vas := x.2.filterMap fun e => brPlace r (brR r) ((e.r32 w.s1.toNat).toNat + e.lane * brStride r) z
          let lines := (vas.flatMap fun a => (lineParts a z).map fun y => BitVec.ofNat 64 (y.1.toNat / 128 * 128)).eraseDups
          let t := translateLines e0.who .read lines s
          let locs := (t.2.filterMap fun y => y.2.toOption).filter fun p => p.ty != 3 || t.1.peerOk p.peer p.pport
          let acq := (x.2.map (·.t.acqAt)).foldl max 0
          let t2 := if mbit w.mod 4 then (locs.filter fun p => p.ty != 1).foldl (fun s p => s.l2Fill (lineKey p) false) t.1
            else touchLanes e0.d e0.l acq false 1 locs t.1
          (locs.filter fun p => p.ty == 2 || p.ty == 3).foldl (fun s p =>
            match s.locRead p acq 1 with
            | some (u, _) => u
            | none => s.askPeer e0.who.key 0 acq p) t2) s, []))) ∧
  ∀ (z : Nat) (ls : List LaneAcc), wholeLine z ls = true ↔
    128 / z ≠ 0 ∧ (∃ x, x % 128 = 0 ∧ (ls.filterMap fun a => a.va.map (·.toNat)).Perm ((List.range (128 / z)).map fun i => x + z * i)) ∧
      ∀ a ∈ ls, ∀ p, a.loc = some p → p.own = true

/-- R340 to R348, R331 to R333, R529: the lanes of STB, ATB and CASB act in lane order once the lines of each warp are translated:
STB writes its bytes, ATB and CASB write theirs and answer the old value; an STB whose lanes cover a line exactly once writes the
line as one event. A lane out of bounds raises OOB, or traps under OOBT, and answers 0. The lanes performed enter flight as one
operation of every active thread of the warp, which counts later on its barrier and puts the old values into its slot. With .REL
the engine keeps the word's lanes back while earlier deferred transfers of a warp's threads have writes to perform; a lane kept back
keeps its translation, and of a CASB whether its page grants writes (log 64). That the engine also keeps writes to a peer behind the
ATQ commands of their threads that have not been sent is the model's choice (log 59); R371 orders only their application at the peer. -/
def Obligations.BufferDirectResults : Prop := ∀ w : RForm,
  ∀ x ∈ [(Instr.stb w, 0x143, BufKind.store, 0, 0, false), (.atb w, 0x144, .atomic, mfld w.mod 8 6, mfld w.mod 5 4, false),
         (.casb w, 0x145, .cas, 0, mfld w.mod 6 5, mbit w.mod 4)],
  let kind := x.2.2.1
  let opc := x.2.2.2.1
  let ord := x.2.2.2.2.1
  let facq := x.2.2.2.2.2
  let code := if kind = .store then 2 else 4
  let acquiring := ord == 1 || ord == 3
  let q : BufWord := { kind := kind, opc := opc, ord := ord, facq := facq, b := mfld w.mod 3 0, s1 := w.s1.toNat
                       d := w.d.toNat, wx := w.s2.toNat }
  let ls := taking kind w.d.toNat
  let threads := fun (p : BufPlan) => (p.es.head?.map fun e => (ls p).map fun a => (e.slot, a.lane)).getD []
  let held := fun (s : State) (ps : List (BufPlan × Nat)) => ps.any fun p =>
    ((ord == 2 || ord == 3) && (s.core s.here).hasDeferred (threads p.1) s.nextId) ||
      ((ls p.1).any (fun a => a.loc.any (·.ty == 3)) && (s.core s.here).hasUnsent (threads p.1) s.nextId)
  let lane : List (BufPlan × Nat) → Env → Option ((BufPlan × Nat) × LanePlan) := fun ps e => ps.findSome? fun p =>
    (p.1.lanes.find? fun y => y.1.slot == e.slot && y.1.lane == e.lane).map fun y => (p, y.2)
  let inLine := fun (p : BufPlan) => (ls p).filter (·.va.isSome)
  let perform := fun (p : BufPlan) (id : Nat) (va : W64) (loc : Loc) (e : Env) (s : State) =>
    let v := operands kind w.d.toNat p.z e
    let u := { e.who with op := id }
    let line := sortBy (fun a => (a.va.map (·.toNat)).getD 0) (inLine p)
    if kind = .store ∧ wholeLine p.z (ls p) = true then
      ({ s := if (inLine p).head?.map (·.lane) = some e.lane then
                match line.head?.bind (·.loc) with
                | some at' => puts u at' (line.flatMap fun a => leBytes p.z a.data.toNat) s
                | none => s
              else s
         kept := some 0 } : Spec.Turn)
    else
      let r := performs kind opc (brFmt p.br) p.z u e.lane va loc v.1 v.2 s
      let misses := kind = .cas ∧ leNat (if loc.ty = 2 then s.hostRead loc.pa p.z else s.devRead loc.pa p.z) ≠ v.2.toNat
      match r.old with
      | .ok old => { s := r.s, res := { flags := r.flags }, kept := some old, acq := if misses then facq else acquiring }
      | .error (c, true) => { s := (e.recordOf code (c, va) r.s).defer e.d e.slot e.lane id c va }
      | .error (c, false) => { s := e.recordOf code (c, va) r.s, res := TRes.trapped c va }
  let turn := fun (ps : List (BufPlan × Nat)) (e : Env) (s : State) =>
    match lane ps e with
    | some (_, .trap c i) =>
      ({ s := if held e.s ps then s else e.recordOf code (c, i) s, res := TRes.trapped c i } : Spec.Turn)
    | some (_, .oob) => { s := s, res := { flags := flOOB }, kept := if held e.s ps then none else some 0 }
    | some (p, .ok va loc) => if held e.s ps then { s := s } else perform p.1 p.2 va loc e s
    | none => { s := s }
  let slot := fun (p : BufPlan) => if kind = .store then none else some p.slot
  let opcHeld := if kind = .cas then (if acquiring then 1 else 0) + if facq then 2 else 0 else opc
  let granted := fun (p : BufPlan) (s : State) (l : List LaneAcc) =>
    match p.live.head? with
    | some y => l.map fun a => { a with wr := a.va.all fun va =>
        (translateOn s y.1.d y.1.l.ptroot.toNat y.1.l.priv va .atomic).2.toOption.isSome }
    | none => l
  Completes x.1 (acts (bufWord x.2.1 w q)
    (fun es s =>
      let ps := (prepares q es s).2.zipIdx s.nextId
      let lead := fun (p : BufPlan) => p.es.head?
      let counted := (prepares q es s).2.foldl (fun t p =>
        match lead p with
        | none => t
        | some e => if kind = .store then t else (locLines p.z p.locs).foldl (fun t m =>
            t.count e.d (if t.l1Hit e.l e.d p.acq m then 7 else 8) 1) t) (prepares q es s).1
      let r := takeTurns (turn ps) es counted
      let done := ps.foldl (fun t p =>
          match lead p.1 with
          | none => t
          | some e =>
            let t' := if kind = .store then touchLanes e.d e.l p.1.acq true p.1.z p.1.locs t else t
            if held s ps then
              if ls p.1 = [] then t'
              else (walkRecords code p.1 t').issueOp e.d { newOp t' (crew (headR w) p.1) false
                  (.bufHeld (if kind = .store then 0 else if kind = .atomic then 1 else 2) opcHeld (brFmt p.1.br) p.1.z
                    (slot p.1) p.1.bar (if kind = .cas then granted p.1 t (ls p.1) else ls p.1) []) with
                      id := p.2, word := s.nextId, rel := ord == 2 || ord == 3, acq := acquiring || facq }
            else if keptBy r.2 e.slot = [] then t'
            else t'.issueOp e.d { newOp t' (crew (headR w) p.1) false
                    (.bufCount p.1.z (slot p.1) p.1.bar (keptBy r.2 e.slot)) with id := p.2, word := s.nextId }) r.1
      ({ done with nextId := s.nextId + ps.length }, r.2.map fun y => ((y.1.slot, y.1.lane), y.2.res)))
    fun s es => (∀ p ∈ (prepares q es s).2, p.miss = none ∧ p.bad = false) ∧
      (held s ((prepares q es s).2.zipIdx s.nextId) = false →
      ∀ e ∈ es, ∀ p va loc, lane ((prepares q es s).2.zipIdx s.nextId) e = some (p, .ok va loc) →
        let u := (prepares q es s).1
        (u.core e.d).hasHeld [(e.slot, e.lane)] u.nextId = false ∧ u.ownWritesLeft e.d e.slot e.lane loc p.1.z = false ∧
        (loc.own = true → u.ownedV e.l.ptroot.toNat va.toNat (va.toNat + p.1.z) u.nextId = false)))

/-- R359, R360, R361, R370, R371: CFLUSH and CINV enter flight for their lines once the barrier passes its checks; FENCE and
LFENCE complete once the earlier transfers of their threads are performed, their writes to peers too, and their threads make an
acquire. R351, R355, R366, R470: COPY reads its record as one direct read and checks the command, with the stream records that it
names, whose reads freeze the word by R299; it enters flight on behalf of its group, owns what it writes, and asks for the tokens of
one for each KiB of its destination, from 64 KiB on. What the checks say where the manual leaves it open (which of several addresses
sr.einfo names, a stream record at a wrong address, the alignment of a block) is the model's choice (log 73). -/
def Obligations.CacheCopyWordResults : Prop :=
  (∀ w : RForm,
  let spec := fun (op : Nat) => ({ rWord op w [] [] with
    roles := [.c], reads := fun _ => [840 + mfld w.mod 3 0, w.s1.toNat, w.s2.toNat] } : WSpec)
  let acts := fun (inv : Bool) (es : List Env) (e : Env) (s : State) => s.issueOp e.d (newOp s es false
    (.cache inv (maintLines (e.reg (840 + mfld w.mod 3 0)) (lowOf e w.s1).toNat (highOf e w.s1).toNat) (highOf e w.s2).toNat))
  let trap := fun (_ : List Env) (e : Env) => scrCheckLocal e.l (highOf e w.s2) 16 16
  let fence := fun (op : Nat) => ({
    spec := rWord op w [] []
    pre := fun s _ es => noneHeld s es ∧ ∀ e ∈ es, (s.core e.d).hasDeferred [(e.slot, e.lane)] s.nextId = false ∧
      ∀ o ∈ (s.core e.d).ops, o.id < s.nextId → (e.slot, e.lane) ∈ o.threads → s.unperformed e.d o.id = false
    base := eachDoes fun e t => { t with acqAt := e.s.clock } } : Rule)
  Completes (.cflush w) (once (spec 0x149) trap (acts false)) ∧ Completes (.cinv w) (once (spec 0x14A) trap (acts true)) ∧
  Completes (.fence w) (fence 0x14B) ∧ Completes (.lfence w) { fence 0x14C with frozen := fun _ _ _ => True }) ∧
  (∀ w : RForm,
  let va := fun (e : Env) => e.r64 w.s1.toNat
  let ok := fun (e : Env) => vaOk e.l.priv (va e) = true ∧ (va e).toNat % 64 = 0
  Completes (.copy w) (acts { rWord 0x147 w [w.s1.toNat] [] with roles := [.c] }.byFirst
    (fun es s => match executor (headR w) es with
      | none => (s, [])
      | some e =>
        if vaOk e.l.priv (va e) = false then (s, hits e (0x13, va e))
        else if (va e).toNat % 64 ≠ 0 then (s, hits e (0x41, va e))
        else
          match fetches e (va e) 64 s with
          | .stops => (s, [])
          | .trap t x => (t, hits e x)
          | .bytes t bs =>
            let r := BitVec.ofNat 512 (leNat bs)
            match copyTrap e (t.core e.d) (va e) r with
            | some x => (e.recordOf 1 x t, hits e x)
            | none =>
              let cmd := copyOf e (t.core e.d) (va e) r
              let total := cpTotal r (cpSize0 cmd.streams)
              let cost := if total < 65536 then 0 else (total + 1023) / 1024
              let own := if cpNoop e.d cmd then ([], []) else cpOwns e.d cmd
              ((t.issueOp e.d { newOp t es true (.copy cmd cost (cost == 0)) with
                  ownS := own.1, ownV := own.2 }).seekTokens e.d 1, []))
    (fun s es => ∀ e, executor (headR w) es = some e → ok e →
      (fetches e (va e) 64 s).reads ∧
      ∀ t bs, fetches e (va e) 64 s = .bytes t bs → ∀ a ∈ cpStreamAddrs e.l (BitVec.ofNat 512 (leNat bs)),
        t.ownedS e.d (scrOff a) (scrOff a + 64) t.nextId = false)
    fun es fz => ∀ e, executor (headR w) es = some e → ok e → ∀ t bs, fetches e (va e) 64 e.s = .bytes t bs →
      bankConflict ((cpStreamAddrs e.l (BitVec.ofNat 512 (leNat bs))).map fun a => (e.d, scrOff a, scrOff a + 64)) ≤ fz))

/-! ### Class 6: barriers, rings, events, tables, collectives (15 to 18) -/

/-- R456 to R462, R465: BINIT makes an armed object, releasing the waiters of an armed one as abandoned; BARV counts an arrival
and a byte count for each thread, or with .W for each warp, and BEXP a byte count; BINV disarms an armed object and abandons
it; the checks of R459 come first, and a change that the object cannot take traps. The accesses of the threads to their objects
freeze the word by R299. An object with an uncorrectable error is neither read nor changed, and its thread traps with UNCMEM beside a
fault record (R311); only BINIT makes a new one. R457, R458: a change of a valid object leaves a valid object with the same word 1 but for ABD; the phase
completes, and moves on by one, exactly where no arrival and no byte is left, and the next phase then begins with every arrival
to come; its waiters are released. R464: BWAIT and BTEST observe a phase: abandoned
where the object is not armed or its phase moved on with ABD, completed where the phase moved on, pending otherwise; a thread
of BWAIT waits while it is pending; completed makes an acquire. -/
def Obligations.BarrierResults : Prop :=
  (∀ w : RForm,
  let a := fun (e : Env) => e.r32 w.s1.toNat
  let v := fun (e : Env) => e.r32 w.s2.toNat
  let core := fun (e : Env) => scrCore e.d (a e)
  let off := fun (e : Env) => scrOff (a e)
  let place := fun (e : Env) => scrCheck e.l e.d (a e) 16 16
  let change : Bool → Env → State → Except Nat State := fun arrive e s =>
    if s.objBad (core e) (off e) then .error 0x50
    else
      match objChange (s.obj (core e) (off e)) arrive (v e).toInt with
      | .error c => .error c
      | .ok (o, done) =>
        let t := s.putObj (core e) (off e) o
        .ok (if done then (t.release (core e) (off e) (objPhase o) true).syncWait (core e) (off e) else t)
  let turn := fun (e : Env) (s : State) =>
    match place e with
    | some t => ({ s := s, res := TRes.trapped t.1 t.2 } : Spec.Turn)
    | none =>
      match change true e s with
      | .ok s1 => { s := s1 }
      | .error c => { s := e.recordOf 1 (c, (a e).zeroExtend 64) s, res := TRes.trapped c ((a e).zeroExtend 64) }
  let free := fun (who : List Env → List Env) (r : Rule) =>
    { r with pre := fun s _ es => noneHeld s es
             frozen := fun _ es fz =>
               bankConflict (((who es).filter fun e => (place e).isNone).map fun e => (core e, off e, off e + 16)) ≤ fz }
  let lead := fun (es : List Env) => (executor (headR w) es).toList
  let leads := fun (es : List Env) => if mbit w.mod 0 then es.filter (·.isLowest (headR w)) else es
  Completes (.binit w) (free lead (once (rWord 0x180 w [w.s1.toNat, w.s2.toNat] [])
    (fun _ e => (place e).or
      (if natBits (v e).toNat 15 12 ≠ 0 ∨ natBits (v e).toNat 11 0 = 0 then some (0x41, (a e).zeroExtend 64) else none))
    fun _ e s =>
      let waiting := (s.objBad (core e) (off e) || objArmed (s.obj (core e) (off e))) && s.hasWaiters (core e) (off e)
      let n := natBits (v e).toNat 11 0
      let s1 := if waiting then s.release (core e) (off e) 0 false else s
      s1.putObj (core e) (off e) (objWord1 (mfld w.mod 1 0) waiting false true ++
        objWord0 ((v e).extractLsb' 16 16) n n 0))) ∧
  Completes (.barv w) (free leads (acts (rWord 0x181 w [w.s1.toNat, w.s2.toNat] []) fun es s =>
    let r := takeTurns turn (leads es) s
    (r.1, r.2.map fun y => ((y.1.slot, y.1.lane), y.2.res)))) ∧
  Completes (.bexp w) (free lead (once (rWord 0x182 w [w.s1.toNat, w.s2.toNat] [])
    (fun _ e => (place e).or ((match change false e e.s with | .error c => some c | .ok _ => none).map fun c =>
      (c, (a e).zeroExtend 64)))
    fun _ e s => match change false e s with | .ok t => t | .error _ => s)) ∧
  Completes (.binv w) (free lead (once (rWord 0x185 w [w.s1.toNat] [])
    (fun _ e => (place e).or (if e.s.objBad (core e) (off e) then some (0x50, (a e).zeroExtend 64)
      else if objArmed (e.s.obj (core e) (off e)) && !(objValid (e.s.obj (core e) (off e))) then
        some (0x41, (a e).zeroExtend 64) else none))
    fun _ e s =>
      if objArmed (s.obj (core e) (off e)) then
        (s.release (core e) (off e) 0 false).putObj (core e) (off e)
          (objSetAbd (objSetWait (objDisarm (s.obj (core e) (off e))) false) true)
      else s))) ∧
  (∀ (o : Obj) (arrive : Bool) (b : Int) (c : Nat), objChange o arrive b = .error c ↔
    (c = 0x41 ∧ (objValid o && objArmed o) = false) ∨
    (c = 0x16 ∧ objValid o = true ∧ objArmed o = true ∧
      ((arrive = true ∧ objRem o = 0) ∨ objPend o + b < -8388608 ∨ 8388607 < objPend o + b))) ∧
  (∀ (o p : Obj) (arrive : Bool) (b : Int) (done : Bool),
  objChange o arrive b = .ok (p, done) →
    objValid p = true ∧ objArmed p = true ∧ objExp p = objExp o ∧
    (done = true ↔ objRem o = (if arrive then 1 else 0) ∧ objPend o + b = 0) ∧
    (done = true → objPhase p = objPhase o + 1 ∧ objRem p = objExp o ∧ objPend p = 0 ∧ objAbd p = false) ∧
    (done = false → objPhase p = objPhase o ∧ objPend p = objPend o + b ∧ objAbd p = objAbd o ∧
      objRem o = objRem p + if arrive then 1 else 0)) ∧
  (∀ (s : State) (d off : Nat) (phase : BitVec 16) (done : Bool) (c sl ln : Nat) (t : Thread) (x : Wait),
    s.thread? c sl ln = some t → t.wait = some x →
    let u := (s.release d off phase done).thread? c sl ln
    if x.core = d ∧ x.off = off ∧ (done = false ∨ x.ring = none ∨ phase = x.phase) then
      ∃ y, u = some y ∧ y.wait = none ∧ (t.run = .waiting → y.run = .ready) ∧ y.acqAt = (if done then s.clock else t.acqAt) ∧
        (x.pq ≠ 7 → y.pend.getLast? = some { reg := 832 + x.pq, val := if done then 1 else 0, ready := s.clock, rank := 4 })
    else u = some t) ∧
  (∀ w : RForm,
  let a := fun (e : Env) => e.r32 w.s1.toNat
  let ph := fun (e : Env) => (e.r32 w.s2.toNat).setWidth 16
  let outcome := fun (e : Env) (s : State) =>
    let o := s.obj (scrCore e.d (a e)) (scrOff (a e))
    if objArmed o = false then 2 else if objPhase o = ph e then 0 else if objAbd o then 2 else 1
  let turn := fun (f : Env → State → Nat → Spec.Turn) (e : Env) (s : State) =>
    match scrCheck e.l e.d (a e) 16 16 with
    | some t => ({ s := s, res := TRes.trapped t.1 t.2 } : Spec.Turn)
    | none => if s.objBad (scrCore e.d (a e)) (scrOff (a e)) then uncorrectable e 1 (a e) s else f e s (outcome e s)
  let rule := fun (spec : WSpec) (f : Env → State → Nat → Spec.Turn) =>
    ({ acts spec (fun es s => let r := takeTurns (turn f) es s; (r.1, r.2.map fun y => ((y.1.slot, y.1.lane), y.2.res))) with
       pre := fun s _ es => noneHeld s es
       frozen := fun _ es fz => bankConflict ((es.filter fun e => (scrCheck e.l e.d (a e) 16 16).isNone).map fun e =>
         (scrCore e.d (a e), scrOff (a e), scrOff (a e) + 16)) ≤ fz } : Rule)
  Completes (.bwait w) (rule { rWord 0x183 w [w.s1.toNat, w.s2.toNat] [] with ends := true } fun e s n =>
    if n = 0 then
      { s := s.startWait e.d e.slot e.lane
          { core := scrCore e.d (a e), off := scrOff (a e), phase := ph e, pq := w.d.toNat - 832, ring := none, va := e.va } }
    else { s := s, res := { writes := [wrP w.d.toNat (n == 1) (1 + w.stall.toNat)] }, acq := n == 1 }) ∧
  Completes (.btest w)
    (rule (rWord 0x184 w [w.s1.toNat, w.s2.toNat] [w.d.toNat]) fun _ s n =>
        { s := s, acq := n == 1
          res := { writes := [if classOf w.d = .p then wrP w.d.toNat (n == 1) 2 else wr32 w.d.toNat (BitVec.ofNat 32 n) 2] } }))

/-- R391 to R395: RACQ and RTAKE claim the next stage of a ring for each warp, or take up the claim that D still holds: a claim
whose barrier is at its phase is won, one whose barrier is not armed is not, and the warp's threads wait otherwise; RCOM and
RREL arrive at the barrier of their claim. The header and the barrier are accesses of the warp thread, and freeze the word by
R299. A barrier with an uncorrectable error gives UNCMEM beside a fault record (R311). -/
def Obligations.RingWordResults : Prop := ∀ w : RForm,
  let a := fun (e : Env) => e.r32 w.s1.toNat
  let bar := fun (r : Ring) (full : Bool) (c : W64) => scrOff (if full then rgFull r else rgEmpty r) + 16 * natBits c.toNat 35 32
  let claimOf := fun (take : Bool) (e : Env) (r : Ring) =>
    let old := e.r64 w.d.toNat
    let idx := rgIdx r take
    if old.getLsbD 47 then old else
      BitVec.ofNat 64 ((rgBase r).toNat + idx % rgSlots r * rgSlotSz r + idx % rgSlots r * 2 ^ 32 + 2 ^ 47 +
        (idx / rgSlots r + if take then 1 else 0) % 65536 * 2 ^ 48)
  let claims := fun (take : Bool) (e : Env) (q : List Env) (s : State) =>
    match ringAt e (a e) s with
    | .error t => (e.recordOf 1 t s, hitsAll q t)
    | .ok r =>
      let old := e.r64 w.d.toNat
      let idx := rgIdx r take
      let claim := claimOf take e r
      let s1 := if old.getLsbD 47 then s else s.modCore e.d fun c => c.scrWrite (scrOff (a e) + if take then 36 else 32)
        (leBytes 4 ((idx + 1) % (rgSlots r * 65536)))
      let o := s1.obj e.d (bar r take claim)
      let p := 832 + mfld w.mod 2 0
      let res := fun (won : Bool) (v : W64) => gets q (wrP p won (1 + w.stall.toNat) :: wr64 w.d.toNat v (1 + w.stall.toNat))
      let unc := (0x50, BitVec.zeroExtend 64 (BitVec.ofNat 32 (bar r take claim)))
      if old.getLsbD 47 = true ∧ claimOk r old = false then (s, hitsAll q (0x41, (a e).zeroExtend 64))
      else if s.objBad e.d (bar r take claim) then (e.recordOf 1 unc s, hitsAll q unc)
      else if objArmed o = false then (s1, res false claim)
      else if objPhase o = claim.extractLsb' 48 16 then
        (q.foldl (fun s x => acquires x s) s1, res true (claim &&& ~~~(BitVec.ofNat 64 (2 ^ 47))))
      else
        (q.foldl (fun s x => s.startWait x.d x.slot x.lane
            { core := e.d, off := bar r take claim, phase := claim.extractLsb' 48 16, pq := mfld w.mod 2 0
              ring := some (w.d.toNat, claim), va := x.va }) s1,
         gets q (wr64 w.d.toNat claim 0))
  let commits := fun (rel : Bool) (bytes : Env → Nat) (e : Env) (q : List Env) (s : State) =>
    match ringAt e (a e) s with
    | .error t => (e.recordOf 1 t s, hitsAll q t)
    | .ok r =>
      let c := e.r64 w.s2.toNat
      let b := (if rel then rgEmpty r else rgFull r) + BitVec.ofNat 32 (16 * natBits c.toNat 35 32)
      if claimOk r c = false then (s, hitsAll q (0x41, (a e).zeroExtend 64))
      else
        match barChange s e.d (scrOff b) true (bytes e) with
        | .ok t => (t, [])
        | .error x => (e.recordOf 1 (x, b.zeroExtend 64) s, hits e (x, b.zeroExtend 64))
  let spans := fun (full : Bool) (claim : Env → Ring → W64) (e : Env) =>
    match ringAt e (a e) e.s with
    | .error _ => []
    | .ok r =>
      let b := (if full then rgFull r else rgEmpty r) + BitVec.ofNat 32 (16 * natBits (claim e r).toNat 35 32)
      [(e.d, scrOff (a e), scrOff (a e) + 64), (e.d, scrOff b, scrOff b + 16)]
  let rule := fun (spec : WSpec) (sp : Env → List Span) f =>
    ({ acts spec (byWarp (headR w) f) with
       pre := fun s _ es => noneHeld s es
       frozen := fun _ es fz => bankConflict (((warpLeads (headR w) es).map (·.1)).flatMap sp) ≤ fz } : Rule)
  Completes (.racq w) (rule { rWord 0x186 w [w.d.toNat, w.s1.toNat] [] with ends := true } (spans false (claimOf false))
    (claims false)) ∧
  Completes (.rtake w) (rule { rWord 0x188 w [w.d.toNat, w.s1.toNat] [] with ends := true } (spans true (claimOf true))
    (claims true)) ∧
  Completes (.rcom w) (rule (rWord 0x187 w [w.d.toNat, w.s1.toNat, w.s2.toNat] [])
    (spans true fun e _ => e.r64 w.s2.toNat) (commits false fun e => (e.r32 w.d.toNat).toNat)) ∧
  Completes (.rrel w) (rule (rWord 0x189 w [w.s1.toNat, w.s2.toNat] [])
    (spans false fun e _ => e.r64 w.s2.toNat) (commits true fun _ => 0))

/-- R388, R390, R472, R473: EVPOST, LNCH and ADMIT enter flight after the checks of their operands; ADMIT asks for at most what
its bucket leaves the core, and a request of no tokens arrives at its barrier at once. R416 to R418, R424, R425, R454: CTW
writes four entries of the bank that is in the shadow, CTSWAP toggles the bank at the end of the run, and the cadastre
instructions and LTRD enter flight after the checks of their operands. -/
def Obligations.EventTableWordResults : Prop :=
  (∀ w : RForm,
  let x := fun (e : Env) => e.r64 w.s1.toNat
  let srcs := [w.s1.toNat, w.s2.toNat]
  let checks := fun (loc : Bool) (reserved : Env → Bool) (_ : List Env) (e : Env) =>
    if reserved e then some (0x02, e.word)
    else if loc then scrCheckLocal e.l (highOf e w.s2) 16 16 else scrCheck e.l e.d (highOf e w.s2) 16 16
  let slots := fun (es : List Env) => (warpsOf es).map (·.1)
  let b := mfld w.mod 1 0
  let asks := fun (e : Env) (s : State) => min (e.r32 w.s1.toNat).toNat (Config.bucketCap b - (s.core e.d).reserved b)
  All
  [(.evpost w, once { rWord 0x18A w srcs [] with roles := [.c] }
     (checks true fun e => natBits (x e).toNat 62 52 != 0)
     fun es e s => enters e es false (.evpost (x e) (lowOf e w.s2) (mbit w.mod 0) (highOf e w.s2).toNat) s),
   (.lnch w, once { rWord 0x18B w srcs [] with roles := [.c] }
     (fun es e => (checks true (fun e => lowOf e w.s2 != 0) es e).or
       (if (x e).toNat % 64 ≠ 0 then some (0x41, x e) else none))
     fun es e s => enters e es false (.lnch (x e) (mfld w.mod 5 0) w.d.toNat (highOf e w.s2).toNat (slots es)) s),
   (.admitTok w, once { rWord 0x194 w srcs [] with roles := [.c, .m] }
     (checks false fun e => lowOf e w.s2 != 0)
     fun es e s =>
       if asks e s = 0 then engineCount s e.d e.slot e.lane s.nextId (highOf e w.s2) true 0
       else (enters e es false (.adm b (asks e s) (highOf e w.s2).toNat false) s).modTower (towerOf e.d)
         (·.request s.clock b (e.d, s.nextId)))]) ∧
  (∀ w : RForm,
  let q := mfld w.mod 1 0
  let trap := fun (reserved : Env → Bool) (_ : List Env) (e : Env) =>
    if reserved e || lowOf e w.s2 != 0 then some (0x02, e.word) else scrCheckLocal e.l (highOf e w.s2) 16 16
  let slots := fun (es : List Env) => (warpsOf es).map (·.1)
  let high := fun (e : Env) (x : BitVec 10) => natBits (e.r64 x.toNat).toNat 63 52 != 0
  let cad := fun (kind op : Nat) (srcs : List Nat) => once { rWord op w srcs [] with roles := [.c] }
    (trap fun e => high e w.s1 || (kind == 2 && high e w.d))
    fun es e s => enters e es false (.cad kind (e.r64 w.s1.toNat) (if kind = 2 then e.r64 w.d.toNat else 0) (mfld w.mod 8 5)
      (mbit w.mod 4) (mfld w.mod 3 0) w.d.toNat (highOf e w.s2).toNat (slots es)) s
  All
  [(.ctw w, acts (rWord 0x18C w [w.s1.toNat] []) (byWarp (headR w) fun e _ s =>
     (s.modWarp e.d e.slot fun x =>
       { x with ct := (List.range 4).foldl (fun l i => putD l (16 * (1 - x.ctbank.toNat % 2) + 4 * q + i)
           ((e.r64 w.s1.toNat).extractLsb' (16 * i) 16) 0) x.ct }, []))),
   (.ctswap w, word (rWord 0x18D w [] []) fun _ => []),
   (.kval w, cad 0 0x18E [w.s1.toNat, w.s2.toNat]), (.kvfr w, cad 1 0x18F [w.s1.toNat, w.s2.toNat]),
   (.kvsh w, cad 2 0x190 [w.d.toNat, w.s1.toNat, w.s2.toNat]), (.kvmap w, cad 3 0x191 [w.s1.toNat, w.s2.toNat]),
   (.ltrd w, once { rWord 0x193 w [w.s1.toNat, w.s2.toNat] [] with roles := [.c] } (trap fun _ => false)
     fun es e s => enters e es false (.ltrd (mfld w.mod 2 0) (e.r32 w.s1.toNat) w.d.toNat (highOf e w.s2).toNat (slots es)) s)] ∧
  (WellFormed (.ctswap w) = true → w.e = true → ∀ s l, Issues (rWord 0x18D w [] []) s l → s.portNow.swaps = [] →
    ∃ t, exec (.ctswap w) s = .next t ∧ ∀ e ∈ s.executing (rWord 0x18D w [] []) l,
      (t.warp? s.here e.slot).map (·.toggles) = (s.warp? s.here e.slot).map fun u =>
        insertBy id (s.clock + 1 + w.stall.toNat) u.toggles))

/-- R441 to R445, R449, R453, R470: a COLL reads its record as one direct read, and on an enabled domain the header of its own
first tile where the operation has one, makes its checks, and enters flight on behalf of its group with the domain's next number:
it owns its output, its marks and its record and asks for its tokens. On a domain that is not enabled it ends at once with status
6, and on one that is split with status 1. An RP9 broadcast at a member other than ROOTM, which knows the shape only with the
headers, takes its output and its tokens then: the model's choice (log 44). -/
def Obligations.CollectiveWordResults : Prop := ∀ w : RForm,
  let va := fun (e : Env) => e.r64 w.s1.toNat
  let header := fun (e : Env) (r : List (BitVec 8)) => vaOf ((brBase (e.reg (840 + clIb r))).toInt + clIoff r)
  let buf := fun (e : Env) (n : Nat) => e.reg (840 + n)
  let ending := fun (es : List Env) (e : Env) (r : List (BitVec 8)) (st : Nat) (s : State) =>
    let x := s.domain (clDom r)
    let ix := if st = 6 then 2 ^ 64 + s.nextId else x.nextColl
    let o := { newOp s es true (.coll (clDom r) ix (va e) r (buf e (clIb r)) (buf e (clOb r)) (clBar r) 0 true) with
               ownV := [((va e).toNat, (va e).toNat + 128)] }
    let s1 := (s.issueOp e.d o).setDomain (clDom r)
      { x with nextColl := if st = 6 then x.nextColl else x.nextColl + 1, colls := x.colls ++ [endingColl e.d o ix st] }
    (s1, (s1.core e.d).op? s.nextId)
  let ended := fun (e : Env) (x : State × Option Op) =>
    match x.2 with
    | none => x.1
    | some o =>
      match collFinish e.d o x.1 with
      | .ok t _ => t
      | .stop t _ => t
      | .wait t => t
      | .miss t v p k => t.park e.d 2 o.id (va e) v p k
      | .bad => x.1
  let sound := fun (e : Env) (x : State × Option Op) => ∀ o, x.2 = some o →
    (match collFinish e.d o x.1 with | .bad => False | _ => True)
  let goes := fun (es : List Env) (e : Env) (r : List (BitVec 8)) (n : Option Nat) (s : State) =>
    let x := s.domain (clDom r)
    let late := decide (clFmt r = 0 ∧ clOp r = 3 ∧ clRoot r ≠ x.self)
    let bytes := if clFmt r = 0 then clLen r * (16 * ((16 + 11 * n.getD 0 + 15) / 16)) else clLen r
    let cost := if late then 0 else (bytes + 1023) / 1024 * if clOp r = 0 then 2 else 1
    let fails := firstFail
      [(!(clRecordOk r x.n) || !(clBufOk r (buf e (clIb r)) (buf e (clOb r)) x.n x.self n), (0x41, va e))]
    match fails.or (scrCheckLocal e.l (BitVec.ofNat 32 (clBar r)) 16 16) with
    | some t => (s, hits e t)
    | none =>
      if x.dstate = 3 then (ended e (ending es e r 1 s), [])
      else
        (((s.issueOp e.d { newOp s es true
              (.coll (clDom r) x.nextColl (va e) r (buf e (clIb r)) (buf e (clOb r)) (clBar r) cost (cost == 0)) with
            ownV := (if late then [] else collOut r (buf e (clOb r)) (clOutBytes r x.n x.self (n.getD 0))) ++
              [((clMark r).toNat, (clMark r).toNat + clChunks r), ((va e).toNat, (va e).toNat + 128)] }).setDomain (clDom r)
            { x with nextColl := x.nextColl + 1 }).seekTokens e.d 2, [])
  let elems := fun (hb : List (BitVec 8)) =>
    rp9Rows (BitVec.ofNat 128 (leNat hb)) * rp9Cols (BitVec.ofNat 128 (leNat hb))
  let readsHeader := fun (r : List (BitVec 8)) (s : State) =>
    clFmt r = 0 ∧ (clOp r = 0 ∨ (clOp r = 3 ∧ clRoot r = (s.domain (clDom r)).self))
  Completes (.coll w) (acts { rWord 0x192 w [w.s1.toNat] [] with roles := [.c] }.byFirst
    (fun es s => match executor (headR w) es with
      | none => (s, [])
      | some e =>
        if vaOk e.l.priv (va e) = false then (s, hits e (0x13, va e))
        else if (va e).toNat % 128 ≠ 0 then (s, hits e (0x41, va e))
        else
          match fetches e (va e) 128 s with
          | .stops => (s, [])
          | .trap t x => (t, hits e x)
          | .bytes s1 r =>
            if (s1.domain (clDom r)).en = false then (ended e (ending es e r 6 s1), [])
            else if readsHeader r s1 then
              match fetches e (header e r) 16 s1 with
              | .stops => (s, [])
              | .trap t x => (t, hits e x)
              | .bytes s2 hb =>
                if rp9HeaderOk (BitVec.ofNat 128 (leNat hb)) then goes es e r (some (elems hb)) s2 else (s2, hits e (0x41, va e))
            else goes es e r none s1)
    fun s es => ∀ e, executor (headR w) es = some e → vaOk e.l.priv (va e) = true → (va e).toNat % 128 = 0 →
      (fetches e (va e) 128 s).reads ∧
      ∀ s1 r, fetches e (va e) 128 s = .bytes s1 r →
        ((s1.domain (clDom r)).en = false → sound e (ending es e r 6 s1)) ∧
        (¬readsHeader r s1 → (s1.domain (clDom r)).dstate = 3 → sound e (ending es e r 1 s1)) ∧
        (readsHeader r s1 → (s1.domain (clDom r)).en = true → (fetches e (header e r) 16 s1).reads ∧
          ∀ s2 hb, fetches e (header e r) 16 s1 = .bytes s2 hb → s2.domain (clDom r) = s1.domain (clDom r) ∧
            ((s1.domain (clDom r)).dstate = 3 → sound e (ending es e r 1 s2))))

/-! ### Words that their checks keep from executing (03) -/

/-- R76, R79, R80, R82, R84: the checks that precede a word. A word that fails one of the checks 1 to 7 traps in every thread of its
group, whatever its guard, before any state changes, with the cause of the first check that fails and the word in sr.einfo, and the run
ends; R73: the next run begins no earlier than after the word's extent and STALL. Check 1 comes first for every word, check 2 is that of
every unassigned opcode, checks 3 and 4 are those of every word that the decoder refuses, as a step fetches it; a register beyond the
launch's registers comes before a missing E bit (which every word of R79 shows), this before the role, and this before the privilege.
Check 8 is made per thread: a thread with CHK set traps with STALLSHORT on a guard predicate that is not ready, or, with a true guard,
on the first source register that is not. That a thread that trapped may be chosen again from that cycle on is the model's choice
(log 28), and so is the extent of a word that does not decode (log 23). -/
def Obligations.CheckOrderTraps : Prop :=
  let trapped := fun (s t : State) (l : Launch) (h : Head) (n cause : Nat) (wd : W64) =>
    t.portNow.active = false ∧ t.portNow.due = s.clock + n + h.stall ∧ SameOutside s.here s t ∧
    ∀ e ∈ mkEnvs s s.here s.cur.2 l s.portNow.pc wd, ∃ snapped,
      t.thread? s.here e.slot e.lane = (s.thread? s.here e.slot e.lane).map
        (e.trapsTo h n 0 { cause := cause, info := wd } snapped)
  let headOf := fun (x : W64) => ({ e := x.getLsbD 63, stall := natBits x.toNat 62 59, gn := false, gp := 7 } : Head)
  (∀ (s : State) (l : Launch), s.coreLaunch s.here = some l → s.portNow.active = true → s.portNow.members.Nodup →
    let traps := fun (i : Instr) (h : Head) (n cause : Nat) (wd : W64) => ∃ t, exec i s = .next t ∧ trapped s t l h n cause wd
    let full := 24 ≤ s.portNow.count
    (∀ i f, i.form = some f → full → ∃ h n, traps i h n 0x04 f.word) ∧
    (∀ x : W64, traps (.unassignedOpcode x) (headOf x) 1 (if full then 0x04 else 0x01) x) ∧
    (∀ i f, i.form = some f → WellFormed i = true → ¬ full → l.nregs = 768 → f.word.getLsbD 63 = false →
      (∃ w, i ∈ [Instr.brx w, .ret w, .bwait w, .rtake w, .racq w, .yield w, .exit w, .rett w]) ∨
        (∃ w, i ∈ [Instr.bra w, .call w, .sleep w]) → ∃ h n, traps i h n 0x04 f.word) ∧
    (∀ w : IForm, (full → traps (.sleep w) (headI w) 1 0x04 (joinI 0x1C7 w)) ∧
      (¬ full → w.e = false → traps (.sleep w) (headI w) 1 0x04 (joinI 0x1C7 w))) ∧
    ∀ w : RForm,
      (full → traps (.nop w) (headR w) (elems w) 0x04 (joinR 0x1C0 w)) ∧
      (¬ full → w.e = false → traps (.exit w) (headR w) (elems w) 0x04 (joinR 0x1C5 w)) ∧
      (¬ full → classOf w.s1 = .v → l.nregs ≤ w.s1.toNat → traps (.bwait w) (headR w) (elems w) 0x03 (joinR 0x183 w)) ∧
      (¬ full → classOf w.d = .v → l.nregs ≤ w.d.toNat → traps (.iadd w) (headR w) (elems w) 0x03 (joinR 0x000 w)) ∧
      (¬ full → classOf w.d = .v → l.nregs ≤ w.d.toNat → traps (.fadd w) (headR w) (elems w) 0x03 (joinR 0x040 w)) ∧
      (¬ full → WellFormed (.fadd w) = true → l.nregs = 768 → portRole s.cur.2 ≠ .v →
        traps (.fadd w) (headR w) (elems w) 0x05 (joinR 0x040 w)) ∧
      (¬ full → portRole s.cur.2 ≠ .m → traps (.mzero w) (headR w) (elems w) 0x05 (joinR 0x0C4 w)) ∧
      (¬ full → WellFormed (.ltrd w) = true → l.nregs = 768 → portRole s.cur.2 ≠ .c →
        traps (.ltrd w) (headR w) (elems w) 0x05 (joinR 0x193 w)) ∧
      (¬ full → l.priv = false → traps (.tlbi w) (headR w) (elems w) 0x07 (joinR 0x1CD w)) ∧
      (¬ full → w.gp ≠ 7 → ∀ e ∈ mkEnvs s s.here s.cur.2 l s.portNow.pc (joinR 0x1C0 w), e.t.mode.getLsbD 0 = true →
        ∀ p, e.t.pend.reverse.find? (fun q => q.reg == 832 + w.gp.toNat) = some p → e.at' < p.ready →
          ∃ t snapped, exec (.nop w) s = .next t ∧ t.thread? s.here e.slot e.lane = (s.thread? s.here e.slot e.lane).map
            (e.trapsTo (headR w) (elems w) 0 { cause := 0x06, info := BitVec.ofNat 64 (832 + w.gp.toNat + (p.ready - e.at') * 65536) } snapped)) ∧
      (¬ full → WellFormed (.mov w) = true → l.nregs = 768 → elems w = 1 → w.gp = 7 → w.gn = false → classOf w.s1 = .v →
        ∀ e ∈ mkEnvs s s.here s.cur.2 l s.portNow.pc (joinR 0x01D w), e.t.mode.getLsbD 0 = true →
        ∀ p, e.t.pend.reverse.find? (fun q => q.reg == w.s1.toNat) = some p → e.at' < p.ready →
          ∃ t snapped, exec (.mov w) s = .next t ∧ t.thread? s.here e.slot e.lane = (s.thread? s.here e.slot e.lane).map
            (e.trapsTo (headR w) 1 0 { cause := 0x06, info := BitVec.ofNat 64 (w.s1.toNat + (p.ready - e.at') * 65536) } snapped))) ∧
  ∀ (s : State) d p l s1 page s2 bs err, s.agenda = [] → s.dueStep = none → s.dueWord = some (d, p) → s.coreLaunch d = some l →
    ((s.core d).port p).issued = none → ((s.core d).port p).members.Nodup →
    let s0 := { s with cur := (d, p) }
    let pc := ((s.core d).port p).pc
    vaOk l.priv pc = true → translateOn s0 d l.ptroot.toNat l.priv pc .exec = (s1, .ok page) →
    (page.loc.ty = 3 → s1.peerOk page.loc.peer page.loc.pport = true) → (page.loc.own = true → s1.devBad page.loc.pa 8 = false) →
    s1.locRead page.loc 0 8 = some (s2, bs) → decodeBytes bs = .error err →
    let u := (s2.l2Pass page.loc false).markFirst l.key
    let x := wordOfBytes bs
    ∃ t, step s = tidy (.next t) ∧ trapped u t l (headOf x) (rawExtent x)
      (if 24 ≤ ((s.core d).port p).count then 0x04 else match err with | .resField => 0x02 | .illOpnd => 0x03) x

/-! ### Ports and threads between runs (04, 05) -/

/-- R101, R103, R109, R110, R420: a boundary chooses the PC of a candidate: of one that has waited 64 boundaries or more, the
longest wait; otherwise the lowest among the candidates that have not yielded, or among all. The group takes every lane that
has a candidate at that PC once, in lane order; its counters clear, and those of every other ready thread of the port's role rise;
the first word is due at once, or two cycles later where the PC table does not hold the pair. A thread that has trapped in a run
that is still to halt the core is no candidate (R137, R147). -/
def Obligations.PortBoundaryResults : Prop := ∀ (s : State) (d : Nat) (p : PortId) (pc : W64),
  let l := s.cands d p
  s.atBoundary d p = true → choosePc l = some pc → ((s.core d).warps.map (·.1)).Nodup →
  ∃ t, exec (.portBoundary d p) s = .next t ∧
    (let q := (t.core d).port p
     q.active = true ∧ q.pc = pc ∧ q.count = 0 ∧
     q.due = s.clock + (if (s.core d).pct.contains (pc, portRole p) then 0 else 2) ∧
     (q.members.map (·.2)).Pairwise (· < ·) ∧
     (∀ m ∈ q.members, ∃ x ∈ l, (x.slot, x.lane) = m ∧ x.t.pc = pc) ∧
     (∀ x ∈ l, x.t.pc = pc → x.lane < 32 → ∃ m ∈ q.members, m.2 = x.lane) ∧
     ∀ sl w, s.warp? d sl = some w → ∀ ln u, w.threads[ln]? = some u →
       (t.thread? d sl ln).map (fun u => (u.waitCtr, u.yielded, u.pc, u.run)) =
         some (if w.role = portRole p ∧ (sl, ln) ∈ q.members then (0, false, u.pc, u.run)
           else if w.role = portRole p ∧ u.run = .ready then (min (u.waitCtr + 1) 65535, u.yielded, u.pc, u.run)
           else (u.waitCtr, u.yielded, u.pc, u.run))) ∧
    (∃ x ∈ l, x.t.pc = pc ∧
      ((∃ y ∈ l, 64 ≤ y.t.waitCtr) → 64 ≤ x.t.waitCtr ∧ ∀ y ∈ l, y.t.waitCtr ≤ x.t.waitCtr ∧
        (y.t.waitCtr = x.t.waitCtr → x.t.pc.toNat ≤ y.t.pc.toNat)) ∧
      ((∀ y ∈ l, y.t.waitCtr < 64) → (∃ y ∈ l, y.t.yielded = false) →
        x.t.yielded = false ∧ ∀ y ∈ l, y.t.yielded = false → x.t.pc.toNat ≤ y.t.pc.toNat) ∧
      ((∀ y ∈ l, y.t.waitCtr < 64) → (∀ y ∈ l, y.t.yielded = true) → ∀ y ∈ l, x.t.pc.toNat ≤ y.t.pc.toNat)) ∧
    t.clock = s.clock ∧ t.mem = s.mem ∧ t.launches = s.launches ∧ ∀ k, k ≠ d → t.core k = s.core k

/-- R136, R140, R143, R145, R147, R418: a sleeper whose cycle has come is ready; a warp toggles its bank at the end cycle of a
run that held a CTSWAP; a thread at a boundary takes the first of its deferred traps, with DEF set and the word at which it
would have gone on in sr.epc, which is the waiting word of one that waits, or whose wait this is the first boundary after; a core
that is to halt halts once nothing of it is under way, and triggers the snapshot. R117,
R118, R119, R314, R315, R412, R413: a warp whose part of a word met a missing page is suspended once each run that its threads
were in has come to its end, its bank toggles done (R418), into a frame of the context pool, with an outstanding record for the driver; once its fault is answered and its frame
names it, it goes on with what the frame holds, where it stopped, and the frame returns to the pool. -/
def Obligations.ThreadWarpStepResults : Prop :=
  (∀ (s : State) (d slot lane : Nat),
  let tvec := ((s.coreLaunch d).map Launch.tvec).getD 0
  (∀ t : Thread, s.thread? d slot lane = some t → t.run = .sleeping → t.wake ≤ s.clock →
    exec (.sleepExpire d slot lane) s = .next (s.modThread d slot lane fun t => { t with run := .ready })) ∧
  (∀ (w : Warp) (c : Nat) (r : List Nat), s.warp? d slot = some w → w.toggles = c :: r → c ≤ s.clock →
    exec (.bankToggle d slot) s =
      .next (s.modWarp d slot fun w => { w with ctbank := w.ctbank ^^^ 1#32, toggles := r })) ∧
  ((s.core d).halting = true → (s.core d).halted = false → (s.core d).quiet = true →
    ∃ t, exec (.coreHalt d) s = .next t ∧ (t.core d).halted = true ∧ (t.core d).halting = false ∧
      (t.core d).warps = (s.core d).warps ∧ (s.armed = true → 
        t.mgmt.snapPending = some (s.mgmt.snapPending.getD ((s.core d).haltSrc, 0, s.clock)))) ∧
  ∀ (w : Warp) (t : Thread) (x : DTrap) (r : List DTrap), s.warp? d slot = some w → s.thread? d slot lane = some t →
    s.trapReady d slot lane w t = true → t.dtraps = x :: r →
    ∃ u, exec (.deferredTrapDelivery d slot lane) s = .next u ∧ ∃ snapped, (s.progen = false → snapped = false) ∧
      (u.thread? d slot lane).map (fun t => (t.dtraps, t.epc, t.ecause, t.einfo, t.wait, t.run, t.pc)) =
        some (r, (match t.wait, t.freed with
            | some y, _ => y.va
            | none, some (true, va, _) => va
            | none, _ => t.pc), BitVec.ofNat 32 (x.cause + 256 + 1024 + if snapped then 512 else 0), x.info, none,
          if tvec = 0 then .exited else .ready, if tvec = 0 then t.pc else tvec) ∧
      u.clock = s.clock ∧ ∀ j i, (j, i) ≠ (slot, lane) → (u.thread? d j i).map (fun t => (t.run, t.pc, t.dtraps)) =
        (s.thread? d j i).map fun t => (t.run, t.pc, t.dtraps)) ∧
  (∀ (s : State) (d slot : Nat) (w : Warp) (l : Launch) (x : Susp),
  s.warp? d slot = some w → s.coreLaunch d = some l → w.susp = some x → s.alive d = true →
  (∀ (s0 : State) (frame : W64), x.posted = false →
    (∀ i t, w.threads[i]? = some t → t.run = .exited ∨ ((s.core d).inGroup slot i = false ∧ t.readyAt ≤ s.clock)) →
    (∀ p ∈ (s.core d).ports, p.2.active = true → slot ∉ p.2.faulted) → s.popFrame d = some (s0, frame) →
    ∃ t, exec (.warpSuspend d slot) s = .next t ∧
      (∃ y, (t.warp? d slot).bind (·.susp) = some y ∧ y.posted = true ∧ y.frame = frame ∧ y.seq = s0.q.faultSeq ∧ y.va = x.va ∧
        y.pc = x.pc) ∧
      (t.warp? d slot).map (fun w => w.threads.map fun t => (t.run, t.resume)) = some (w.threads.map fun t =>
        if t.run = .exited then (t.run, t.resume) else (.suspended, t.run)) ∧
      (∃ r ∈ t.q.faults, r.seq = s0.q.faultSeq ∧ r.outstanding = true ∧ r.core = d ∧ r.slot = slot) ∧
      t.q.faultSeq = s0.q.faultSeq + 1 ∧ (frame ≠ 0 → t.devRead frame.toNat 4 = leBytes 4 0x53464331 ∧
        (w.threads.length = 32 → t.devRead (frame.toNat + 0x1544) 4 = leBytes 4 (if (w.toggles.countP (· ≤ s.clock)) % 2 = 1 then w.ctbank ^^^ 1#32
          else w.ctbank).toNat) ∧
        ∀ i u, w.threads[i]? = some u → i < 32 → t.devRead (frame.toNat + 0x100 + 128 * i) 8 = leBytes 8 u.pc.toNat)) ∧
  let s0 := if x.frame = 0 then s else s.meet x.frame.toNat (0x6000 + 128 * l.nregs)
  (∀ s1 : State, s.answered x = true → (x.frame = 0 ∨ frameOk s0 l d slot x.frame.toNat = true) → s0.returnFrame x = some s1 →
    ∃ t, exec (.warpRestore d slot) s = .next t ∧ (t.warp? d slot).map (·.susp) = some none ∧
      (x.frame = 0 → ∀ i, (t.thread? d slot i).map (fun t => (t.run, t.pc, t.wake)) = (w.threads[i]?).map fun t =>
        if t.run = .suspended then (t.resume, t.pc, if t.resume = .sleeping then s.clock + t.wake else t.wake)
        else (t.run, t.pc, t.wake)) ∧
      (x.frame ≠ 0 → ∀ i u, w.threads[i]? = some u → u.run = .suspended → ∃ y, t.thread? d slot i = some y ∧
        let held := fun a n => leNat (s0.devRead (x.frame.toNat + 0x100 + 128 * i + a) n)
        y.pc.toNat = held 0 8 ∧ y.mode.toNat = held 8 4 ∧ y.status.toNat = held 12 4 ∧ y.epc.toNat = held 16 8 ∧
        y.ecause.toNat = held 24 4 ∧ y.einfo.toNat = held 32 8 ∧ y.p.toNat = held 40 1 ∧
        y.run = (if held 41 1 = 1 ∧ held 43 1 = 0 then .waiting else if held 41 1 = 2 then .sleeping
          else if held 41 1 = 5 then .exited else .ready) ∧
        y.wait = (if held 41 1 = 1 ∧ held 43 1 = 0 then u.wait.map fun z =>
          { z with core := scrCore d (BitVec.ofNat 32 (held 52 4)), off := scrOff (BitVec.ofNat 32 (held 52 4))
                   phase := BitVec.ofNat 16 (held 46 2) } else none) ∧
        ∀ k, k < l.nregs → (findD y.v k 0).toNat = leNat (s0.devRead (x.frame.toNat + 0x6000 + 4 * l.nregs * i + 4 * k) 4)) ∧
      (x.frame ≠ 0 → t.ctx.count = s.ctx.count + 1)) ∧
  (s.answered x = true → x.frame ≠ 0 → frameOk s0 l d slot x.frame.toNat = false → ∃ t, exec (.warpRestore d slot) s = .next t ∧
    (t.coreLaunch d).map (·.phase) = some (.ending 0x0B 0)))

/-! ### The plates and the press (09, 10, 11) -/

/-- R215, R235, R257: the plates add to each residue of the rows of an operation the products of the row with the columns of B,
modulo the channel's modulus, and change no other residue. R221, R236 to R244, R271, R281, R366: the head of the issue order
executes on the plates once it holds its tokens and no earlier operation owns a row of its destination. MMA, MMAR and MLDR read
their source by 16-byte pieces, each in one event, and act once they have read all; MSTR writes the pieces of its tile one by one.
An MMA adds to each residue of the masked rows what its format of B gives, after which the injector may change one; an MMAR that
fails R50 leaves the accumulator; MZERO clears a tile, MACC adds two, MSCL multiplies one, MLDR takes the tile of an RP9 image; MSTR
writes header and planes, and counts them. The order of the pieces is open (log 65). -/
def Obligations.PlateResults : Prop :=
  (∀ (rows : List (Nat × List Int)) (cols : Nat → List (List Int)) (a : Acc),
  (rows.map (·.1)).Nodup → (∀ r ∈ rows, r.1 < 64) → (∀ j, (cols j).length ≤ 64) →
  let t := addProducts rows cols a
  (∀ r ∈ rows, ∀ j n, j < 9 → ∀ h : n < (cols j).length,
    (t.at j r.1 n : Int) = ((a.at j r.1 n : Int) + dot r.2 (cols j)[n]) % Config.modulus j) ∧
  (∀ j i n, i < 64 → n < 64 → (9 ≤ j ∨ i ∉ rows.map (·.1) ∨ (cols j).length ≤ n) → t.at j i n = a.at j i n) ∧
  t.bound = a.bound ∧ t.anchor = a.anchor ∧ t.nan = a.nan) ∧
  (∀ (a : Acc) (rows cols bound : Nat) (anchor : Int), rows ≤ 64 → cols ≤ 64 → bound < 2 ^ 64 → -32768 ≤ anchor → anchor ≤ 32767 →
    let bs := mstrTile a rows cols bound anchor
    let h := BitVec.ofNat 128 (leNat (bs.take 16))
    bs.length = 16 + 11 * (rows * cols) ∧ rp9Bound h = bound ∧ rp9Anchor h = anchor ∧ rp9Rows h = rows ∧ rp9Cols h = cols ∧
    rp9Nant h = a.nan ∧ natBits h.toNat 127 97 = 0 ∧
    ∀ j i n, j < 9 → i < rows → n < cols → a.at j i n < Config.modulus j →
      rp9Res bs (rows * cols) j (i * cols + n) = a.at j i n) ∧
  (∀ (at' : Nat) (bs : List (BitVec 8)), bs ≠ [] → (granules at' bs).flatMap (·.2) = bs ∧
    ∀ p ∈ granules at' bs, p.2 ≠ [] ∧ at' ≤ p.1 ∧ p.2 = (bs.drop (p.1 - at')).take p.2.length ∧
      (p.1 + p.2.length - 1) / 16 = p.1 / 16) ∧
  (∀ (s : State) (d id acc : Nat),
    let v := (s.tower (towerOf d)).injector
    let hit := v.getLsbD 63 = true ∧ natBits v.toNat 61 55 = tcidOf d ∧ (s.tower (towerOf d)).injFrom ≤ id
    let t := inject d id acc s
    (¬ hit → t = s) ∧
    (hit → (∀ k, k ≠ acc → (t.core d).ac k = (s.core d).ac k) ∧ ((t.core d).ac acc).bound = ((s.core d).ac acc).bound ∧
      ((t.core d).ac acc).anchor = ((s.core d).ac acc).anchor ∧ ((t.core d).ac acc).nan = ((s.core d).ac acc).nan ∧
      (∀ j i n, j < 9 → i < 64 → n < 64 → ((t.core d).ac acc).at j i n =
        if j = natBits v.toNat 54 51 ∧ i = natBits v.toNat 47 42 ∧ n = natBits v.toNat 41 36 then
          (((s.core d).ac acc).at j i n ^^^ natBits v.toNat (if j < 7 then 7 else 8) 0) % Config.modulus j
        else ((s.core d).ac acc).at j i n) ∧
      let v' := (t.tower (towerOf d)).injector
      v'.getLsbD 63 = false ∧ v'.getLsbD 62 = true ∧ ∀ b, b < 62 → v'.getLsbD b = v.getLsbD b)) ∧
  (∀ (s : State) (d : Nat) (o : MatOp) (r : List MatOp),
  (s.core d).issueOrder = o :: r → o.granted = true → o.kind.onPress = false → o.entered.1 < s.clock →
  (o.ownS.any fun q => s.ownedS q.1 q.2.1 q.2.2 o.id) = false →
  let c := s.core d
  let acts := fun (t : State) => exec (.plateExecute d) s = .next (t.popMat d)
  let takes := fun (a : Nat) (x : Acc) => s.modCore d fun c => c.setAc a x
  let reads := fun (addr len : Nat) (bad : State) => o.io.unread addr len ≠ [] → ∃ p ∈ o.io.unread addr len,
    let n := min 16 (addr + len - p)
    if c.scrBad p n then acts bad
    else exec (.plateExecute d) s = .next ({ s with free := s.free + 1 }.modCore d fun c =>
      { c with issueOrder := { o with io := { o.io with got := o.io.got ++ [(p, c.scrRead p n)] } } :: r })
  match o.kind with
  | .mma kind acc x mask buf b rec ct sat who lt =>
    let rows := (c.lb buf).rows.filter fun q => mask.getLsbD q.1
    let len := match kind with
      | 1 => 16 + 11 * (dsK x * dsN x) | 2 => 0 | _ => dsN x * packedBytes (dsFb x) (dsK x)
    let bs := o.io.bytes b len
    let s0 := raiseAll d who (if lt then rows.foldl (fun f q => f ||| q.2.flags) 0 else 0) s
    reads b len (s0.engineUnc d o.slot o.lane o.id 5 1 (BitVec.ofNat 64 b) 0) ∧
    (o.io.unread b len = [] → kind = 1 → rp9PlanesOk bs (dsK x * dsN x) = false →
      acts (s0.defer d o.slot o.lane o.id Cause.record (BitVec.ofNat 64 b))) ∧
    (o.io.unread b len = [] → (kind = 1 → rp9PlanesOk bs (dsK x * dsN x) = true) →
      let dense := fun n => (packedValues (dsFb x) (dsK x) ct ((bs.drop (n * packedBytes (dsFb x) (dsK x))).take
        (packedBytes (dsFb x) (dsK x)))).map (expandOf (dsFb x) (dsAnchB x) sat)
      let seed := BitVec.ofNat 512 (leNat rec)
      let column : Nat → Nat → List Int := fun j n => match kind with
        | 1 => (List.range (dsK x)).map fun k => (rp9Res bs (dsK x * dsN x) j (k * dsN x + n) : Int)
        | 2 => (List.range (dsK x)).map fun k => srTile seed (srBases seed) k n
        | _ => (dense n).map (·.e)
      let nan := match kind with
        | 1 => rp9Nant (BitVec.ofNat 128 (leNat rec)) | 2 => false
        | _ => (List.range (dsN x)).any fun n => (dense n).any (·.nan)
      let flags : W32 := match kind with
        | 1 => if rp9Nant (BitVec.ofNat 128 (leNat rec)) then flINV else 0
        | 2 => 0
        | _ => ((List.range (dsN x)).flatMap dense).foldl (fun f q => f ||| q.flags) 0
      ∃ A : Acc, acts (inject d o.id acc (raiseAll d who flags (s0.modCore d fun c => c.setAc acc A))) ∧
        A.bound = (c.ac acc).bound ∧ A.anchor = (c.ac acc).anchor ∧
        A.nan = ((c.ac acc).nan || (rows.any fun q => (q.2.elems.take (dsK x)).any (·.2)) || nan) ∧
        ((rows.map (·.1)).Nodup → (∀ q ∈ rows, q.1 < 64) → ∀ j i n, j < 9 → i < 64 → n < 64 → (A.at j i n : Int) =
          match rows.find? (·.1 == i) with
          | some q => if n < dsN x then
              (((c.ac acc).at j i n : Int) + dot ((q.2.elems.take (dsK x)).map (·.1)) (column j n)) % Config.modulus j
            else (c.ac acc).at j i n
          | none => (c.ac acc).at j i n))
  | .mzero a => ∃ A : Acc, acts (takes a A) ∧ A.bound = (c.ac a).bound ∧ A.anchor = (c.ac a).anchor ∧ A.nan = false ∧
      ∀ j i n, A.at j i n = 0
  | .macc a x y => ∃ A : Acc, acts (takes a A) ∧ A.bound = (c.ac a).bound ∧ A.anchor = (c.ac a).anchor ∧
      A.nan = ((c.ac x).nan || (c.ac y).nan) ∧
      ∀ j i n, j < 9 → i < 64 → n < 64 → A.at j i n = ((c.ac x).at j i n + (c.ac y).at j i n) % Config.modulus j
  | .mscl a x k => ∃ A : Acc, acts (takes a A) ∧ A.bound = (c.ac a).bound ∧ A.anchor = (c.ac a).anchor ∧
      A.nan = (c.ac x).nan ∧
      ∀ j i n, j < 9 → i < 64 → n < 64 → (A.at j i n : Int) = ((c.ac x).at j i n : Int) * k % Config.modulus j
  | .mldr a addr bar h =>
    let len := 16 + 11 * (rp9Rows h * rp9Cols h)
    let bs := o.io.bytes addr len
    let arrives := fun (t : State) => acts (engineCount t d o.slot o.lane o.id (BitVec.ofNat 32 bar) true 0)
    let none' : State := takes a { c.ac a with res := [], nan := true }
    reads addr len (engineCount (none'.engineUnc d o.slot o.lane o.id 5 1 (BitVec.ofNat 64 addr) 0) d o.slot o.lane o.id
      (BitVec.ofNat 32 bar) true 0) ∧
    (o.io.unread addr len = [] → rp9PlanesOk bs (rp9Rows h * rp9Cols h) = false →
      arrives (none'.defer d o.slot o.lane o.id Cause.record (BitVec.ofNat 64 addr))) ∧
    (o.io.unread addr len = [] → rp9PlanesOk bs (rp9Rows h * rp9Cols h) = true →
      ∃ A : Acc, arrives (takes a A) ∧ A.bound = (c.ac a).bound ∧ A.anchor = (c.ac a).anchor ∧ A.nan = rp9Nant h ∧
        (rp9HeaderOk h = true → ∀ j i n, j < 9 → i < 64 → n < 64 → A.at j i n =
          if i < rp9Rows h ∧ n < rp9Cols h then rp9Res bs (rp9Rows h * rp9Cols h) j (i * rp9Cols h + n) else 0))
  | .mstr a addr bar rows cols bound anchor =>
    let left := o.io.todo.getD (granules addr (mstrTile (c.ac a) rows cols bound anchor))
    left ≠ [] → ∃ p ∈ left,
      let t := headWrites d o r left p s
      (1 < left.length → exec (.plateExecute d) s = .next t) ∧
      (left.length = 1 → acts (engineCount (t.deferClobber d o.slot o.lane o.id (piecesLeft d o.io left p s).clobber) d o.slot o.lane
        o.id (BitVec.ofNat 32 bar) false (-(16 + 11 * (rows * cols) : Nat) : Int)))
  | _ => True)

/-- R246, R250, R257 to R264, R267, R285 to R290, R353, R362: the press takes the earliest operation that waits for it and its
decode set. An MDRAIN writes its rows piece by piece, each element with the value that its residues denote, MDRAINA fills the buffer
of its register with the expanded elements, MCHK gives its map, and a COPY its decoded tile; as it finishes, the containment register
and the counters take its events, its flags are raised, UNCORR is deferred and the barrier counted, and the press is free; the cores of
a tower finish in ascending order in one cycle. The oldest seed operation of a core reads what it needs as it begins, performs its
writes one by one, and with the last leaves flight; a MAXSC gives its warps the largest scale and whether a NaN block is among its
blocks. The order of the pieces is open (log 65), and SEEDFIT waits for earlier owners of R alone (log 67, the model's choice). -/
def Obligations.PressSeedResults : Prop := ∀ (s : State) (d : Nat),
  let lands := fun (t : State) (sl x : Nat) (q : BitVec 256 → Prop) =>
    ∃ w, t.warp? d sl = some w ∧ ∃ p ∈ w.pend, p.reg = x ∧ p.ready = s.clock ∧ q p.val
  (∀ id, (s.core d).press = none → (s.core d).pressNext s.clock = some id →
    exec (.pressOperation d) s =
      .next (s.modCore d fun c => { c with press := some (id, decodeSet (s.tower (towerOf d)).contain) })) ∧
  (∀ (slot lane acc : Nat) (evs : List (Option Nat)), evs ≠ [] → d < 512 → acc < 8 → (∀ j, some j ∈ evs → j < 9) →
    (∀ j, findD (s.tower (towerOf d)).corr j 0 ≤ 65535) →
    let t := s.containAll d slot lane acc evs
    let r := (s.tower (towerOf d)).contain.toNat
    let r' := (t.tower (towerOf d)).contain.toNat
    natBits r' 63 48 = min (natBits r 63 48 + evs.countP (·.isSome)) 65535 ∧
    natBits r' 79 64 = min (natBits r 79 64 + evs.countP (·.isNone)) 65535 ∧
    natBits r' 47 43 = coreX d ∧ natBits r' 42 39 = coreY d ∧ natBits r' 38 36 = acc ∧
    natBits r' 35 34 = (if evs.getLast? = some none then 2 else 1) ∧
    natBits r' 15 12 = ((evs.filterMap id).getLast?).getD (natBits r 15 12) ∧
    natBits r' 6 6 = (if none ∈ evs then 1 else natBits r 6 6) ∧
    natBits r' 127 80 = natBits r 127 80 ∧ natBits r' 33 16 = natBits r 33 16 ∧ natBits r' 11 7 = natBits r 11 7 ∧
    natBits r' 5 0 = natBits r 5 0 ∧
    (∀ j, findD (t.tower (towerOf d)).corr j 0 = min (findD (s.tower (towerOf d)).corr j 0 + evs.count (some j)) 65535) ∧
    (∃ x, (t.tower (towerOf d)).events = (s.tower (towerOf d)).events ++ [x] ∧ natBits x.toNat 7 0 = 4 ∧
      natBits x.toNat 15 8 = (if none ∈ evs then 2 else 1))) ∧
  (∀ (o : MatOp) (r : List MatOp) (set : List Nat), s.eventRoom (towerOf d) = true → (s.core d).press = some (o.id, set) →
    (∀ c k, (s.tower (towerOf d)).pressAt = some (c, k) → c = s.clock → k ≤ tcidOf d) → (s.core d).issueOrder = o :: r →
    (o.ownS.any fun q => s.ownedS q.1 q.2.1 q.2.2 o.id) = false →
    let frees := fun (t : State) => exec (.pressComplete d) s = .next ((t.modCore d fun c => { c with press := none }).popMat d)
    let turn := fun (t : State) => t.modTower (towerOf d) fun w => { w with pressAt := some (t.clock, tcidOf d) }
    let events := fun (acc : Nat) (ds : List Decoded) (t : State) => t.containAll d o.slot o.lane acc (ds.filterMap fun x =>
      match x with | .ok _ => none | .corrected j _ => some (some j) | .uncorrectable => some none)
    let uncorr := fun (acc : Nat) (ds : List Decoded) (t : State) =>
      match (ds.zipIdx.find? fun x => x.1 == .uncorrectable).map (·.2) with
      | some ix => t.defer d o.slot o.lane o.id Cause.uncorr (BitVec.ofNat 64 (acc ||| ((ix / 64) <<< 8) ||| ((ix % 64) <<< 16)))
      | none => t
    let counts := fun (bar : Nat) (arrive : Bool) (n : Int) (t : State) =>
      engineCount t d o.slot o.lane o.id (BitVec.ofNat 32 bar) arrive n
    let exact := fun (nan : Bool) (anchor : Int) (x : Decoded) =>
      if nan then FV.nan else match x with | .ok v => FV.ofInt v anchor | .corrected _ v => FV.ofInt v anchor | .uncorrectable => .nan
    match o.kind with
    | .mdrain acc dst bar df mode sat anchor =>
      let ds := decodeAcc set ((s.core d).ac acc)
      let vs := ds.map (exact ((s.core d).ac acc).nan anchor)
      let out := mdrainOut set ((s.core d).ac acc) df mode sat anchor
      let z := [4, 2, 0, 0, 4, 1].getD df 4
      (df < 6 → out.1.length = 64 * [256, 128, 68, 36, 256, 64].getD df 0) ∧
      (df ≠ 2 → df ≠ 3 → df < 6 → (∀ ix, ix < 4096 → (out.1.drop (z * ix)).take z =
          leBytes z (fmtConvert ([0, 1, 0, 0, 8, 4].getD df 0) mode sat (vs.getD ix .nan)).1) ∧
        out.2 = vs.foldl (fun f v => f ||| (fmtConvert ([0, 1, 0, 0, 8, 4].getD df 0) mode sat v).2) 0) ∧
      (df = 2 ∨ df = 3 →
        let block := fun b => if df = 2 then encE4m3b mode sat ((vs.drop (32 * b)).take 32)
          else encE2m1b mode sat ((vs.drop (32 * b)).take 32)
        out = ((List.range 128).flatMap fun b => (block b).1, (List.range 128).foldl (fun f b => f ||| (block b).2) 0)) ∧
      let left := o.io.todo.getD (granules dst out.1)
      (left ≠ [] → ∃ p ∈ left,
        let t := headWrites d o r left p s
        (1 < left.length → exec (.pressComplete d) s = .next t) ∧
        (left.length = 1 → frees (counts bar false (-(64 * [256, 128, 68, 36, 256, 64].getD df 256 : Nat) : Int)
          ((uncorr acc ds ((events acc ds (turn t)).raiseLate d o.slot o.lane out.2)).deferClobber d o.slot o.lane o.id
            (piecesLeft d o.io left p s).clobber))))
    | .mdraina acc buf bar anchor anchA =>
      let ds := decodeAcc set ((s.core d).ac acc)
      let es := fun (i : Nat) => ((ds.drop (64 * i)).take 64).map fun x =>
        expandValue anchA false (exact ((s.core d).ac acc).nan anchor x)
      let flags := (List.range 64).foldl (fun f i => f ||| (es i).foldl (fun f p => f ||| p.flags) 0) (0 : W32)
      frees (counts bar true 0 (uncorr acc ds (((events acc ds (turn s)).modCore d fun c =>
        { c with latch := put c.latch buf { c.lb buf with rows := (List.range 64).map fun i =>
          (i, { flags := (es i).foldl (fun f p => f ||| p.flags) 0, elems := (es i).map fun p => (p.e, p.nan) }) } }).raiseLate d
        o.slot o.lane flags)))
    | .mchk acc wreg bar slots =>
      let ds := decodeAcc set ((s.core d).ac acc)
      frees (counts bar true 0 (slots.foldl (fun t sl => t.putWarpReg d sl wreg
        ((mchkWord (set.length == 8) ((s.core d).ac acc).nan ds).zeroExtend 256)) (events acc ds (turn s)))) ∧
      ∀ sl ∈ slots, ∀ w, s.warp? d sl = some w → ∃ t, exec (.pressComplete d) s = .next t ∧ lands t sl wreg fun v =>
        v.setWidth 64 = mchkWord (set.length == 8) ((s.core d).ac acc).nan ds
    | _ => True) ∧
  (∀ (o : Op) (cmd : CopyCmd) (r x : Nat) (set : List Nat), s.eventRoom (towerOf d) = true → (s.core d).press = some (o.id, set) →
    (∀ c k, (s.tower (towerOf d)).pressAt = some (c, k) → c = s.clock → k ≤ tcidOf d) →
    (∀ m ∈ (s.core d).issueOrder.head?, m.id ≠ o.id) → (s.core d).op? o.id = some o → o.body = .copy cmd r x →
    exec (.pressComplete d) s = .next ((finishPressCopy d o cmd set (s.modTower (towerOf d) fun w =>
      { w with pressAt := some (s.clock, tcidOf d) })).modCore d fun c => { c with press := none })) ∧
  (∀ (o : Op) (l : Launch) (kind addr dst j bar : Nat) (begun : Option (W32 × Option (Nat × W64))) (io : Pieces),
    (s.core d).seedHead = some o → s.coreLaunch d = some l → o.body = .seed kind addr dst j bar begun io →
    let ends := fun (flags : W32) (trap : Option (Nat × W64)) (clobber : Option W64) (t : State) =>
      let t1 := t.raiseLate d o.slot o.lane flags
      let t2 := match trap with
        | none => t1
        | some q => if q.1 = Cause.uncmem then t1.engineUnc d o.slot o.lane o.id 5 1 q.2 0 else t1.defer d o.slot o.lane o.id q.1 q.2
      engineCount ((t2.deferClobber d o.slot o.lane o.id clobber).modCore d (·.delOp o.id)) d o.slot o.lane o.id
        (BitVec.ofNat 32 bar) (decide (kind ≠ 2)) (if kind = 2 then -4096 else 0)
    let goes := fun (flags : W32) (trap : Option (Nat × W64)) (left : List (Nat × List (BitVec 8))) =>
      (left = [] → exec (.seedExecute d) s = .next (ends flags trap io.clobber s)) ∧
      (left ≠ [] → ∃ p ∈ left, exec (.seedExecute d) s = .next (
        if left.length = 1 then ends flags trap (piecesLeft d io left p s).clobber (putPiece d p s)
        else (putPiece d p s).modCore d fun c => c.modOp o.id fun o =>
          { o with body := .seed kind addr dst j bar (some (flags, trap)) (piecesLeft d io left p s), ownS := spansLeft d left p }))
    (∀ b, begun = some b → goes b.1 b.2 (io.todo.getD [])) ∧
    (begun = none → (o.ownS.any fun q => s.ownedS q.1 q.2.1 q.2.2 o.id) = false →
      (let q := BitVec.ofNat 512 (leNat ((s.core d).scrRead addr 64))
       kind = 1 → sbValid l q = true →
         s.ownedS d (scrOff (sbRaddr q)) (scrOff (sbRaddr q) + 2 * sbH q * sbW q) o.id = false) →
      ∃ w, seedDoes l (s.core d) kind addr dst j w ∧ goes w.flags w.trap w.writes)) ∧
  ∀ (o : Op) (addr n wreg bar : Nat) (bf : Bool) (slots : List Nat), (s.core d).op? o.id = some o →
    o.body = .maxsc addr n bf wreg bar slots →
    ∃ t, exec (.maxscComplete d o.id) s = .next t ∧ t.clock = s.clock ∧ (t.core d).op? o.id = none ∧
      ((s.core d).scrBad addr (n * if bf then 34 else 18) = false → ∀ sl ∈ slots, ∀ w, s.warp? d sl = some w →
        lands t sl wreg fun v => v.toNat =
          let z := if bf then 34 else 18
          let scales := (List.range n).map fun i => blockScale bf ((s.core d).scrRead (addr + z * i) z)
          (scales.filter (· ≠ 0x3FF)).foldl max 0 + if 0x3FF ∈ scales then 1024 else 0)

/-! ### What is in flight (13, 15, 16, 18) -/

/-- R325, R333, R336, R337, R338, R344, R346 to R348, R366, R371: the lanes of operations after their word has issued. A lane of LDB
puts the bytes of its place into its slot and counts them, an out-of-bounds one zeros; the first lane of a whole-line event reads them
all. A lane of a store or an atomic counts once its peer has taken its write and its slot is free; held lanes act in ascending order,
over the engines of their word too, once earlier transfers have performed their writes, their line has no earlier owner, and no command
to a peer goes before a write to one; a compare that fails waits for no release; an STB that covers a line acts whole. What traps is
the lane's thread, and a lane that fails counts nothing. The lane leaves the operation, which ends with its last lane. -/
def Obligations.LaneStepResults : Prop := ∀ (s : State) (d lane : Nat) (o : Op), (s.core d).op? o.id = some o →
  let free := fun (off n : Nat) => s.ownedS d off (off + n) o.id = false
  (∀ z bar lanes, o.body = .strm z bar lanes → lane ∈ lanes →
    exec (.strmLaneWrite d o.id lane) s = .next ((remoteCount d o bar lane z s).laneDone d o (.strm z bar (lanes.filter (· != lane)))
      (lanes.filter (· != lane)).isEmpty)) ∧
  (∀ slot bar lanes old, o.body = .atrm slot bar lanes → lanes.find? (·.1 == lane) = some (lane, old) → free (slot + 4 * lane) 4 →
    exec (.atrmLaneApply d o.id lane) s = .next ((remoteCount d o bar lane 4 (s.slotWrite d o.id (slot + 4 * lane)
      (leBytes 4 old.toNat))).laneDone d o (.atrm slot bar (lanes.filter (·.1 != lane))) (lanes.filter (·.1 != lane)).isEmpty)) ∧
  (∀ opc u slot bar lanes done, o.body = .atrmHeld opc u slot bar lanes done → opc < 8 →
    let rest := lanes.filter (·.1 != lane)
    (∀ a, lanes.find? (·.1 == lane) = some a → (s.core d).hasDeferred o.threads o.word = false →
      (s.core d).hasHeld o.threads o.word = false → (s.core d).heldBelow o lane = false → (∀ x ∈ lanes, lane ≤ x.1) →
      let addr := BitVec.ofNat 32 a.2.1
      let core := scrCore d addr
      let off := scrOff addr
      s.ownedS core off (off + 4) o.id = false →
      let fails := fun (t : State) (c : Nat) (i : W64) => exec (.atrmLaneApply d o.id lane) s =
        .next ((t.defer d o.slot a.1 o.id c i).laneDone d o (.atrmHeld opc u slot bar rest done) (rest.isEmpty && done.isEmpty))
      ((s.core core).scrBad off 4 = true →
        fails (s.postFault 0x50 4 0 d o.slot (((s.core d).launch).getD 0) o.va (addr.zeroExtend 64) 0 0 none false).1 Cause.uncmem
          (addr.zeroExtend 64)) ∧
      ((s.core core).scrBad off 4 = false → ∀ t, storeTrap s addr core off 4 = some t → fails s t.1 t.2) ∧
      ((s.core core).scrBad off 4 = false → storeTrap s addr core off 4 = none →
        let old := BitVec.ofNat 32 (leNat ((s.core core).scrRead off 4))
        let r := atomic opc u old a.2.2
        let s1 := (s.plainStore core off (leBytes 4 r.1.toNat)).raiseLate d o.slot a.1 r.2
        exec (.atrmLaneApply d o.id lane) s = .next ((if o.acq then s1.acquire d o.slot a.1 else s1).laneDone d o
          (.atrmHeld opc u slot bar rest (done ++ [(lane, old)])) false))) ∧
    (∀ old, lanes.find? (·.1 == lane) = none → done.find? (·.1 == lane) = some (lane, old) → free (slot + 4 * lane) 4 →
      let left := done.filter (·.1 != lane)
      exec (.atrmLaneApply d o.id lane) s = .next ((remoteCount d o bar lane 4 (s.slotWrite d o.id (slot + 4 * lane)
        (leBytes 4 old.toNat))).laneDone d o (.atrmHeld opc u slot bar lanes left) (lanes.isEmpty && left.isEmpty)))) ∧
  (∀ core src dst bar granules g, o.body = .ldrm core src dst bar granules → g ∈ granules → s.mayBegin d o = true →
    (∀ x ∈ granules, (src + 16 * g) / 128 ≤ (src + 16 * x) / 128) →
    s.ownedS d (dst + 16 * g) (dst + 16 * g + 16) o.id = false → (s.core core).scrBad (src + 16 * g) 16 = false →
    exec (.ldrmGranule d o.id g) s = .next ((laneCount d o bar 16 (s.slotWrite d o.id (dst + 16 * g)
      ((s.core core).scrRead (src + 16 * g) 16))).laneDone d o (.ldrm core src dst bar (granules.filter (· != g)))
      (granules.filter (· != g)).isEmpty)) ∧
  (∀ z slot bar whole read lanes a, o.body = .bufLoad z slot bar whole read lanes → lanes.find? (·.lane == lane) = some a →
    s.mayBegin d o = true → s.ownedS d (slot + z * lane) (slot + z * lane + z) o.id = false →
    let lands := fun (t : State) (l : List (Nat × BitVec 64)) (v : Nat) => exec (.ldbLaneLand d o.id lane) s = .next
      ((laneCount d o bar z (t.slotWrite d o.id (slot + z * lane) (leBytes z v))).laneDone d o
        (.bufLoad z slot bar whole l (lanes.filter fun x => x.lane != lane)) (lanes.filter fun x => x.lane != lane).isEmpty)
    (∀ v, read.find? (·.1 == lane) = some (lane, v) → lands s read v.toNat) ∧
    (read.find? (·.1 == lane) = none → whole = false → a.va = none → lands s read 0) ∧
    (∀ va p t bs, read.find? (·.1 == lane) = none → whole = false → a.va = some va → a.loc = some p →
      readLocs (s.who d o) (locParts p z) s = .ok t bs → lands t read (leNat bs)) ∧
    ∀ t l v, read.find? (·.1 == lane) = none → whole = true → readAll d o z lanes s = .ok t l →
      l.find? (·.1 == lane) = some (lane, v) → lands t l v.toNat) ∧
  (∀ z slot bar lanes old, o.body = .bufCount z slot bar lanes → lanes.find? (·.1 == lane) = some (lane, old) →
    s.laneUnperformed d o.id lane = false → (∀ sl, slot = some sl → free (sl + z * lane) z) →
    exec (.bufferLanePerform d o.id lane) s = .next ((countLane d o z slot bar lane old s).laneDone d o
      (.bufCount z slot bar (lanes.filter (·.1 != lane))) (lanes.filter (·.1 != lane)).isEmpty)) ∧
  ∀ kind opc fmt z slot bar lanes done, o.body = .bufHeld kind opc fmt z slot bar lanes done → (kind = 1 → opc < 8) →
    let k : BufKind := if kind = 0 then .store else if kind = 1 then .atomic else .cas
    let hit := fun (p : Loc) (a : LaneAcc) (t : State) =>
      leNat (if p.ty = 2 then t.hostRead p.pa z else t.devRead p.pa z) = a.cmp.toNat
    let act := fun (a : LaneAcc) (t : State) => match a.va, a.loc with
      | some va, some p =>
        let r := performsHeld k opc fmt z { t.who d o with lane := a.lane } va p a t
        let acquires := if kind = 2 then opc.testBit (if hit p a t then 0 else 1) else o.acq
        (match r.old with
         | .ok old =>
           let t1 := r.s.raiseLate d o.slot a.lane r.flags
           (if acquires then t1.acquire d o.slot a.lane else t1, [(a.lane, old)])
         | .error (c, _) =>
           let t1 := if c = Cause.uncmem then (r.s.postFault 0x50 (if kind = 0 then 2 else 4) 0 d o.slot
             (((r.s.core d).launch).getD 0) o.va va 0 0 none false).1 else r.s
           (t1.defer d o.slot a.lane o.id c va, []))
      | _, _ => (t, [(a.lane, (0 : W64))])
    kind ≤ 2 →
    (∀ a, lanes.find? (·.lane == lane) = some a → (∀ x ∈ lanes, lane ≤ x.lane) → (s.core d).hasHeld o.threads o.word = false →
      (s.core d).heldBelow o lane = false →
      (∀ va p, a.va = some va → a.loc = some p →
        (o.rel = true → (s.core d).hasDeferred o.threads o.word = false ∨ (kind = 2 ∧ ¬ hit p a s)) ∧
        (p.own = true → s.ownedV (s.who d o).root va.toNat (va.toNat + z) o.id = false) ∧
        (p.ty = 3 → (s.core d).hasUnsent o.threads o.id = false ∧ s.ownWritesLeft d o.slot a.lane p z = false)) →
      let now := if kind = 0 ∧ wholeLine z lanes = true then lanes else [a]
      let r := now.foldl (fun (t : State × List (Nat × W64)) x => ((act x t.1).1, t.2 ++ (act x t.1).2)) (s, done)
      let rest := lanes.filter fun x => !(now.any (·.lane == x.lane))
      exec (.bufferLanePerform d o.id lane) s = .next (r.1.laneDone d o (.bufHeld kind opc fmt z slot bar rest r.2)
        (rest.isEmpty && r.2.isEmpty))) ∧
    ∀ old, lanes.find? (·.lane == lane) = none → done.find? (·.1 == lane) = some (lane, old) →
      s.laneUnperformed d o.id lane = false → (∀ sl, slot = some sl → free (sl + z * lane) z) →
      let left := done.filter (·.1 != lane)
      exec (.bufferLanePerform d o.id lane) s = .next ((countLane d o z slot bar lane old s).laneDone d o
        (.bufHeld kind opc fmt z slot bar lanes left) (lanes.isEmpty && left.isEmpty))

/-- R331, R344, R347, R349, R371, R396, R397: an ATQ lane whose place is on a reachable peer leaves as a command, with the fields of
R396, while the queue there has a credit; lanes of one address and the ATQs of one thread to one peer leave in order. The target
applies the oldest command of a queue once it stands first on its port, as one event, and replies with the old value, or with the
cause of what it refuses. The reply frees the tag: with status 0 the old value fills the lane's slot, the flags of FADD are
raised, and the lane counts; with another status the lane takes 0, and the warp thread a deferred trap with that cause. -/
def Obligations.AtomicQueueSteps : Prop :=
  (∀ (s : State),
  (∀ (d lane : Nat) (o : Op) opc fmt ord slot bar tosend sent parks a va t p, (s.core d).op? o.id = some o →
    o.body = .atq opc fmt ord slot bar tosend sent parks → tosend.find? (·.lane == lane) = some a → a.va = some va →
    (s.core d).acqBlocks o.threads o.id = false → (s.core d).hasHeld o.threads o.id = false →
    (o.rel = true → (s.core d).hasDeferred o.threads o.id = false) →
    s.ownedS d (slot + 4 * lane) (slot + 4 * lane + 4) o.id = false → (∀ k ∈ parks, k.1 ≠ va.toNat / 65536) →
    ((a.loc = some p ∧ t = s) ∨ ∃ pg, a.loc = none ∧ pg.loc = p ∧
      translateOn s d (s.who d o).root (s.who d o).priv va .atomic = (t, .ok pg)) →
    p.ty = 3 → p.pport = false → t.peerOk p.peer false = true → t.atqCredit d p.peer = true → t.peerReady p = true →
    (∀ x ∈ tosend, x.lane < lane → x.va ≠ some va) →
    (∀ x ∈ (t.core d).ops, x.id < o.id → (∃ th ∈ x.threads, th ∈ o.threads) → ∀ c f r sl b l m k, x.body = .atq c f r sl b l m k →
      ∀ y ∈ l, (∀ q, y.loc = some q → q.peer ≠ p.peer) ∧ (y.loc = none → y.va = none)) →
    ∃ u cmd, exec (.atqSend d o.id lane) s = .next u ∧ u.fab.nextTag = (t.fab.nextTag + 1) % 2 ^ 32 ∧
      u.fab.tags = t.fab.tags ++ [(t.fab.nextTag, d, o.id, p.peer)] ∧ u.mem = t.mem ∧
      (∀ f ∈ [(255, 224, t.fab.nextTag), (223, 192, bar), (191, 160, slot + 4 * lane), (159, 128, a.data.toNat), (127, 64, p.pa),
              (63, 46, 0), (45, 41, a.lane), (40, 32, d), (31, 22, 0), (21, 16, (s.domain 0).self), (15, 12, 0), (11, 10, fmt),
              (9, 8, ord), (7, 0, opc)],
        natBits (cmd : BitVec 256).toNat f.1 f.2.1 = f.2.2 % 2 ^ (f.1 + 1 - f.2.1)) ∧
      (∀ k, t.route p.peer false = some k →
        (u.link k).replay ++ (u.link k).held = (t.link k).replay ++ (t.link k).held ++ [.atqCommand (d % 64) cmd]) ∧
      ((u.core d).op? o.id).map (·.body) = some (.atq opc fmt ord slot bar (tosend.filter fun x => x.lane != lane)
        (sent ++ [(t.fab.nextTag, { a with loc := some p })]) parks)) ∧
  (∀ queue port cmd, s.fab.inbox.find? (fun m => forQueue queue m.2) =
      some (port, .atqCommand queue cmd) → s.firstIn port = some (.atqCommand queue cmd) →
    natBits cmd.toNat 7 0 < 8 → natBits cmd.toNat 11 10 < 3 →
    (∀ f ∈ [(63, 46), (31, 22), (15, 12)], natBits cmd.toNat f.1 f.2 = 0) →
    let pa := natBits cmd.toNat 127 64
    let tag := natBits cmd.toNat 255 224
    let s0 := (s.popIn port).meet pa 4
    let old := BitVec.ofNat 32 (leNat (s0.devRead pa 4))
    let r := atomic (natBits cmd.toNat 7 0) (natBits cmd.toNat 11 10 == 1) old (cmd.extractLsb' 128 32)
    let place : Loc := { ty := if inHbm pa then 0 else 1, pa := pa, peer := 0, pport := false }
    (devValid pa = true → pa % 4 = 0 → s0.devBad pa 4 = false → exec (.atqApply queue) s = .next
      (((s0.pin place).devWrite pa (leBytes 4 r.1.toNat)).sendOn port (.atqReply tag 0 old))) ∧
    (devValid pa = true → pa % 4 = 0 → s0.devBad pa 4 = true → ∃ t : State, exec (.atqApply queue) s = .next
      (t.sendOn port (.atqReply tag 0x50 0)) ∧ t.mem = s0.mem ∧ t.q.faults.length = s.q.faults.length + 1) ∧
    (devValid pa = false ∨ pa % 4 ≠ 0 → exec (.atqApply queue) s = .next
      ((s.popIn port).sendOn port (.atqReply tag 0x13 0)))) ∧
  ∀ tag status old, (s.fab.tags.find? (·.1 == tag)) = none → exec (.atqReply tag status old) s = .next s) ∧
  (∀ (s : State) (tag status d peer : Nat) (old : BitVec 32) (o : Op)
    (opc fmt ord slot bar : Nat) (tosend : List LaneAcc) (sent : List (Nat × LaneAcc)) (parks : List (Nat × BitVec 32)) (a : LaneAcc),
  s.fab.tags.find? (·.1 == tag) = some (tag, d, o.id, peer) → (s.core d).op? o.id = some o → opc < 8 →
  o.body = .atq opc fmt ord slot bar tosend sent parks → sent.find? (fun x => x.1 == tag) = some (tag, a) →
  let s1 := { s with fab := { s.fab with tags := s.fab.tags.eraseP (·.1 == tag) } }
  let s2 := countLane d o 4 (some slot) bar a.lane (if status = 0 then old.zeroExtend 64 else 0) s1
  let s3 := s2.raiseLate d o.slot a.lane (atomic opc (fmt == 1) old (a.data.setWidth 32)).2
  exec (.atqReply tag status old) s = .next (atqDrop d o opc fmt ord slot bar tosend (sent.filter fun x => x.1 != tag) parks
    (if status = 0 then (if o.acq then s3.acquire d o.slot a.lane else s3)
     else s2.defer d o.slot o.lane o.id status (a.va.getD 0))))

/-- R351, R353, R357, R358, R365, R366: a COPY whose tokens are granted goes on by one piece: it reads the bytes of one granule of its
source, then the indices of its destination, converts once it has read all, and writes the bytes of one granule of its destination
and subtracts them from the barrier: so it never reads what it wrote. A command that has nothing to change counts its bytes and
ends; one that has written all ends once every peer has taken its bytes; a tile that is not that of the record, or a source with
an uncorrectable error, ends it with the bytes not written subtracted, and a deferred trap. The order of the pieces is the model's choice
(log 34). -/
def Obligations.CopyStepResults : Prop := ∀ (s : State) (d : Nat) (o : Op) (cmd : CopyCmd) (cost : Nat),
  (s.core d).op? o.id = some o → o.body = .copy cmd cost true → s.mayBegin d o = true →
  let r := cmd.record
  let z := cmd.elem
  let size := cmd.size
  let goes := fun (t : State) (f : CopyCmd → CopyCmd) =>
    exec (.copyElement d o.id) s = .next (t.modCore d fun c => c.modOp o.id fun q => { q with body := .copy (f cmd) cost true })
  let ends := fun (t : State) (stop : Option Nat) =>
    let left := cpTotal r (cpSize0 cmd.streams) - (cmd.copyIx * size true + cmd.written) + cmd.owed
    let t1 := t.endOp d o.id
    let t2 := if left = 0 then t1 else o.counts d (cpBar r).toNat false (-(left : Int)) t1
    let t3 := match stop with
      | some c => (t2.defer d o.slot o.lane o.id c cmd.recVa).post (towerOf d)
          (mkEvent 3 0x10 c (((s.coreLaunch d).map Launch.id).getD 0) d o.slot o.lane cmd.recVa 0)
      | none => t2
    let t4 := match cmd.uncorr with
      | some (i, n) => t3.defer d o.slot o.lane o.id 0x51 (BitVec.ofNat 64 (i <<< 8 ||| n <<< 16))
      | none => t3
    exec (.copyElement d o.id) s = .next (match o.clobber with
      | some a => t4.defer d o.slot o.lane o.id Cause.barclobber a
      | none => t4)
  (cpNoop d cmd = true → ends s none) ∧
  (cpNoop d cmd = false → (cmd.copyIx < cpCopies r →
      (cmd.out = none → cmd.inp.length < size false → cpKind r false = 0 →
        let off := scrOff (cpAddr r false) + cmd.inp.length
        let n := min (16 - off % 16) (size false - cmd.inp.length)
        ((s.core d).scrBad off n = false → goes s fun c => { c with inp := c.inp ++ (s.core d).scrRead off n }) ∧
        ((s.core d).scrBad off (min (z false - cmd.inp.length % z false) (16 - off % 16)) = true →
          s.eventRoom (towerOf d) = true → s.unperformed d o.id = false →
          ends (s.uncEngine d 1 1 (addrFor d d off) cmd.recVa) (some Cause.uncmem))) ∧
      (∀ bs, cmd.out = none → cmd.inp.length < size false → cpKind r false = 2 →
        let b := bufOf cmd.bufs (cpBuf r false)
        let pos := cmd.inp.length
        ∀ va u, brPlace b (brR b) ((cpAddr r false).toNat + (pos / z false : Nat) * z false) (z false) = some va →
          let at' := va + BitVec.ofNat 64 (pos % z false)
          let n := min (z false - pos % z false) (16 - at'.toNat % 16)
          n = z false - pos % z false → engRead d 1 o cmd.recVa at' n s = .ok u bs → bs.length = n →
          (pos + n = size false ∨ ∀ next, brPlace b (brR b) ((cpAddr r false).toNat + ((pos / z false + 1 : Nat) : Int) * z false)
            (z false) = some next → next.toNat / 16 ≠ at'.toNat / 16) →
          goes u fun c => { c with inp := c.inp ++ bs }) ∧
      (cmd.out = none → size false ≤ cmd.inp.length → cpIndexed cmd true = true → cmd.ixs.length < cpNel r →
        let b := bufOf cmd.bufs (stIo (cpStream cmd true) 23 20)
        let iz : Nat := if (cpStream cmd true).getLsbD 17 then 4 else 2
        (∀ va t bs, brPlace b (brR b) (stIndexAt (cpStream cmd true) cmd.ixs.length * iz) iz = some va →
          engRead d 1 o cmd.recVa va iz s = .ok t bs → goes t fun c => { c with ixs := c.ixs ++ [some (leNat bs)] }) ∧
        (brPlace b (brR b) (stIndexAt (cpStream cmd true) cmd.ixs.length * iz) iz = none →
          (brOobt b = false → cmd.oobt = false → goes s fun c => { c with ixs := c.ixs ++ [none] }) ∧
          (brOobt b = true ∨ cmd.oobt = true → s.eventRoom (towerOf d) = true → s.unperformed d o.id = false →
            ends s (some Cause.bufbound)))) ∧
      (cmd.out = none → size false ≤ cmd.inp.length → (cpIndexed cmd true = true → cpNel r ≤ cmd.ixs.length) →
        (cpOnPress r = false →
          let u := cpUnit r (cpSize0 cmd.streams) false
          let units := (List.range (cpUnits r)).map fun i => cpConvert r ((cmd.inp.drop (i * (u.1 * u.2))).take (u.1 * u.2))
          goes (s.raiseLate d o.slot o.lane (if cpConv r = 0 then 0 else units.foldl (fun f x => f ||| x.2) 0))
            fun c => { c with out := some (if cpConv r = 0 then cmd.inp else units.flatMap (·.1)) }) ∧
        (cpOnPress r = true →
          let h := BitVec.ofNat 128 (leNat (cmd.inp.take 16))
          ¬ (rp9HeaderOk h = true ∧ rp9Bound h ≤ Config.maxBound ∧ rp9Rows h = cpRows r ∧ rp9Cols h = cpCols r ∧
            rp9PlanesOk cmd.inp (cpNel r) = true) →
          s.eventRoom (towerOf d) = true → s.unperformed d o.id = false → ends s (some Cause.record))) ∧
      (∀ out, cmd.out = some out → cpKind r true = 0 → cpMc r = false →
        let off := scrOff (cpAddr r true) + cmd.written
        let n := min (z true - cmd.written % z true) (16 - off % 16)
        cmd.written + n < size true → cmd.written + n ≤ out.length → (off + n) % 16 = 0 →
        s.ownedS d off (off + n) o.id = false →
        let put := engineStoreAll s d d off ((out.drop cmd.written).take n)
        put.2 = none →
        ∃ t : State, exec (.copyElement d o.id) s = .next (o.counts d (cpBar r).toNat false (-(n : Int)) t) ∧
          (∀ k, (t.core k).scratch = (put.1.core k).scratch) ∧ ∃ q, (t.core d).op? o.id = some q ∧
            q.body = .copy { cmd with written := cmd.written + n } cost true)) ∧
    (cmd.out ≠ none → cpCopies r ≤ cmd.copyIx → s.unperformed d o.id = false → ends s none))

/-- R359, R389, R390, R454: the words that an engine of the core ends. EVPOST adds to its entry of the event table and posts
its records; an entry that cannot be read stays, with a record and a deferred trap (the model's choice, log 48). LNCH reads its
packet, puts it into the queue where the queue takes it, and answers a status. LTRD answers the register of the link or domain
tables that R454 names; the port of .TREE at the root and its GEN where V is 0 are the model's choice (log 40). CFLUSH leaves
every copy of its lines, in the core's L1 and the L2, clean and not pinned, CINV removes them, and both skip a line whose
translation fails and change no value. Each arrives once on its barrier and leaves flight. -/
def Obligations.EngineWordEnds : Prop := ∀ (s : State) (d : Nat) (o : Op), (s.core d).op? o.id = some o →
  let gives := fun (t : State) (wreg : Nat) (slots : List Nat) (v : BitVec 64) =>
    slots.foldl (fun t sl => t.putWarpReg d sl wreg (v.zeroExtend 256)) t
  (∀ sel ix wreg bar slots, o.body = .ltrd sel ix wreg bar slots → ∃ v : BitVec 64,
    exec (.ltrdRead d o.id) s = .next (o.counts d bar true 0 (gives (s.endOp d o.id) wreg slots v)) ∧
    let i := ix.toNat
    let bits := natBits v.toNat
    let x := s.domain (if sel < 4 then i else natBits i 10 8)
    (sel = 0 → v = if i < 16 then (s.link i).row.extractLsb' 0 64 else 0) ∧
    (sel = 1 → v = if i < 16 then (s.link i).row.extractLsb' 64 64 else 0) ∧
    (sel = 2 ∨ sel = 3 → 8 ≤ i → v = 0) ∧
    (sel = 2 → i < 8 → v.getLsbD 63 = x.en ∧ bits 62 47 = 0 ∧ bits 46 40 = x.n % 128 ∧ bits 39 38 = 0 ∧ bits 37 32 = x.self % 64 ∧
      bits 31 0 = x.gen.toNat) ∧
    (sel = 3 → i < 8 → bits 63 16 = 0 ∧ bits 15 8 = x.t % 256 ∧ bits 7 4 = 0 ∧ v.getLsbD 3 = x.refused ∧ bits 2 0 = x.dstate % 8) ∧
    (sel = 4 → v.toNat = if natBits i 31 11 = 0 ∧ natBits i 7 6 = 0 ∧ natBits i 5 0 < x.n
      then (findD x.members (natBits i 5 0) 0).toNat else 0) ∧
    (sel = 5 → let n := natBits i 2 0
      (natBits i 31 11 ≠ 0 ∨ natBits i 7 3 ≠ 0 → v = 0) ∧
      (natBits i 31 11 = 0 → natBits i 7 3 = 0 →
        (x.t ≤ n → v.toNat = x.gen.toNat) ∧
        (n < x.t →
          let is := fun (parent port : Nat) => v.getLsbD 63 = true ∧ bits 62 54 = 0 ∧ bits 53 48 = parent ∧ bits 47 44 = port ∧
            bits 43 32 = 0 ∧ bits 31 0 = x.gen.toNat
          ((x.trees.getD n []).find? (·.1 == x.self) = none → is 0x3F 0) ∧
          ∀ parent a b port, (x.trees.getD n []).find? (·.1 == x.self) = some (x.self, parent, a, b, port) → parent < 64 →
            (a = x.self → port < 16 → is parent port) ∧
            (a ≠ x.self → ∀ own < 16, (∀ p ≤ own, (rowPeerId (s.link p).row = findD x.members a 0 ∧
              rowPeerPort (s.link p).row = port) ↔ p = own) → is parent own))))) ∧
  (∀ inv vas bar l, o.body = .cache inv vas bar → s.mayBegin d o = true → s.coreLaunch d = some l →
    let w := s.who d o
    let kept := fun (u : State) (key : Nat) => { u.modCore (l1Place l d key).1 fun c => { c with
        l1 := (c.l1.filter fun e => !inv || e.1 != key).map fun e => (e.1, e.2 && e.1 != key) } with
      mem := { u.mem with
        l2 := (u.mem.l2.filter fun e => !inv || e.1 != key).map fun e => if e.1 = key then (e.1, e.2.1, false, false) else e
        leases := u.mem.leases.filter fun e => !inv || e.1 != key } }
    let t := vas.foldl (fun u va => match translateOn u d w.root w.priv va .maint with
      | (v, .ok p) => kept v (lineKey p.loc)
      | (v, .error _) => v) s
    exec (.cacheMaintComplete d o.id) s = .next (o.counts d bar true 0 (t.endOp d o.id)) ∧
      (s.mem.checks = [] → t.mem.dev = s.mem.dev) ∧ t.mem.host = s.mem.host ∧
      (∀ k, (t.core k).scratch = (s.core k).scratch) ∧ t.clock = s.clock) ∧
  (∀ (x : BitVec 64) payload rec bar, o.body = .evpost x payload rec bar → o.mustWait d s = false →
    (s.tower (towerOf d)).events.length + (if s.q.evtSize.toNat ≤ natBits x.toNat 51 32 then 1 else 0) + (if rec then 1 else 0) ≤ 256 →
    let id := natBits x.toNat 51 32
    let lid := ((s.coreLaunch d).map Launch.id).getD 0
    let user := fun (t : State) =>
      if rec then t.post (towerOf d) (mkEvent 6 0 0 lid d o.slot o.lane (payload.zeroExtend 64) x) else t
    let ends := fun (t : State) => o.counts d bar true 0 ((user t).endOp d o.id)
    (id < s.q.evtSize.toNat → id = 0 → exec (.evpostApply d o.id) s = .next (ends s)) ∧
    (id < s.q.evtSize.toNat → id ≠ 0 → inHbm (s.q.evtBase.toNat + 8 * id) = true →
      let s0 := s.eventMeet id
      let at' := BitVec.ofNat 64 (s.q.evtBase.toNat + 8 * id)
      (s0.eventBad id = false → ∃ e : BitVec 64,
        exec (.evpostApply d o.id) s = .next (ends (s0.devWrite (s.q.evtBase.toNat + 8 * id) (leBytes 8 e.toNat))) ∧
        natBits e.toNat 31 0 = min (natBits (s0.eventEntry id).toNat 31 0 + natBits x.toNat 31 0) 0xFFFFFFFF ∧
        e.getLsbD 63 = ((s0.eventEntry id).getLsbD 63 || x.getLsbD 63) ∧
        e.extractLsb' 32 31 = (s0.eventEntry id).extractLsb' 32 31) ∧
      (s0.eventBad id = true → exec (.evpostApply d o.id) s = .next ((ends
        (s0.postFault 0x50 4 0 d 0xFF (((s.core d).launch).getD 0) at' at' 0 0 none false).1).defer d o.slot o.lane o.id
          Cause.uncmem at'))) ∧
    (s.q.evtSize.toNat ≤ id → exec (.evpostApply d o.id) s = .next (o.counts d bar true 0 ((user (s.post (towerOf d)
      (mkEvent 3 0x11 0 lid d o.slot o.lane (BitVec.ofNat 64 id) 0))).endOp d o.id)))) ∧
  ∀ va q wreg bar slots t bs, o.body = .lnch va q wreg bar slots → o.mustWait d s = false → o.parked = none →
    engRead d 0 o va va 256 s = .ok t bs →
    let x := t.qdesc q
    let root := ((t.coreLaunch d).map (·.ptroot)).getD 0
    let at' := qdBase x + 256 * (qdTail x % qdSlots x)
    let status := if ¬ (qdEn x = true ∧ qdDevq x = true ∧ qdRoot x = root) then 2 else if qdUsed x < qdSlots x then 0 else 1
    (status = 0 → inHbm (at' + 255) = true) →
    exec (.lnchEnqueue d o.id) s = .next (o.counts d bar true 0 (gives
      ((if status = 0 then (t.devWrite at' bs).setQdesc q (setBits x 255 224 (qdTail x + 1)) else t).endOp d o.id)
      wreg slots (BitVec.ofNat 64 status)))

/-- R422, R424, R426, R427: the cadastre unit. KVAL takes the next block of the free queue for a new key with one reference,
and tells of a key that exists; KVSH gives a second key to the block of the first; KVFR takes a reference away and returns the
block with its last; KVMAP tells the block, its references and whether it is shared; an
uncorrectable error in the table changes nothing and answers FAULT; that it looks at no more of the table than the entries its
operation reads is the model's choice (log 41). The instruction answers a status with REF and BLOCK in its w register and arrives; a
unit that is not enabled answers NOCAD. -/
def Obligations.CadastreResults : Prop := ∀ (s : State) (d : Nat) (o : Op) (kind : Nat) (key old : BitVec 64) (fmt : Nat) (wr : Bool)
    (breg wreg bar : Nat) (slots : List Nat), (s.core d).op? o.id = some o →
  o.body = .cad kind key old fmt wr breg wreg bar slots → o.mustWait d s = false →
  let ends := fun (t : State) (status ref block : Nat) (r : Option (BitVec 256)) =>
    exec (.cadastrePerform d o.id) s = .next (o.counts d bar true 0
      (let t1 := slots.foldl (fun t sl => t.putWarpReg d sl wreg
          (BitVec.ofNat 256 (status * 2 ^ 56 + ref % 65536 * 2 ^ 32 + block % 2 ^ 22))) (t.endOp d o.id)
       match r with
       | some b => slots.foldl (fun t sl => t.putWarpReg d sl (840 + breg) b) t1
       | none => t1))
  let b := fun a => s.cadBlock a
  let n := s.cad.n.toNat
  (s.cad.en = false → ends s 8 0 0 none) ∧
  (s.cad.en = true → (∀ r ∈ s.cadReads kind key old, inHbm (r.1 + r.2 - 1) = true) →
    (∃ r ∈ s.cadReads kind key old, s.devBad r.1 r.2 = true) →
    ends (s.postFault 0x50 0 4 d 0xFF (((s.core d).launch).getD 0) 0 0 0 0 none false).1 9 0 0 none) ∧
  (s.cad.en = true → (∀ r ∈ s.cadReads kind key old, inHbm (r.1 + r.2 - 1) = true ∧ s.devBad r.1 r.2 = false) →
    (kind = 0 →
      (∀ a, s.cadLookup key = some a → ends s 1 (s.cadRef (b a)) (b a) none) ∧
      (s.cadLookup key = none → s.cad.free = 0 → ends s 4 0 0 none) ∧
      (s.cadLookup key = none → s.cad.free ≠ 0 → s.cadSlot key = none → ends s 5 0 0 none) ∧
      ∀ a, s.cadLookup key = none → s.cad.free ≠ 0 → s.cadSlot key = some a →
        let k := leNat (s.devRead (s.cad.fq.toNat + 4 * (s.cad.head % max 1 n)) 4)
        let t := (s.cadInsert a key k).setCadRef k 1
        ends { t with cad := { s.cad with head := (s.cad.head + 1) % max 1 n, free := s.cad.free - 1 } } 0 1 k none) ∧
    (kind = 1 →
      (s.cadLookup key = none → ends s 2 0 0 none) ∧
      ∀ a, s.cadLookup key = some a →
        let t := (s.devWrite a (leBytes 8 ((s.cadKey a) &&& ~~~(1#64 <<< 63)).toNat)).setCadRef (b a) (s.cadRef (b a) - 1)
        (s.cadRef (b a) ≤ 1 →
          let u := t.devWrite (s.cad.fq.toNat + 4 * ((s.cad.head + s.cad.free) % max 1 n)) (leBytes 4 (b a))
          ends { u with cad := { s.cad with free := s.cad.free + 1 } } 7 0 (b a) none) ∧
        (1 < s.cadRef (b a) → ends t 0 (s.cadRef (b a) - 1) (b a) none)) ∧
    (kind = 2 →
      (s.cadLookup old = none → ends s 2 0 0 none) ∧
      ∀ a, s.cadLookup old = some a →
        (∀ c, s.cadLookup key = some c → ends s 1 (s.cadRef (b c)) (b c) none) ∧
        (s.cadLookup key = none → s.cadRef (b a) = 65535 → ends s 6 65535 (b a) none) ∧
        (s.cadLookup key = none → s.cadRef (b a) ≠ 65535 → s.cadSlot key = none → ends s 5 0 0 none) ∧
        ∀ c, s.cadLookup key = none → s.cadRef (b a) ≠ 65535 → s.cadSlot key = some c →
          ends ((s.cadInsert c key (b a)).setCadRef (b a) (s.cadRef (b a) + 1)) 0 (s.cadRef (b a) + 1) (b a) none) ∧
    (kind = 3 →
      (s.cadLookup key = none → ends s 2 0 0 none) ∧
      ∀ a, s.cadLookup key = some a → ends s (if wr = true ∧ 1 < s.cadRef (b a) then 3 else 0) (s.cadRef (b a)) (b a)
        (some (cadRecord s.cad (b a) fmt (wr && s.cadRef (b a) == 1)))))

/-- R387, R469, R471, R473: a request joins the gate behind those of earlier cycles, and of its cycle behind those of lower cores; a
tower's gate serves its head when the balance allows it, from the cycle after its arrival on: an ADMIT adds its tokens to the core's
reservation and arrives, an operation begins; a head whose operation is gone leaves without tokens; each microsecond adds the
refill up to CAP; the oldest event record of a tower goes to the host ring, or is counted as lost where the ring has no room, and a
record that waited for room takes its place. The model's choices here are that the grant comes a cycle after the arrival (log 60),
that a head whose operation is gone takes no tokens (log 35), and that HEVTAIL is kept modulo 2^32 (log 69). -/
def Obligations.TokenAndRecordSteps : Prop := ∀ (s : State) (t : Nat),
  (∀ b d id l, findD (s.tower t).gates b [] = l → ∀ u, (s.tower t).request s.clock b (d, id) = u →
    ∃ x y, l = x ++ y ∧ findD u.gates b [] = x ++ (s.clock, d, id) :: y ∧
      (l.Pairwise (fun p q => 128 * p.1 + tcidOf p.2.1 ≤ 128 * q.1 + tcidOf q.2.1) →
        (∀ p ∈ x, 128 * p.1 + tcidOf p.2.1 ≤ 128 * s.clock + tcidOf d) ∧
        ∀ q ∈ y, 128 * s.clock + tcidOf d < 128 * q.1 + tcidOf q.2.1)) ∧
  (∀ b at' d id rest n, findD (s.tower t).gates b [] = (at', d, id) :: rest → at' < s.clock → n ≤ findD (s.tower t).tokens b 0 →
    let s1 := s.modTower t fun w => { w with gates := putD w.gates b rest [], tokens := put w.tokens b (findD w.tokens b 0 - n) }
    (∀ o bar g, (s.core d).op? id = some o → o.body = .adm b n bar g → exec (.admissionGrant t b) s = .next
      (engineCount (s1.modCore d fun c => { c.delOp id with reserve := putD c.reserve b (findD c.reserve b 0 + n) 0 })
        d o.slot o.lane o.id (BitVec.ofNat 32 bar) true 0)) ∧
    ((s.core d).op? id = none → (∀ o ∈ (s.core d).issueOrder, o.id ≠ id) → n = 0 →
      exec (.admissionGrant t b) s = .next (s1.seekTokens d b)) ∧
    (∀ o cmd cost g, (s.core d).op? id = some o → o.body = .copy cmd cost g → n = min cost (Config.bucketCap b) →
      exec (.admissionGrant t b) s = .next ((s1.modCore d (·.grant id)).seekTokens d b)) ∧
    ((s.core d).op? id = none → ∀ o, (s.core d).issueOrder.find? (·.id == id) = some o → n = min o.cost (Config.bucketCap b) →
      exec (.admissionGrant t b) s = .next ((s1.modCore d (·.grant id)).seekTokens d b))) ∧
  (s.mgmt.tick < s.clock / 1050 → ∃ u, exec .tokenRefill s = .next u ∧ u.mgmt.tick = s.mgmt.tick + 1 ∧ u.mem = s.mem ∧
    ∀ k < 4, ∀ b < 3, findD (u.tower k).tokens b 0 =
      min (findD (s.tower k).tokens b 0 + findD (s.tower k).refill b 0) (Config.bucketCap b)) ∧
  ∀ r rest, (s.tower t).events = r :: rest →
    let size := s.hev 1
    let full := (s.hev 3 + 2 ^ 64 - s.hev 2) % 2 ^ 32 = 2 ^ size
    ∃ u, exec (.eventRecordCopy t) s = .next u ∧ ((s.tower t).posting = [] → (u.tower t).events = rest) ∧
      (∀ x w, (s.tower t).posting = x :: w → rest.length < 256 → (u.tower t).posting = w ∧
        (u.tower t).events = rest ++ [x ||| ((s.tower t).eventSeq.zeroExtend 256 <<< 96)]) ∧
      (size < 4 ∨ 16 < size ∨ full → u.mem = s.mem ∧ u.hev 4 = min (s.hev 4 + 1) (2 ^ 64 - 1) ∧ u.hev 3 = s.hev 3) ∧
      (¬ (size < 4 ∨ 16 < size ∨ full) → u.hev 3 = (s.hev 3 + 1) % 2 ^ 32 ∧
        u.hostRead (s.hev 0 + 32 * (s.hev 3 % 2 ^ size)) 32 = leBytes 32 r.toNat ∧
        u.q.msix = s.q.msix ++ if s.hev 2 % 2 ^ 32 = s.hev 3 % 2 ^ 32 then [0] else [])

/-! ### Memories, peers and faults (12, 14, 15, 16) -/

/-- R18, R308, R310, R311, R370, R371, R475: what happens to memories of itself. A line that is neither pinned nor locked by an engine
moves to a slice of another tower, the one of the same number on its base die (the model's choice, log 71), which never holds more
than its 98,304 lines, and no byte changes; a lease that is over is gone, from the caches too; an error is counted in
the counters of its unit, that of a line in L2 at the slice that holds it, and an uncorrectable one marks its unit: a half-line of HBM4, 8 bytes of a copy in a cache (the model's choice:
it stands for an error of the line, log 3) or of a scratchpad; a fault of a channel die changes one residue of one channel and stays
below its modulus. R311, R371: the home of a PEER line applies the writes, and serves the reads, of a port in the order of their
arrival; bytes with an uncorrectable error are never passed on. -/
def Obligations.MemoryAndPeerResults : Prop :=
  (∀ (s : State),
  (∀ pa tower, tower < 4 →
    let line := pa / 128 * 128
    let locked := ∃ c ∈ s.cores, ∃ o ∈ c.2.ops, ∃ x ∈ o.xlat, x.1.2 = true ∧ x.2.own = true ∧ x.2.pa / 128 = pa / 128 ∧
      o.ownsV (128 * x.1.1) (128 * x.1.1 + 128) = true
    (locked ∨ (∀ e ∈ s.mem.l2, e.1 ≠ line) → exec (.lineMigrate pa tower) s = .next s) ∧
    ∀ e, s.mem.l2.find? (·.1 == line) = some e →
      let slice := 8 * tower + e.2.1 % 8
      let inSlice := fun (u : State) => (u.mem.l2.filter (·.2.1 == slice)).length
      (e.2.2.1 = true ∨ slice = e.2.1 → exec (.lineMigrate pa tower) s = .next s) ∧
      (¬ locked → e.2.2.1 = false → slice ≠ e.2.1 → ∃ t, exec (.lineMigrate pa tower) s = .next t ∧
        { t.mem with l2 := s.mem.l2 } = s.mem ∧ t.cores = s.cores ∧
        (∀ x, x.1 = line → (x ∈ t.mem.l2 ↔ x = (line, slice, false, e.2.2.2))) ∧
        (∀ x, x.1 ≠ line → (x ∈ t.mem.l2 → x ∈ s.mem.l2) ∧
          (x ∈ s.mem.l2 → x ∈ t.mem.l2 ∨ x.2.1 = slice ∧ 98304 ≤ inSlice s)) ∧
        (∀ x y, x ∈ s.mem.l2 → y ∈ s.mem.l2 → x.1 ≠ line → y.1 ≠ line → x ∉ t.mem.l2 → y ∉ t.mem.l2 → x = y) ∧
        (inSlice s ≤ 98304 → inSlice t ≤ 98304))) ∧
  (∀ key, ∃ t, exec (.leaseExpire key) s = .next t ∧ { t.mem with leases := s.mem.leases, l2 := s.mem.l2 } = s.mem ∧
    ((∀ e ∈ s.mem.leases, e.1 = key → s.clock < e.2.2) → t = s) ∧
    ((∃ e ∈ s.mem.leases, e.1 = key ∧ e.2.2 ≤ s.clock) → (∀ e, e ∈ t.mem.leases ↔ e ∈ s.mem.leases ∧ e.1 ≠ key) ∧
      (∀ e, e ∈ t.mem.l2 ↔ e ∈ s.mem.l2 ∧ e.1 ≠ key) ∧ ∀ c ∈ t.cores, find? c.2.l1 key = none)) ∧
  (∀ d off, d < 512 → off < 0x40000 → ∃ t, exec (.memoryError (2 + d) off true) s = .next t ∧
    (∀ a, a / 8 = off / 8 → (t.core d).scrBad a 1 = true) ∧
    (∀ a, a / 8 ≠ off / 8 → (t.core d).scrBad a 1 = (s.core d).scrBad a 1) ∧ (t.core d).scratch = (s.core d).scratch ∧
    (t.tower (towerOf d)).eccControl = eccAdd (s.tower (towerOf d)).eccControl true) ∧
  (∀ d off, d < 512 → off < 0x40000 → ∃ t, exec (.memoryError (2 + d) off false) s = .next t ∧ t.cores = s.cores ∧ t.mem = s.mem ∧
    (t.tower (towerOf d)).eccControl = eccAdd (s.tower (towerOf d)).eccControl false) ∧
  (∀ pa unc, inHbm pa = true → ∃ t, exec (.memoryError 0 pa unc) s = .next t ∧ t.mem.dev = s.mem.dev ∧
    findD t.mem.hbmEcc (Config.hbmController pa % 8) 0 = eccAdd (findD s.mem.hbmEcc (Config.hbmController pa % 8) 0) unc ∧
    (unc = true → ∀ a, t.devBad a 1 = (s.devBad a 1 || a / 64 == pa / 64)) ∧ (unc = false → t.mem.bad = s.mem.bad)) ∧
  (∀ pa unc, devValid pa = true → (s.mem.l2.any (·.1 == pa / 128 * 128)) = true →
    ∃ t, exec (.memoryError 1 pa unc) s = .next t ∧ t.mem.dev = s.mem.dev ∧
    (∀ e, s.mem.l2.find? (·.1 == pa / 128 * 128) = some e →
      (t.tower (e.2.1 / 8)).eccBase = eccAdd (s.tower (e.2.1 / 8)).eccBase unc) ∧
    (unc = true → ∀ a, t.devBad a 1 = (s.devBad a 1 || a / 8 == pa / 8)) ∧ (unc = false → t.mem.bad = s.mem.bad)) ∧
  (∀ d pa unc, d < 512 → devValid pa = true → ((s.core d).l1.any (·.1 == pa / 128 * 128)) = true →
    ∃ t, exec (.memoryError (514 + d) pa unc) s = .next t ∧ t.mem.dev = s.mem.dev ∧
    (t.tower (towerOf d)).eccControl = eccAdd (s.tower (towerOf d)).eccControl unc ∧
    (unc = true → ∀ a, t.devBad a 1 = (s.devBad a 1 || a / 8 == pa / 8)) ∧ (unc = false → t.mem.bad = s.mem.bad)) ∧
  ∀ d acc ch row col mask, ch < 9 → row < 64 → col < 64 → acc < 8 → ((s.core d).launch).isSome →
    ∃ t, exec (.channelDieFault d acc ch row col mask) s = .next t ∧
      ((t.core d).ac acc).at ch row col = (((s.core d).ac acc).at ch row col ^^^ mask.toNat) % Config.modulus ch ∧
      (∀ a j i n, j < 9 → i < 64 → n < 64 → (a, j, i, n) ≠ (acc, ch, row, col) →
        ((t.core d).ac a).at j i n = ((s.core d).ac a).at j i n) ∧ t.mem = s.mem) ∧
  (∀ (s : State) (port : Nat),
  (∀ pa bytes, s.firstIn port = some (.peerWrite pa bytes) → devValid pa = true → devValid (pa + bytes.length - 1) = true →
    s.devPartBad pa bytes.length = false → (∀ c ∈ s.mem.checks, EccUnit.meets (c.1, 64) pa bytes.length = false) →
    ∃ t, exec (.peerWriteApply port) s = .next t ∧ t.devRead pa bytes.length = bytes ∧
      (∀ a, a < pa ∨ pa + bytes.length ≤ a → t.devRead a 1 = s.devRead a 1) ∧ t.fab.inbox = s.fab.inbox.eraseP (·.1 == port) ∧
      t.cores.map (·.2.scratch) = s.cores.map (·.2.scratch)) ∧
  ∀ pa, s.firstIn port = some (.peerRead pa) → devValid (pa / 128 * 128) = true →
    let line := pa / 128 * 128
    let s1 := (s.popIn port).meet line 128
    (s1.devBad line 128 = false → exec (.peerReadServe port) s = .next ((s1.l2Pass
      { ty := if inHbm line then 0 else 1, pa := line, peer := 0, pport := false } false).sendOn port
        (.peerData line (s1.devRead line 128)))) ∧
    (s1.devBad line 128 = true → ∃ t, exec (.peerReadServe port) s = .next t ∧ t.fab.links = s.fab.links ∧
      t.q.faults.length = s.q.faults.length + 1))

/-- R398, R399, R413, R415, R511: the oldest record that is not in the host ring is written at its tail, which advances, and
MSI-X vector 1 is sent where the ring was empty; RESUME answers an outstanding fault, whose record leaves the device once it is
in the ring, with ACTION 1 ends the launch with FRAMEEXH, and counts one that is not outstanding; SYNC remembers the
translations by which operations have events to perform, and PEND reads 1 while one of them is in use; CTXADD pushes a frame. That a RESUME may come before its record is in the ring is the model's choice (log 41). -/
def Obligations.FaultAnswerResults : Prop := ∀ (s : State),
  (∀ r, s.q.faults.find? (fun r => !r.written) = some r → 4 ≤ s.hfl 1 → s.hfl 1 ≤ 16 →
    (s.hfl 3 + 2 ^ 64 - s.hfl 2) % 2 ^ 32 ≠ 2 ^ s.hfl 1 →
    ∃ t, exec .faultRecordWrite s = .next t ∧ t.hostRead (s.hfl 0 + 64 * (s.hfl 3 % 2 ^ s.hfl 1)) 64 = leBytes 64 r.record.toNat ∧
      t.hfl 3 = (s.hfl 3 + 1) % 2 ^ 32 ∧ t.hfl 2 = s.hfl 2 ∧
      t.q.msix = s.q.msix ++ (if s.hfl 2 % 2 ^ 32 = s.hfl 3 % 2 ^ 32 then [1] else []) ∧
      (∀ x ∈ t.q.faults, x.seq = r.seq → x.written = true ∧ r.outstanding = true) ∧
      ∀ x ∈ s.q.faults, x.seq ≠ r.seq → x ∈ t.q.faults) ∧
  (∀ v : W64, ∃ t, exec (.hflheadWrite v) s = .next t ∧ t.hfl 2 = v.toNat ∧ t.hfl 3 = s.hfl 3 ∧ t.mem = s.mem) ∧
  (∃ t, exec .sync s = .next t ∧ t.cores = s.cores ∧ ∃ l, t.ctx.sync = some l ∧ t.syncPend = !(l.isEmpty) ∧
    ∀ d id line wr, (d, id, line, wr) ∈ l ↔ ∃ c o, (d, c) ∈ s.cores ∧ o ∈ c.ops ∧ o.id = id ∧ ((line, wr) ∈ o.translations d ∨
      ∃ m ∈ s.fab.unperformed, m.isOf s d id = true ∧ line = m.line ∧ wr = true)) ∧
  (∀ (u : State) l, u.ctx.sync = some l → (u.syncPend = true ↔ ∃ d id line wr c o, (d, id, line, wr) ∈ l ∧ (d, c) ∈ u.cores ∧
    o ∈ c.ops ∧ o.id = id ∧ ((line, wr) ∈ o.translations d ∨
      ∃ m ∈ u.fab.unperformed, m.isOf u d id = true ∧ line = m.line ∧ wr = true))) ∧
  (∀ v : W64, s.ctx.count ≠ s.ctx.cap → v.toNat % 0x20000 = 0 → s.ctx.count.toNat < 2 ^ 32 - 1 →
    s.ctx.base.toNat + 8 * s.ctx.count.toNat + 8 ≤ hbmEnd →
    ∃ t, exec (.ctxadd v) s = .next t ∧ t.ctx.count.toNat = s.ctx.count.toNat + 1 ∧ t.ctx.err = s.ctx.err ∧
      t.devRead (s.ctx.base.toNat + 8 * s.ctx.count.toNat) 8 = leBytes 8 v.toNat) ∧
  (∀ v : W64, s.ctx.count = s.ctx.cap ∨ v.toNat % 0x20000 ≠ 0 →
    exec (.ctxadd v) s = .next { s with ctx := { s.ctx with err := true } }) ∧
  ∀ (seq : W32),
    (s.outstanding seq = none → (∃ t, exec (.resumeAction0 seq) s = .next t ∧
        t.ctx.resumeBad.toNat = min (s.ctx.resumeBad.toNat + 1) (2 ^ 32 - 1) ∧ t.q = s.q) ∧
      exec (.resumeFrameexh seq) s = exec (.resumeAction0 seq) s) ∧
    ∀ r, s.outstanding seq = some r → s.isPreempted r.launch = false →
      (∃ t, exec (.resumeAction0 seq) s = .next t ∧
        (r.written = true → ∀ x ∈ t.q.faults, x.seq ≠ seq) ∧ (∀ x ∈ t.q.faults, x.seq = seq → x.outstanding = false) ∧
        t.ctx = s.ctx ∧ t.mem = s.mem) ∧
      ∀ l, s.launchOf r.launch = some l → l.phase = .running →
        ∃ t, exec (.resumeFrameexh seq) s = .next t ∧ (t.launchOf r.launch).map (·.phase) = some (.ending 0x0C 0) ∧
          t.q.faultSeq = s.q.faultSeq + 1

/-! ### Queues and launches (04, 05, 15, 18) -/

/-- R375, R377, R378, R386, R514: a queue is enabled by a descriptor in range, with HEAD, TAIL and ERR at 0, and ignores any
other; disabling it stops it and lets a waiting launch of it go on without it; a doorbell moves TAIL forward by no more than
the slots, and a refused value sets ERR, stops the queue and posts a record, which waits where the event queue is full; EVSIGNAL adds to an entry of the
event table, or leaves one that cannot be read, with a fault record (the model's choice, log 48); ABORT ends every launch with its id. That a waiting launch of a disabled queue goes on is the model's choice (log 36). -/
def Obligations.QueueAndSignalResults : Prop := ∀ (s : State) (q : Nat), q < 64 →
  let x := s.qdesc q
  (∀ desc : BitVec 512, qdEn x = false → descOk desc = true → ∃ t, exec (.queueEnable q desc) s = .next t ∧
    (let y := t.qdesc q
     qdEn y = true ∧ qdHead y = 0 ∧ qdTail y = 0 ∧ y.getLsbD 139 = false ∧ y.setWidth 138 = desc.setWidth 138) ∧
    (∀ p, p ≠ q → t.qdesc p = s.qdesc p) ∧ t.launches = s.launches ∧ t.mem = s.mem) ∧
  (∀ desc : BitVec 512, qdEn x = true ∨ descOk desc = false → ∃ t, exec (.queueEnable q desc) s = .next t ∧ t.q.desc = s.q.desc ∧
    t.q.cfgIgn.toNat = min (s.q.cfgIgn.toNat + 1) (2 ^ 32 - 1)) ∧
  (qdEn x = true → ∃ t, exec (.queueDisable q) s = .next t ∧ qdEn (t.qdesc q) = false ∧ qdTail (t.qdesc q) = qdTail x ∧
    qdHead (t.qdesc q) = qdHead x ∧ (∀ l ∈ t.launches, l.queue = q → l.waits = false) ∧
    t.launches.map (fun l => (l.key, l.phase)) = s.launches.map fun l => (l.key, l.phase)) ∧
  (∀ tail : W32, s.mgmt.ready = true → qdEn x = true →
    let n := (tail.toNat + 2 ^ 32 - qdHead x) % 2 ^ 32
    (qdUsed x ≤ n ∧ n ≤ qdSlots x → ∃ t, exec (.doorbell q tail) s = .next t ∧ qdTail (t.qdesc q) = tail.toNat ∧
      qdHead (t.qdesc q) = qdHead x ∧ qdEn (t.qdesc q) = true ∧ t.tower 0 = s.tower 0) ∧
    (¬ (qdUsed x ≤ n ∧ n ≤ qdSlots x) → s.eventRoom 0 = true → ∃ t, exec (.doorbell q tail) s = .next t ∧
      qdEn (t.qdesc q) = false ∧ (t.qdesc q).getLsbD 139 = true ∧ qdTail (t.qdesc q) = qdTail x ∧
      (t.tower 0).events = (s.tower 0).events ++ [mkEvent 7 0x22 0 0 0 0 0 (BitVec.ofNat 64 q) (tail.zeroExtend 64) |||
        ((s.tower 0).eventSeq.zeroExtend 256 <<< 96)]) ∧
    (¬ (qdUsed x ≤ n ∧ n ≤ qdSlots x) → s.eventRoom 0 = false → ∃ t, exec (.doorbell q tail) s = .next t ∧
      qdEn (t.qdesc q) = false ∧ (t.qdesc q).getLsbD 139 = true ∧ (t.tower 0).events = (s.tower 0).events ∧
      (t.tower 0).posting = (s.tower 0).posting ++ [mkEvent 7 0x22 0 0 0 0 0 (BitVec.ofNat 64 q) (tail.zeroExtend 64)])) ∧
  (∀ v : W64, let id := natBits v.toNat 51 32
    id ≠ 0 → id < s.q.evtSize.toNat → s.eventPlace id = true →
    let s0 := s.eventMeet id
    (s0.eventBad id = false → ∃ t, exec (.evsignal v) s = .next t ∧ t.q = s.q ∧
      natBits (t.eventEntry id).toNat 31 0 = min (natBits (s0.eventEntry id).toNat 31 0 + natBits v.toNat 31 0) 0xFFFFFFFF ∧
      (t.eventEntry id).getLsbD 63 = ((s0.eventEntry id).getLsbD 63 || v.getLsbD 63) ∧
      (t.eventEntry id).extractLsb' 32 31 = (s0.eventEntry id).extractLsb' 32 31) ∧
    (s0.eventBad id = true → ∃ t, exec (.evsignal v) s = .next t ∧ t.mem = s0.mem ∧
      t.q.faults.length = s.q.faults.length + 1)) ∧
  ∀ id : W32, (s.launches.map Launch.key).Nodup → ∃ t, exec (.abort id) s = .next t ∧
    t.launches.map (fun l => (l.key, l.phase)) = s.launches.map fun l =>
      (l.key, match l.phase with
        | .ending st c => .ending st c
        | p => if l.id = id.toNat then .ending 0x0D 0 else p)

/-- R379, R381: the front end takes the packet at the HEAD of a ready queue, of the highest priority, the next in turn (one that
cannot be read counts as zeros, with a fault record: the model's choice, log 48); a launch of a queue that has neither been seeded nor ended holds its queue back; a packet that passes every check of R381 becomes a
launch that waits for its dependences; one whose fields are out of place ends
with PACKET, in a record on its lead tower's queue. -/
def Obligations.PacketTakeResults : Prop := ∀ (s s0 : State) (q : Nat) (p : BitVec 2048),
  s.mgmt.stage = 7 → s.mgmt.ot ≠ 3 → s.nextQueue = some q → s.readPacket (s.qdesc q) = some (s0, p) →
  let x := s.qdesc q
  let l := newLaunch s0 q x p
  s0.eventRoom l.lead = true →
  let ready := fun k => k < 64 ∧ qdEn (s.qdesc k) = true ∧ qdUsed (s.qdesc k) ≠ 0 ∧ ∀ y ∈ s.launches, y.queue = k →
    y.phase ≠ .waitDeps ∧ (∀ since, y.phase ≠ .waitMap since) ∧ y.phase ≠ .placed ∧
      ∀ st c, y.phase = .ending st c → y.seededAt ≠ 0
  let took := fun (t : State) => qdHead (t.qdesc q) = (qdHead x + 1) % 2 ^ 32 ∧ qdTail (t.qdesc q) = qdTail x ∧ t.q.lastServed = q
  (ready q ∧ ∀ k, ready k → qdPrio (s.qdesc k) ≤ qdPrio x ∧
    (qdPrio (s.qdesc k) = qdPrio x → s.q.lastServed < k → s.q.lastServed < q ∧ q ≤ k) ∧
    (qdPrio (s.qdesc k) = qdPrio x → q ≤ s.q.lastServed → q ≤ k)) ∧
  (let at' := qdBase x + 256 * (qdHead x % qdSlots x)
    let s1 := s.meet at' 256
    (qdLoc x = true → s0 = s ∧ p.toNat = leNat (s.hostRead at' 256)) ∧
    (qdLoc x = false → s1.devBad at' 256 = false → s0 = s1 ∧ p.toNat = leNat (s1.devRead at' 256)) ∧
    (qdLoc x = false → s1.devBad at' 256 = true → p = 0 ∧ s0.q.faults.length = s.q.faults.length + 1)) ∧
  (∀ s1 bytes, packetOk l s0 = true → readMaps l l.key s0 = .ok s1 bytes → dispatchCheck l s1 bytes = none →
    ∃ t, exec .packetTake s = .next t ∧ took t ∧ t.launches.length = s1.launches.length + 1 ∧
      ∃ y, t.launches.getLast? = some y ∧ y.key = s.nextId ∧ y.packet = p ∧ y.phase = .waitDeps ∧ y.queue = q ∧ y.priv = qdPriv x ∧
        y.prio = min (natBits p.toNat 443 442) (qdPrio x) ∧ y.ptroot = qdRoot x ∧
        y.maps = (List.range l.nmaps).map fun i => (mapHalves l bytes i).map halfCore) ∧
  (packetOk l s0 = false → l.cev = 0 → ∃ t, exec .packetTake s = .next t ∧ took t ∧
    t.launches.map (·.key) = (s.launches.map (·.key)).filter (· ≠ s.nextId) ∧
    (t.tower l.lead).events = (s.tower l.lead).events ++ [mkEvent 2 0x06 0 l.id l.originCore 0 0 0 0 |||
      ((s.tower l.lead).eventSeq.zeroExtend 256 <<< 96)])

/-- R95, R98, R296, R382, R383, R384: a launch goes on when its dependences are met, or ends with DEPFAIL where one has failed, or cannot
be read (the model's choice, log 48); its map is the first whose threshold every
column stays below within 1 ms, or then map 0, with a record of the hot columns that may have to wait for room; it is seeded once every core of it is free and no other
launch comes first: every used slot of workgroup j holds a warp of 32 ready threads at ENTRY with zero registers but w0 = ARGVA
and w1 = j, and the scratchpads are zero. -/
def Obligations.LaunchStartResults : Prop := ∀ (s : State) (key : Nat) (l : Launch), s.launchOf key = some l →
  (l.phase = .waitDeps → (∀ i < 4, (l.dep i).1 = 0 ∨ s.eventPlace (l.dep i).1 = true) →
    let s1 := (List.range 4).foldl (fun (u : State) i => if (l.dep i).1 = 0 then u else u.eventMeet (l.dep i).1) s
    let readable := ∀ i < 4, (l.dep i).1 = 0 ∨ s1.eventBad (l.dep i).1 = false
    let met := ∀ i < 4, (l.dep i).1 = 0 ∨ (l.dep i).2 ≤ natBits (s1.eventEntry (l.dep i).1).toNat 31 0
    let fails := fun (faults : Nat) => l.cev = 0 → s.eventRoom l.lead = true → ∃ t, exec (.dependenceMet key) s = .next t ∧
      t.launchOf key = none ∧ t.q.faults.length = s.q.faults.length + faults ∧
      (t.tower l.lead).events = (s.tower l.lead).events ++ [mkEvent 2 0x08 0 l.id l.originCore 0 0 0 0 |||
        ((s.tower l.lead).eventSeq.zeroExtend 256 <<< 96)]
    (readable → met → (l.packet.getLsbD 447 = true ∨ (∀ i < 4, (l.dep i).1 = 0 ∨ (s1.eventEntry (l.dep i).1).getLsbD 63 = false)) →
      ∃ t, exec (.dependenceMet key) s = .next t ∧ (t.launchOf key).map (·.phase) = some (.waitMap s.clock) ∧ t.cores = s.cores) ∧
    (readable → met → l.packet.getLsbD 447 = false →
      (∃ i < 4, (l.dep i).1 ≠ 0 ∧ (s1.eventEntry (l.dep i).1).getLsbD 63 = true) → fails 0) ∧
    (readable → ¬ met → exec (.dependenceMet key) s = .next s1) ∧
    (¬ readable → fails 1)) ∧
  (∀ since i, l.phase = .waitMap since → (s.clock < since + 1050000 ∨ ∀ r ∈ s.mgmt.sensors, r.2.2 < since + 1050000) → i < l.nmaps → (∀ c < 64, s.columnTemp c < 16 * (l.thr s i : Int)) →
    (∀ k < i, ∃ c < 64, 16 * (l.thr s k : Int) ≤ s.columnTemp c) →
    ∃ t, exec (.mapChoice key) s = .next t ∧
      (t.launchOf key).map (fun l => (l.phase, l.map, l.cores)) = some (.placed, i, l.maps.getD i [])) ∧
  (∀ since, l.phase = .waitMap since → ((∀ k < l.nmaps, ∃ c < 64, 16 * (l.thr s k : Int) ≤ s.columnTemp c) ∨
      ∃ r ∈ s.mgmt.sensors, since + 1050000 ≤ r.2.2) →
    since + 1050000 ≤ s.clock →
    ∃ t, exec (.thermalForced key) s = .next t ∧
      (t.launchOf key).map (fun l => (l.phase, l.map, l.cores)) = some (.placed, 0, l.maps.getD 0 []) ∧
      ∃ mask : W64, (∀ c < 64, mask.getLsbD c = decide (16 * (l.thr s 0 : Int) ≤ s.columnTemp c)) ∧
        let r := mkEvent 5 0x20 0 l.id l.originCore 0 0 mask (BitVec.ofNat 64 (l.thr s 0))
        (s.eventRoom l.lead = true → (t.tower l.lead).events = (s.tower l.lead).events ++
          [r ||| ((s.tower l.lead).eventSeq.zeroExtend 256 <<< 96)]) ∧
        (s.eventRoom l.lead = false → (t.tower l.lead).posting = (s.tower l.lead).posting ++ [r])) ∧
  (l.phase = .placed → s.mgmt.ot ≠ 3 → l.cores.Nodup → (∀ d ∈ l.cores, (s.core d).launch = none) →
    (∀ x ∈ s.launches, x.key ≠ l.key → (∃ d ∈ l.cores, d ∈ x.cores) →
      (x.phase = .placed → x.prio ≤ l.prio) ∧ (x.phase = .preempted → x.prio < l.prio)) →
    ∃ t, exec (.launchSeed key) s = .next t ∧ (t.launchOf key).map (fun l => (l.phase, l.seededAt)) = some (.running, s.clock) ∧
      t.mem.dev = s.mem.dev ∧
      ∀ j (h : j < l.cores.length),
        let c := t.core l.cores[j]
        c.launch = some key ∧ c.wg = j ∧ c.scratch = [] ∧ c.acc = Core.reset.acc ∧ c.cvr = Core.reset.cvr ∧ c.ops = [] ∧
        (∀ sl, (c.warp? sl).isSome = (l.slots.contains sl)) ∧
        ∀ sl w, c.warp? sl = some w → w.threads.length = 32 ∧ w.susp = none ∧ w.lgp = 5 ∧ w.b = [] ∧ w.ct = [] ∧ w.ctbank = 0 ∧
          (∀ i < 64, (w.at s.clock (768 + i)).setWidth 64 = if i = 0 then l.argva else if i = 1 then BitVec.ofNat 64 j else 0) ∧
          ∀ u ∈ w.threads, u.pc = l.entry ∧ u.run = .ready ∧ u.v = [] ∧ u.p = 0 ∧ u.k = [] ∧ u.mode = 0 ∧ u.status = 0 ∧
            u.epc = 0 ∧ u.ecause = 0 ∧ u.einfo = 0 ∧ u.dtraps = [])

/-- R114 to R116, R384: a launch that waits for cores stops the running launch of lower priority that was seeded last among
those it may pre-empt and that hold a core it needs; that it does so though other launches may hold the rest of its cores is the
model's choice (log 38). The victim's cores are saved, into pieces of the save pool that no other launch uses (what bytes these then hold
the manual leaves open: free values, log 12), and released once nothing of it is under way; it comes back with all that
it held once its cores are free and no launch comes first. -/
def Obligations.PreemptionResults : Prop := ∀ (s : State) (key : Nat) (l : Launch), s.launchOf key = some l →
  (∀ x, l.phase = .placed ∨ l.phase = .preempted → s.victim l = some x → s.poolUsed + 0x200000 * x.cores.length ≤ s.q.saveSize.toNat →
    x ∈ s.launches ∧ x.phase = .running ∧ x.prio < l.prio ∧ s.mayPreempt x = true ∧ (∃ d ∈ l.cores, (s.core d).launch = some x.key) ∧
    (∀ y ∈ s.launches, y.phase = .running → y.prio < l.prio → s.mayPreempt y = true →
      (∃ d ∈ l.cores, (s.core d).launch = some y.key) → y.seededAt ≤ x.seededAt) ∧
    ∃ t, exec (.preempt key) s = .next t ∧ (t.launchOf x.key).map (·.phase) = some .preempting ∧
      (∀ d ∈ x.cores, (t.core d).stopped = true) ∧ ∀ d, d ∉ x.cores → t.core d = s.core d) ∧
  (l.phase = .preempting → l.cores.Nodup → (∀ d ∈ l.cores, (s.core d).quiet = true) →
    ∃ t, exec (.preemptSave key) s = .next t ∧ (t.launchOf key).map (·.phase) = some .preempted ∧
      (∀ d ∈ l.cores, (t.core d).launch = none ∧ ∃ y c, t.launchOf key = some y ∧ find? y.saved d = some c ∧
        c.scratch = (s.core d).scratch ∧ c.acc = (s.core d).acc ∧ c.cvr = (s.core d).cvr ∧ c.latch = (s.core d).latch ∧
        c.launch = (s.core d).launch ∧ c.wg = (s.core d).wg ∧ c.reserve = [] ∧
        c.warps.map (fun w => (w.1, w.2.threads.map fun u => (u.pc, u.v, u.p, u.k, u.mode, u.status))) =
          (s.core d).warps.map fun w => (w.1, w.2.threads.map fun u => (u.pc, u.v, u.p, u.k, u.mode, u.status))) ∧
      (∃ y, t.launchOf key = some y ∧ y.savePieces.length = l.cores.length ∧ y.savePieces.Nodup ∧
        (∀ x ∈ s.launches, ∀ k ∈ y.savePieces, k ∉ x.savePieces) ∧
        (s.mem.checks = [] → ∀ a, (∀ k ∈ y.savePieces, a < s.q.saveBase.toNat + 0x200000 * k ∨
          s.q.saveBase.toNat + 0x200000 * (k + 1) ≤ a) → t.mem.devByte a = s.mem.devByte a)) ∧
      ∀ d, d ∉ l.cores → { t.core d with tlb := (s.core d).tlb } = s.core d) ∧
  (l.phase = .preempted → s.mgmt.ot ≠ 3 → l.cores.Nodup → l.heldResume = [] → (∀ d ∈ l.cores, (s.core d).launch = none) →
    (∀ x ∈ s.launches, x.key ≠ l.key → (∃ d ∈ l.cores, d ∈ x.cores) →
      (x.phase = .placed → x.prio ≤ l.prio) ∧ (x.phase = .preempted → x.prio ≤ l.prio)) →
    ∃ t, exec (.launchResume key) s = .next t ∧ (t.launchOf key).map (·.phase) = some .running ∧
      ∀ d ∈ l.cores, ∀ c, find? l.saved d = some c → (t.core d).launch = c.launch ∧ (t.core d).scratch = c.scratch ∧
        (t.core d).acc = c.acc ∧ (t.core d).cvr = c.cvr ∧ (t.core d).latch = c.latch ∧
        (t.core d).warps = (c.mapThreads fun u => if u.run = .saved then
          { u with run := u.resume, wake := if u.resume = .sleeping then s.clock + u.wake else u.wake } else u).warps)

/-- R134, R146, R385, R386, R474: a launch all of whose threads have exited and whose operations are done ends, with OK, or
CVRPEND where a register is still signing, in one record, and its cores are free, their registers as they were; a launch that aborts loses its threads at
once and ends in one record once what goes on has completed. -/
def Obligations.LaunchEndResults : Prop := ∀ (s : State) (key : Nat) (l : Launch), s.launchOf key = some l → l.cev = 0 →
  s.eventRoom l.lead = true →
  let record := fun (t : State) (ty st cause d slot lane : Nat) (x y : W64) => t.launchOf key = none ∧
    (∀ e ∈ s.launches, e.key ≠ key → e ∈ t.launches) ∧
    (t.tower l.lead).events = (s.tower l.lead).events ++ [mkEvent ty st cause l.id d slot lane x y |||
      ((s.tower l.lead).eventSeq.zeroExtend 256 <<< 96)]
  (l.phase = .running → (∀ d ∈ l.cores, (s.core d).over = true) →
    let freed := fun (t : State) => ∀ d ∈ l.cores, (t.core d).launch = none ∧ (t.core d).warps = (s.core d).warps
    let pending := ∃ d ∈ l.cores, ∃ v ∈ (s.core d).cvr, v.2.st = .signing
    (¬ pending → ∃ t, exec (.launchEnd key) s = .next t ∧ freed t ∧
      record t 1 0 0 l.originCore 0 0 (BitVec.ofNat 64 (l.firstAt.getD 0)) (BitVec.ofNat 64 s.clock)) ∧
    (pending → ∃ t, exec (.launchEnd key) s = .next t ∧ freed t ∧
      record t 2 0x0A 0 l.originCore 0 0 0 0)) ∧
  (∀ status cause, l.phase = .ending status cause → status ≠ 0x0E →
    (l.swept = false → (∀ f ∈ s.framesOf l, f = 0) → ∃ t, exec (.launchAbort key) s = .next t ∧
      ∀ d ∈ l.cores, (s.core d).launch = some key → ∀ w ∈ (t.core d).warps, ∀ u ∈ w.2.threads, u.run = .exited) ∧
    (l.swept = true → (∀ d ∈ l.cores, (s.core d).launch = some key → (s.core d).over = true) →
      ∃ t, exec (.launchAbort key) s = .next t ∧ (∀ d ∈ l.cores, (s.core d).launch = some key → (t.core d).launch = none) ∧
        match status, l.report with
        | 9, some (d, slot, lane, epc, info) => record t 2 9 cause d slot lane epc info
        | 0, _ => record t 1 0 0 l.originCore 0 0 0 0
        | st, _ => record t 2 st 0 l.originCore 0 0 0 0))

/-! ### The host (15, 16, 25) -/

/-- R374, R375, R377, R378, R413, R415, R423, R435 to R437, R476, R512, R513, R515: a host write of a whole register of BAR0 gives it a
value in its range, or acts as its row says; a value out of its range is ignored and counted; an unassigned or read-only offset takes
nothing. In BAR4 the argument window keeps what is written, and a write of MBBELL submits the request, or sets OVERRUN where one is
being served. -/
def Obligations.HostRegisterResults : Prop := ∀ (s : State) (v : W64),
  let put := fun (bar off size : Nat) => exec (.configRegisterWrite bar off size (v.zeroExtend 512)) s
  let ignored := fun (r : Host.Outcome State Fault Refusal) => ∃ t, r = .next t ∧
    { t with q := { t.q with cfgIgn := s.q.cfgIgn } } = s ∧ t.q.cfgIgn.toNat = min (s.q.cfgIgn.toNat + 1) (2 ^ 32 - 1)
  let x := v.toNat
  let w := v.setWidth 32
  let n := w.toNat
  let sets := fun (off size : Nat) (inRange : Prop) (u : State) =>
    (inRange → put 0 off size = .next u) ∧ (¬ inRange → ignored (put 0 off size))
  let inHbm4 := x < 0x006000000000
  let clear := fun (old : W64) => old &&& (if natBits x 31 0 = 0 then ~~~(0xFFFFFFFF#64) else ~~~0#64) &&&
      (if natBits x 47 32 = 0 then ~~~(0xFFFF00000000#64) else ~~~0#64)
  sets 0x8 8 (x % 2 ^ (30 + s.mem.bar2Log) = 0) { s with mem := { s.mem with w2base := v } } ∧
  sets 0x110000 8 (x % 4096 = 0 ∧ inHbm4) { s with q := { s.q with evtBase := v } } ∧
  sets 0x110008 4 (1 ≤ n ∧ n ≤ 2 ^ 20) { s with q := { s.q with evtSize := w } } ∧
  sets 0x110010 8 (x % 4096 = 0) { s with q := { s.q with hev := putD s.q.hev 0 v 0 } } ∧
  sets 0x110018 8 (4 ≤ x ∧ x ≤ 16) { s with q := { s.q with hev := putD s.q.hev 1 v 0 } } ∧
  sets 0x110020 8 True { s with q := { s.q with hev := putD s.q.hev 2 v 0 } } ∧
  sets 0x110040 8 (x % 4096 = 0) { s with q := { s.q with hfl := putD s.q.hfl 0 v 0 } } ∧
  sets 0x110048 8 (4 ≤ x ∧ x ≤ 16) { s with q := { s.q with hfl := putD s.q.hfl 1 v 0 } } ∧
  sets 0x110080 8 (x % 0x200000 = 0 ∧ x + s.q.saveSize.toNat ≤ 0x006000000000) { s with q := { s.q with saveBase := v } } ∧
  sets 0x110088 8 (x % 0x200000 = 0 ∧ s.q.saveBase.toNat + x ≤ 0x006000000000) { s with q := { s.q with saveSize := v } } ∧
  sets 0x110100 4 True { s with q := { s.q with plThresh := w &&& 0xFF } } ∧
  sets 0x110110 4 True (if w = 0 then { s with q := { s.q with cfgIgn := 0 } } else s) ∧
  sets 0x110200 8 (s.ctx.count = 0 ∧ x % 4096 = 0 ∧ inHbm4) { s with ctx := { s.ctx with base := v } } ∧
  sets 0x110208 4 (s.ctx.count = 0 ∧ 1 ≤ n ∧ n ≤ 65536) { s with ctx := { s.ctx with cap := w } } ∧
  sets 0x110210 4 True (if w.getLsbD 31 then { s with ctx := { s.ctx with err := false } } else s) ∧
  sets 0x110308 4 (s.cad.en = false ∧ 1 ≤ n ∧ n ≤ 2 ^ 22) { s with cad := { s.cad with n := w } } ∧
  sets 0x110310 4 (s.cad.en = false ∧ 4 ≤ n ∧ n ≤ 24) { s with cad := { s.cad with bkt := w } } ∧
  sets 0x110318 8 (s.cad.en = false ∧ x % 4096 = 0 ∧ inHbm4) { s with cad := { s.cad with tab := v } } ∧
  sets 0x110320 8 (s.cad.en = false ∧ x % 4096 = 0 ∧ inHbm4) { s with cad := { s.cad with ref := v } } ∧
  sets 0x110328 8 (s.cad.en = false ∧ x % 4096 = 0 ∧ inHbm4) { s with cad := { s.cad with fq := v } } ∧
  sets 0x110330 8 (s.cad.en = false ∧ x % 65536 = 0 ∧ v.extractLsb' 54 10 = if v.getLsbD 53 then 0x3FF else 0)
    { s with cad := { s.cad with va := v } } ∧
  (∀ p < 16, put 0 (0x110408 + 0x10 * p) 8 = if v.getLsbD 8 then exec (.linkClr p) s else .next s) ∧
  (w = 0 → ignored (put 0 0x110500 4)) ∧
  (w ≠ 0 → (∃ d < 8, (s.domain d).en = true) → put 0 0x110500 4 = .next s) ∧
  (w ≠ 0 → (∀ d < 8, (s.domain d).en = false) → put 0 0x110500 4 = .next { s with fab := { s.fab with devid := w } }) ∧
  (∀ d < 8,
    let y := s.domain d
    let s1 := if y.en then s else s.setDomain d { y with n := natBits x 46 40 }
    (put 0 (0x111000 + 0x400 * d) 8 = if v.getLsbD 63 then exec (.domainEnable d) s1 else exec (.domainDisable d) s1) ∧
    ∀ m < 64, put 0 (0x111100 + 0x400 * d + 4 * m) 4 =
      .next (if y.en then s else s.setDomain d { y with members := putD y.members m w 0 })) ∧
  ((∀ h < 8, put 0 (0x130100 + 0x10 * h) 8 =
      .next { s with mem := { s.mem with hbmEcc := putD s.mem.hbmEcc h (clear (findD s.mem.hbmEcc h 0)) 0 } }) ∧
    ∀ t < 4, put 0 (0x130180 + 0x10 * t) 8 = .next (s.modTower t fun y => { y with eccBase := clear y.eccBase }) ∧
      put 0 (0x1301C0 + 0x10 * t) 8 = .next (s.modTower t fun y => { y with eccControl := clear y.eccControl })) ∧
  (∀ i < 16384, put 0 (0x140000 + 0x10 * i) 8 = .next { s with mem := { s.mem with pcfg := putD s.mem.pcfg i (v &&& 0x1FF) 0 } } ∧
    put 0 (0x140008 + 0x10 * i) 8 = .next { s with mem := { s.mem with pval := putD s.mem.pval i (v &&& 0xFFFFFFFFFFFF) 0 } }) ∧
  (∀ q < 64, ∀ z : BitVec 512,
    let old := s.qdesc q
    let r := exec (.configRegisterWrite 0 (0x100000 + 0x40 * q) 64 z) s
    let same := fun (hi lo : Nat) => natBits old.toNat hi lo = natBits z.toNat hi lo
    let fields := (same 131 128 ∨ 1 ≤ natBits z.toNat 131 128 ∧ natBits z.toNat 131 128 ≤ 12) ∧
      (same 127 64 ∨ natBits z.toNat 127 64 % 32768 = 0 ∧ natBits z.toNat 127 64 + 32768 ≤ 0x006000000000) ∧
      (same 63 0 ∨ natBits z.toNat 62 0 % 256 = 0 ∧ (z.getLsbD 63 = true ∨ natBits z.toNat 62 0 < 0x006000000000))
    (qdEn z = true → r = exec (.queueEnable q z) s) ∧
    (qdEn z = false → qdEn old = true → same 511 256 → same 191 140 → same 137 0 → r = exec (.queueDisable q) s) ∧
    (qdEn z = false → qdEn old = true → ¬ (same 511 256 ∧ same 191 140 ∧ same 137 0) → r = exec (.queueDisable q)
      { s with q := { s.q with cfgIgn := BitVec.ofNat 32 (min (s.q.cfgIgn.toNat + 1) (2 ^ 32 - 1)) } }) ∧
    (qdEn z = false → qdEn old = false → ¬ fields → ignored r) ∧
    (qdEn z = false → qdEn old = false → fields → ∃ y, r = .next (s.setQdesc q y) ∧
      ∀ i < 512, y.getLsbD i = if (192 ≤ i ∧ i < 256) ∨ i = 139 then old.getLsbD i
        else if 256 ≤ i ∨ (140 ≤ i ∧ i < 192) ∨ i = 134 ∨ i = 135 then false else z.getLsbD i)) ∧
  (∀ q < 64, put 0 (0x200000 + 0x1000 * q) 4 = exec (.doorbell q (v.setWidth 32)) s) ∧
  put 0 0x1100C0 8 = exec (.evsignal v) s ∧ put 0 0x110108 4 = exec (.abort (v.setWidth 32)) s ∧
  put 0 0x110218 8 = exec (.ctxadd v) s ∧ put 0 0x110230 8 = exec .sync s ∧ put 0 0x110050 8 = exec (.hflheadWrite v) s ∧
  put 0 0x110220 8 = (if natBits v.toNat 63 62 = 0 then exec (.resumeAction0 (v.setWidth 32)) s
    else if natBits v.toNat 63 62 = 1 then exec (.resumeFrameexh (v.setWidth 32)) s else .next s.resumeBad) ∧
  put 0 0x110300 4 = (if v.getLsbD 0 then exec .kvenEnable s else exec .kvenDisable s) ∧
  (∀ off ∈ [0, 0x50, 0x110228, 0x110338], put 0 off 4 = .next s) ∧ put 0 0x110028 8 = .next s ∧ put 0 0x110030 8 = .next s ∧
  put 0 0x110058 8 = .next s ∧
  (∀ i < 4096, ∃ t, put 4 (0x1000 + i) 1 = .next t ∧ findD t.mgmt.mbArg i 0 = v.setWidth 8 ∧
    ∀ k, k ≠ i → findD t.mgmt.mbArg k 0 = findD s.mgmt.mbArg k 0) ∧
  (s.mgmt.busy = false → ∃ t, put 4 8 4 = .next t ∧ t.mgmt.busy = true ∧ t.mgmt.served = false ∧
    t.mgmt.serving = some ((s.mgmt.mbReq.extractLsb' 0 16).toNat, (s.mgmt.mbReq.extractLsb' 16 16).toNat,
      (List.range (min (s.mgmt.mbReq.extractLsb' 16 16).toNat 4096)).map fun i => findD s.mgmt.mbArg i 0)) ∧
  (s.mgmt.busy = true → put 4 8 4 = exec .overrun s ∧ ∃ t, exec .overrun s = .next t ∧ t.mgmt.overrun = true ∧
    t.mgmt.serving = s.mgmt.serving)

/-- R306, R311, R423, R512 to R514: writes and reads through BAR2, the change of its size, and the enable of the cadastre,
which empties the table, zeroes the counts and fills the free queue with the numbers of the blocks. -/
def Obligations.WindowAndEnableResults : Prop := ∀ (s : State),
  (∀ off bytes, off + bytes.length ≤ 2 ^ (30 + s.mem.bar2Log) →
    (∀ c ∈ s.mem.checks, EccUnit.meets (c.1, 64) (s.mem.w2base.toNat + off) bytes.length = false) → ∃ t, exec (.bar2Write off bytes) s = .next t ∧ t.mem.host = s.mem.host ∧
    ∀ a, t.mem.devByte a = if s.mem.w2base.toNat + off ≤ a ∧ a < s.mem.w2base.toNat + off + bytes.length ∧ devValid a = true
      then bytes.getD (a - (s.mem.w2base.toNat + off)) 0 else s.mem.devByte a) ∧
  (∀ off size, off + size ≤ 2 ^ (30 + s.mem.bar2Log) → ∃ t, exec (.bar2Read off size) s = .next t ∧ t.mem.hostRead.length = size ∧
    t.mem.dev = (s.meet (s.mem.w2base.toNat + off) size).mem.dev ∧ ∀ i < size, let a := s.mem.w2base.toNat + off + i
      (devValid a = false → t.mem.hostRead.getD i 0 = 0xFF) ∧
      (devValid a = true → s.devBad a 1 = false → t.mem.hostRead.getD i 0 = s.mem.readByte a)) ∧
  (∀ n, n ≤ 6 → ∃ t, exec (.bar2Resize n) s = .next t ∧ t.mem.bar2Log = n ∧ t.mem.w2base.toNat % 2 ^ (30 + n) = 0 ∧
    t.mem.w2base.toNat ≤ s.mem.w2base.toNat ∧ s.mem.w2base.toNat < t.mem.w2base.toNat + 2 ^ (30 + n)) ∧
  (∃ t, exec .kvenDisable s = .next t ∧ t.cad.en = false ∧ t.mem = s.mem ∧ t.cad.free = s.cad.free) ∧
  let c := s.cad
  let n := c.n.toNat
  let size : Nat := 128 * 2 ^ c.bkt.toNat
  c.en = false → 1 ≤ n → n ≤ 2 ^ 22 → 4 ≤ c.bkt.toNat → c.bkt.toNat ≤ 24 → c.va.toNat % 65536 = 0 →
    c.tab.toNat + size ≤ hbmEnd → c.ref.toNat + 2 * n ≤ hbmEnd → c.fq.toNat + 4 * n ≤ hbmEnd →
    (∀ k ∈ s.mem.checks, ∀ r ∈ [(c.tab.toNat, size), (c.ref.toNat, 2 * n), (c.fq.toNat, 4 * n)],
      EccUnit.meets (k.1, 64) r.1 r.2 = false) →
    ∃ t, exec .kvenEnable s = .next t ∧ t.cad.en = true ∧ t.cad.free = n ∧ t.cad.head = 0 ∧
      ∀ a, t.mem.devByte a =
        if c.fq.toNat ≤ a ∧ a < c.fq.toNat + 4 * n then BitVec.ofNat 8 ((a - c.fq.toNat) / 4 / 256 ^ ((a - c.fq.toNat) % 4))
        else if (c.ref.toNat ≤ a ∧ a < c.ref.toNat + 2 * n) ∨ (c.tab.toNat ≤ a ∧ a < c.tab.toNat + size) then 0
        else s.mem.devByte a

/-! ### Links, domains and collectives (17) -/

/-- R431, R432, R434: the states of a UALink port. It goes down on loss of signal, where the peer owes acknowledgements and has made
none for 1 ms, after 10 ms of retraining, and after 32 replays in 1 ms at its lowest rate; before that it retrains at the next lower rate; a port that
locks comes up with the peer and the rate found; acknowledged flits leave the replay buffer; a flit with an error is counted
and discarded. What counts as a replay and as a retrain, and that the traffic to a peer that a port going down had taken without an
acknowledgement goes by another port or waits, are the model's choices (logs 29 and 70). -/
def Obligations.LinkStateResults : Prop := ∀ (s : State) (p : Nat), p < 16 →
  let l := s.link p
  let r := l.row
  let same := fun (q : BitVec 128) => rowPeerId q = rowPeerId r ∧ rowPeerPort q = rowPeerPort r ∧ rowReplays q = rowReplays r
  let down := fun (i : Instr) => ∃ t, exec i s = .next t ∧ rowState (t.link p).row = 0 ∧ (t.link p).retraining = none ∧
    same (t.link p).row ∧ rowRate (t.link p).row = rowRate r ∧ t.cores = s.cores ∧ t.mem = s.mem ∧
    ((∀ x ∈ s.fab.sent, x.1 ≠ p) → (t.link p).replay = l.replay ∧ (t.link p).held = l.held) ∧ (∀ x ∈ t.fab.sent, x.1 ≠ p) ∧
    ∀ o, (p, o) ∈ s.fab.sent → o ∈ t.fab.outbox ∨ ∃ k, k ≠ p ∧ (k, o) ∈ t.fab.sent
  let retrains := fun (i : Instr) (lower : Bool) => ∃ t, exec i s = .next t ∧ (t.link p).retraining = some s.clock ∧
    (t.link p).lower = lower ∧ rowRetrains (t.link p).row = min (rowRetrains r + 1) 255 ∧ rowState (t.link p).row = rowState r ∧
    same (t.link p).row ∧ (∀ k, k ≠ p → t.link k = s.link k) ∧ t.fab.domains = s.fab.domains
  let up := fun (i : Instr) (state rate : Nat) (peerId : BitVec 32) (peerPort : Nat) => ∃ t, exec i s = .next t ∧
    (let q := (t.link p).row
     rowState q = state ∧ rowRate q = rate ∧ rowPeerId q = peerId ∧ rowPeerPort q = peerPort) ∧ (t.link p).retraining = none
  (rowUp r = true → down (.lossOfSignal p)) ∧
  (rowUp r = true → l.retraining = none → l.replay ≠ [] →
    if l.ackAt + 1050000 ≤ s.clock then down (.ackTimeout p) else exec (.ackTimeout p) s = .next s) ∧
  (∀ c, l.retraining = some c → c + 10500000 ≤ s.clock → down (.retrainTimeout p)) ∧
  (rowUp r = true → l.retraining = none → 32 ≤ (l.replayTimes.filter fun c => decide (s.clock < c + 1050000)).length →
    (¬ (rowRate r < 2 ∧ rowPeerId r ≠ 0) → down (.replayLimit p)) ∧
    (rowRate r < 2 ∧ rowPeerId r ≠ 0 → retrains (.replayLimit p) true)) ∧
  (l.retraining = none → retrains (.managementRetrain p) false) ∧
  (l.retraining.isSome ∨ rowState r = 0 → (∀ c, l.retraining = some c → s.clock < c + 10500000) →
    (l.lower = false → ∀ rate peerId peerPort, rate ≤ 2 → peerPort < 16 → (rate = 0 ∨ peerId ≠ 0) →
      up (.retrainLock p rate peerId peerPort) (if rate = 0 then 1 else 2) rate peerId peerPort) ∧
    (l.lower = true → rowRate r < 3 → ∀ rate peerId peerPort,
      up (.retrainLock p rate peerId peerPort) 2 (rowRate r + 1) (rowPeerId r) (rowPeerPort r))) ∧
  (∃ t, exec (.linkClr p) s = .next t ∧ rowReplays (t.link p).row = 0 ∧ rowRetrains (t.link p).row = 0 ∧
    rowState (t.link p).row = rowState r ∧ rowRate (t.link p).row = rowRate r ∧ rowPeerId (t.link p).row = rowPeerId r ∧
    ∀ k, k ≠ p → t.link k = s.link k) ∧
  (rowUp r = false ∨ l.retraining.isSome → ∀ ok m, exec (.flitReceive p ok m) s = .next s) ∧
  (∀ n, ∃ t, exec (.flitAck p n) s = .next t ∧ (t.link p).replay ++ (t.link p).held = l.replay.drop n ++ l.held ∧
    (l.retraining = none → (t.link p).held = [] ∨ 256 ≤ (t.link p).replay.length) ∧ (t.link p).row = r) ∧
  (rowUp r = true → l.retraining = none →
    (∀ m, ∃ t, exec (.flitReceive p false m) s = .next t ∧ rowReplays (t.link p).row = min (rowReplays r + 1) 65535 ∧
      (t.link p).replayTimes.getLast? = some s.clock ∧ rowState (t.link p).row = rowState r ∧ t.mem = s.mem ∧ t.fab.inbox = s.fab.inbox) ∧
    (∀ pa bytes, ∃ t, exec (.flitReceive p true (.peerWrite pa bytes)) s = .next t ∧
      t.fab.inbox = s.fab.inbox ++ [(p, .peerWrite pa bytes)] ∧ t.mem = s.mem) ∧
    (∀ pa, ∃ t, exec (.flitReceive p true (.peerRead pa)) s = .next t ∧ t.fab.inbox = s.fab.inbox ++ [(p, .peerRead pa)]) ∧
    ∀ tag status old, exec (.flitReceive p true (.atqReply tag status old)) s = exec (.atqReply tag status old) s)

/-- R436 to R440, R449, R452: a domain whose table is in order is enabled with GEN 0 and begins a round of agreement, and is
refused otherwise; disabling it ends every COLL of it; a round gathers the rows of every member, starts again with a report that has
changed, and takes those not heard within 1 ms to have no ports; the commit makes GEN one more than the generation from which the
round began and derives the live edges and the trees, a domain without a tree being split. How a round restarts and which reports
are sent again is the model's choice (log 46). -/
def Obligations.DomainResults : Prop := ∀ (s : State) (d : Nat), d < 8 →
  let x := s.domain d
  let ids := (List.range x.n).map fun m => (x.member m).toNat
  (x.en = false →
    (∀ self, (List.range x.n).find? (fun m => x.member m == s.fab.devid) = some self → x.n ≤ 64 → strictly ids = true →
      s.fab.devid ≠ 0 → ∃ t, exec (.domainEnable d) s = .next t ∧
        (let y := t.domain d
         y.en = true ∧ y.self = self ∧ y.gen = 0 ∧ y.dstate = 1 ∧ y.round = some s.clock ∧ y.refused = false ∧ y.n = x.n ∧
         y.members = x.members ∧ y.reports.map (·.1) = [self]) ∧ ∀ k, k ≠ d → t.domain k = s.domain k) ∧
    ((∀ m < x.n, x.member m ≠ s.fab.devid) ∨ 64 < x.n ∨ strictly ids = false ∨ s.fab.devid = 0 →
      exec (.domainEnable d) s = .next (s.setDomain d { x with refused := true })) ∧
    exec (.domainDisable d) s = .next (s.setDomain d { x with refused := false })) ∧
  (x.en = true → ∃ t, exec (.domainDisable d) s = .next t ∧ (t.domain d).en = false ∧ (t.domain d).dstate = 0 ∧
    (t.domain d).round = none ∧
    ((∀ c ∈ x.colls, c.ix < 2 ^ 64) → ∀ q ∈ s.collOps d, ∀ ix va r ib ob bar cost g, q.2.body = .coll d ix va r ib ob bar cost g →
      ix < 2 ^ 64 →
      (∀ p ∈ s.collOps d, ∀ i va r ib ob bar cost g, p.2.body = .coll d i va r ib ob bar cost g →
        i < 2 ^ 64 ∧ (i = ix ∨ p.2.id = q.2.id → p = q)) →
      ∃ c ∈ (t.domain d).colls, c.core = (match x.coll? ix with | some c => c.core | none => q.1) ∧
        c.op = (match x.coll? ix with | some c => c.op | none => q.2.id) ∧ (c.ended.isSome ∨ c.stop.isSome))) ∧
  (∀ member rows, x.en = true → x.round.isSome → member < x.n → member ≠ x.self → (∀ q ∈ x.reports, q.1 ≠ member) →
    ∃ t, exec (.agreementReport d member rows) s = .next t ∧ (t.domain d).reports.Perm ((member, rows) :: x.reports) ∧
      (t.domain d).round = x.round) ∧
  (∀ member rows old, x.en = true → x.round.isSome → member < x.n → member ≠ x.self → (member, old) ∈ x.reports →
    (∀ q ∈ x.reports, q.1 = member → q.2 ≠ rows) → ∃ t, exec (.agreementReport d member rows) s = .next t ∧
      (t.domain d).reports.Perm ((member, rows) :: x.reports.filter fun q => q.1 != member) ∧ (t.domain d).round = some s.clock) ∧
  (∀ c, x.round = some c → c + 1050000 ≤ s.clock → ∃ t, exec (.agreementReportTimeout d) s = .next t ∧
    ∀ m < x.n, (∃ rows, (m, rows) ∈ (t.domain d).reports) ∧ ((∀ q ∈ x.reports, q.1 ≠ m) → (m, []) ∈ (t.domain d).reports)) ∧
  (x.en = true → x.round.isSome → x.n ≤ x.reports.length → x.wanted = false → x.early = [] →
    ∃ t, exec (.agreementCommit d) s = .next t ∧
      let y := t.domain d
      let rows := fun m => ((x.reports.find? (·.1 == m)).map (·.2)).getD []
      y.gen = x.base + 1 ∧ y.round = none ∧ y.live = liveEdges x rows ∧ y.trees = deriveTrees x.n y.live 8 0 [] ∧
      y.t = y.trees.length ∧ y.dstate = if y.trees = [] then 3 else 2)

/-- R445 to R449, R451, R452: a COLL of a domain. A COLL begins in the order of its domain, with its own fields and headers; those of
another member are kept once, and once all have come the COLL ends where they differ; a member reads all of its input, granule by granule,
before it writes (the model's choice, log 72); a partial is kept once, and a member that has every part of a chunk marks it and sends it up;
a result that has come down is written, one granule of 16 bytes at a time in an order that nothing fixes (log 65), and then marked 2; an
addition is element by element, residues modulo their channel's modulus; marks
are kept once, and once all are known the chunks that some member lacks start again; once every mark is 2 the member tells the
others, and once all have told the COLL ends; a member that stops ends the COLL with ABORTED. -/
def Obligations.CollectiveStepResults : Prop := ∀ (s : State) (dom ix member : Nat),
  let x := s.domain dom
  let after := fun (i : Instr) (f : Coll → Prop) => ∃ t, exec i s = .next t ∧ ∃ e, (t.domain dom).coll? ix = some e ∧ f e
  x.early = [] →
  (∀ d o va r ib ob bar cost t hs, x.en = true → (d, o) ∈ s.collOps dom → o.body = .coll dom ix va r ib ob bar cost true →
    (∀ q ∈ s.collOps dom, (∃ va r ib ob bar cost g, q.2.body = .coll dom ix va r ib ob bar cost g) → q = (d, o)) →
    s.mayBegin d o = true → x.dstate = 2 → x.round = none → x.coll? ix = none → x.colls.length < 8 →
    (∀ q ∈ s.collOps dom, ∀ i va r ib ob bar cost g, q.2.body = .coll dom i va r ib ob bar cost g → i < ix → (x.coll? i).isSome) →
    collHeaders d o r ib va x.self s = .ok t hs →
    after (.collHeaderExchange dom ix x.self [] []) fun e => e.core = d ∧ e.op = o.id ∧ e.headers = [(x.self, clFields r, hs)]) ∧
  ∀ c : Coll, x.coll? ix = some c → x.en = true → (∀ p ∈ x.past, p.1 ≠ ix) →
  (∀ fields hs, member ≠ x.self → member < x.n → x.round = none → (∀ h ∈ c.headers, h.1 ≠ member) →
    (c.headers.length + 1 < x.n → after (.collHeaderExchange dom ix member fields hs) fun e =>
      e.headers.Perm ((member, fields, hs) :: c.headers) ∧ e.agreed = c.agreed) ∧
    (∀ o va r ib ob bar cost g, c.headers.length + 1 = x.n → s.collOp c = some o → o.body = .coll dom ix va r ib ob bar cost g →
      c.agreed = false → c.ended = none → c.stop = none → (∃ h ∈ c.headers, h.2.1 ≠ fields) →
      after (.collHeaderExchange dom ix member fields hs) fun e => e.ended = some 2)) ∧
  (∀ marks, x.round = none → member ≠ x.self → member < x.n → c.peerMarks ≠ [] → (∀ q ∈ c.peerMarks, q.1 ≠ member) →
    (∃ m < x.n, m ≠ member ∧ m ∉ c.doneFrom ∧ ∀ q ∈ c.peerMarks, q.1 ≠ m) →
    after (.markVectorMessage dom ix member marks) fun e => e.peerMarks = c.peerMarks ++ [(member, marks)] ∧ e.marks = c.marks) ∧
  (∀ k, s.collMarking dom ix = some k → (∀ m < x.n, m ∈ c.doneFrom ∨ ∃ q ∈ c.peerMarks, q.1 = m) →
    (∀ ch < clChunks k.r, (∃ q ∈ c.peerMarks, q.2.getD ch 0 < 2) → c.mark ch = 0) →
    after (.markVectorMessage dom ix x.self []) fun e => e.peerMarks = [] ∧ e.partials = [] ∧ (∀ ch, e.mark ch = c.mark ch) ∧
      (∀ ch, ch ∈ e.sentUp ↔ ch ∈ c.sentUp ∧ (clChunks k.r ≤ ch ∨ ∀ q ∈ c.peerMarks, 2 ≤ q.2.getD ch 0)) ∧
      ∀ ch, ch ∈ e.sentDown ↔ ch < clChunks k.r ∧ ∀ q ∈ c.peerMarks, 2 ≤ q.2.getD ch 0) ∧
  (∀ k ch bs, s.collCtx dom ix = some k → ch < clChunks k.r → member ≠ x.self → member < x.n →
    member ∈ x.children (k.tree ch) → clAdds k.r = true →
    bs.length = (clFull k.r k.elems ch).2 → (∀ p ∈ c.partials, p.1 = ch → p.2.1 ≠ member) →
    after (.collChunkMessage dom ix ch member true bs) fun e =>
      e.partials = c.partials ++ [(ch, member, bs)] ∧ e.marks = c.marks ∧ e.sentUp = c.sentUp) ∧
  (∀ k ch t, s.collCtx dom ix = some k → ch < clChunks k.r → (∀ w ∈ c.writing, w.1 ≠ ch) → collOwn k ch s = .ok t () →
    exec (.collChunkMessage dom ix ch x.self false []) s = .next t) ∧
  (∀ k ch bs t, s.collCtx dom ix = some k → ch < clChunks k.r → (∀ w ∈ c.writing, w.1 ≠ ch) → clAdds k.r = true → clFmt k.r ≠ 0 →
    let old := (find? c.inputs ch).getD []
    let size := min (clChunk k.r) (clLen k.r - ch * clChunk k.r)
    let at' := vaOf ((brBase k.ib).toInt + clIoff k.r + (ch * clChunk k.r : Nat) + old.length)
    old.length < size → engRead k.d 2 k.o k.va at' (min (16 - at'.toNat % 16) (size - old.length)) s = .ok t bs →
    after (.collChunkMessage dom ix ch x.self false []) fun e =>
      find? e.inputs ch = some (old ++ bs) ∧ e.marks = c.marks ∧ e.sentUp = c.sentUp ∧ e.writing = c.writing) ∧
  (∀ k ch bs u ps, s.collCtx dom ix = some k → ch < clChunks k.r → (∀ w ∈ c.writing, w.1 ≠ ch) → clAdds k.r = true →
    (∀ j < clChunks k.r, (find? c.inputs j).map List.length = some (clFull k.r k.elems j).2) → find? c.inputs ch = some bs →
    x.children (k.tree ch) = [] → k.isRoot ch = false → c.mark ch = 0 → ch ∉ c.sentUp → k.inOrder ch k.wentUp = true →
    let m := if k.takes ch then 1 else 2
    engWrite k.d 2 k.o k.va (clMark k.r + BitVec.ofNat 64 ch) [BitVec.ofNat 8 m] s = .ok u ps →
    after (.collChunkMessage dom ix ch x.self false []) fun e => e.mark ch = m ∧ e.sentUp = c.sentUp ++ [ch] ∧
      ∀ v p edge, exec (.collChunkMessage dom ix ch x.self false []) s = .next v → x.parent (k.tree ch) = some p →
        (x.tree (k.tree ch)).find? (fun e => (e.1 == p && e.2.1 == x.self) || (e.1 == x.self && e.2.1 == p)) = some edge →
        let q := u.edgePort x edge.2.2
        (v.link q).replay ++ (v.link q).held = (u.link q).replay ++ (u.link q).held ++
          [.collChunk dom x.gen.toNat ix ch x.self true bs]) ∧
  (∀ k ch bs, s.collCtx dom ix = some k → ch < clChunks k.r → x.parent (k.tree ch) = some member → member ≠ x.self → member < x.n →
    k.isRoot ch = false → k.takes ch = true → c.mark ch ≠ 2 → (∀ w ∈ c.writing, w.1 ≠ ch) →
    (∀ j < clChunks k.r, k.hasInput j = true → (find? c.inputs j).map List.length = some (clFull k.r k.elems j).2) → k.inOrder ch k.cameDown = true →
    clFmt k.r ≠ 0 → clOp k.r ≠ 1 → bs.length = (clFull k.r k.elems ch).2 →
    let start := vaOf ((brBase k.ob).toInt + clOoff k.r + ch * clChunk k.r)
    start.toNat + bs.length < 2 ^ 64 →
    after (.collChunkMessage dom ix ch member false bs) fun e => e.marks = c.marks ∧ ∃ w, e.writing = c.writing ++ [(ch, w, bs)] ∧
      w.flatMap (·.2) = bs ∧ ∀ p ∈ w, p.2 ≠ [] ∧ p.1.toNat / 16 = (p.1.toNat + p.2.length - 1) / 16 ∧ start.toNat ≤ p.1.toNat ∧
        p.2 = (bs.drop (p.1.toNat - start.toNat)).take p.2.length) ∧
  (∀ k ch w bs, s.collCtx dom ix = some k → ch < clChunks k.r → c.writing.find? (·.1 == ch) = some (ch, w, bs) →
    (w ≠ [] → ∃ i p, w[i]? = some p ∧ ∀ u ps, engWrite k.d 2 k.o k.va p.1 p.2 s = .ok u ps →
      after (.collChunkMessage dom ix ch x.self false []) fun e =>
        e.writing.find? (·.1 == ch) = some (ch, w.eraseIdx i, bs) ∧ e.marks = c.marks) ∧
    (w = [] → ∀ u ps, engWrite k.d 2 k.o k.va (clMark k.r + BitVec.ofNat 64 ch) [2] s = .ok u ps →
      after (.collChunkMessage dom ix ch x.self false []) fun e => e.mark ch = 2 ∧ ∀ q ∈ e.writing, q.1 ≠ ch)) ∧
  (∀ (r : List (BitVec 8)) ch (a b : List (BitVec 8)) i, a.length = b.length →
    let z := if clFmt r ≠ 0 then 4 else if ch % 9 < 7 then 1 else 2
    let el := fun (l : List (BitVec 8)) => leNat ((l.drop (z * i)).take z)
    i < a.length / z → (clFmt r ≤ 1 → el (collAdd r ch a b).1 = (el a + el b) % if clFmt r = 0 then Config.modulus (ch % 9) else 2 ^ 32)) ∧
  (∀ k, s.collCtx dom ix = some k → (∀ m ∈ collMarks k.r c, m = 2) →
    (c.doneSent = false → c.doneFrom.length + 1 < x.n → after (.collCompletionRound dom ix) fun e =>
      e.doneSent = true ∧ x.self ∈ e.doneFrom ∧ e.ended = none) ∧
    (∀ t, c.doneSent = true → x.n ≤ c.doneFrom.length → collFinish c.core k.o (s.collEnd dom ix 0) = .ok t () →
      exec (.collCompletionRound dom ix) s = .next t)) ∧
  (c.ended = none → c.stop = none → x.round = none → member ≠ x.self → member < x.n →
    after (.memberStopped dom ix member) fun e => e.ended = some 4)

/-! ### Management (01, 05, 10, 18, 25) -/

/-- R20 to R22, R26, R151, R268, R469, R522 to R525: sensors, risers, channels and cooling loops. A riser keeps its old timing
until it is idle; more than 16 retries within one second lower its rate, and mark the core at quarter rate, which leaves service once no
launch holds it; the channel whose corrections rose by 64 within a second is fenced, or reported where another one is; a loop whose flow has been
below 50 % for 1 s or whose supply exceeds 60 °C is lost, and one that has been within limits for 10 s is restored, which changes the
operating table with its refill values (in OT1 the tower with the hottest channel die is cut first), and both lost begin the ordered
shutdown, which ends every launch, abandons after 1 ms what still runs, and takes the device to stage 9. That a retry reaches
management one at a time, what the loops' readings are, and that a rise stays met until management has dealt with it, is the model's
choice (log 39); what OT1 gives a tower within the table's value is free (log 10). -/
def Obligations.ManagementStepResults : Prop := ∀ (s : State),
  (∀ col layer reading, col < 64 → layer < 11 → ∃ t, exec (.sensorSample col layer reading) s = .next t ∧
    find? t.mgmt.sensors (11 * col + layer) = some (reading, s.clock) ∧
    ∀ k, k ≠ 11 * col + layer → find? t.mgmt.sensors k = find? s.mgmt.sensors k) ∧
  (∀ d ch, (s.core d).issueOrder = [] → (s.core d).press = none → ∃ t, exec (.riserTimingApply d ch) s = .next t ∧
    find? t.mgmt.riserHeld (9 * d + ch) = none ∧ t.mgmt.risers = s.mgmt.risers) ∧
  (∀ d ch, d < 512 → ch < 9 →
    (s.mgmt.retries.filter fun e => e.1 == 9 * d + ch && decide (s.clock < e.2 + 1050000000)).length < 16 →
    ∃ t, exec (.riserRepair d ch) s = .next t ∧ t.mgmt.risers = s.mgmt.risers ∧ t.mgmt.marked = s.mgmt.marked ∧
      (9 * d + ch, s.clock) ∈ t.mgmt.retries) ∧
  (∀ d ch, d < 512 → ch < 9 →
    16 ≤ (s.mgmt.retries.filter fun e => e.1 == 9 * d + ch && decide (s.clock < e.2 + 1050000000)).length →
    ∃ t, exec (.riserRepair d ch) s = .next t ∧ (∀ e ∈ t.mgmt.retries, e.1 ≠ 9 * d + ch) ∧
    (natBits (s.riser d ch).toNat 1 0 < 2 → natBits (t.riser d ch).toNat 1 0 = natBits (s.riser d ch).toNat 1 0 + 1 ∧
      natBits (t.riser d ch).toNat 7 4 = natBits (s.riser d ch).toNat 7 4 ∧ (find? t.mgmt.riserHeld (9 * d + ch)).isSome ∧
      t.mgmt.marked = s.mgmt.marked ∧ t.mgmt.logNext = s.mgmt.logNext + 1) ∧
    (2 ≤ natBits (s.riser d ch).toNat 1 0 → d ∈ t.mgmt.marked ∧ t.mgmt.risers = s.mgmt.risers)) ∧
  (∀ d, d < 512 → d ∈ s.mgmt.marked → (s.core d).launch = none → ∃ t, exec (.coreOutOfService d) s = .next t ∧ d ∉ t.mgmt.marked ∧
    t.mem.coreSvc.getLsbD d = false ∧ ∀ k, k ≠ d → t.mem.coreSvc.getLsbD k = s.mem.coreSvc.getLsbD k) ∧
  (∀ d layer asleep denied, ∃ t, exec (.layerClockGating d layer asleep denied) s = .next t ∧
    find? t.mgmt.asleep (16 * d + layer) = (if asleep then some denied else none) ∧ t.cores = s.cores) ∧
  (∀ k ch, k < 4 → ch < 9 → (s.tower k).fenceDue ch = true → (∀ p, (s.tower k).pressAt = some p → p.1 ≠ s.clock) →
    let r := (s.tower k).contain
    (r.getLsbD 7 = false → ∃ t, exec (.channelFenceThreshold k ch) s = .next t ∧ (t.tower k).contain.getLsbD 7 = true ∧
      natBits (t.tower k).contain.toNat 11 8 = ch ∧ (t.tower k).fenceDue ch = false) ∧
    (r.getLsbD 7 = true → natBits r.toNat 11 8 ≠ ch → (s.tower k).secondReported = false →
      let record := mkEvent 4 3 0 0 0 0 0 (r.setWidth 64) (r.extractLsb' 64 64)
      ∃ t, exec (.channelFenceThreshold k ch) s = .next t ∧ (t.tower k).contain = r ∧ (t.tower k).secondReported = true ∧
        (t.tower k).fenceDue ch = false ∧
        (s.eventRoom k = true → (t.tower k).events = (s.tower k).events ++
          [record ||| ((s.tower k).eventSeq.zeroExtend 256 <<< 96)]) ∧
        (s.eventRoom k = false → (t.tower k).posting = (s.tower k).posting ++ [record]))) ∧
  (let m := s.mgmt
   let table := fun (t : State) (ot : Nat) => t.mgmt.ot = ot ∧
     (∀ k < 4, findD (t.tower k).refill 1 0 = Config.refillOf ot 1 ∧ findD (t.tower k).refill 2 0 = Config.refillOf ot 2 ∧
       findD (t.tower k).refill 0 0 ≤ Config.refillOf ot 0 ∧ (ot ≠ 1 → findD (t.tower k).refill 0 0 = Config.refillOf ot 0)) ∧
     (∀ k < 4, ∀ j < 4, s.channelTemp j < s.channelTemp k → findD (t.tower j).refill 0 0 < Config.refillOf ot 0 →
       findD (t.tower k).refill 0 0 = 0) ∧
     (s.eventRoom 0 = true → (t.tower 0).events = (s.tower 0).events ++ [mkEvent 5 0x21 0 0 0 0 0 (BitVec.ofNat 64 ot) 0 |||
       ((s.tower 0).eventSeq.zeroExtend 256 <<< 96)] ∧ t.mgmt.logNext = m.logNext + 2) ∧
     (s.eventRoom 0 = false → (t.tower 0).posting = (s.tower 0).posting ++ [mkEvent 5 0x21 0 0 0 0 0 (BitVec.ofNat 64 ot) 0])
   let loop := fun (u : State) (top : Bool) => if top then u.mgmt.cooling.1 else u.mgmt.cooling.2
   (∀ top flow supply, let u := s.readLoop top flow supply
     let l := loop u top
     loop u (!top) = loop s (!top) ∧ l.flow = flow ∧ l.supply = supply ∧
     l.lowSince = (if flow < 50 then some ((loop s top).lowSince.getD s.clock) else none) ∧
     l.goodSince = (if 50 ≤ flow ∧ supply ≤ 16 * 60 then some ((loop s top).goodSince.getD s.clock) else none)) ∧
   (∀ top, m.ot ≠ 3 → (if top then m.topLost else m.bottomLost) = false →
     (∃ c, (loop s top).lowSince = some c ∧ c + 1050000000 ≤ s.clock) ∨ 16 * 60 < (loop s top).supply →
     let ot := (if m.topLost || top then 1 else 0) + (if m.bottomLost || !top then 2 else 0)
     ot ≠ m.ot → ∃ t, exec (.loopLost top) s = .next t ∧ table t ot ∧ t.mgmt.topLost = (m.topLost || top) ∧
       t.mgmt.bottomLost = (m.bottomLost || !top) ∧
       (ot = 3 → t.mgmt.shutdownAt = some s.clock ∧ ((s.launches.map Launch.key).Nodup → ∀ l ∈ t.launches, ∃ st c, l.phase = .ending st c)) ∧
       (ot ≠ 3 → t.launches = s.launches ∧ t.mgmt.shutdownAt = m.shutdownAt)) ∧
   (∀ top, m.ot ≠ 3 → (if top then m.topLost else m.bottomLost) = true →
     (∃ c, (loop s top).goodSince = some c ∧ c + 10500000000 ≤ s.clock) →
     let ot := (if m.topLost && !top then 1 else 0) + (if m.bottomLost && top then 2 else 0)
     ot ≠ m.ot → ∃ t, exec (.loopRestored top) s = .next t ∧ table t ot ∧ t.launches = s.launches) ∧
   (∀ top, (if top then m.topLost else m.bottomLost) = false →
     (∀ c, (loop s top).lowSince = some c → s.clock < c + 1050000000) → (loop s top).supply ≤ 16 * 60 →
     exec (.loopLost top) s = .next s) ∧
   (∀ top, (∀ c, (loop s top).goodSince = some c → s.clock < c + 10500000000) → exec (.loopRestored top) s = .next s) ∧
   (∀ (w : Tower) now j k old,
     let times := (w.corrTimes.filter (·.1 == j)).map (·.2)
     let u := w.correct now j
     times.length ≤ 64 →
     (w.fenceDue k = true → u.fenceDue k = true) ∧ (k ≠ j → u.fenceDue k = w.fenceDue k) ∧
     (63 ≤ times.length → (times ++ [now])[times.length - 63]? = some old → now < old + 1050000000 → u.fenceDue j = true) ∧
     (w.fenceDue j = false → (times.length < 63 ∨ ((times ++ [now])[times.length - 63]? = some old ∧ old + 1050000000 ≤ now)) →
       u.fenceDue j = false)) ∧
   ∀ c, m.shutdownAt = some c → c + 1050000 ≤ s.clock →
     (s.launches ≠ [] → ∃ t, exec .shutdownGraceExpire s = .next t ∧ t.launches = s.launches ∧ t.mgmt = s.mgmt ∧
       ∀ l ∈ s.launches, (∃ st c, l.phase = .ending st c) → ∀ d ∈ l.cores, (s.core d).launch = some l.key →
         (t.core d).ops = [] ∧ (t.core d).issueOrder = [] ∧ (t.core d).press = none) ∧
     (s.launches = [] → (∀ k < 4, (s.tower k).events = []) → ∃ t, exec .shutdownGraceExpire s = .next t ∧ t.mgmt.stage = 9 ∧
       t.cores = [] ∧ t.mem.dev = s.mem.dev ∧ t.mgmt.log = s.mgmt.log ∧ ∀ e ∈ t.mem.l2, e.2.2.2 = false))

/-- R149, R150, R518, R519, R527, R528: the snapshot latches every block at one cycle, after that of its trigger, and clears ARMED
(that the latch is an event of its own is the model's choice, log 27); power-on takes one stage of bring-up after another to READY, or a stage that fails enters recovery,
as the second does where flash holds no good image (whether a stage fails, and what training and sensors find, are free: the model's
choice, log 10); a loss of power loses everything but flash, the fuses and what the host holds, and a flash that was being written
holds no good image (the model's choice, log 39). R511, R515: once a request is served, MAILBOX_COMPLETE clears BUSY and sends MSI-X vector 2. -/
def Obligations.SnapshotAndPowerResults : Prop :=
  (∀ (s : State),
  (∀ src tag cycle, s.mgmt.snapPending = some (src, tag, cycle) → s.clock ≤ cycle → exec .snapshotLatch s = .next s) ∧
  (∀ src tag cycle, s.mgmt.snapPending = some (src, tag, cycle) → cycle < s.clock → ∃ t, exec .snapshotLatch s = .next t ∧ t.mgmt.snapPending = none ∧
    t.mgmt.snapClock = s.clock ∧ t.mgmt.snapCtl.getLsbD 0 = false ∧ t.mgmt.snapCtl.getLsbD 1 = true ∧
    natBits t.mgmt.snapCtl.toNat 7 4 = src % 16 ∧ natBits t.mgmt.snapCtl.toNat 63 32 = tag.toNat ∧
    (∀ k i, k < 7 → i < snapCount k → (k, i, snapBlock s k i) ∈ t.mgmt.snapImage) ∧ t.cores = s.cores ∧ t.mem = s.mem) ∧
  (let m := s.mgmt
   let enters := fun (n : Nat) (f : State → Prop) => ∃ t, exec .powerOnReset s = .next t ∧ t.mgmt.stage = n ∧
     t.mgmt.recov = (m.recov || n == 8) ∧ f t
   let well := m.ready = false ∧ Config.stageFails s.free m.stage = false
   (m.ready = false → m.stage ∈ [0, 1, 3, 4, 5, 6] → Config.stageFails s.free m.stage = true →
     enters 8 fun t => t.mgmt.running = none ∧ t.cores = s.cores) ∧
   (well → m.stage = 0 → enters 1 fun t => t.fab = s.fab) ∧
   (well → m.stage = 1 → enters 2 fun t => t.fab.devid = Config.fusedSerial) ∧
   (m.ready = false → m.stage = 2 →
     (m.imageGood = true → enters 3 fun t => t.mgmt.running = some m.flash) ∧
     (m.imageGood = false → enters 8 fun t => t.mgmt.running = none)) ∧
   (well → m.stage = 3 → enters 4 fun t => ∀ d < 512,
     t.mem.coreSvc.getLsbD d = (s.mem.coreSvc.getLsbD d && ((List.range 9).all fun ch => decide ((Config.riserTraining d ch).1 < 3)))) ∧
   (well → m.stage = 4 → enters 5 fun t => ∀ a, inHbm a = true → t.devBad a 1 = false ∧ t.mem.devByte a = devInit a) ∧
   (well → m.stage = 5 → enters 6 fun t => (∀ d, (t.core d).scratch = []) ∧ t.mem.l2 = [] ∧
     ∀ a, inHbm a = false → t.mem.devByte a = devInit a) ∧
   (well → m.stage = 6 → enters 7 fun t => t.mgmt.ready = false) ∧
   (m.ready = false → m.stage = 7 → enters 7 fun t => t.mgmt.ready = true ∧
     ∀ col < 64, ∀ layer < 11, find? t.mgmt.sensors (11 * col + layer) = some (Config.firstReading col layer, s.clock))) ∧
  ∃ t, exec .powerLoss s = .next t ∧ t.cores = State.reset.cores ∧ t.towers = State.reset.towers ∧ t.mem.dev = [] ∧ t.mem.host = s.mem.host ∧
    t.launches = [] ∧ t.q = State.reset.q ∧ t.ctx = State.reset.ctx ∧ t.cad = State.reset.cad ∧ t.fab = State.reset.fab ∧
    t.mgmt.stage = 0 ∧ t.mgmt.ready = false ∧ t.mgmt.flash = s.mgmt.flash ∧ t.mgmt.minSvn = s.mgmt.minSvn ∧
    (t.mgmt.flashBad = true ↔ s.mgmt.flashBad = true ∨ s.mgmt.flashing = true)) ∧
  (∀ (s : State), s.mgmt.busy = true → s.mgmt.served = true →
  ∃ t, exec .mailboxComplete s = .next t ∧ t.mgmt.busy = false ∧ t.q.msix = s.q.msix ++ [2] ∧ t.mgmt.result = s.mgmt.result ∧
    t.mgmt.rspLen = s.mgmt.rspLen ∧ t.mgmt.mbRsp = s.mgmt.mbRsp)

/-- R21, R22, R26, R140, R149, R151, R268, R270, R310, R515 to R521, R526: the mailbox requests. A request in progress is
answered with its result and response; MAILBOX_COMPLETE then clears BUSY and sends MSI-X vector 2; a code that is not listed
gets BADCMD, a LEN or an argument out of its range BADARG; a request that fails changes no state, but that a piece of firmware out of
order discards the pieces held. Which errors the check symbols tell is a
function that the manual does not give (log 3), the identity and what ATTEST signs are the device's (log 16), and an event log
entry of management has fields of its own (log 39): where these are used, the model's choice. -/
def Obligations.MailboxResults : Prop := ∀ (s : State) (code len : Nat) (a : List (BitVec 8)),
  s.mgmt.busy = true → s.mgmt.served = false → s.mgmt.serving = some (code, len, a) → s.mgmt.stage = 7 → s.mgmt.recov = false →
  let answers := fun (i : Instr) (result : Nat) (rsp : State → List (BitVec 8)) (f : State → Prop) => ∃ t, exec i s = .next t ∧
    t.mgmt.served = true ∧ t.mgmt.busy = true ∧ t.mgmt.result = result ∧ t.mgmt.rspLen = (rsp t).length ∧
    (∀ k (h : k < (rsp t).length), findD t.mgmt.mbRsp k 0 = (rsp t)[k]) ∧ f t
  let no := fun (_ : State) => ([] : List (BitVec 8))
  let x := fun lo n => argN a lo n
  let fails := fun (i : Instr) (result : Nat) => ∃ t, exec i s = .next t ∧ t.mgmt.served = true ∧ t.mgmt.result = result ∧
    t.mgmt.rspLen = 0 ∧ { t with mgmt := { t.mgmt with served := s.mgmt.served, result := s.mgmt.result, rspLen := s.mgmt.rspLen } } = s
  (code = 0 ∨ 10 < code → fails .badcmd 1) ∧
  (code = 1 → len = 2 → x 0 1 < 64 → x 1 1 < 11 → ∀ r c, find? s.mgmt.sensors (11 * x 0 1 + x 1 1) = some (r, c) →
    answers .sensor 0 (fun _ => leBytes 2 r.toNat ++ leBytes 8 c) fun t => t.mgmt.sensors = s.mgmt.sensors) ∧
  (code = 1 → len ≠ 2 ∨ 64 ≤ x 0 1 ∨ 11 ≤ x 1 1 → fails .sensor 2) ∧
  (code = 2 → len ≠ 6 ∨ x 4 2 < 1 ∨ 128 < x 4 2 → fails .logread 2) ∧
  (code = 3 → len ≠ 8 ∨ 512 ≤ x 0 2 ∨ 9 ≤ x 2 1 ∨ x 3 1 ≠ 0 → fails .riserset 2) ∧
  (code = 4 → len ≠ 2 ∨ 4 ≤ x 0 1 ∨ 9 ≤ x 1 1 ∧ x 1 1 ≠ 15 → fails .mbFence 2) ∧
  (code = 5 → len ≠ 16 ∨ 4 ≤ x 0 1 ∨ x 1 7 ≠ 0 → fails .inject 2) ∧
  (code = 5 → len = 16 → x 0 1 < 4 → x 1 7 = 0 → 8 < natBits (x 8 8) 54 51 → fails .inject 4) ∧
  (code = 6 → len ≠ 80 ∨ x 0 8 % 64 ≠ 0 ∨ inHbm (x 0 8) = false → fails .checkbits 2) ∧
  (code = 7 → 3 < x 0 1 → fails .snapctlArm 2) ∧
  (code = 7 → len ≠ 8 → ∀ op i, (op, i) ∈ [(0, Instr.snapctlArm), (1, .snapctlProgen), (2, .snapctlReadctl), (3, .snapctlReadblock)] →
    x 0 1 = op → fails i 2) ∧
  (code = 7 → len = 8 → x 0 1 = 3 → s.mgmt.snapCtl.getLsbD 1 = false ∨ 6 < x 2 2 ∨ snapCount (x 2 2) ≤ x 4 2 →
    fails .snapctlReadblock 2) ∧
  (code = 8 → 3 < x 2 1 → fails .corectlHalt 2) ∧
  (code = 8 → len ≠ 12 ∨ 512 ≤ x 0 2 → ∀ op i, (op, i) ∈ [(0, Instr.corectlHalt), (1, .corectlResume), (2, .corectlDebugen),
    (3, .corectlReadreg)] → x 2 1 = op → fails i 2) ∧
  (code = 8 → len = 12 → x 0 2 < 512 → x 2 1 = 3 → (s.core (x 0 2)).halted = false ∨ x 7 1 ≠ 0 ∨ x 10 2 ≠ 0 ∨
    readReg s (x 0 2) (x 4 1) (x 5 1) (x 6 1) (x 8 2) = none → fails .corectlReadreg 2) ∧
  (code = 9 → len < 8 ∨ 4096 < len ∨ 4 ≤ x 4 4 → fails .fwupdate 2) ∧
  (code = 10 → len ≠ 32 → fails .attest 2) ∧
  (code = 2 → len = 6 → 1 ≤ x 4 2 → x 4 2 ≤ 128 →
    answers .logread 0 (fun _ => (List.range (x 4 2)).flatMap fun i => s.mgmt.logBytes (x 0 4 + i)) fun t => t.mgmt.log = s.mgmt.log) ∧
  (code = 3 → len = 8 → x 0 2 < 512 → x 2 1 < 9 → x 3 1 = 0 →
    (x 4 4 % 4 = 3 → fails .riserset 3) ∧
    (x 4 4 % 4 ≠ 3 → answers .riserset 0 (fun t => leBytes 4 (t.riser (x 0 2) (x 2 1)).toNat) fun t =>
      natBits (t.riser (x 0 2) (x 2 1)).toNat 1 0 = x 4 4 % 4 ∧ natBits (t.riser (x 0 2) (x 2 1)).toNat 7 4 = x 4 4 / 16 % 16 ∧
      (find? t.mgmt.riserHeld (9 * x 0 2 + x 2 1)).isSome)) ∧
  (code = 4 → len = 2 → x 0 1 < 4 → x 1 1 < 9 ∨ x 1 1 = 15 → (∀ p, (s.tower (x 0 1)).pressAt = some p → p.1 ≠ s.clock) →
    answers .mbFence 0 (fun t => leBytes 16 (t.tower (x 0 1)).contain.toNat) fun t =>
      (t.tower (x 0 1)).contain.getLsbD 7 = decide (x 1 1 ≠ 15) ∧ natBits (t.tower (x 0 1)).contain.toNat 11 8 = x 1 1) ∧
  (code = 5 → len = 16 → x 0 1 < 4 → x 1 7 = 0 → natBits (x 8 8) 54 51 ≤ 8 →
    answers .inject 0 (fun t => leBytes 8 (t.tower (x 0 1)).injector.toNat) fun t =>
      (t.tower (x 0 1)).injector.getLsbD 63 = (x 8 8).testBit 63 ∧
      (t.tower (x 0 1)).injector.getLsbD 62 = (!(x 8 8).testBit 63 && (s.tower (x 0 1)).injector.getLsbD 62) ∧
      natBits (t.tower (x 0 1)).injector.toNat 54 51 = natBits (x 8 8) 54 51) ∧
  (code = 6 → len = 80 → x 0 8 % 64 = 0 → inHbm (x 0 8) = true → a.length = 80 →
    let data := (a.drop 8).take 64
    let check := (a.drop 72).take 8
    answers .checkbits 0 no fun t => (Config.symbolDistance check (Config.checkSymbols data) ≤ 1 → t.devRead (x 0 8) 64 = data) ∧
      (eccCorrect data check = none → check ≠ Config.checkSymbols data → t.devBad (x 0 8) 64 = true)) ∧
  (code = 7 → len = 8 →
    (x 0 1 = 0 → answers .snapctlArm 0 (fun t => leBytes 8 t.mgmt.snapCtl.toNat) fun t =>
      t.mgmt.snapCtl.getLsbD 0 = true ∧ t.mgmt.snapCtl.getLsbD 1 = false ∧ ∀ k, 2 ≤ k → t.mgmt.snapCtl.getLsbD k = s.mgmt.snapCtl.getLsbD k) ∧
    (x 0 1 = 1 → answers .snapctlProgen 0 (fun t => leBytes 8 t.mgmt.snapCtl.toNat) fun t =>
      t.mgmt.snapCtl.getLsbD 2 = decide (x 1 1 % 2 = 1) ∧ ∀ k, k ≠ 2 → t.mgmt.snapCtl.getLsbD k = s.mgmt.snapCtl.getLsbD k) ∧
    (x 0 1 = 2 → answers .snapctlReadctl 0 (fun _ => leBytes 8 s.mgmt.snapCtl.toNat) fun t => t.mgmt.snapCtl = s.mgmt.snapCtl) ∧
    (x 0 1 = 3 → s.mgmt.snapCtl.getLsbD 1 = true → x 2 2 ≤ 6 → x 4 2 < snapCount (x 2 2) →
      (find? s.mgmt.asleep (blockLayer (x 2 2) (x 4 2)) = some true → fails .snapctlReadblock 5) ∧
      (find? s.mgmt.asleep (blockLayer (x 2 2) (x 4 2)) ≠ some true → ∀ k i body,
        s.mgmt.snapImage.find? (fun q => q.1 == x 2 2 && q.2.1 == x 4 2) = some (k, i, body) →
        answers .snapctlReadblock 0 (fun _ => fit 4096 ((leBytes 8 s.mgmt.snapClock ++ leBytes 8 s.mgmt.snapCtl.toNat ++ body).drop
          (4096 * x 6 2))) fun _ => True))) ∧
  (code = 8 → len = 12 → x 0 2 < 512 →
    let c := s.core (x 0 2)
    (x 2 1 = 0 → answers .corectlHalt 0 no fun t => ((t.core (x 0 2)).halting || (t.core (x 0 2)).halted) = true ∧
      (c.halted = false → c.halting = false → (t.core (x 0 2)).haltSrc = 4)) ∧
    (x 2 1 = 1 → answers .corectlResume 0 no fun t => (t.core (x 0 2)).halted = false ∧ (t.core (x 0 2)).halting = false ∧
      (t.core (x 0 2)).warps = c.warps) ∧
    (x 2 1 = 2 → answers .corectlDebugen 0 no fun t => (t.core (x 0 2)).debugHalt = (x 3 1).testBit 0) ∧
    (x 2 1 = 3 → c.halted = true → x 7 1 = 0 → x 10 2 = 0 → ∀ v, readReg s (x 0 2) (x 4 1) (x 5 1) (x 6 1) (x 8 2) = some v →
      (find? s.mgmt.asleep (16 * x 0 2 + 1) ≠ some true → answers .corectlReadreg 0 (fun _ => leBytes 32 v) fun t => t.cores = s.cores) ∧
      (find? s.mgmt.asleep (16 * x 0 2 + 1) = some true → fails .corectlReadreg 5))) ∧
  (code = 9 → 8 ≤ len → len ≤ 4096 → x 0 4 = s.mgmt.pieces.length → x 4 4 < 4 →
    let held := s.mgmt.pieces ++ (a.drop 8).take (len - 8)
    ((x 4 4).testBit 0 = false → answers .fwupdate 0 no fun t => t.mgmt.pieces = held ∧ t.mgmt.flash = s.mgmt.flash) ∧
    ((x 4 4).testBit 0 = true → signatureOk held = false → fails .fwupdate 6) ∧
    ((x 4 4).testBit 0 = true → signatureOk held = true → Config.imageSvn held < s.mgmt.minSvn → fails .fwupdate 7) ∧
    ((x 4 4).testBit 0 = true → signatureOk held = true → s.mgmt.minSvn ≤ Config.imageSvn held → answers .fwupdate 0 no fun t =>
      t.mgmt.pieces = [] ∧ t.mgmt.flash = held ∧
      t.mgmt.minSvn = if (x 4 4).testBit 1 then Config.imageSvn held else s.mgmt.minSvn)) ∧
  (code = 9 → 8 ≤ len → len ≤ 4096 → x 0 4 ≠ s.mgmt.pieces.length → x 4 4 < 4 → answers .fwupdate 2 no fun t =>
    t.mgmt.pieces = [] ∧ { t with mgmt := { t.mgmt with served := s.mgmt.served, result := s.mgmt.result, rspLen := s.mgmt.rspLen
                                                        pieces := s.mgmt.pieces } } = s) ∧
  (∀ image, code = 10 → len = 32 → s.mgmt.running = some image → answers .attest 0 (fun _ =>
    let body := fit 32 a ++ leBytes 4 s.fab.devid.toNat ++ leBytes 4 Config.fusedSerial.toNat ++ leBytes 4 (Config.imageSvn image) ++
      leBytes 4 s.mgmt.minSvn ++ sha512 Config.bootRom ++ sha512 image ++ sha512 Config.fuses ++
      identityKey ++ leBytes 4 (Config.attestState s.mgmt.ot s.mgmt.stage s.mgmt.recov).toNat ++ List.replicate 84 0
    body ++ identitySign body) fun t => t.mgmt.flash = s.mgmt.flash)

/-! ### Encodings (03) -/

/-- R58 to R65, R81, R84: words of the manual's worked cases decode to the instructions that they stand for; a word with an
unassigned opcode is the row of its own, and a word with a reserved bit, or with an operand that the word may not name, is
none. -/
def Obligations.WordsDecode : Prop :=
  let f : RForm := { e := false, stall := 0, gn := false, gp := 7, d := 0, s1 := 0, s2 := 0, eh := 0, ew := 0, mod := 0 }
  ∀ q ∈ ([(0x988142000003BE80,
            some (.fadd { e := true, stall := 3, gn := true, gp := 2, d := 64, s1 := 0, s2 := 7, eh := 3, ew := 7, mod := 0x80 })),
          (0x8C000004EA004037, some (.pairedWord { e := true, stall := 1, a := { op := 0x00, d := 0, s := 4, g := 7 }
                                                   b := { op := 0x14, d := 2, s := 6, g := 7 } })),
          (0x8382E000FFFFFFFD, some (.bra { e := true, stall := 0, gn := false, gp := 7, d := 0, mod3 := 0, imm := 0xFFFFFFFD })),
          (0x8388E0060A000000, some (.ret { f with e := true, s1 := 773 })),
          (0x1918E00800000004, some (.mfsr { f with stall := 3, d := 1, mod := 4 })),
          (0x003CE020FFFFFFFF, some (.movi { e := false, stall := 0, gn := false, gp := 7, d := 4, mod3 := 0, imm := 0xFFFFFFFF })),
          (0x0804E0000804000B, some (.iaddc { f with stall := 1, s1 := 4, s2 := 8, mod := 0x00B })),
          (0x0024210000000E23, some (.shl { f with gp := 1, d := 32, ew := 7, mod := 0x023 })),
          (0x00A8E0280C180002, some (.cvt { f with d := 5, s1 := 6, s2 := 0x30, mod := 2 })),
          (0x0100E01002010050, some (.shfl { f with d := 2, s1 := 1, s2 := 2, mod := 0x050 })),
          (0x0180FB1609828000, some (.mset { f with d := 866, s1 := 772, s2 := 773 })),
          (0x0182FACEC4200006, some (.mma { f with d := 857, s1 := 866, s2 := 64, mod := 6 })),
          (0x018AFACE11848000, some (.mdrain { f with d := 857, s1 := 776, s2 := 777 })),
          (0x0200E01814000402,
            some (.lds { e := false, stall := 0, gn := false, gp := 7, d := 3, s1 := 10, off := 2, mod := 2 })),
          (0x0284E0000B830002, some (.ldb { f with s1 := 5, s2 := 774, mod := 2 })),
          (0x830CF85610000001, some (.racq { f with e := true, d := 778, s1 := 776, mod := 1 })),
          (0x03FE000000000000, some (.unassignedOpcode 0x03FE000000000000)),
          (0x0380E00000000001, none), (0x0300000000000003, none)] : List (Nat × Option Instr)), decodeTableWord 64 q.1 = q.2

/-- R58 to R65, R81 to R84: the encoder and the decoder agree. The word of every well-formed instruction decodes to it, with
every operand at every value, and a word that decodes is the word of its instruction: no bit of an encoding is dropped. -/
def Obligations.DecodeEncodeAgree : Prop :=
  (∀ (i : Instr) (w : W64), WellFormed i = true → encode i = some w → decodeBytes (bytesOfWord w) = .ok i) ∧
  ∀ (w : W64) (i : Instr), decode w = .ok i → encode i = some w ∧ WellFormed i = true

/-! ### The step -/

/-- R84, R122, R133: a step runs the decoded instruction. Where nothing else is due, the bytes at the PC of the port whose word
is due are fetched through the launch's tables, and what they decode to is executed; a word that is frozen after its issue (R326) goes
on without another fetch; the frames of saved warps follow (R314). An event of the agenda that is no word is executed in the same way. -/
def Obligations.StepRunsDecoded : Prop := ∀ (s : State) (i : Instr),
  (∀ d p l s1 page s2 bs, s.agenda = [] → s.dueStep = none → s.dueWord = some (d, p) → s.coreLaunch d = some l →
    ((s.core d).port p).issued = none →
    let s0 := { s with cur := (d, p) }
    let pc := ((s.core d).port p).pc
    vaOk l.priv pc = true → translateOn s0 d l.ptroot.toNat l.priv pc .exec = (s1, .ok page) →
    (page.loc.ty = 3 → s1.peerOk page.loc.peer page.loc.pport = true) → (page.loc.own = true → s1.devBad page.loc.pa 8 = false) →
    s1.locRead page.loc 0 8 = some (s2, bs) → decodeBytes bs = .ok i →
    step s = tidy (exec i ((s2.l2Pass page.loc false).markFirst l.key))) ∧
  (∀ d p l x, s.agenda = [] → s.dueStep = none → s.dueWord = some (d, p) → s.coreLaunch d = some l →
    ((s.core d).port p).issued = some x → decodeBytes (bytesOfWord x.word) = .ok i →
    step s = tidy (exec i { s with cur := (d, p) })) ∧
  ∀ r, s.agenda = .ev i :: r → encode i = none → step s = tidy (exec i { s with agenda := r })

/-- R12, R21, R128, R149, R266, R434, R436, R468, R499, R513: what the manual gives a value at device reset. The clock is 0 and
no launch has held a core; each containment register has LCH and FCH 0xF and every other field 0; the buckets hold CAP and the
refill registers the row of OT0; a link row has PEERM 0x3F and every other field 0; no domain is enabled; the snapshot is
armed; PLTHRESH is 85; every core is in service, DEVSTAT is 0, and DEVID comes from the fused serial number. -/
def Obligations.ResetValues : Prop :=
  let s := State.reset
  s.clock = 0 ∧ s.launches = [] ∧ (∀ d, (s.core d).launch = none ∧ (s.core d).l1 = []) ∧
  (∀ t, (s.tower t).contain = 0xFF00 ∧ (s.tower t).corr = [] ∧ (s.tower t).injector = 0 ∧ (s.tower t).events = [] ∧
    ∀ b < 3, findD (s.tower t).tokens b 0 = [268800, 65536, 16384].getD b 0 ∧
      findD (s.tower t).refill b 0 = [134400, 4096, 400].getD b 0) ∧
  (∀ p, (s.link p).row = BitVec.ofNat 128 (0x3F * 2 ^ 34)) ∧ (∀ d, (s.domain d).en = false ∧ (s.domain d).dstate = 0) ∧
  s.mgmt.snapCtl = 1 ∧ s.q.plThresh = 85 ∧ s.devstat = 0 ∧ s.mem.coreSvc = BitVec.allOnes 512 ∧ s.mem.w2base = 0 ∧
  s.fab.devid = Config.fusedSerial ∧ (∀ q, qdEn (s.qdesc q) = false) ∧ s.cad.en = false

/-- The invariant holds at reset (the canonical form is the model's, log 3 and log 4). -/
def Obligations.ResetInv : Prop := Inv State.reset

/-- Every step keeps the invariant: from every state in which device memory, host memory and every scratchpad have their
canonical form, a step answers a state in which they have it. -/
def Obligations.StepKeepsInv : Prop := ∀ s t : State, Inv s → step s = .next t → Inv t

/-- Every instruction of the opcode table has a meaning: no state's step is refused. -/
def Obligations.StepNeverRefuses : Prop := ∀ (s : State) (r : Refusal), step s ≠ .refused r

end
end

