-- ==== Sys2Proof/Laws/Sparse.lean ====
section
/-! SUPPORT. The sparse families of Machine/Ops.lean: what a look-up answers after each update. The laws hold of every
list, in rising order or not. -/

namespace Sys2Proof.Machine

variable {α : Type}

@[simp] theorem find?_nil (k : Nat) : find? ([] : List (Nat × α)) k = none := rfl
@[simp] theorem find?_cons (q : Nat × α) (r : List (Nat × α)) (k : Nat) :
    find? (q :: r) k = if q.1 = k then some q.2 else find? r k := rfl
@[simp] theorem findD_nil (k : Nat) (d : α) : findD ([] : List (Nat × α)) k d = d := rfl

/-- Reading back what was listed. -/
@[simp] theorem find?_put_self (l : List (Nat × α)) (k : Nat) (v : α) : find? (put l k v) k = some v := by
  induction l with
  | nil => simp [put]
  | cons q r ih =>
    simp only [put]
    split
    · simp
    · split
      · simp
      · simp [*]

/-- Listing at one key leaves every other key alone. -/
theorem find?_put_ne (l : List (Nat × α)) (k j : Nat) (v : α) (h : j ≠ k) : find? (put l k v) j = find? l j := by
  induction l with
  | nil => simp [put, Ne.symm h]
  | cons q r ih =>
    simp only [put]
    split
    · simp [Ne.symm h]
    · split
      · rename_i hk
        simp [hk, Ne.symm h]
      · simp [ih]

theorem find?_put (l : List (Nat × α)) (k j : Nat) (v : α) : find? (put l k v) j = if j = k then some v else find? l j := by
  split
  · subst_vars; simp
  · exact find?_put_ne _ _ _ _ ‹_›

@[simp] theorem findD_put_self (l : List (Nat × α)) (k : Nat) (v d : α) : findD (put l k v) k d = v := by simp [findD]
theorem findD_put (l : List (Nat × α)) (k j : Nat) (v d : α) :
    findD (put l k v) j d = if j = k then v else findD l j d := by
  simp only [findD, find?_put]; split <;> rfl
theorem findD_put_ne (l : List (Nat × α)) (k j : Nat) (v d : α) (h : j ≠ k) : findD (put l k v) j d = findD l j d := by
  simp [findD_put, h]

theorem find?_erase (l : List (Nat × α)) (k j : Nat) : find? (erase l k) j = if j = k then none else find? l j := by
  induction l with
  | nil => simp [erase]
  | cons q r ih =>
    simp only [erase, find?_cons]
    split
    · rename_i hk
      simp only [ih, hk]
      split <;> simp_all [eq_comm]
    · simp only [find?_cons, ih]
      split <;> simp_all

/-- What a family with a default value reads after a write. -/
theorem findD_putD [DecidableEq α] (l : List (Nat × α)) (k j : Nat) (v d : α) :
    findD (putD l k v d) j d = if j = k then v else findD l j d := by
  simp only [putD]
  split
  · simp only [findD, find?_erase]; split <;> simp_all
  · exact findD_put _ _ _ _ _

@[simp] theorem findD_putD_self [DecidableEq α] (l : List (Nat × α)) (k : Nat) (v d : α) :
    findD (putD l k v d) k d = v := by simp [findD_putD]

/-! ### Lists without repeats -/

theorem mem_eraseDups {β : Type} [BEq β] [LawfulBEq β] (l : List β) (a : β) : a ∈ l.eraseDups ↔ a ∈ l := by
  induction hn : l.length using Nat.strong_induction_on generalizing l with
  | _ n ih =>
    cases l with
    | nil => simp
    | cons b r =>
      rw [List.eraseDups_cons, List.mem_cons, List.mem_cons,
        ih (r.filter fun x => !x == b).length (by have := List.length_filter_le (fun x => !x == b) r; simp at hn; omega) _ rfl]
      by_cases h : a = b <;> simp [h]

theorem nodup_eraseDups {β : Type} [BEq β] [LawfulBEq β] (l : List β) : l.eraseDups.Nodup := by
  induction hn : l.length using Nat.strong_induction_on generalizing l with
  | _ n ih =>
    cases l with
    | nil => simp
    | cons b r =>
      rw [List.eraseDups_cons, List.nodup_cons]
      refine ⟨?_, ih (r.filter fun x => !x == b).length
        (by have := List.length_filter_le (fun x => !x == b) r; simp at hn; omega) _ rfl⟩
      rw [mem_eraseDups]
      simp

/-- A keyed list without repeated keys: looking a listed key up finds its entry. -/
theorem find?_of_nodup {κ β : Type} [BEq κ] [LawfulBEq κ] {l : List (κ × β)} (hn : (l.map (·.1)).Nodup) {q : κ × β}
    (h : q ∈ l) : l.find? (fun x => x.1 == q.1) = some q := by
  induction l with
  | nil => simp at h
  | cons x r ih =>
    simp only [List.map_cons, List.nodup_cons] at hn
    rcases List.mem_cons.1 h with rfl | h
    · simp
    · have : x.1 ≠ q.1 := fun hc => hn.1 (hc ▸ List.mem_map_of_mem h)
      rw [List.find?_cons_of_neg (by simpa using this)]
      exact ih hn.2 h

theorem find?_of_not_mem {κ β : Type} [BEq κ] [LawfulBEq κ] {l : List (κ × β)} {k : κ} (h : k ∉ l.map (·.1)) :
    l.find? (fun x => x.1 == k) = none := by
  rw [List.find?_eq_none]
  intro x hx hk
  exact h (by simpa [← (beq_iff_eq.1 hk)] using List.mem_map_of_mem (f := Prod.fst) hx)

theorem insertBy_perm {β : Type} (f : β → Nat) (x : β) (l : List β) : (insertBy f x l).Perm (x :: l) := by
  induction l with
  | nil => rfl
  | cons y r ih =>
    simp only [insertBy]
    split
    · rfl
    · exact (List.Perm.cons y ih).trans (List.Perm.swap x y r)

/-- Sorting moves nothing in or out. -/
theorem sortBy_perm {β : Type} (f : β → Nat) (l : List β) : (sortBy f l).Perm l := by
  suffices h : ∀ (l acc : List β), (l.foldl (fun acc x => insertBy f x acc) acc).Perm (l ++ acc) by
    simpa [sortBy] using h l []
  intro l
  induction l with
  | nil => intro acc; rfl
  | cons x r ih =>
    intro acc
    refine (ih _).trans ?_
    refine (List.Perm.append_left r (insertBy_perm f x acc)).trans ?_
    exact List.perm_middle

/-! ### Rising order -/

/-- Rising order, read as a chain: the first key lies below every later one. -/
theorem rising_cons (k : Nat) (v : α) (r : List (Nat × α)) :
    rising ((k, v) :: r) = true ↔ rising r = true ∧ ∀ q ∈ r, k < q.1 := by
  induction r generalizing k v with
  | nil => simp [rising]
  | cons q r ih =>
    obtain ⟨k', v'⟩ := q
    simp only [rising, Bool.and_eq_true, decide_eq_true_eq, List.mem_cons, forall_eq_or_imp]
    constructor
    · rintro ⟨h, hr⟩
      refine ⟨hr, h, fun q hq => ?_⟩
      have := ((ih k' v').1 hr).2 q hq
      omega
    · rintro ⟨hr, h, -⟩
      exact ⟨h, hr⟩

theorem mem_put {l : List (Nat × α)} {k : Nat} {v : α} {q : Nat × α} (h : q ∈ put l k v) : q = (k, v) ∨ q ∈ l := by
  induction l with
  | nil => simpa [put] using h
  | cons x r ih =>
    simp only [put] at h
    split at h
    · simpa using h
    · split at h
      · simp only [List.mem_cons] at h ⊢; tauto
      · simp only [List.mem_cons] at h ⊢
        rcases h with h | h
        · exact .inr (.inl h)
        · rcases ih h with h | h <;> tauto

theorem mem_erase {l : List (Nat × α)} {k : Nat} {q : Nat × α} : q ∈ erase l k ↔ q ∈ l ∧ q.1 ≠ k := by
  induction l with
  | nil => simp [erase]
  | cons x r ih =>
    simp only [erase]
    split
    · rename_i hk
      simp only [ih, List.mem_cons]
      constructor
      · tauto
      · rintro ⟨h | h, hn⟩
        · subst h; exact absurd hk hn
        · exact ⟨h, hn⟩
    · rename_i hk
      simp only [List.mem_cons, ih]
      constructor
      · rintro (h | h)
        · subst h; exact ⟨.inl rfl, hk⟩
        · exact ⟨.inr h.1, h.2⟩
      · tauto

/-- `put` keeps rising order. -/
theorem rising_put {l : List (Nat × α)} (k : Nat) (v : α) (h : rising l = true) : rising (put l k v) = true := by
  induction l with
  | nil => simp [put, rising]
  | cons x r ih =>
    obtain ⟨k', v'⟩ := x
    have hx := (rising_cons k' v' r).1 h
    simp only [put]
    split
    · rename_i hk
      refine (rising_cons _ _ _).2 ⟨h, ?_⟩
      simp only [List.mem_cons, forall_eq_or_imp]
      exact ⟨hk, fun q hq => lt_trans hk (hx.2 q hq)⟩
    · split
      · rename_i hk
        subst hk
        exact (rising_cons _ _ _).2 hx
      · rename_i h1 h2
        refine (rising_cons _ _ _).2 ⟨ih hx.1, fun q hq => ?_⟩
        rcases mem_put hq with rfl | hq
        · simp only; omega
        · exact hx.2 q hq

/-- `erase` keeps rising order. -/
theorem rising_erase {l : List (Nat × α)} (k : Nat) (h : rising l = true) : rising (erase l k) = true := by
  induction l with
  | nil => simp [erase, rising]
  | cons x r ih =>
    obtain ⟨k', v'⟩ := x
    have hx := (rising_cons k' v' r).1 h
    simp only [erase]
    split
    · exact ih hx.1
    · exact (rising_cons _ _ _).2 ⟨ih hx.1, fun q hq => hx.2 q (mem_erase.1 hq).1⟩

/-- `putD` keeps rising order. -/
theorem rising_putD [DecidableEq α] {l : List (Nat × α)} (k : Nat) (v d : α) (h : rising l = true) :
    rising (putD l k v d) = true := by
  unfold putD; split
  · exact rising_erase k h
  · exact rising_put k v h

end Sys2Proof.Machine
end

