-- ==== Sys2Proof/Laws/State.lean ====
section
/-! SUPPORT. One law per field per update of the state, and what a core, a warp and a thread read as after an update of
another. No later proof needs to open a record update. -/

namespace Sys2Proof.Machine

open Sys2Proof

/-! ### Fields of the state after an update -/

@[simp] theorem State.setCore_clock (s : State) (d : Nat) (c : Core) : (s.setCore d c).clock = s.clock := rfl
@[simp] theorem State.setCore_towers (s : State) (d : Nat) (c : Core) : (s.setCore d c).towers = s.towers := rfl
@[simp] theorem State.setCore_launches (s : State) (d : Nat) (c : Core) : (s.setCore d c).launches = s.launches := rfl
@[simp] theorem State.setCore_ran (s : State) (d : Nat) (c : Core) : (s.setCore d c).ran = s.ran := rfl
@[simp] theorem State.setCore_mem (s : State) (d : Nat) (c : Core) : (s.setCore d c).mem = s.mem := rfl
@[simp] theorem State.setCore_q (s : State) (d : Nat) (c : Core) : (s.setCore d c).q = s.q := rfl
@[simp] theorem State.setCore_ctx (s : State) (d : Nat) (c : Core) : (s.setCore d c).ctx = s.ctx := rfl
@[simp] theorem State.setCore_cad (s : State) (d : Nat) (c : Core) : (s.setCore d c).cad = s.cad := rfl
@[simp] theorem State.setCore_mgmt (s : State) (d : Nat) (c : Core) : (s.setCore d c).mgmt = s.mgmt := rfl
@[simp] theorem State.setCore_fab (s : State) (d : Nat) (c : Core) : (s.setCore d c).fab = s.fab := rfl
@[simp] theorem State.setCore_agenda (s : State) (d : Nat) (c : Core) : (s.setCore d c).agenda = s.agenda := rfl
@[simp] theorem State.setCore_cur (s : State) (d : Nat) (c : Core) : (s.setCore d c).cur = s.cur := rfl
@[simp] theorem State.setCore_free (s : State) (d : Nat) (c : Core) : (s.setCore d c).free = s.free := rfl
@[simp] theorem State.setCore_nextId (s : State) (d : Nat) (c : Core) : (s.setCore d c).nextId = s.nextId := rfl

@[simp] theorem State.modCore_clock (s : State) (d : Nat) (f : Core → Core) : (s.modCore d f).clock = s.clock := rfl
@[simp] theorem State.modCore_towers (s : State) (d : Nat) (f : Core → Core) : (s.modCore d f).towers = s.towers := rfl
@[simp] theorem State.modCore_launches (s : State) (d : Nat) (f : Core → Core) : (s.modCore d f).launches = s.launches := rfl
@[simp] theorem State.modCore_ran (s : State) (d : Nat) (f : Core → Core) : (s.modCore d f).ran = s.ran := rfl
@[simp] theorem State.modCore_mem (s : State) (d : Nat) (f : Core → Core) : (s.modCore d f).mem = s.mem := rfl
@[simp] theorem State.modCore_q (s : State) (d : Nat) (f : Core → Core) : (s.modCore d f).q = s.q := rfl
@[simp] theorem State.modCore_ctx (s : State) (d : Nat) (f : Core → Core) : (s.modCore d f).ctx = s.ctx := rfl
@[simp] theorem State.modCore_cad (s : State) (d : Nat) (f : Core → Core) : (s.modCore d f).cad = s.cad := rfl
@[simp] theorem State.modCore_mgmt (s : State) (d : Nat) (f : Core → Core) : (s.modCore d f).mgmt = s.mgmt := rfl
@[simp] theorem State.modCore_fab (s : State) (d : Nat) (f : Core → Core) : (s.modCore d f).fab = s.fab := rfl
@[simp] theorem State.modCore_agenda (s : State) (d : Nat) (f : Core → Core) : (s.modCore d f).agenda = s.agenda := rfl
@[simp] theorem State.modCore_cur (s : State) (d : Nat) (f : Core → Core) : (s.modCore d f).cur = s.cur := rfl
@[simp] theorem State.modCore_free (s : State) (d : Nat) (f : Core → Core) : (s.modCore d f).free = s.free := rfl
@[simp] theorem State.modCore_nextId (s : State) (d : Nat) (f : Core → Core) : (s.modCore d f).nextId = s.nextId := rfl

@[simp] theorem State.setTower_clock (s : State) (t : Nat) (x : Tower) : (s.setTower t x).clock = s.clock := rfl
@[simp] theorem State.setTower_cores (s : State) (t : Nat) (x : Tower) : (s.setTower t x).cores = s.cores := rfl
@[simp] theorem State.setTower_launches (s : State) (t : Nat) (x : Tower) : (s.setTower t x).launches = s.launches := rfl
@[simp] theorem State.setTower_ran (s : State) (t : Nat) (x : Tower) : (s.setTower t x).ran = s.ran := rfl
@[simp] theorem State.setTower_mem (s : State) (t : Nat) (x : Tower) : (s.setTower t x).mem = s.mem := rfl
@[simp] theorem State.setTower_q (s : State) (t : Nat) (x : Tower) : (s.setTower t x).q = s.q := rfl
@[simp] theorem State.setTower_ctx (s : State) (t : Nat) (x : Tower) : (s.setTower t x).ctx = s.ctx := rfl
@[simp] theorem State.setTower_cad (s : State) (t : Nat) (x : Tower) : (s.setTower t x).cad = s.cad := rfl
@[simp] theorem State.setTower_mgmt (s : State) (t : Nat) (x : Tower) : (s.setTower t x).mgmt = s.mgmt := rfl
@[simp] theorem State.setTower_fab (s : State) (t : Nat) (x : Tower) : (s.setTower t x).fab = s.fab := rfl
@[simp] theorem State.setTower_agenda (s : State) (t : Nat) (x : Tower) : (s.setTower t x).agenda = s.agenda := rfl
@[simp] theorem State.setTower_cur (s : State) (t : Nat) (x : Tower) : (s.setTower t x).cur = s.cur := rfl
@[simp] theorem State.setTower_free (s : State) (t : Nat) (x : Tower) : (s.setTower t x).free = s.free := rfl
@[simp] theorem State.setTower_nextId (s : State) (t : Nat) (x : Tower) : (s.setTower t x).nextId = s.nextId := rfl

@[simp] theorem State.modTower_clock (s : State) (t : Nat) (f : Tower → Tower) : (s.modTower t f).clock = s.clock := rfl
@[simp] theorem State.modTower_cores (s : State) (t : Nat) (f : Tower → Tower) : (s.modTower t f).cores = s.cores := rfl
@[simp] theorem State.modTower_launches (s : State) (t : Nat) (f : Tower → Tower) : (s.modTower t f).launches = s.launches := rfl
@[simp] theorem State.modTower_ran (s : State) (t : Nat) (f : Tower → Tower) : (s.modTower t f).ran = s.ran := rfl
@[simp] theorem State.modTower_mem (s : State) (t : Nat) (f : Tower → Tower) : (s.modTower t f).mem = s.mem := rfl
@[simp] theorem State.modTower_q (s : State) (t : Nat) (f : Tower → Tower) : (s.modTower t f).q = s.q := rfl
@[simp] theorem State.modTower_ctx (s : State) (t : Nat) (f : Tower → Tower) : (s.modTower t f).ctx = s.ctx := rfl
@[simp] theorem State.modTower_cad (s : State) (t : Nat) (f : Tower → Tower) : (s.modTower t f).cad = s.cad := rfl
@[simp] theorem State.modTower_mgmt (s : State) (t : Nat) (f : Tower → Tower) : (s.modTower t f).mgmt = s.mgmt := rfl
@[simp] theorem State.modTower_fab (s : State) (t : Nat) (f : Tower → Tower) : (s.modTower t f).fab = s.fab := rfl
@[simp] theorem State.modTower_agenda (s : State) (t : Nat) (f : Tower → Tower) : (s.modTower t f).agenda = s.agenda := rfl
@[simp] theorem State.modTower_cur (s : State) (t : Nat) (f : Tower → Tower) : (s.modTower t f).cur = s.cur := rfl
@[simp] theorem State.modTower_free (s : State) (t : Nat) (f : Tower → Tower) : (s.modTower t f).free = s.free := rfl
@[simp] theorem State.modTower_nextId (s : State) (t : Nat) (f : Tower → Tower) : (s.modTower t f).nextId = s.nextId := rfl

@[simp] theorem State.modWarp_clock (s : State) (d sl : Nat) (f : Warp → Warp) : (s.modWarp d sl f).clock = s.clock := rfl
@[simp] theorem State.modWarp_towers (s : State) (d sl : Nat) (f : Warp → Warp) : (s.modWarp d sl f).towers = s.towers := rfl
@[simp] theorem State.modWarp_launches (s : State) (d sl : Nat) (f : Warp → Warp) : (s.modWarp d sl f).launches = s.launches := rfl
@[simp] theorem State.modWarp_ran (s : State) (d sl : Nat) (f : Warp → Warp) : (s.modWarp d sl f).ran = s.ran := rfl
@[simp] theorem State.modWarp_mem (s : State) (d sl : Nat) (f : Warp → Warp) : (s.modWarp d sl f).mem = s.mem := rfl
@[simp] theorem State.modWarp_q (s : State) (d sl : Nat) (f : Warp → Warp) : (s.modWarp d sl f).q = s.q := rfl
@[simp] theorem State.modWarp_ctx (s : State) (d sl : Nat) (f : Warp → Warp) : (s.modWarp d sl f).ctx = s.ctx := rfl
@[simp] theorem State.modWarp_cad (s : State) (d sl : Nat) (f : Warp → Warp) : (s.modWarp d sl f).cad = s.cad := rfl
@[simp] theorem State.modWarp_mgmt (s : State) (d sl : Nat) (f : Warp → Warp) : (s.modWarp d sl f).mgmt = s.mgmt := rfl
@[simp] theorem State.modWarp_fab (s : State) (d sl : Nat) (f : Warp → Warp) : (s.modWarp d sl f).fab = s.fab := rfl
@[simp] theorem State.modWarp_agenda (s : State) (d sl : Nat) (f : Warp → Warp) : (s.modWarp d sl f).agenda = s.agenda := rfl
@[simp] theorem State.modWarp_cur (s : State) (d sl : Nat) (f : Warp → Warp) : (s.modWarp d sl f).cur = s.cur := rfl
@[simp] theorem State.modWarp_free (s : State) (d sl : Nat) (f : Warp → Warp) : (s.modWarp d sl f).free = s.free := rfl
@[simp] theorem State.modWarp_nextId (s : State) (d sl : Nat) (f : Warp → Warp) : (s.modWarp d sl f).nextId = s.nextId := rfl

@[simp] theorem State.modThread_clock (s : State) (d sl ln : Nat) (f : Thread → Thread) : (s.modThread d sl ln f).clock = s.clock := rfl
@[simp] theorem State.modThread_towers (s : State) (d sl ln : Nat) (f : Thread → Thread) : (s.modThread d sl ln f).towers = s.towers := rfl
@[simp] theorem State.modThread_launches (s : State) (d sl ln : Nat) (f : Thread → Thread) : (s.modThread d sl ln f).launches = s.launches := rfl
@[simp] theorem State.modThread_ran (s : State) (d sl ln : Nat) (f : Thread → Thread) : (s.modThread d sl ln f).ran = s.ran := rfl
@[simp] theorem State.modThread_mem (s : State) (d sl ln : Nat) (f : Thread → Thread) : (s.modThread d sl ln f).mem = s.mem := rfl
@[simp] theorem State.modThread_q (s : State) (d sl ln : Nat) (f : Thread → Thread) : (s.modThread d sl ln f).q = s.q := rfl
@[simp] theorem State.modThread_ctx (s : State) (d sl ln : Nat) (f : Thread → Thread) : (s.modThread d sl ln f).ctx = s.ctx := rfl
@[simp] theorem State.modThread_cad (s : State) (d sl ln : Nat) (f : Thread → Thread) : (s.modThread d sl ln f).cad = s.cad := rfl
@[simp] theorem State.modThread_mgmt (s : State) (d sl ln : Nat) (f : Thread → Thread) : (s.modThread d sl ln f).mgmt = s.mgmt := rfl
@[simp] theorem State.modThread_fab (s : State) (d sl ln : Nat) (f : Thread → Thread) : (s.modThread d sl ln f).fab = s.fab := rfl
@[simp] theorem State.modThread_agenda (s : State) (d sl ln : Nat) (f : Thread → Thread) : (s.modThread d sl ln f).agenda = s.agenda := rfl
@[simp] theorem State.modThread_cur (s : State) (d sl ln : Nat) (f : Thread → Thread) : (s.modThread d sl ln f).cur = s.cur := rfl
@[simp] theorem State.modThread_free (s : State) (d sl ln : Nat) (f : Thread → Thread) : (s.modThread d sl ln f).free = s.free := rfl
@[simp] theorem State.modThread_nextId (s : State) (d sl ln : Nat) (f : Thread → Thread) : (s.modThread d sl ln f).nextId = s.nextId := rfl

@[simp] theorem State.modLaunch_clock (s : State) (k : Nat) (f : Launch → Launch) : (s.modLaunch k f).clock = s.clock := rfl
@[simp] theorem State.modLaunch_cores (s : State) (k : Nat) (f : Launch → Launch) : (s.modLaunch k f).cores = s.cores := rfl
@[simp] theorem State.modLaunch_ran (s : State) (k : Nat) (f : Launch → Launch) : (s.modLaunch k f).ran = s.ran := rfl
@[simp] theorem State.modLaunch_towers (s : State) (k : Nat) (f : Launch → Launch) : (s.modLaunch k f).towers = s.towers := rfl
@[simp] theorem State.modLaunch_mem (s : State) (k : Nat) (f : Launch → Launch) : (s.modLaunch k f).mem = s.mem := rfl
@[simp] theorem State.modLaunch_q (s : State) (k : Nat) (f : Launch → Launch) : (s.modLaunch k f).q = s.q := rfl
@[simp] theorem State.modLaunch_ctx (s : State) (k : Nat) (f : Launch → Launch) : (s.modLaunch k f).ctx = s.ctx := rfl
@[simp] theorem State.modLaunch_cad (s : State) (k : Nat) (f : Launch → Launch) : (s.modLaunch k f).cad = s.cad := rfl
@[simp] theorem State.modLaunch_mgmt (s : State) (k : Nat) (f : Launch → Launch) : (s.modLaunch k f).mgmt = s.mgmt := rfl
@[simp] theorem State.modLaunch_fab (s : State) (k : Nat) (f : Launch → Launch) : (s.modLaunch k f).fab = s.fab := rfl
@[simp] theorem State.modLaunch_agenda (s : State) (k : Nat) (f : Launch → Launch) : (s.modLaunch k f).agenda = s.agenda := rfl
@[simp] theorem State.modLaunch_cur (s : State) (k : Nat) (f : Launch → Launch) : (s.modLaunch k f).cur = s.cur := rfl
@[simp] theorem State.modLaunch_free (s : State) (k : Nat) (f : Launch → Launch) : (s.modLaunch k f).free = s.free := rfl
@[simp] theorem State.modLaunch_nextId (s : State) (k : Nat) (f : Launch → Launch) : (s.modLaunch k f).nextId = s.nextId := rfl

@[simp] theorem State.raise_clock (s : State) (d sl ln : Nat) (x : BitVec 32) : (s.raise d sl ln x).clock = s.clock := rfl
@[simp] theorem State.raise_towers (s : State) (d sl ln : Nat) (x : BitVec 32) : (s.raise d sl ln x).towers = s.towers := rfl
@[simp] theorem State.raise_launches (s : State) (d sl ln : Nat) (x : BitVec 32) : (s.raise d sl ln x).launches = s.launches := rfl
@[simp] theorem State.raise_ran (s : State) (d sl ln : Nat) (x : BitVec 32) : (s.raise d sl ln x).ran = s.ran := rfl
@[simp] theorem State.raise_mem (s : State) (d sl ln : Nat) (x : BitVec 32) : (s.raise d sl ln x).mem = s.mem := rfl
@[simp] theorem State.raise_q (s : State) (d sl ln : Nat) (x : BitVec 32) : (s.raise d sl ln x).q = s.q := rfl
@[simp] theorem State.raise_ctx (s : State) (d sl ln : Nat) (x : BitVec 32) : (s.raise d sl ln x).ctx = s.ctx := rfl
@[simp] theorem State.raise_cad (s : State) (d sl ln : Nat) (x : BitVec 32) : (s.raise d sl ln x).cad = s.cad := rfl
@[simp] theorem State.raise_mgmt (s : State) (d sl ln : Nat) (x : BitVec 32) : (s.raise d sl ln x).mgmt = s.mgmt := rfl
@[simp] theorem State.raise_fab (s : State) (d sl ln : Nat) (x : BitVec 32) : (s.raise d sl ln x).fab = s.fab := rfl
@[simp] theorem State.raise_agenda (s : State) (d sl ln : Nat) (x : BitVec 32) : (s.raise d sl ln x).agenda = s.agenda := rfl
@[simp] theorem State.raise_cur (s : State) (d sl ln : Nat) (x : BitVec 32) : (s.raise d sl ln x).cur = s.cur := rfl
@[simp] theorem State.raise_free (s : State) (d sl ln : Nat) (x : BitVec 32) : (s.raise d sl ln x).free = s.free := rfl
@[simp] theorem State.raise_nextId (s : State) (d sl ln : Nat) (x : BitVec 32) : (s.raise d sl ln x).nextId = s.nextId := rfl

@[simp] theorem State.count_clock (s : State) (d e n : Nat) : (s.count d e n).clock = s.clock := rfl
@[simp] theorem State.count_cores (s : State) (d e n : Nat) : (s.count d e n).cores = s.cores := rfl
@[simp] theorem State.count_towers (s : State) (d e n : Nat) : (s.count d e n).towers = s.towers := rfl
@[simp] theorem State.count_launches (s : State) (d e n : Nat) : (s.count d e n).launches = s.launches := rfl
@[simp] theorem State.count_ran (s : State) (d e n : Nat) : (s.count d e n).ran = s.ran := rfl
@[simp] theorem State.count_q (s : State) (d e n : Nat) : (s.count d e n).q = s.q := rfl
@[simp] theorem State.count_ctx (s : State) (d e n : Nat) : (s.count d e n).ctx = s.ctx := rfl
@[simp] theorem State.count_cad (s : State) (d e n : Nat) : (s.count d e n).cad = s.cad := rfl
@[simp] theorem State.count_mgmt (s : State) (d e n : Nat) : (s.count d e n).mgmt = s.mgmt := rfl
@[simp] theorem State.count_fab (s : State) (d e n : Nat) : (s.count d e n).fab = s.fab := rfl
@[simp] theorem State.count_agenda (s : State) (d e n : Nat) : (s.count d e n).agenda = s.agenda := rfl
@[simp] theorem State.count_cur (s : State) (d e n : Nat) : (s.count d e n).cur = s.cur := rfl
@[simp] theorem State.count_free (s : State) (d e n : Nat) : (s.count d e n).free = s.free := rfl
@[simp] theorem State.count_nextId (s : State) (d e n : Nat) : (s.count d e n).nextId = s.nextId := rfl

/-! ### Cores -/

@[simp] theorem State.core_setCore_self (s : State) (d : Nat) (c : Core) : (s.setCore d c).core d = c := by
  simp [State.core, State.setCore]
theorem State.core_setCore (s : State) (d k : Nat) (c : Core) : (s.setCore d c).core k = if k = d then c else s.core k := by
  simp [State.core, State.setCore, findD_put]
@[simp] theorem State.core_modCore_self (s : State) (d : Nat) (f : Core → Core) : (s.modCore d f).core d = f (s.core d) := by
  simp [State.modCore]
theorem State.core_modCore (s : State) (d k : Nat) (f : Core → Core) :
    (s.modCore d f).core k = if k = d then f (s.core d) else s.core k := by
  simp [State.modCore, State.core_setCore]
theorem State.core_modCore_ne (s : State) (d k : Nat) (f : Core → Core) (h : k ≠ d) : (s.modCore d f).core k = s.core k := by
  simp [State.core_modCore, h]
@[simp] theorem State.core_count (s : State) (d e n k : Nat) : (s.count d e n).core k = s.core k := rfl
@[simp] theorem State.core_modLaunch (s : State) (key k : Nat) (f : Launch → Launch) :
    (s.modLaunch key f).core k = s.core k := rfl
@[simp] theorem State.core_modTower (s : State) (t k : Nat) (f : Tower → Tower) : (s.modTower t f).core k = s.core k := rfl
@[simp] theorem State.core_setTower (s : State) (t k : Nat) (x : Tower) : (s.setTower t x).core k = s.core k := rfl

/-! ### Towers -/

@[simp] theorem State.tower_setTower_self (s : State) (t : Nat) (x : Tower) : (s.setTower t x).tower t = x := by
  simp [State.tower, State.setTower]
theorem State.tower_modTower (s : State) (t k : Nat) (f : Tower → Tower) :
    (s.modTower t f).tower k = if k = t then f (s.tower t) else s.tower k := by
  simp [State.tower, State.modTower, State.setTower, findD_put]
@[simp] theorem State.tower_modTower_self (s : State) (t : Nat) (f : Tower → Tower) :
    (s.modTower t f).tower t = f (s.tower t) := by simp [State.tower_modTower]
@[simp] theorem State.tower_modCore (s : State) (d t : Nat) (f : Core → Core) : (s.modCore d f).tower t = s.tower t := rfl
@[simp] theorem State.tower_setCore (s : State) (d t : Nat) (c : Core) : (s.setCore d c).tower t = s.tower t := rfl

/-! ### Ports of a core -/

theorem portRank_inj {p q : PortId} : portRank p = portRank q ↔ p = q := by
  cases p <;> cases q <;> simp [portRank]
@[simp] theorem Core.port_setPort_self (c : Core) (p : PortId) (x : Port) : (c.setPort p x).port p = x := by
  simp [Core.port, Core.setPort]
theorem Core.port_setPort (c : Core) (p q : PortId) (x : Port) :
    (c.setPort p x).port q = if q = p then x else c.port q := by
  simp [Core.port, Core.setPort, findD_put, portRank_inj]
@[simp] theorem Core.warps_setPort (c : Core) (p : PortId) (x : Port) : (c.setPort p x).warps = c.warps := rfl
@[simp] theorem Core.warp?_setPort (c : Core) (p : PortId) (x : Port) (k : Nat) : (c.setPort p x).warp? k = c.warp? k := rfl

/-! ### Warps of a core -/

@[simp] theorem Core.warp?_setWarp_self (c : Core) (sl : Nat) (w : Warp) : (c.setWarp sl w).warp? sl = some w := by
  simp [Core.warp?, Core.setWarp]
theorem Core.warp?_setWarp (c : Core) (sl k : Nat) (w : Warp) :
    (c.setWarp sl w).warp? k = if k = sl then some w else c.warp? k := by
  simp [Core.warp?, Core.setWarp, find?_put]
theorem Core.warp?_modWarp (c : Core) (sl k : Nat) (f : Warp → Warp) :
    (c.modWarp sl f).warp? k = if k = sl then (c.warp? sl).map f else c.warp? k := by
  unfold Core.modWarp
  split
  · rename_i w h
    simp [Core.warp?_setWarp, h]
  · rename_i h
    split
    · subst_vars; simp [h]
    · rfl

/-- What a core holds outside its warps is the same after an update of a warp. -/
theorem Core.modWarp_eq (c : Core) (sl : Nat) (f : Warp → Warp) : ∃ ws, c.modWarp sl f = { c with warps := ws } := by
  unfold Core.modWarp
  split
  · exact ⟨_, rfl⟩
  · exact ⟨c.warps, rfl⟩
@[simp] theorem Core.port_modWarp (c : Core) (sl : Nat) (f : Warp → Warp) (p : PortId) :
    (c.modWarp sl f).port p = c.port p := by
  obtain ⟨ws, h⟩ := c.modWarp_eq sl f
  rw [h]; rfl

theorem State.warp?_modWarp (s : State) (d sl k j : Nat) (f : Warp → Warp) :
    (s.modWarp d sl f).warp? k j = if k = d ∧ j = sl then (s.warp? d sl).map f else s.warp? k j := by
  simp only [State.warp?, State.modWarp, State.core_modCore]
  by_cases hk : k = d
  · subst hk
    simp [Core.warp?_modWarp]
  · simp [hk]
@[simp] theorem State.warp?_modWarp_self (s : State) (d sl : Nat) (f : Warp → Warp) :
    (s.modWarp d sl f).warp? d sl = (s.warp? d sl).map f := by simp [State.warp?_modWarp]
@[simp] theorem State.warp?_count (s : State) (d e n k j : Nat) : (s.count d e n).warp? k j = s.warp? k j := rfl
@[simp] theorem State.warp?_modLaunch (s : State) (key k j : Nat) (f : Launch → Launch) :
    (s.modLaunch key f).warp? k j = s.warp? k j := rfl

/-! ### Threads of a warp -/

theorem Warp.threads_modThread (w : Warp) (ln k : Nat) (f : Thread → Thread) :
    (w.modThread ln f).threads[k]? = if k = ln then (w.threads[ln]?).map f else w.threads[k]? := by
  simp only [Warp.modThread, List.getElem?_modify]
  split
  · subst_vars; simp
  · rename_i h
    simp [Ne.symm h]

/-- A thread reads back an update of itself, and every other thread is as before. -/
theorem State.thread?_modThread (s : State) (d sl ln k j i : Nat) (f : Thread → Thread) :
    (s.modThread d sl ln f).thread? k j i =
      if k = d ∧ j = sl ∧ i = ln then (s.thread? d sl ln).map f else s.thread? k j i := by
  simp only [State.thread?, State.modThread, State.warp?_modWarp]
  by_cases h : k = d ∧ j = sl
  · obtain ⟨rfl, rfl⟩ := h
    simp only [and_self, true_and, if_true]
    cases s.warp? k j with
    | none => simp
    | some w =>
      simp only [Option.map_some, Option.bind_some, Warp.threads_modThread]
  · have h2 : ¬ (k = d ∧ j = sl ∧ i = ln) := fun g => h ⟨g.1, g.2.1⟩
    simp [h, h2]
@[simp] theorem State.thread?_modThread_self (s : State) (d sl ln : Nat) (f : Thread → Thread) :
    (s.modThread d sl ln f).thread? d sl ln = (s.thread? d sl ln).map f := by simp [State.thread?_modThread]

/-- An update of a warp that keeps its threads leaves every thread as before. -/
theorem State.thread?_modWarp (s : State) (d sl k j i : Nat) (f : Warp → Warp) (h : ∀ w, (f w).threads = w.threads) :
    (s.modWarp d sl f).thread? k j i = s.thread? k j i := by
  simp only [State.thread?, State.warp?_modWarp]
  split
  · rename_i g
    obtain ⟨rfl, rfl⟩ := g
    cases s.warp? k j <;> simp [h]
  · rfl
@[simp] theorem State.thread?_count (s : State) (d e n k j i : Nat) : (s.count d e n).thread? k j i = s.thread? k j i := rfl
@[simp] theorem State.thread?_modLaunch (s : State) (key k j i : Nat) (f : Launch → Launch) :
    (s.modLaunch key f).thread? k j i = s.thread? k j i := rfl

/-- The rest of a warp is the same after an update of one of its threads. -/
theorem State.warp?_modThread (s : State) (d sl ln k j : Nat) (f : Thread → Thread) :
    (s.modThread d sl ln f).warp? k j =
      if k = d ∧ j = sl then (s.warp? d sl).map (·.modThread ln f) else s.warp? k j :=
  State.warp?_modWarp ..

/-- A core keeps everything but its warps when one of its threads is updated. -/
theorem State.core_modThread (s : State) (d sl ln k : Nat) (f : Thread → Thread) :
    ∃ ws, (s.modThread d sl ln f).core k = { s.core k with warps := ws } := by
  simp only [State.modThread, State.modWarp, State.core_modCore]
  split
  · subst_vars
    exact (s.core k).modWarp_eq sl _
  · exact ⟨_, rfl⟩

/-- An update of a core that keeps its warps leaves every warp and thread as before. -/
theorem State.warp?_modCore (s : State) (d k j : Nat) (f : Core → Core) (h : (f (s.core d)).warps = (s.core d).warps) :
    (s.modCore d f).warp? k j = s.warp? k j := by
  simp only [State.warp?, State.core_modCore, Core.warp?]
  split
  · subst_vars; rw [h]
  · rfl
theorem State.thread?_modCore (s : State) (d k j i : Nat) (f : Core → Core) (h : (f (s.core d)).warps = (s.core d).warps) :
    (s.modCore d f).thread? k j i = s.thread? k j i := by
  simp only [State.thread?, State.warp?_modCore s d k j f h]

end Sys2Proof.Machine
end

