-- ==== Sys2Proof/Laws/Issue.lean ====
section
/-! SUPPORT. What a word does to its threads, its warps and everything else: once for every word, for the instruction
families to cite. -/

namespace Sys2Proof.Machine

open Sys2Proof

/-! ### The group -/

/-- What the state says of a thread of the group: its warp and itself are those that its port's word reads (R155). -/
theorem mem_mkEnvs {s : State} {d : Nat} {p : PortId} {l : Launch} {va word : BitVec 64} {e : Env}
    (h : e ∈ mkEnvs s d p l va word) :
    e.s = s ∧ e.d = d ∧ e.port = p ∧ e.l = l ∧ e.va = va ∧ e.word = word ∧
      find? (s.reading d p).warps e.slot = some e.w ∧ e.w.threads[e.lane]? = some e.t := by
  simp only [mkEnvs, List.mem_filterMap] at h
  obtain ⟨⟨sl, ln⟩, -, h⟩ := h
  split at h
  · rename_i w hw
    split at h
    · rename_i t ht
      simp only [Option.some.injEq] at h
      subst h
      exact ⟨rfl, rfl, rfl, rfl, rfl, rfl, hw, ht⟩
    · simp at h
  · simp at h

theorem reading_eq {s : State} {d : Nat} {p : PortId} (h : ((s.core d).port p).issued = none) :
    (s.reading d p).clock = s.clock ∧ (s.reading d p).free = s.free ∧ (s.reading d p).warps = (s.core d).warps := by
  simp [State.reading, h]

theorem thread?_of_mem {s : State} {d : Nat} {p : PortId} {l : Launch} {va word : BitVec 64} {e : Env}
    (h : e ∈ mkEnvs s d p l va word) (hi : ((s.core d).port p).issued = none) : s.thread? d e.slot e.lane = some e.t := by
  obtain ⟨-, -, -, -, -, -, hw, ht⟩ := mem_mkEnvs h
  rw [(reading_eq hi).2.2] at hw
  have hw' : s.warp? d e.slot = some e.w := hw
  simp [State.thread?, hw', ht]

/-- The group holds each of its threads once. -/
theorem nodup_mkEnvs (s : State) (d : Nat) (p : PortId) (l : Launch) (va word : BitVec 64) :
    ((mkEnvs s d p l va word).map fun e => (e.slot, e.lane)).Nodup := by
  unfold mkEnvs
  generalize hm : (((s.core d).port p).members).eraseDups = ms
  have hn : ms.Nodup := hm ▸ nodup_eraseDups _
  clear hm
  induction ms with
  | nil => simp
  | cons m r ih =>
    rw [List.nodup_cons] at hn
    rw [List.filterMap_cons]
    split
    · exact ih hn.2
    · rename_i e he
      rw [List.map_cons, List.nodup_cons]
      refine ⟨fun hc => hn.1 ?_, ih hn.2⟩
      have hkey : ∀ (m : Nat × Nat) (e : Env), (match m with
          | (sl, ln) => match find? (s.reading d p).warps sl with
            | some w => match w.threads[ln]? with
              | some t => some ({ s := s, at' := (s.reading d p).clock, num := (s.reading d p).free, d := d, port := p, slot := sl, lane := ln, l := l, w := w, t := t, va := va, word := word } : Env)
              | none => none
            | none => none) = some e → (e.slot, e.lane) = m := by
        rintro ⟨sl, ln⟩ e h
        simp only at h
        split at h
        · split at h
          · simp only [Option.some.injEq] at h; subst h; rfl
          · simp at h
        · simp at h
      rw [List.mem_map] at hc
      obtain ⟨e', he', hk⟩ := hc
      rw [List.mem_filterMap] at he'
      obtain ⟨m', hm', he''⟩ := he'
      have h1 := hkey _ _ he
      have h2 := hkey _ _ he''
      rw [← h1, ← hk, h2]
      exact hm'

/-! ### What stays outside the threads of a core -/

theorem SameOutside.refl (d : Nat) (s : State) : SameOutside d s s :=
  { clock := rfl, others := fun _ _ => rfl, core := rfl, towers := rfl, mem := rfl, q := rfl, ctx := rfl, cad := rfl
    fab := rfl, agenda := rfl, nextId := rfl, ran := rfl, warps := fun _ => rfl }

theorem SameOutside.trans {d : Nat} {s t u : State} (h : SameOutside d s t) (g : SameOutside d t u) : SameOutside d s u :=
  { clock := g.clock.trans h.clock
    others := fun k hk => (g.others k hk).trans (h.others k hk)
    core := g.core.trans h.core
    towers := g.towers.trans h.towers
    mem := by
      have h1 := h.mem
      have h2 := g.mem
      rw [← h1]
      rw [← h2] at h1 ⊢
    q := g.q.trans h.q, ctx := g.ctx.trans h.ctx, cad := g.cad.trans h.cad, fab := g.fab.trans h.fab
    agenda := g.agenda.trans h.agenda, nextId := g.nextId.trans h.nextId, ran := g.ran.trans h.ran
    warps := fun sl => (g.warps sl).trans (h.warps sl) }

theorem Quiet.refl (d : Nat) (s : State) : Quiet d s s := { SameOutside.refl d s with mgmt := rfl, launches := rfl }

theorem Quiet.trans {d : Nat} {s t u : State} (h : Quiet d s t) (g : Quiet d t u) : Quiet d s u :=
  { h.toSameOutside.trans g.toSameOutside with
    mgmt := g.mgmt.trans h.mgmt, launches := g.launches.trans h.launches }

/-- An update of a warp that keeps its shell. -/
theorem quiet_modWarp (s : State) (d sl : Nat) (f : Warp → Warp) (h : ∀ w, (f w).shell = w.shell) :
    Quiet d s (s.modWarp d sl f) where
  clock := rfl
  others k hk := State.core_modCore_ne s d k _ hk
  core := by
    simp only [State.modWarp, State.core_modCore_self]
    obtain ⟨ws, hw⟩ := (s.core d).modWarp_eq sl f
    rw [hw]; rfl
  towers := rfl
  mem := rfl
  q := rfl
  ctx := rfl
  cad := rfl
  fab := rfl
  agenda := rfl
  nextId := rfl
  ran := rfl
  warps k := by
    rw [State.warp?_modWarp]
    split
    · rename_i g
      obtain ⟨-, rfl⟩ := g
      cases s.warp? d k <;> simp [h]
    · rfl
  mgmt := rfl
  launches := rfl

theorem quiet_modThread (s : State) (d sl ln : Nat) (f : Thread → Thread) : Quiet d s (s.modThread d sl ln f) :=
  quiet_modWarp s d sl _ fun _ => rfl

/-- An update of a core that keeps its shell and its warps. -/
theorem quiet_modCore (s : State) (d : Nat) (f : Core → Core) (h : (f (s.core d)).shell = (s.core d).shell)
    (hw : (f (s.core d)).warps = (s.core d).warps) : Quiet d s (s.modCore d f) where
  clock := rfl
  others k hk := State.core_modCore_ne s d k _ hk
  core := by simp [h]
  towers := rfl
  mem := rfl
  q := rfl
  ctx := rfl
  cad := rfl
  fab := rfl
  agenda := rfl
  nextId := rfl
  ran := rfl
  warps k := by rw [State.warp?_modCore s d d k f hw]
  mgmt := rfl
  launches := rfl

theorem quiet_modPort (s : State) (d : Nat) (p : PortId) (f : Port → Port) : Quiet d s (s.modPort d p f) :=
  quiet_modCore s d _ rfl rfl

theorem quiet_count (s : State) (d e n : Nat) : Quiet d s (s.count d e n) where
  clock := rfl
  others _ _ := rfl
  core := rfl
  towers := rfl
  mem := rfl
  q := rfl
  ctx := rfl
  cad := rfl
  fab := rfl
  agenda := rfl
  nextId := rfl
  ran := rfl
  warps _ := rfl
  mgmt := rfl
  launches := rfl

theorem quiet_free (s : State) (d n : Nat) : Quiet d s { s with free := n } where
  clock := rfl
  others _ _ := rfl
  core := rfl
  towers := rfl
  mem := rfl
  q := rfl
  ctx := rfl
  cad := rfl
  fab := rfl
  agenda := rfl
  nextId := rfl
  ran := rfl
  warps _ := rfl
  mgmt := rfl
  launches := rfl

/-- A fold of quiet updates is quiet. -/
theorem quiet_foldl {α : Type} (d : Nat) (f : State → α → State) (h : ∀ s a, Quiet d s (f s a)) (l : List α) (s : State) :
    Quiet d s (l.foldl f s) := by
  induction l generalizing s with
  | nil => exact Quiet.refl d s
  | cons a r ih => exact (h s a).trans (ih _)

theorem sameOutside_foldl {α : Type} (d : Nat) (f : State → α → State) (h : ∀ s a, SameOutside d s (f s a)) (l : List α)
    (s : State) : SameOutside d s (l.foldl f s) := by
  induction l generalizing s with
  | nil => exact SameOutside.refl d s
  | cons a r ih => exact (h s a).trans (ih _)

theorem sameOutside_trigger (s : State) (d src : Nat) (tag : BitVec 32) : SameOutside d s (s.trigger src tag) := by
  unfold State.trigger
  split <;> exact { SameOutside.refl d s with }

theorem sameOutside_abortBy (s : State) (d k st c dd sl ln : Nat) (a b : BitVec 64) :
    SameOutside d s (s.abortBy k st c dd sl ln a b) := { SameOutside.refl d s with }

/-- Taking a trap changes the thread, the snapshot state and the launch, and nothing else (R143, R146). -/
theorem sameOutside_takeTrap (s : State) (d sl ln c : Nat) (i epc : BitVec 64) (df : Bool) :
    SameOutside d s (takeTrap s d sl ln c i epc df) := by
  unfold takeTrap
  split
  · exact SameOutside.refl d s
  · have h1 : ∀ b : Bool, SameOutside d s (if b = true then s.trigger 2 0 else s) := by
      intro b; cases b
      · exact SameOutside.refl d s
      · exact sameOutside_trigger s d 2 0
    dsimp only
    split
    · exact ((h1 _).trans (quiet_modThread _ d sl ln _).toSameOutside).trans (sameOutside_abortBy _ d _ _ _ _ _ _ _ _)
    · exact (h1 _).trans (quiet_modThread _ d sl ln _).toSameOutside

@[simp] theorem thread?_trigger (s : State) (src : Nat) (tag : BitVec 32) (k j i : Nat) :
    (s.trigger src tag).thread? k j i = s.thread? k j i := by
  unfold State.trigger; split <;> rfl
@[simp] theorem warp?_trigger (s : State) (src : Nat) (tag : BitVec 32) (k j : Nat) :
    (s.trigger src tag).warp? k j = s.warp? k j := by
  unfold State.trigger; split <;> rfl
@[simp] theorem thread?_abortBy (s : State) (q st c dd sl ln : Nat) (a b : BitVec 64) (k j i : Nat) :
    (s.abortBy q st c dd sl ln a b).thread? k j i = s.thread? k j i := rfl
@[simp] theorem warp?_abortBy (s : State) (q st c dd sl ln : Nat) (a b : BitVec 64) (k j : Nat) :
    (s.abortBy q st c dd sl ln a b).warp? k j = s.warp? k j := rfl

/-- The trap vector of the launch that holds a core; 0 is none (R143, R380). -/
def State.tvec (s : State) (d : Nat) : BitVec 64 := ((s.coreLaunch d).map Launch.tvec).getD 0

/-- Taking a trap: the thread has its trap registers written and goes to the vector, or exits where there is none (R143);
every other thread is as before. -/
theorem thread?_takeTrap (s : State) (d sl ln c : Nat) (x epc : BitVec 64) (df : Bool) (k j i : Nat) :
    (takeTrap s d sl ln c x epc df).thread? k j i =
      if k = d ∧ j = sl ∧ i = ln then
        (s.thread? d sl ln).map fun t => t.trapEntry (s.tvec d) c x epc df (snapWanted s t && s.armed)
      else s.thread? k j i := by
  unfold takeTrap
  cases ht : s.thread? d sl ln with
  | none =>
    simp only [Option.map_none]
    split
    · rename_i h
      obtain ⟨rfl, rfl, rfl⟩ := h
      exact ht
    · rfl
  | some t =>
    have h1 : ∀ b : Bool, ∀ k j i, (if b = true then s.trigger 2 0 else s).thread? k j i = s.thread? k j i := by
      intro b k j i; cases b <;> simp
    simp only [Option.map_some]
    split
    · rw [thread?_abortBy, State.thread?_modThread]
      simp only [h1, ht, Option.map_some]; rfl
    · rw [State.thread?_modThread]
      simp only [h1, ht, Option.map_some]; rfl

/-- Taking a trap leaves the warps' results to come as before. -/
theorem pend_takeTrap (s : State) (d sl ln c : Nat) (x epc : BitVec 64) (df : Bool) (k j : Nat) :
    ((takeTrap s d sl ln c x epc df).warp? k j).map (·.pend) = (s.warp? k j).map (·.pend) := by
  unfold takeTrap
  split
  · rfl
  · have h1 : ∀ b : Bool, ∀ k j, (if b = true then s.trigger 2 0 else s).warp? k j = s.warp? k j := by
      intro b k j; cases b <;> simp
    have h2 : ∀ (s : State) (g : Thread → Thread), ((s.modThread d sl ln g).warp? k j).map (·.pend) = (s.warp? k j).map (·.pend) := by
      intro s g
      rw [State.warp?_modThread]
      split
      · rename_i h
        obtain ⟨rfl, rfl⟩ := h
        cases s.warp? k j <;> simp [Warp.modThread]
      · rfl
    dsimp only
    split
    · rw [warp?_abortBy, h2, h1]
    · rw [h2, h1]

/-! ### One thread of the word -/

theorem sameOutside_raise (s : State) (d sl ln : Nat) (f : BitVec 32) : Quiet d s (s.raise d sl ln f) :=
  quiet_modThread s d sl ln _

theorem sameOutside_applyThread (w : WSpec) (va : BitVec 64) (fz d rank sl ln : Nat) (r : Option TRes) (s : State) :
    SameOutside d s (applyThread w va fz d rank sl ln r s) := by
  unfold applyThread
  split
  · exact (quiet_modThread s d sl ln _).toSameOutside
  · rename_i r
    have h1 : Quiet d s (if r.flags = 0 then s else s.raise d sl ln r.flags) := by
      split
      · exact Quiet.refl d s
      · exact quiet_modThread s d sl ln _
    dsimp only
    split
    · exact (h1.toSameOutside.trans (sameOutside_takeTrap ..)).trans (quiet_modThread ..).toSameOutside
    · exact (h1.trans (quiet_modThread ..)).toSameOutside

/-- A thread that takes no trap changes nothing but itself. -/
theorem quiet_applyThread (w : WSpec) (va : BitVec 64) (fz d rank sl ln : Nat) (r : Option TRes) (s : State)
    (h : ∀ q, r = some q → q.trap = none) : Quiet d s (applyThread w va fz d rank sl ln r s) := by
  unfold applyThread
  split
  · exact quiet_modThread s d sl ln _
  · rename_i r
    have h1 : Quiet d s (if r.flags = 0 then s else s.raise d sl ln r.flags) := by
      split
      · exact Quiet.refl d s
      · exact quiet_modThread s d sl ln _
    simp only [h r rfl]
    exact h1.trans (quiet_modThread ..)

/-- The thread after its part of the word, up to the end of the run. -/
def Thread.applied (t : Thread) (w : WSpec) (va : BitVec 64) (clock fz rank : Nat) (evec : BitVec 64) (snapped : Bool)
    (r : Option TRes) : Thread :=
  match r with
  | none => { t with pc := t.pc + 8 }
  | some r =>
    match r.trap with
    | some (c, i) =>
      { (Thread.trapEntry { t with status := t.status ||| r.flags } evec c i va false snapped) with
          readyAt := w.due clock fz }
    | none =>
      { t with
        pend := t.pend ++ (r.writes.filter fun q => !(warpReg q.reg) && q.reg != 839).map (·.pend clock w.n fz rank)
        status := t.status ||| r.flags
        pc := r.pc.getD (t.pc + 8) }

theorem foldl_result (l : List RegW) (c n fz rank : Nat) (t : Thread) :
    (l.filter fun q => !(warpReg q.reg)).foldl (fun t q => t.result (q.pend c n fz rank)) t =
      { t with pend := t.pend ++ (l.filter fun q => !(warpReg q.reg) && q.reg != 839).map (·.pend c n fz rank) } := by
  induction l generalizing t with
  | nil => simp
  | cons q r ih =>
    by_cases hw : warpReg q.reg
    · simp only [List.filter_cons, hw, Bool.not_true, Bool.false_eq_true, if_false, Bool.false_and]
      exact ih t
    · by_cases h9 : q.reg = 839
      · have h9' : (q.reg != 839) = false := by simp [h9]
        simp only [List.filter_cons, hw, Bool.not_false, if_true, List.foldl_cons, Bool.true_and, h9',
          Bool.false_eq_true, if_false]
        rw [ih]
        simp [Thread.result, RegW.pend, h9]
      · have h9' : (q.reg != 839) = true := by simpa using h9
        simp only [List.filter_cons, hw, Bool.not_false, if_true, List.foldl_cons, Bool.true_and, h9']
        rw [ih]
        simp [Thread.result, RegW.pend, h9]

theorem or_zero_of {a b : BitVec 32} (h : b = 0) : a ||| b = a := by subst h; simp

/-- What the word does to the thread itself. -/
theorem thread?_applyThread_self (w : WSpec) (va : BitVec 64) (fz d rank sl ln : Nat) (r : Option TRes) (s : State) :
    (applyThread w va fz d rank sl ln r s).thread? d sl ln =
      (s.thread? d sl ln).map fun t => t.applied w va s.clock fz rank (s.tvec d) (snapWanted s t && s.armed) r := by
  unfold applyThread
  split
  · simp [Thread.applied]
  · rename_i r
    have h0 : ∀ t : Thread, r.flags = 0 → { t with status := t.status ||| r.flags } = t := by
      intro t h; simp [h]
    have h1 : (if r.flags = 0 then s else s.raise d sl ln r.flags).thread? d sl ln =
        (s.thread? d sl ln).map fun t => { t with status := t.status ||| r.flags } := by
      split
      · rename_i hf
        cases s.thread? d sl ln <;> simp [hf]
      · simp [State.raise, Thread.raise]
    have h2 : (if r.flags = 0 then s else s.raise d sl ln r.flags).clock = s.clock := by split <;> rfl
    have h3 : (if r.flags = 0 then s else s.raise d sl ln r.flags).tvec d = s.tvec d := by
      split
      · rfl
      · obtain ⟨ws, hw⟩ := s.core_modThread d sl ln d (·.raise r.flags)
        simp only [State.tvec, State.coreLaunch, State.raise, hw]
        rfl
    have h4 : ∀ t : Thread, (snapWanted (if r.flags = 0 then s else s.raise d sl ln r.flags)
        { t with status := t.status ||| r.flags } &&
        (if r.flags = 0 then s else s.raise d sl ln r.flags).armed) = (snapWanted s t && s.armed) := by
      intro t
      split <;> rfl
    generalize (if r.flags = 0 then s else s.raise d sl ln r.flags) = s1 at h1 h2 h3 h4
    dsimp only
    split
    · rename_i c i hq
      rw [State.thread?_modThread_self, thread?_takeTrap, if_pos ⟨rfl, rfl, rfl⟩, h1]
      cases s.thread? d sl ln with
      | none => rfl
      | some t => simp [Thread.applied, hq, h3, h4]
    · rename_i hq
      rw [State.thread?_modThread_self, h1]
      cases s.thread? d sl ln with
      | none => rfl
      | some t => simp [Thread.applied, hq, foldl_result]

theorem thread?_applyThread_ne (w : WSpec) (va : BitVec 64) (fz d rank sl ln : Nat) (r : Option TRes) (s : State)
    (k j i : Nat) (h : (k, j, i) ≠ (d, sl, ln)) :
    (applyThread w va fz d rank sl ln r s).thread? k j i = s.thread? k j i := by
  have hn : ¬ (k = d ∧ j = sl ∧ i = ln) := fun g => h (by rw [g.1, g.2.1, g.2.2])
  unfold applyThread
  split
  · rw [State.thread?_modThread, if_neg hn]
  · rename_i r
    have h1 : (if r.flags = 0 then s else s.raise d sl ln r.flags).thread? k j i = s.thread? k j i := by
      split
      · rfl
      · rw [State.raise, State.thread?_modThread, if_neg hn]
    dsimp only
    split
    · rw [State.thread?_modThread, if_neg hn, thread?_takeTrap, if_neg hn, h1]
    · rw [State.thread?_modThread, if_neg hn, h1]

theorem pend_modThread (s : State) (d sl ln k j : Nat) (f : Thread → Thread) :
    ((s.modThread d sl ln f).warp? k j).map (·.pend) = (s.warp? k j).map (·.pend) := by
  rw [State.warp?_modThread]
  split
  · rename_i h
    obtain ⟨rfl, rfl⟩ := h
    cases s.warp? k j <;> simp [Warp.modThread]
  · rfl

theorem pend_applyThread (w : WSpec) (va : BitVec 64) (fz d rank sl ln : Nat) (r : Option TRes) (s : State) (k j : Nat) :
    ((applyThread w va fz d rank sl ln r s).warp? k j).map (·.pend) = (s.warp? k j).map (·.pend) := by
  unfold applyThread
  split
  · exact pend_modThread ..
  · rename_i r
    have h1 : ((if r.flags = 0 then s else s.raise d sl ln r.flags).warp? k j).map (·.pend) =
        (s.warp? k j).map (·.pend) := by
      split
      · rfl
      · exact pend_modThread ..
    dsimp only
    split
    · rw [pend_modThread, pend_takeTrap, h1]
    · rw [pend_modThread, h1]

/-! ### The threads of the word, one after another -/

/-- The part of every thread of the group, in its order. -/
def applyAll (w : WSpec) (va : BitVec 64) (fz d rank : Nat) (es : List Env) (resOf : Env → Option TRes) (s : State) : State :=
  es.foldl (fun s e => applyThread w va fz d rank e.slot e.lane (resOf e) s) s

theorem sameOutside_applyAll (w : WSpec) (va : BitVec 64) (fz d rank : Nat) (es : List Env) (resOf : Env → Option TRes)
    (s : State) : SameOutside d s (applyAll w va fz d rank es resOf s) :=
  sameOutside_foldl d _ (fun _ _ => sameOutside_applyThread ..) _ _

theorem quiet_applyAll (w : WSpec) (va : BitVec 64) (fz d rank : Nat) (es : List Env) (resOf : Env → Option TRes)
    (s : State) (h : ∀ e ∈ es, ∀ q, resOf e = some q → q.trap = none) : Quiet d s (applyAll w va fz d rank es resOf s) := by
  induction es generalizing s with
  | nil => exact Quiet.refl d s
  | cons e r ih =>
    exact (quiet_applyThread w va fz d rank e.slot e.lane (resOf e) s (h e (List.mem_cons_self ..))).trans
      (ih _ fun e' he' => h e' (List.mem_cons_of_mem _ he'))

theorem pend_applyAll (w : WSpec) (va : BitVec 64) (fz d rank : Nat) (es : List Env) (resOf : Env → Option TRes)
    (s : State) (k j : Nat) :
    ((applyAll w va fz d rank es resOf s).warp? k j).map (·.pend) = (s.warp? k j).map (·.pend) := by
  induction es generalizing s with
  | nil => rfl
  | cons e r ih => exact (ih _).trans (pend_applyThread ..)

theorem thread?_applyAll_of_not_mem (w : WSpec) (va : BitVec 64) (fz d rank : Nat) (es : List Env)
    (resOf : Env → Option TRes) (s : State) (k j i : Nat) (h : ∀ e ∈ es, (k, j, i) ≠ (d, e.slot, e.lane)) :
    (applyAll w va fz d rank es resOf s).thread? k j i = s.thread? k j i := by
  induction es generalizing s with
  | nil => rfl
  | cons e r ih =>
    refine (ih _ fun e' he' => h e' (List.mem_cons_of_mem _ he')).trans ?_
    exact thread?_applyThread_ne _ _ _ _ _ _ _ _ _ _ _ _ (h e (List.mem_cons_self ..))

/-- The trap vector of a core is the same after a thread's part of the word. -/
theorem tvec_of_sameOutside {d : Nat} {s t : State} (h : SameOutside d s t)
    (hl : ∀ k, (t.launchOf k).map Launch.tvec = (s.launchOf k).map Launch.tvec) : t.tvec d = s.tvec d := by
  have h1 : (t.core d).launch = (s.core d).launch := by
    have := congrArg Core.launch h.core
    exact this
  simp only [State.tvec, State.coreLaunch, h1]
  cases (s.core d).launch with
  | none => rfl
  | some k => simp [hl k]

theorem tvec_find (ls : List Launch) (f : Launch → Launch) (hk : ∀ l, (f l).key = l.key)
    (hp : ∀ l, (f l).tvec = l.tvec) (k : Nat) :
    ((ls.map f).find? (·.key == k)).map Launch.tvec = (ls.find? (·.key == k)).map Launch.tvec := by
  induction ls with
  | nil => rfl
  | cons l r ih =>
    simp only [List.map_cons, List.find?_cons, hk]
    split
    · simp [hp]
    · exact ih

theorem launchOf_abortBy (s : State) (q st c dd sl ln : Nat) (a b : BitVec 64) (k : Nat) :
    ((s.abortBy q st c dd sl ln a b).launchOf k).map Launch.tvec = (s.launchOf k).map Launch.tvec := by
  refine tvec_find s.launches _ (fun l => ?_) (fun l => ?_) k
  all_goals
    dsimp only
    split
    · split
      · split
        · split <;> rfl
        · rfl
      · rfl
    · rfl

theorem launchOf_trigger (s : State) (src : Nat) (tag : BitVec 32) (k : Nat) :
    (s.trigger src tag).launchOf k = s.launchOf k := by
  unfold State.trigger; split <;> rfl

theorem launchOf_takeTrap (s : State) (d sl ln c : Nat) (x epc : BitVec 64) (df : Bool) (k : Nat) :
    ((takeTrap s d sl ln c x epc df).launchOf k).map Launch.tvec = (s.launchOf k).map Launch.tvec := by
  unfold takeTrap
  split
  · rfl
  · have h1 : ∀ b : Bool, ((if b = true then s.trigger 2 0 else s).launchOf k) = s.launchOf k := by
      intro b; cases b
      · rfl
      · exact launchOf_trigger ..
    dsimp only
    split
    · rw [launchOf_abortBy]
      exact congrArg (Option.map Launch.tvec) (h1 _)
    · exact congrArg (Option.map Launch.tvec) (h1 _)

theorem tvec_applyThread (w : WSpec) (va : BitVec 64) (fz d rank sl ln : Nat) (r : Option TRes) (s : State) :
    (applyThread w va fz d rank sl ln r s).tvec d = s.tvec d := by
  refine tvec_of_sameOutside (sameOutside_applyThread ..) fun k => ?_
  unfold applyThread
  split
  · rfl
  · rename_i r
    have h1 : ∀ k, (if r.flags = 0 then s else s.raise d sl ln r.flags).launchOf k = s.launchOf k := by
      intro k; split <;> rfl
    dsimp only
    split
    · refine (launchOf_takeTrap ..).trans ?_
      rw [h1]
    · exact congrArg _ (h1 k)

/-- PROGEN stays as it is (R150). -/
theorem progen_trigger (s : State) (src : Nat) (tag : BitVec 32) : (s.trigger src tag).progen = s.progen := by
  unfold State.trigger
  split
  · simp [State.progen]
  · have : ∀ n : Nat, (BitVec.ofNat 64 (n <<< 16))[2] = false := by
      intro n
      rw [← BitVec.getLsbD_eq_getElem, BitVec.getLsbD_ofNat]
      simp [Nat.testBit_shiftLeft]
    simp [State.progen, this]

theorem progen_applyThread (w : WSpec) (va : BitVec 64) (fz d rank sl ln : Nat) (r : Option TRes) (s : State) :
    (applyThread w va fz d rank sl ln r s).progen = s.progen := by
  have hm : ∀ (s : State) (f : Thread → Thread), (s.modThread d sl ln f).progen = s.progen := fun _ _ => rfl
  have ht : ∀ (s : State) (c : Nat) (i : BitVec 64), (takeTrap s d sl ln c i va false).progen = s.progen := by
    intro s c i
    unfold takeTrap
    split
    · rfl
    · have h1 : ∀ b : Bool, (if b = true then s.trigger 2 0 else s).progen = s.progen := by
        intro b; cases b
        · rfl
        · exact progen_trigger ..
      dsimp only
      split
      · exact (h1 _)
      · exact (h1 _)
  unfold applyThread
  split
  · rfl
  · rename_i r
    have h1 : (if r.flags = 0 then s else s.raise d sl ln r.flags).progen = s.progen := by split <;> rfl
    dsimp only
    split
    · rw [hm, ht, h1]
    · rw [hm, h1]

/-- What the word does to a thread of the group, which holds it once. The Bool says whether a trap of it triggers the
snapshot (R143). -/
theorem thread?_applyAll_mem (w : WSpec) (va : BitVec 64) (fz d rank : Nat) (es : List Env) (resOf : Env → Option TRes)
    (s : State) (hn : (es.map fun e => (e.slot, e.lane)).Nodup) (e : Env) (he : e ∈ es) :
    ∃ snapped : Bool, (∀ t, s.thread? d e.slot e.lane = some t → snapWanted s t = false → snapped = false) ∧
      (applyAll w va fz d rank es resOf s).thread? d e.slot e.lane =
      (s.thread? d e.slot e.lane).map fun t => t.applied w va s.clock fz rank (s.tvec d) snapped (resOf e) := by
  induction es generalizing s with
  | nil => simp at he
  | cons x r ih =>
    rw [List.map_cons, List.nodup_cons] at hn
    have hstep : applyAll w va fz d rank (x :: r) resOf s =
      applyAll w va fz d rank r resOf (applyThread w va fz d rank x.slot x.lane (resOf x) s) := rfl
    rw [hstep]
    rcases List.mem_cons.1 he with rfl | he
    · rw [thread?_applyAll_of_not_mem]
      · rw [thread?_applyThread_self]
        cases s.thread? d e.slot e.lane with
        | none => exact ⟨false, fun _ _ _ => rfl, by simp only [Option.map_none]⟩
        | some t =>
          refine ⟨snapWanted s t && s.armed, fun t' ht hs => ?_, by simp only [Option.map_some]⟩
          rw [Option.some.injEq] at ht
          rw [ht, hs, Bool.false_and]
      · intro e' he' hc
        refine hn.1 ?_
        simp only [Prod.mk.injEq, true_and] at hc
        rw [hc.1, hc.2]
        exact List.mem_map_of_mem (f := fun e : Env => (e.slot, e.lane)) he'
    · obtain ⟨b, hbs, hb⟩ := ih (applyThread w va fz d rank x.slot x.lane (resOf x) s) hn.2 he
      have hne : (d, e.slot, e.lane) ≠ (d, x.slot, x.lane) := by
        intro hc
        refine hn.1 ?_
        simp only [Prod.mk.injEq, true_and] at hc
        rw [← hc.1, ← hc.2]
        exact List.mem_map_of_mem (f := fun e : Env => (e.slot, e.lane)) he
      refine ⟨b, fun t ht hs => hbs t ?_ ?_, ?_⟩
      · rw [thread?_applyThread_ne _ _ _ _ _ _ _ _ _ _ _ _ hne]; exact ht
      · simpa only [snapWanted, progen_applyThread] using hs
      · rw [hb, thread?_applyThread_ne _ _ _ _ _ _ _ _ _ _ _ _ hne, (sameOutside_applyThread ..).clock, tvec_applyThread]

/-! ### The warps of the word -/

theorem foldl_warpResult (l : List RegW) (c n fz rank : Nat) (x : Warp) :
    l.foldl (fun x q => x.result (q.pend c n fz rank)) x = { x with pend := x.pend ++ l.map (·.pend c n fz rank) } := by
  induction l generalizing x with
  | nil => simp
  | cons q r ih => rw [List.foldl_cons, ih]; simp [Warp.result]

/-- The results that the threads of one warp leave it. -/
def warpGets (rs : List TRes) : List RegW := (warpRegs rs).filterMap fun r => warpWrite r rs

theorem quiet_applyWarps (w : WSpec) (fz d rank : Nat) (out : List ((Nat × Nat) × TRes)) (s : State) :
    Quiet d s (applyWarps w fz d rank out s) := by
  refine quiet_foldl d _ (fun s sl => quiet_modWarp s d sl _ fun x => ?_) _ _
  rw [foldl_warpResult]; rfl

theorem thread?_applyWarps (w : WSpec) (fz d rank : Nat) (out : List ((Nat × Nat) × TRes)) (s : State) (k j i : Nat) :
    (applyWarps w fz d rank out s).thread? k j i = s.thread? k j i := by
  unfold applyWarps
  generalize (out.map (·.1.1)).eraseDups = sls
  induction sls generalizing s with
  | nil => rfl
  | cons sl r ih =>
    refine (ih _).trans (State.thread?_modWarp _ _ _ _ _ _ _ fun x => ?_)
    rw [foldl_warpResult]

/-- A warp takes the results of its threads. -/
theorem pend_applyWarps (w : WSpec) (fz d rank : Nat) (out : List ((Nat × Nat) × TRes)) (s : State) (j : Nat) :
    ((applyWarps w fz d rank out s).warp? d j).map (·.pend) = (s.warp? d j).map fun x =>
      x.pend ++ (warpGets ((out.filter (·.1.1 == j)).map (·.2))).map (·.pend s.clock w.n fz rank) := by
  unfold applyWarps
  have hn := nodup_eraseDups (out.map (·.1.1))
  have hm : j ∉ (out.map (·.1.1)).eraseDups → (out.filter (·.1.1 == j)) = [] := by
    intro h
    rw [mem_eraseDups] at h
    rw [List.filter_eq_nil_iff]
    intro q hq hc
    exact h (by rw [← (beq_iff_eq.1 hc)]; exact List.mem_map_of_mem (f := fun q : (Nat × Nat) × TRes => q.1.1) hq)
  generalize (out.map (·.1.1)).eraseDups = sls at hn hm
  induction sls generalizing s with
  | nil =>
    rw [hm (by simp), List.foldl_nil]
    cases s.warp? d j <;> simp [warpGets, warpRegs]
  | cons sl r ih =>
    rw [List.nodup_cons] at hn
    rw [List.foldl_cons]
    by_cases hj : j = sl
    · subst hj
      have hrest : ∀ s : State, ((r.foldl (fun s slot =>
          s.modWarp d slot fun x => ((warpRegs ((out.filter (·.1.1 == slot)).map (·.2))).filterMap fun r =>
            warpWrite r ((out.filter (·.1.1 == slot)).map (·.2))).foldl
              (fun x q => x.result (q.pend s.clock w.n fz rank)) x) s).warp? d j) = s.warp? d j := by
        clear ih hm
        induction r with
        | nil => intro s; rfl
        | cons a r ih2 =>
          intro s
          simp only [List.mem_cons, not_or, List.nodup_cons] at hn
          rw [List.foldl_cons, ih2 ⟨hn.1.2, hn.2.2⟩, State.warp?_modWarp, if_neg]
          exact fun g => hn.1.1 g.2
      refine (congrArg _ (hrest _)).trans ?_
      rw [State.warp?_modWarp_self]
      cases s.warp? d j with
      | none => rfl
      | some x => simp only [Option.map_some, foldl_warpResult, warpGets]
    · have := ih (s.modWarp d sl fun x => ((warpRegs ((out.filter (·.1.1 == sl)).map (·.2))).filterMap fun r =>
          warpWrite r ((out.filter (·.1.1 == sl)).map (·.2))).foldl
            (fun x q => x.result (q.pend s.clock w.n fz rank)) x) hn.2 (fun h => hm (by simp [hj, h]))
      refine this.trans ?_
      rw [State.warp?_modWarp, if_neg (fun g => hj g.2)]
      rfl

/-! ### The end of the word -/

theorem thread?_foldl_ready (d due : Nat) (left : List (Nat × Nat)) (s : State) (j i : Nat) :
    (left.foldl (fun s (m : Nat × Nat) => s.modThread d m.1 m.2 fun t => { t with readyAt := due }) s).thread? d j i =
      (s.thread? d j i).map fun t => if (j, i) ∈ left then { t with readyAt := due } else t := by
  induction left generalizing s with
  | nil => simp
  | cons m r ih =>
    rw [List.foldl_cons, ih, State.thread?_modThread]
    by_cases h : (j, i) = m
    · subst h
      simp only [and_self, if_true, Option.map_map]
      cases s.thread? d j i with
      | none => rfl
      | some t => by_cases hr : (j, i) ∈ r <;> simp [hr]
    · have h2 : ¬ (d = d ∧ j = m.1 ∧ i = m.2) := fun g => h (by rw [g.2.1, g.2.2])
      rw [if_neg h2]
      cases s.thread? d j i with
      | none => rfl
      | some t => simp [h]

theorem quiet_foldl_ready (d due : Nat) (left : List (Nat × Nat)) (s : State) :
    Quiet d s (left.foldl (fun s (m : Nat × Nat) => s.modThread d m.1 m.2 fun t => { t with readyAt := due }) s) :=
  quiet_foldl d _ (fun s _ => quiet_modThread s d _ _ _) _ _

theorem pend_foldl_ready (d due : Nat) (left : List (Nat × Nat)) (s : State) (k j : Nat) :
    ((left.foldl (fun s (m : Nat × Nat) => s.modThread d m.1 m.2 fun t => { t with readyAt := due }) s).warp? k j).map
      (·.pend) = (s.warp? k j).map (·.pend) := by
  induction left generalizing s with
  | nil => rfl
  | cons m r ih => exact (ih _).trans (pend_modThread ..)

/-- The warps that met a missing page in a run are not suspended before it ends (R412). -/
theorem thread?_foldl_faulted (d due : Nat) (faulted : List Nat) (s : State) (j i : Nat) :
    (faulted.foldl (fun s sl => s.modWarp d sl fun w =>
      { w with threads := w.threads.map fun t => { t with readyAt := max t.readyAt due } }) s).thread? d j i =
      (s.thread? d j i).map fun t => if j ∈ faulted then { t with readyAt := max t.readyAt due } else t := by
  induction faulted generalizing s with
  | nil => simp
  | cons a r ih =>
    rw [List.foldl_cons, ih]
    simp only [State.thread?, State.warp?_modWarp, List.mem_cons, true_and]
    by_cases h : j = a
    · subst h
      rw [if_pos rfl]
      cases s.warp? d j with
      | none => rfl
      | some w =>
        simp only [Option.map_some, Option.bind_some, List.getElem?_map]
        cases w.threads[i]? with
        | none => rfl
        | some t => by_cases hr : j ∈ r <;> simp [hr]
    · rw [if_neg h]
      simp [h]

theorem quiet_foldl_faulted (d due : Nat) (faulted : List Nat) (s : State) :
    Quiet d s (faulted.foldl (fun s sl => s.modWarp d sl fun w =>
      { w with threads := w.threads.map fun t => { t with readyAt := max t.readyAt due } }) s) :=
  quiet_foldl d _ (fun s sl => quiet_modWarp s d sl (fun w =>
    { w with threads := w.threads.map fun t => { t with readyAt := max t.readyAt due } }) fun _ => rfl) _ _

theorem pend_foldl_faulted (d due : Nat) (faulted : List Nat) (s : State) (j : Nat) :
    ((faulted.foldl (fun s sl => s.modWarp d sl fun w =>
      { w with threads := w.threads.map fun t => { t with readyAt := max t.readyAt due } }) s).warp? d j).map (·.pend) =
      (s.warp? d j).map (·.pend) := by
  induction faulted generalizing s with
  | nil => rfl
  | cons a r ih =>
    rw [List.foldl_cons, ih, State.warp?_modWarp]
    split
    · rename_i g
      obtain ⟨-, rfl⟩ := g
      cases s.warp? d j <;> rfl
    · rfl

theorem quiet_endRun (s : State) (d : Nat) (p : PortId) (left : List (Nat × Nat)) (due : Nat) :
    Quiet d s (endRun s d p left due) := by
  unfold endRun
  dsimp only
  refine Quiet.trans ?_ (quiet_modCore _ _ _ rfl rfl)
  refine Quiet.trans ?_ (quiet_foldl d _ (fun s sl => quiet_modWarp s d sl (fun w =>
    { w with toggles := insertBy id due w.toggles }) fun _ => rfl) _ _)
  exact ((quiet_foldl_ready d due left s).trans (quiet_foldl_faulted ..)).trans (quiet_modPort ..)

theorem thread?_endRun (s : State) (d : Nat) (p : PortId) (left : List (Nat × Nat)) (due : Nat) (j i : Nat) :
    (endRun s d p left due).thread? d j i =
      (s.thread? d j i).map fun t =>
        let u := if (j, i) ∈ left then { t with readyAt := due } else t
        if j ∈ ((s.core d).port p).faulted then { u with readyAt := max u.readyAt due } else u := by
  unfold endRun
  dsimp only
  rw [State.thread?_modCore _ _ _ _ _ _ rfl]
  have h : ∀ (sw : List Nat) (s : State), (sw.foldl (fun s sl => s.modWarp d sl fun w =>
      { w with toggles := insertBy id due w.toggles }) s).thread? d j i = s.thread? d j i := by
    intro sw
    induction sw with
    | nil => intro s; rfl
    | cons a r ih => exact fun s => (ih _).trans (State.thread?_modWarp _ _ _ _ _ _ _ fun _ => rfl)
  rw [h, State.modPort, State.thread?_modCore _ _ _ _ _ _ rfl, thread?_foldl_faulted, thread?_foldl_ready, Option.map_map]
  rfl

theorem pend_endRun (s : State) (d : Nat) (p : PortId) (left : List (Nat × Nat)) (due : Nat) (j : Nat) :
    ((endRun s d p left due).warp? d j).map (·.pend) = (s.warp? d j).map (·.pend) := by
  unfold endRun
  dsimp only
  rw [State.warp?_modCore _ _ _ _ _ rfl]
  have h : ∀ (sw : List Nat) (s : State), ((sw.foldl (fun s sl => s.modWarp d sl fun w =>
      { w with toggles := insertBy id due w.toggles }) s).warp? d j).map (·.pend) = (s.warp? d j).map (·.pend) := by
    intro sw
    induction sw with
    | nil => intro s; rfl
    | cons a r ih =>
      intro s
      refine (ih _).trans ?_
      rw [State.warp?_modWarp]
      split
      · rename_i g
        obtain ⟨-, rfl⟩ := g
        cases s.warp? d j <;> rfl
      · rfl
  rw [h, State.modPort, State.warp?_modCore _ _ _ _ _ rfl, pend_foldl_faulted, pend_foldl_ready]

/-- An update of a warp leaves the ports of the core as they are. -/
theorem ports_modWarp (s : State) (d sl : Nat) (f : Warp → Warp) : ((s.modWarp d sl f).core d).ports = (s.core d).ports := by
  rw [State.modWarp, State.core_modCore_self]
  obtain ⟨ws, hw⟩ := (s.core d).modWarp_eq sl f
  rw [hw]

/-- A run has ended: its port holds none. -/
theorem active_endRun (s : State) (d : Nat) (p : PortId) (left : List (Nat × Nat)) (due : Nat) :
    (((endRun s d p left due).core d).port p).active = false := by
  have hs : ∀ (c : Core) (q : Port), (c.setPort p q).port p = q := by
    intro c q
    simp [Core.port, Core.setPort]
  have h : ∀ (sw : List Nat) (s : State), ((sw.foldl (fun s sl => s.modWarp d sl fun w =>
      { w with toggles := insertBy id due w.toggles }) s).core d).ports = (s.core d).ports := by
    intro sw
    induction sw with
    | nil => intro s; rfl
    | cons a r ih => exact fun s => (ih _).trans (ports_modWarp ..)
  unfold endRun
  dsimp only
  rw [State.core_modCore_self]
  have h2 : ∀ c e : Core, c.ports = e.ports → (e.port p).active = false → (c.port p).active = false := by
    intro c e hce he
    simpa only [Core.port, hce] using he
  refine h2 _ _ (h ..) ?_
  rw [State.modPort, State.core_modCore_self, hs]

/-- The result of a thread among the word's results. -/
def resultOf (out : List ((Nat × Nat) × TRes)) (e : Env) : Option TRes :=
  (out.find? fun q => q.1 == (e.slot, e.lane)).map (·.2)

theorem quiet_countWord (s : State) (d : Nat) (p : PortId) (n : Nat) : Quiet d s (countWord { s with free := n } d p) :=
  ((quiet_free s d n).trans (quiet_count ..)).trans (quiet_count ..)

/-- The end of a word that met no missing page, said in the steps it takes. -/
theorem finishWord_eq (w : WSpec) (g : Grp) (r : Res) (h : r.faults = []) :
    finishWord w g r =
      let fz := r.freeze + r.other
      let left := (g.envs.filter fun e => !((resultOf r.out e).any (·.trap.isSome))).map fun e => (e.slot, e.lane)
      let due := w.due g.s.clock fz
      let s2 := applyWarps w fz g.d (portRank g.port) r.out
        (applyAll w g.va fz g.d (portRank g.port) g.envs (resultOf r.out) r.s)
      let s5 := (countWord { s2 with free := s2.free + 1 } g.d g.port).modPort g.d g.port fun p =>
        { p with members := left, pc := g.va + 8, count := p.count + 1, due := due, frozen := false
                 banked := (g.s.clock + w.n, r.freeze), haltReq := max p.haltReq r.halt, faulted := p.faulted
                 swaps := p.swaps ++ r.swaps
                 left := p.left ++ (g.envs.filter fun e => (resultOf r.out e).any (·.trap.isSome)).map fun e => (e.slot, e.lane)
                 issued := none, partDone := [] }
      if w.h.e || left.isEmpty then endRun s5 g.d g.port left due else s5 := by
  unfold finishWord
  simp only [h, List.map_nil, List.foldl_nil, List.append_nil, List.contains_nil, Bool.not_false, List.filter_true]
  rfl

/-- Everything that a word which met no missing page leaves alone. -/
theorem sameOutside_finishWord (w : WSpec) (g : Grp) (r : Res) (h : r.faults = []) :
    SameOutside g.d r.s (finishWord w g r) := by
  rw [finishWord_eq w g r h]
  dsimp only
  have h1 := (sameOutside_applyAll w g.va (r.freeze + r.other) g.d (portRank g.port) g.envs (resultOf r.out) r.s).trans
    (quiet_applyWarps w (r.freeze + r.other) g.d (portRank g.port) r.out _).toSameOutside
  have h2 := fun n f => (h1.trans (quiet_countWord _ g.d g.port n).toSameOutside).trans
    (quiet_modPort _ g.d g.port f).toSameOutside
  split
  · exact (h2 _ _).trans (quiet_endRun ..).toSameOutside
  · exact h2 _ _

/-- Where no thread traps, management and the launches are as before too. -/
theorem quiet_finishWord (w : WSpec) (g : Grp) (r : Res) (h : r.faults = [])
    (ht : ∀ e ∈ g.envs, ∀ q, resultOf r.out e = some q → q.trap = none) : Quiet g.d r.s (finishWord w g r) := by
  rw [finishWord_eq w g r h]
  dsimp only
  have h1 := (quiet_applyAll w g.va (r.freeze + r.other) g.d (portRank g.port) g.envs (resultOf r.out) r.s ht).trans
    (quiet_applyWarps w (r.freeze + r.other) g.d (portRank g.port) r.out _)
  have h2 := fun n f => (h1.trans (quiet_countWord _ g.d g.port n)).trans (quiet_modPort _ g.d g.port f)
  split
  · exact (h2 _ _).trans (quiet_endRun ..)
  · exact h2 _ _

/-- A thread of the group after the word. -/
theorem thread?_finishWord (w : WSpec) (g : Grp) (r : Res) (h : r.faults = [])
    (hn : (g.envs.map fun e => (e.slot, e.lane)).Nodup) (hc0 : r.s.clock = g.s.clock) (e : Env) (he : e ∈ g.envs) :
    ∃ snapped : Bool, (∀ t, r.s.thread? g.d e.slot e.lane = some t → snapWanted r.s t = false → snapped = false) ∧
      (finishWord w g r).thread? g.d e.slot e.lane = (r.s.thread? g.d e.slot e.lane).map fun t =>
      let t' := t.applied w g.va r.s.clock (r.freeze + r.other) (portRank g.port) (r.s.tvec g.d) snapped (resultOf r.out e)
      if w.h.e && !((resultOf r.out e).any (·.trap.isSome)) then
        { t' with readyAt := w.due g.s.clock (r.freeze + r.other) } else t' := by
  obtain ⟨b, hbs, hb⟩ := thread?_applyAll_mem w g.va (r.freeze + r.other) g.d (portRank g.port) g.envs (resultOf r.out) r.s hn e he
  refine ⟨b, hbs, ?_⟩
  rw [finishWord_eq w g r h]
  dsimp only
  have hleft : (e.slot, e.lane) ∈
      (g.envs.filter fun e => !((resultOf r.out e).any (·.trap.isSome))).map (fun e => (e.slot, e.lane)) ↔
      (resultOf r.out e).any (·.trap.isSome) = false := by
    rw [List.mem_map]
    constructor
    · rintro ⟨e', he', hk⟩
      have : resultOf r.out e = resultOf r.out e' := by simp only [resultOf, hk]
      rw [this]
      simpa using (List.mem_filter.1 he').2
    · intro hx
      exact ⟨e, List.mem_filter.2 ⟨he, by simp [hx]⟩, rfl⟩
  have h5 : ∀ (s : State) (n : Nat) (f : Port → Port),
      ((countWord { s with free := n } g.d g.port).modPort g.d g.port f).thread? g.d e.slot e.lane =
        s.thread? g.d e.slot e.lane := by
    intro s n f
    rw [State.modPort, State.thread?_modCore _ _ _ _ _ _ rfl]; rfl
  split
  · rename_i hc
    rw [thread?_endRun, h5, thread?_applyWarps, hb, Option.map_map]
    cases r.s.thread? g.d e.slot e.lane with
    | none => rfl
    | some t =>
      simp only [Option.map_some, Function.comp, hleft]
      by_cases ht : (resultOf r.out e).any (·.trap.isSome) = true
      · have hr : (t.applied w g.va r.s.clock (r.freeze + r.other) (portRank g.port) (r.s.tvec g.d) b (resultOf r.out e)).readyAt =
            w.due g.s.clock (r.freeze + r.other) := by
          rw [← hc0]
          cases hq : resultOf r.out e with
          | none => rw [hq] at ht; simp at ht
          | some q =>
            rw [hq, Option.any_some] at ht
            obtain ⟨x, hx⟩ := Option.isSome_iff_exists.1 ht
            simp only [Thread.applied, hx]
        simp only [ht, Bool.true_eq_false, if_false, Bool.not_true, Bool.and_false, Bool.false_eq_true, Option.some.injEq]
        split
        · rw [hr, Nat.max_self, ← hr]
        · rfl
      · have hne : (List.map (fun e => (e.slot, e.lane)) (g.envs.filter fun e =>
            !((resultOf r.out e).any (·.trap.isSome)))).isEmpty = false := by
          have := hleft.2 (by simpa using ht)
          cases hL : List.map (fun e => (e.slot, e.lane)) (g.envs.filter fun e =>
            !((resultOf r.out e).any (·.trap.isSome))) with
          | nil => rw [hL] at this; simp at this
          | cons => rfl
        rw [hne, Bool.or_false] at hc
        simp [ht, hc]
  · rename_i hc
    rw [h5, thread?_applyWarps, hb]
    have : w.h.e = false := by
      simp only [Bool.or_eq_true, not_or, Bool.not_eq_true] at hc
      exact hc.1
    simp [this]

/-- A thread's part of a word leaves the ports of the core as they are. -/
theorem ports_applyThread (w : WSpec) (va : BitVec 64) (fz d rank sl ln : Nat) (r : Option TRes) (s : State) :
    ((applyThread w va fz d rank sl ln r s).core d).ports = (s.core d).ports := by
  have hm : ∀ (s : State) (f : Thread → Thread), ((s.modThread d sl ln f).core d).ports = (s.core d).ports :=
    fun s f => ports_modWarp s d sl _
  have ht : ∀ (s : State) (c : Nat) (i : BitVec 64), ((takeTrap s d sl ln c i va false).core d).ports = (s.core d).ports := by
    intro s c i
    unfold takeTrap
    split
    · rfl
    · have h1 : ∀ b : Bool, ((if b = true then s.trigger 2 0 else s).core d).ports = (s.core d).ports := by
        intro b; cases b
        · rfl
        · unfold State.trigger
          rw [if_pos rfl]
          split <;> rfl
      dsimp only
      split
      · exact (hm _ _).trans (h1 _)
      · exact (hm _ _).trans (h1 _)
  unfold applyThread
  split
  · exact hm _ _
  · rename_i r
    have h1 : ((if r.flags = 0 then s else s.raise d sl ln r.flags).core d).ports = (s.core d).ports := by
      split
      · rfl
      · exact hm _ _
    dsimp only
    split
    · rw [hm, ht, h1]
    · rw [hm, h1]

theorem ports_applyAll (w : WSpec) (va : BitVec 64) (fz d rank : Nat) (es : List Env) (resOf : Env → Option TRes) (s : State) :
    ((applyAll w va fz d rank es resOf s).core d).ports = (s.core d).ports := by
  induction es generalizing s with
  | nil => rfl
  | cons e r ih => exact (ih _).trans (ports_applyThread ..)

theorem ports_applyWarps (w : WSpec) (fz d rank : Nat) (out : List ((Nat × Nat) × TRes)) (s : State) :
    ((applyWarps w fz d rank out s).core d).ports = (s.core d).ports := by
  unfold applyWarps
  generalize (out.map (·.1.1)).eraseDups = sls
  induction sls generalizing s with
  | nil => rfl
  | cons sl r ih => exact (ih _).trans (ports_modWarp ..)

/-- A thread outside the group after the word: a warp that met a missing page earlier in the run is not suspended before the run
ends (R412). -/
theorem thread?_finishWord_of_not_mem (w : WSpec) (g : Grp) (r : Res) (h : r.faults = [])
    (hp : ((r.s.core g.d).port g.port).active = true) (j i : Nat) (hm : ∀ e ∈ g.envs, (e.slot, e.lane) ≠ (j, i)) :
    (finishWord w g r).thread? g.d j i = (r.s.thread? g.d j i).map fun u =>
      if j ∈ ((r.s.core g.d).port g.port).faulted ∧ (((finishWord w g r).core g.d).port g.port).active = false then
        { u with readyAt := max u.readyAt (w.due g.s.clock (r.freeze + r.other)) }
      else u := by
  rw [finishWord_eq w g r h]
  dsimp only
  have h5 : ∀ (s : State) (n : Nat) (f : Port → Port),
      ((countWord { s with free := n } g.d g.port).modPort g.d g.port f).thread? g.d j i = s.thread? g.d j i := by
    intro s n f
    rw [State.modPort, State.thread?_modCore _ _ _ _ _ _ rfl]; rfl
  have h6 : (applyAll w g.va (r.freeze + r.other) g.d (portRank g.port) g.envs (resultOf r.out) r.s).thread? g.d j i =
      r.s.thread? g.d j i := by
    refine thread?_applyAll_of_not_mem _ _ _ _ _ _ _ _ _ _ _ fun e he hc => hm e he ?_
    simp only [Prod.mk.injEq, true_and] at hc
    rw [hc.1, hc.2]
  have hq : ∀ (s : State) (n : Nat) (f : Port → Port), (s.core g.d).ports = (r.s.core g.d).ports →
      (((countWord { s with free := n } g.d g.port).modPort g.d g.port f).core g.d).port g.port =
        f ((r.s.core g.d).port g.port) := by
    intro s n f hs
    rw [State.modPort, State.core_modCore_self]
    have h1 : ∀ (c : Core) (q : Port), (c.setPort g.port q).port g.port = q := by
      intro c q
      simp [Core.port, Core.setPort]
    rw [h1]
    have h2 : ((countWord { s with free := n } g.d g.port).core g.d).ports = (r.s.core g.d).ports := hs
    simp only [Core.port, h2]
  have hs := (ports_applyWarps w (r.freeze + r.other) g.d (portRank g.port) r.out (applyAll w g.va (r.freeze + r.other) g.d
    (portRank g.port) g.envs (resultOf r.out) r.s)).trans (ports_applyAll ..)
  have hnm : (j, i) ∉ (g.envs.filter fun e => !((resultOf r.out e).any (·.trap.isSome))).map
      (fun e => (e.slot, e.lane)) := by
    rw [List.mem_map]
    rintro ⟨e, he, hk⟩
    exact hm e (List.mem_filter.1 he).1 hk
  split
  · rw [active_endRun, thread?_endRun, h5, thread?_applyWarps, h6, hq _ _ _ hs]
    simp [hnm]
  · rw [h5, thread?_applyWarps, h6, hq _ _ _ hs]
    simp [hp]

/-- The results to come of a warp after the word. -/
theorem pend_finishWord (w : WSpec) (g : Grp) (r : Res) (h : r.faults = []) (j : Nat) :
    ((finishWord w g r).warp? g.d j).map (·.pend) = (r.s.warp? g.d j).map fun x =>
      x.pend ++ (warpGets ((r.out.filter (·.1.1 == j)).map (·.2))).map
        (·.pend r.s.clock w.n (r.freeze + r.other) (portRank g.port)) := by
  rw [finishWord_eq w g r h]
  dsimp only
  have h5 : ∀ (s : State) (n : Nat) (f : Port → Port),
      ((countWord { s with free := n } g.d g.port).modPort g.d g.port f).warp? g.d j = s.warp? g.d j := by
    intro s n f
    rw [State.modPort, State.warp?_modCore _ _ _ _ _ rfl]; rfl
  have h6 : ((applyWarps w (r.freeze + r.other) g.d (portRank g.port) r.out
        (applyAll w g.va (r.freeze + r.other) g.d (portRank g.port) g.envs (resultOf r.out) r.s)).warp? g.d j).map (·.pend) =
      (r.s.warp? g.d j).map fun x =>
      x.pend ++ (warpGets ((r.out.filter (·.1.1 == j)).map (·.2))).map
        (·.pend r.s.clock w.n (r.freeze + r.other) (portRank g.port)) := by
    rw [pend_applyWarps, (sameOutside_applyAll ..).clock]
    have := pend_applyAll w g.va (r.freeze + r.other) g.d (portRank g.port) g.envs (resultOf r.out) r.s g.d j
    revert this
    cases (applyAll w g.va (r.freeze + r.other) g.d (portRank g.port) g.envs (resultOf r.out) r.s).warp? g.d j <;>
      cases r.s.warp? g.d j <;> simp
  split
  · rw [pend_endRun, h5, h6]
  · rw [h5, h6]

/-! ### The word -/

theorem Issues.check {w : WSpec} {s : State} {l : Launch} (h : Issues w s l) : wordCheck w s.portNow s.cur.2 l = none := by
  unfold wordCheck
  have h1 : ¬ 24 ≤ s.portNow.count := Nat.not_le.2 h.room
  have h2 : (w.vregs.any fun x => decide (l.nregs ≤ x)) = false := by
    rw [List.any_eq_false]
    intro x hx
    simpa using h.regs x hx
  have h3 : (w.ends && !w.h.e) = false := by
    cases he : w.ends
    · rfl
    · simp [h.ends he]
  have h4 : w.roles.contains (portRole s.cur.2) = true := by simpa using h.role
  have h5 : (w.priv && !l.priv) = false := by
    cases hp : w.priv
    · rfl
    · simp [h.priv hp]
  rw [if_neg h1, if_neg (by simp [h2]), if_neg (by simp [h3]), if_neg (by rw [h4]; simp), if_neg (by simp [h5])]

/-- The group of a word and its stalled threads. -/
def grpOf (w : WSpec) (s : State) (l : Launch) : Grp := (mkGrp w s s.cur.1 s.cur.2 l).1
def stallsOf (w : WSpec) (s : State) (l : Launch) : List ((Nat × Nat) × TRes) := (mkGrp w s s.cur.1 s.cur.2 l).2

@[simp] theorem grpOf_envs (w : WSpec) (s : State) (l : Launch) : (grpOf w s l).envs = s.group w l := rfl
@[simp] theorem grpOf_s (w : WSpec) (s : State) (l : Launch) : (grpOf w s l).s = s := rfl
@[simp] theorem grpOf_d (w : WSpec) (s : State) (l : Launch) : (grpOf w s l).d = s.here := rfl
@[simp] theorem grpOf_port (w : WSpec) (s : State) (l : Launch) : (grpOf w s l).port = s.cur.2 := rfl
@[simp] theorem grpOf_va (w : WSpec) (s : State) (l : Launch) : (grpOf w s l).va = s.portNow.pc := rfl

theorem mem_group {w : WSpec} {s : State} {l : Launch} {e : Env} (h : e ∈ s.group w l) :
    e.s = s ∧ e.d = s.here ∧ e.port = s.cur.2 ∧ e.l = l :=
  have h1 := mem_mkEnvs h
  ⟨h1.1, h1.2.1, h1.2.2.1, h1.2.2.2.1⟩

theorem nodup_group (w : WSpec) (s : State) (l : Launch) : ((s.group w l).map fun e => (e.slot, e.lane)).Nodup :=
  nodup_mkEnvs ..

/-- Two threads of the group with one slot and lane are one. -/
theorem group_inj {w : WSpec} {s : State} {l : Launch} {e e' : Env} (h : e ∈ s.group w l) (h' : e' ∈ s.group w l)
    (hk : (e.slot, e.lane) = (e'.slot, e'.lane)) : e = e' :=
  List.inj_on_of_nodup_map (nodup_group w s l) h h' hk

theorem mem_stallsOf {w : WSpec} {s : State} {l : Launch} {q : (Nat × Nat) × TRes} :
    q ∈ stallsOf w s l ↔ ∃ e ∈ s.group w l, ∃ i, e.stall w.h (w.reads e) = some i ∧
      q = ((e.slot, e.lane), { TRes.trapped Cause.stallshort i with
        leaves := match w.leaves with
          | some f => some (f e)
          | none => if w.h.gp != 7 && (e.early (832 + w.h.gp)).isSome then some [] else none }) := by
  simp only [stallsOf, mkGrp, List.mem_filterMap, Option.map_eq_some_iff]
  constructor
  · rintro ⟨e, he, i, hi, rfl⟩
    exact ⟨e, he, i, hi, rfl⟩
  · rintro ⟨e, he, i, hi, rfl⟩
    exact ⟨e, he, i, hi, rfl⟩

/-- The threads that a word's body sees: those that meet no STALLSHORT trap and whose guard is true. -/
theorem mem_act {w : WSpec} {s : State} {l : Launch} {e : Env} :
    e ∈ (grpOf w s l).act ↔ e ∈ s.group w l ∧ e.executes w := by
  have hact : (grpOf w s l).act = (s.group w l).filter fun e =>
      !((stallsOf w s l).any fun q => q.1 == (e.slot, e.lane)) && e.guard w.h := rfl
  rw [hact, List.mem_filter, and_congr_right_iff]
  intro he
  simp only [Bool.and_eq_true, Bool.not_eq_true', List.any_eq_false, beq_iff_eq, Env.executes, and_congr_left_iff]
  intro _
  constructor
  · intro h
    by_contra hc
    obtain ⟨i, hi⟩ := Option.ne_none_iff_exists'.1 hc
    exact h _ (mem_stallsOf.2 ⟨e, he, i, hi, rfl⟩) rfl
  · intro h q hq hk
    obtain ⟨e', he', i, hi, rfl⟩ := mem_stallsOf.1 hq
    rw [group_inj he' he hk, h] at hi
    exact absurd hi (by simp)

/-- The word completes: what `finishWord` makes of what its body answers. -/
theorem issueWord_eq (w : WSpec) (body : Grp → Res) (s : State) (l : Launch) (h : Issues w s l)
    (hb : (body (grpOf w s l)).bad = false) (hr : (body (grpOf w s l)).retry = false) :
    issueWord w body s = .next (finishWord w (grpOf w s l) { body (grpOf w s l) with
      out := if (stallsOf w s l).isEmpty then (body (grpOf w s l)).out
        else (grpOf w s l).inOrder (stallsOf w s l ++ (body (grpOf w s l)).out) }) := by
  unfold issueWord
  have h1 : s.coreLaunch s.cur.1 = some l := h.launch
  have h2 : ((s.core s.cur.1).port s.cur.2).active = true := h.active
  have h3 : wordCheck w ((s.core s.cur.1).port s.cur.2) s.cur.2 l = none := h.check
  have h4 : (body (mkGrp w s s.cur.1 s.cur.2 l).1).bad = false := hb
  have h5 : (body (mkGrp w s s.cur.1 s.cur.2 l).1).retry = false := hr
  simp only [h1, h2, h3, h4, h5, Bool.not_true, Bool.false_eq_true, if_false]
  rfl

/-! ### Words that act in each thread by itself -/

theorem TRes.noTrap_of_stall {w : WSpec} {s : State} {l : Launch} {q : (Nat × Nat) × TRes} (h : q ∈ stallsOf w s l) :
    q.2.trap.isSome = true := by
  obtain ⟨e, -, i, -, rfl⟩ := mem_stallsOf.1 h
  rfl

/-- The results of a word that acts in each thread by itself, with its stalled threads. -/
def outOf (w : WSpec) (f : Env → TRes) (s : State) (l : Launch) : List ((Nat × Nat) × TRes) :=
  if (stallsOf w s l).isEmpty then (grpOf w s l).act.map fun e => ((e.slot, e.lane), f e)
  else (grpOf w s l).inOrder (stallsOf w s l ++ (grpOf w s l).act.map fun e => ((e.slot, e.lane), f e))

theorem find?_act {w : WSpec} (f : Env → TRes) {s : State} {l : Launch} {e : Env} (he : e ∈ s.group w l)
    (hx : e.stall w.h (w.reads e) = none) :
    ((stallsOf w s l ++ (grpOf w s l).act.map fun e => ((e.slot, e.lane), f e)).find?
      fun q => q.1 == (e.slot, e.lane)) = if e.guard w.h then some ((e.slot, e.lane), f e) else none := by
  rw [List.find?_append, List.find?_eq_none.2]
  · rw [Option.none_or]
    split
    · rename_i hg
      refine find?_of_nodup (q := ((e.slot, e.lane), f e)) ?_ (List.mem_map.2 ⟨e, mem_act.2 ⟨he, hx, hg⟩, rfl⟩)
      rw [List.map_map]
      exact (nodup_group w s l).sublist ((List.filter_sublist ..).map _)
    · rename_i hg
      refine find?_of_not_mem ?_
      rw [List.map_map, List.mem_map]
      rintro ⟨e', he', hk⟩
      have h1 := mem_act.1 he'
      have := group_inj h1.1 he hk
      subst this
      exact hg h1.2.2
  · intro q hq hk
    obtain ⟨e', he', i, hi, rfl⟩ := mem_stallsOf.1 hq
    have := group_inj he' he (beq_iff_eq.1 hk)
    subst this
    rw [hx] at hi
    exact absurd hi (by simp)

theorem stalls_empty {w : WSpec} {s : State} {l : Launch} (h : (stallsOf w s l).isEmpty = true) :
    stallsOf w s l = [] := List.isEmpty_iff.1 h

/-- Looking a key up in an order of the group finds what it finds in the unordered results. -/
theorem find?_inOrder (w : WSpec) (s : State) (l : Launch) (out : List ((Nat × Nat) × TRes)) {e : Env}
    (he : e ∈ s.group w l) :
    ((grpOf w s l).inOrder out).find? (fun q => q.1 == (e.slot, e.lane)) = out.find? fun q => q.1 == (e.slot, e.lane) := by
  unfold Grp.inOrder
  rw [grpOf_envs]
  have hn := nodup_group w s l
  generalize s.group w l = es at he hn
  induction es with
  | nil => simp at he
  | cons x r ih =>
    rw [List.map_cons, List.nodup_cons] at hn
    rw [List.filterMap_cons]
    rcases List.mem_cons.1 he with rfl | he
    · cases hf : out.find? fun q => q.1 == (e.slot, e.lane) with
      | none =>
        simp only
        rw [List.find?_eq_none]
        intro q hq hk
        obtain ⟨e', he', hq'⟩ := List.mem_filterMap.1 hq
        have h1 := List.find?_some hq'
        refine hn.1 ?_
        rw [← beq_iff_eq.1 hk, beq_iff_eq.1 h1]
        exact List.mem_map_of_mem (f := fun e : Env => (e.slot, e.lane)) he'
      | some q =>
        have h1 := List.find?_some hf
        simp only
        exact List.find?_cons_of_pos (p := fun q : (Nat × Nat) × TRes => q.1 == (e.slot, e.lane)) h1
    · have hxe : (x.slot, x.lane) ≠ (e.slot, e.lane) := fun hc => hn.1 (by
        rw [hc]; exact List.mem_map_of_mem (f := fun e : Env => (e.slot, e.lane)) he)
      cases hf : out.find? fun q => q.1 == (x.slot, x.lane) with
      | none => exact ih he hn.2
      | some q =>
        have h1 := List.find?_some hf
        simp only
        refine (List.find?_cons_of_neg (p := fun q : (Nat × Nat) × TRes => q.1 == (e.slot, e.lane)) ?_).trans (ih he hn.2)
        rw [beq_iff_eq.1 h1]
        simpa using hxe

/-- The result of a thread that meets no STALLSHORT trap. -/
theorem resultOf_outOf {w : WSpec} (f : Env → TRes) {s : State} {l : Launch} {e : Env} (he : e ∈ s.group w l)
    (hx : e.stall w.h (w.reads e) = none) :
    resultOf (outOf w f s l) e = if e.guard w.h then some (f e) else none := by
  have h1 := find?_act f he hx
  unfold resultOf outOf
  split
  · rename_i hs
    rw [stalls_empty hs, List.nil_append] at h1
    rw [h1]
    split <;> rfl
  · rw [find?_inOrder w s l _ he, h1]
    split <;> rfl

theorem filter_filterMap_key (es : List Env) (fd : Env → Option ((Nat × Nat) × TRes))
    (hk : ∀ e q, fd e = some q → q.1 = (e.slot, e.lane)) (j : Nat) :
    (es.filterMap fd).filter (·.1.1 == j) = (es.filter (·.slot == j)).filterMap fd := by
  induction es with
  | nil => rfl
  | cons x r ih =>
    rw [List.filterMap_cons, List.filter_cons]
    cases hf : fd x with
    | none =>
      rw [ih]
      split <;> simp [hf]
    | some q =>
      have h1 : q.1.1 = x.slot := by rw [hk _ _ hf]
      simp only [List.filter_cons, h1, ih]
      split
      · rw [List.filterMap_cons, hf]
      · rfl

/-- Where no thread of a warp stalls short, its results are those of its threads whose guard is true, in order. -/
theorem warp_outOf (w : WSpec) (f : Env → TRes) (s : State) (l : Launch) (j : Nat)
    (hx : ∀ e ∈ s.group w l, e.slot = j → e.stall w.h (w.reads e) = none) :
    ((outOf w f s l).filter (·.1.1 == j)).map (·.2) =
      ((s.group w l).filter fun e => e.slot == j && e.guard w.h).map f := by
  have hact : (grpOf w s l).act = (s.group w l).filter fun e =>
      !((stallsOf w s l).any fun q => q.1 == (e.slot, e.lane)) && e.guard w.h := rfl
  unfold outOf
  split
  · rename_i hs
    rw [hact, stalls_empty hs]
    simp only [List.any_nil, Bool.not_false, Bool.true_and, List.filter_map, List.map_map, List.filter_filter]
    rfl
  · unfold Grp.inOrder
    rw [filter_filterMap_key _ _ (fun e q h => beq_iff_eq.1 (List.find?_some (p := fun q : (Nat × Nat) × TRes => q.1 == (e.slot, e.lane)) h)), grpOf_envs]
    have h1 : ∀ es : List Env, (∀ e ∈ es, e ∈ s.group w l) → ((es.filter (·.slot == j)).filterMap fun e =>
        (stallsOf w s l ++ (grpOf w s l).act.map fun e => ((e.slot, e.lane), f e)).find?
          fun q => q.1 == (e.slot, e.lane)).map (·.2) = (es.filter fun e => e.slot == j && e.guard w.h).map f := by
      intro es hm
      induction es with
      | nil => rfl
      | cons x r ih =>
        have ih := ih fun e he => hm e (List.mem_cons_of_mem _ he)
        have hxm := hm x (List.mem_cons_self ..)
        by_cases hj : x.slot = j
        · have hf := find?_act f hxm (hx x hxm hj)
          have hjb : (x.slot == j) = true := by simpa using hj
          rw [List.filter_cons_of_pos (p := fun y : Env => y.slot == j) hjb, List.filterMap_cons, hf]
          by_cases hg : x.guard w.h = true
          · rw [List.filter_cons_of_pos (by simp [hjb, hg]), if_pos hg]
            simp only [List.map_cons]
            rw [ih]
          · rw [List.filter_cons_of_neg (by simp [hg]), if_neg hg]
            exact ih
        · have hj' : (x.slot == j) = false := by simpa using hj
          simp only [List.filter_cons, hj', Bool.false_eq_true, if_false, Bool.false_and]
          exact ih
    exact h1 _ fun e he => he

theorem eraseDups_filter {β : Type} [BEq β] [LawfulBEq β] (p : β → Bool) (l : List β) :
    l.eraseDups.filter p = (l.filter p).eraseDups := by
  induction hn : l.length using Nat.strong_induction_on generalizing l with
  | _ n ih =>
    cases l with
    | nil => simp
    | cons b r =>
      have h1 := ih (r.filter fun x => !x == b).length
        (by have := List.length_filter_le (fun x => !x == b) r; simp at hn; omega) _ rfl
      rw [List.eraseDups_cons, List.filter_cons, List.filter_cons, h1]
      cases hp : p b
      · simp only [Bool.false_eq_true, if_false, List.filter_filter]
        congr 1
        refine List.filter_congr fun x _ => ?_
        by_cases hx : x = b
        · subst hx; simp [hp]
        · simp [hx]
      · simp only [if_true, List.eraseDups_cons, List.filter_filter]
        congr 2
        refine List.filter_congr fun x _ => ?_
        exact Bool.and_comm ..

theorem eraseDups_append_subset {β : Type} [BEq β] [LawfulBEq β] (a b : List β) (ha : a.Nodup) (hb : ∀ x ∈ b, x ∈ a) :
    (a ++ b).eraseDups = a := by
  induction a generalizing b with
  | nil =>
    have : b = [] := List.eq_nil_iff_forall_not_mem.2 fun x hx => by simpa using hb x hx
    subst this; rfl
  | cons x r ih =>
    rw [List.nodup_cons] at ha
    rw [List.cons_append, List.eraseDups_cons, List.filter_append]
    have h1 : (r.filter fun y => !y == x) = r := by
      rw [List.filter_eq_self]
      intro y hy
      have : y ≠ x := fun hc => ha.1 (hc ▸ hy)
      simpa using this
    rw [h1, ih _ ha.2]
    intro y hy
    have h2 := List.mem_filter.1 hy
    have h3 : y ≠ x := by simpa using h2.2
    rcases List.mem_cons.1 (hb y h2.1) with h | h
    · exact absurd h h3
    · exact h

theorem filterMap_find (l : List RegW) (p : Nat → Bool) (hn : ((l.map (·.reg)).filter p).Nodup) :
    (((l.map (·.reg)).filter p).filterMap fun x => l.find? (·.reg == x)) = l.filter fun q => p q.reg := by
  have h : ∀ m : List RegW, (∀ q ∈ m, p q.reg → l.find? (·.reg == q.reg) = some q) →
      (((m.map (·.reg)).filter p).filterMap fun x => l.find? (·.reg == x)) = m.filter fun q => p q.reg := by
    intro m hm
    induction m with
    | nil => rfl
    | cons q r ih =>
      have ih := ih fun q hq => hm q (List.mem_cons_of_mem _ hq)
      simp only [List.map_cons, List.filter_cons]
      cases hp : p q.reg
      · simpa using ih
      · simp only [if_true, List.filterMap_cons, hm q (List.mem_cons_self ..) hp, ih]
  refine h l fun q hq hp => ?_
  clear h
  induction l with
  | nil => simp at hq
  | cons x r ih =>
    rw [List.find?_cons]
    by_cases hx : x.reg = q.reg
    · rw [beq_iff_eq.2 hx]
      rcases List.mem_cons.1 hq with rfl | hq
      · rfl
      · rw [List.map_cons, List.filter_cons, hx, if_pos hp, List.nodup_cons] at hn
        exact absurd (List.mem_filter.2 ⟨List.mem_map_of_mem (f := RegW.reg) hq, hp⟩) hn.1
    · have : (x.reg == q.reg) = false := by simpa using hx
      rw [this]
      rcases List.mem_cons.1 hq with rfl | hq
      · exact absurd rfl hx
      · refine ih ?_ hq
        rw [List.map_cons, List.filter_cons] at hn
        split at hn
        · exact (List.nodup_cons.1 hn).2
        · exact hn

/-- The results that a warp takes from its threads: those of the first, where it does not trap, writes each register once,
and no other thread writes a register of the warp that the first does not. -/
theorem warpGets_of_lead (r : TRes) (rs : List TRes) (ht : r.trap = none)
    (hw : ∀ q ∈ rs, ∀ x ∈ (q.writes.map (·.reg)).filter warpReg, x ∈ (r.writes.map (·.reg)).filter warpReg)
    (hn : ((r.writes.map (·.reg)).filter warpReg).Nodup) :
    warpGets (r :: rs) = r.writes.filter fun q => warpReg q.reg := by
  have h1 : warpRegs (r :: rs) = (r.writes.map (·.reg)).filter warpReg := by
    unfold warpRegs
    rw [eraseDups_filter, List.flatMap_cons, List.map_append, List.filter_append]
    refine eraseDups_append_subset _ _ hn fun x hx => ?_
    rw [List.mem_filter, List.mem_map] at hx
    obtain ⟨⟨q, hq, rfl⟩, hp⟩ := hx
    obtain ⟨t, ht, hqt⟩ := List.mem_flatMap.1 hq
    exact hw t ht _ (List.mem_filter.2 ⟨List.mem_map_of_mem (f := RegW.reg) hqt, hp⟩)
  unfold warpGets
  rw [h1, ← filterMap_find r.writes warpReg hn]
  refine List.filterMap_congr fun x hx => ?_
  rw [List.mem_filter, List.mem_map] at hx
  obtain ⟨⟨q, hq, rfl⟩, -⟩ := hx
  simp only [warpWrite, ht, Option.isSome_none, Bool.false_eq_true, if_false]
  cases hf : r.writes.find? fun q' => q'.reg == q.reg with
  | none => exact absurd (List.find?_eq_none.1 hf q hq) (by simp)
  | some y => rfl

/-- The executing threads of the statements are those that a word's body sees. -/
theorem executing_eq (w : WSpec) (s : State) (l : Launch) : s.executing w l = (grpOf w s l).act := by
  have hact : (grpOf w s l).act = (s.group w l).filter fun e =>
      !((stallsOf w s l).any fun q => q.1 == (e.slot, e.lane)) && e.guard w.h := rfl
  rw [hact]
  refine List.filter_congr fun e he => ?_
  have h := mem_act (w := w) (s := s) (l := l) (e := e)
  rw [hact, List.mem_filter] at h
  cases hg : e.guard w.h
  · simp
  · simp only [Bool.and_true]
    have h1 : (!((stallsOf w s l).any fun q => q.1 == (e.slot, e.lane))) = true ↔ e.stall w.h (w.reads e) = none := by
      constructor
      · intro hx
        exact (h.1 ⟨he, by simp [hx, hg]⟩).2.1
      · intro hx
        have := (h.2 ⟨he, hx, hg⟩).2
        simpa [hg] using this
    cases hb : (!((stallsOf w s l).any fun q => q.1 == (e.slot, e.lane)))
    · have : e.stall w.h (w.reads e) ≠ none := fun hc => by rw [h1.2 hc] at hb; exact absurd hb (by simp)
      cases hx : e.stall w.h (w.reads e) with
      | none => exact absurd hx this
      | some _ => rfl
    · rw [h1.1 hb]; rfl

theorem mem_executing {w : WSpec} {s : State} {l : Launch} {e : Env} :
    e ∈ s.executing w l ↔ e ∈ s.group w l ∧ e.executes w := by
  rw [executing_eq]; exact mem_act

/-- What a body has to satisfy on the group of a word for its word to follow a rule. `F` is the result that it answers for
each executing thread. -/
structure Body (r : Rule) (s : State) (l : Launch) (b : Res) (F : Env → TRes) : Prop where
  bad : b.bad = false
  retry : b.retry = false
  faults : b.faults = []
  clock : b.s.clock = s.clock
  /-- its run goes on, and no warp of it meets a missing page -/
  port : ((b.s.core s.here).port s.cur.2).active = true ∧ ((b.s.core s.here).port s.cur.2).faulted = s.portNow.faulted
  frozen : r.frozen s (s.executing r.spec l) (b.freeze + b.other)
  /-- every executing thread has its result -/
  found : ∀ e ∈ s.executing r.spec l, b.out.find? (fun q => q.1 == (e.slot, e.lane)) = some ((e.slot, e.lane), F e)
  /-- no other thread has one -/
  only : ∀ q ∈ b.out, ∃ e ∈ s.executing r.spec l, q.1 = (e.slot, e.lane)
  /-- the results of one warp stand in lane order, or write no register of a warp -/
  order : (∀ j, (b.out.filter (·.1.1 == j)).map (·.2) = ((s.executing r.spec l).filter (·.slot == j)).map F) ∨
    ∀ q ∈ b.out, (q.2.writes.map (·.reg)).filter warpReg = []
  ok : ∀ e ∈ s.executing r.spec l, r.traps (s.executing r.spec l) e = none →
    F e = { writes := (r.gives (s.executing r.spec l) e).regs, flags := (r.gives (s.executing r.spec l) e).flags
            pc := (r.gives (s.executing r.spec l) e).pc }
  trapped : ∀ e ∈ s.executing r.spec l, ∀ x, r.traps (s.executing r.spec l) e = some x →
    (F e).trap = some (x.cause, x.info) ∧ (F e).flags = x.flags
  /-- the launch of the core keeps its trap vector -/
  tvec : b.s.tvec s.here = l.tvec
  /-- the registers of a warp that its threads write are the same in each -/
  regs : ∀ e ∈ s.executing r.spec l, r.traps (s.executing r.spec l) e = none →
    (((r.gives (s.executing r.spec l) e).regs.map (·.reg)).filter warpReg).Nodup ∧
    ∀ e' ∈ s.executing r.spec l, e'.slot = e.slot → ∀ x ∈ ((F e').writes.map (·.reg)).filter warpReg,
      x ∈ ((r.gives (s.executing r.spec l) e).regs.map (·.reg)).filter warpReg
  /-- the word's own effect is the rule's -/
  base : b.s = r.base s (s.executing r.spec l)

/-- The results of a body's word with its stalled threads. -/
def bodyOut (w : WSpec) (s : State) (l : Launch) (out : List ((Nat × Nat) × TRes)) : List ((Nat × Nat) × TRes) :=
  if (stallsOf w s l).isEmpty then out else (grpOf w s l).inOrder (stallsOf w s l ++ out)

theorem find?_stalls {w : WSpec} {s : State} {l : Launch} (out : List ((Nat × Nat) × TRes)) {e : Env}
    (he : e ∈ s.group w l) (hx : e.stall w.h (w.reads e) = none) :
    ((stallsOf w s l ++ out).find? fun q => q.1 == (e.slot, e.lane)) = out.find? fun q => q.1 == (e.slot, e.lane) := by
  rw [List.find?_append, List.find?_eq_none.2, Option.none_or]
  intro q hq hk
  obtain ⟨e', he', i, hi, rfl⟩ := mem_stallsOf.1 hq
  have := group_inj he' he (beq_iff_eq.1 hk)
  subst this
  rw [hx] at hi
  exact absurd hi (by simp)

section
variable {r : Rule} {s : State} {l : Launch} {b : Res} {F : Env → TRes}

theorem Body.resultOf (h : Body r s l b F) {e : Env} (he : e ∈ s.group r.spec l)
    (hx : e.stall r.spec.h (r.spec.reads e) = none) :
    resultOf (bodyOut r.spec s l b.out) e = if e.guard r.spec.h then some (F e) else none := by
  have h1 : b.out.find? (fun q => q.1 == (e.slot, e.lane)) =
      if e.guard r.spec.h then some ((e.slot, e.lane), F e) else none := by
    split
    · rename_i hg
      exact h.found e (mem_executing.2 ⟨he, hx, hg⟩)
    · rename_i hg
      rw [List.find?_eq_none]
      intro q hq hk
      obtain ⟨e', he', hk'⟩ := h.only q hq
      have h2 := mem_executing.1 he'
      have := group_inj h2.1 he (hk'.symm.trans (beq_iff_eq.1 hk))
      subst this
      exact hg h2.2.2
  unfold Sys2Proof.Machine.resultOf bodyOut
  split
  · rw [h1]; split <;> rfl
  · rw [find?_inOrder r.spec s l _ he, find?_stalls _ he hx, h1]
    split <;> rfl

theorem Body.noWarp (_h : Body r s l b F) (ho : ∀ q ∈ b.out, (q.2.writes.map (·.reg)).filter warpReg = []) (j : Nat) :
    warpGets (((bodyOut r.spec s l b.out).filter (·.1.1 == j)).map (·.2)) = [] := by
  have h1 : ∀ q ∈ bodyOut r.spec s l b.out, (q.2.writes.map (·.reg)).filter warpReg = [] := by
    intro q hq
    unfold bodyOut at hq
    split at hq
    · exact ho q hq
    · unfold Grp.inOrder at hq
      obtain ⟨e, -, hf⟩ := List.mem_filterMap.1 hq
      rcases List.mem_append.1 (List.mem_of_find?_eq_some hf) with hs | hs
      · obtain ⟨e', -, i, -, rfl⟩ := mem_stallsOf.1 hs
        rfl
      · exact ho q hs
  have h2 : warpRegs (((bodyOut r.spec s l b.out).filter (·.1.1 == j)).map (·.2)) = [] := by
    unfold warpRegs
    rw [List.filter_eq_nil_iff]
    intro x hx hw
    rw [mem_eraseDups, List.mem_map] at hx
    obtain ⟨q, hq, rfl⟩ := hx
    rw [List.mem_flatMap] at hq
    obtain ⟨t, ht, hq⟩ := hq
    rw [List.mem_map] at ht
    obtain ⟨p, hp, rfl⟩ := ht
    have := h1 p (List.mem_filter.1 hp).1
    rw [List.filter_eq_nil_iff] at this
    exact this q.reg (List.mem_map.2 ⟨q, hq, rfl⟩) hw
  rw [warpGets, h2]
  rfl

theorem Body.warp (h : Body r s l b F) (ho : ∀ j, (b.out.filter (·.1.1 == j)).map (·.2) =
      ((s.executing r.spec l).filter (·.slot == j)).map F) (j : Nat)
    (hx : ∀ e ∈ s.group r.spec l, e.slot = j → e.stall r.spec.h (r.spec.reads e) = none) :
    ((bodyOut r.spec s l b.out).filter (·.1.1 == j)).map (·.2) =
      ((s.group r.spec l).filter fun e => e.slot == j && e.guard r.spec.h).map F := by
  have h0 : (s.executing r.spec l).filter (·.slot == j) =
      (s.group r.spec l).filter fun e => e.slot == j && e.guard r.spec.h := by
    unfold State.executing
    rw [List.filter_filter]
    refine List.filter_congr fun e he => ?_
    by_cases hj : e.slot = j
    · rw [hx e he hj, Option.isNone_none, Bool.true_and]
    · rw [beq_eq_false_iff_ne.2 hj, Bool.false_and, Bool.false_and]
  unfold bodyOut
  split
  · rw [ho, h0]
  · unfold Grp.inOrder
    rw [filter_filterMap_key _ _ (fun e q h => beq_iff_eq.1 (List.find?_some
      (p := fun q : (Nat × Nat) × TRes => q.1 == (e.slot, e.lane)) h)), grpOf_envs]
    have h1 : ∀ es : List Env, (∀ e ∈ es, e ∈ s.group r.spec l) → ((es.filter (·.slot == j)).filterMap fun e =>
        (stallsOf r.spec s l ++ b.out).find? fun q => q.1 == (e.slot, e.lane)).map (·.2) =
        (es.filter fun e => e.slot == j && e.guard r.spec.h).map F := by
      intro es hm
      induction es with
      | nil => rfl
      | cons x rest ih =>
        have ih := ih fun e he => hm e (List.mem_cons_of_mem _ he)
        have hxm := hm x (List.mem_cons_self ..)
        by_cases hj : x.slot = j
        · have hs := hx x hxm hj
          have hf := find?_stalls b.out hxm hs
          have hjb : (x.slot == j) = true := by simpa using hj
          rw [List.filter_cons_of_pos (p := fun y : Env => y.slot == j) hjb, List.filterMap_cons, hf]
          by_cases hg : x.guard r.spec.h = true
          · rw [h.found x (mem_executing.2 ⟨hxm, hs, hg⟩), List.filter_cons_of_pos (by simp [hjb, hg])]
            simp only [List.map_cons]
            rw [ih]
          · rw [List.find?_eq_none.2, List.filter_cons_of_neg (by simp [hg])]
            · exact ih
            · intro q hq hk
              obtain ⟨e', he', hk'⟩ := h.only q hq
              have h2 := mem_executing.1 he'
              have := group_inj h2.1 hxm (hk'.symm.trans (beq_iff_eq.1 hk))
              subst this
              exact hg h2.2.2
        · have hj' : (x.slot == j) = false := by simpa using hj
          simp only [List.filter_cons, hj', Bool.false_eq_true, if_false, Bool.false_and]
          exact ih
    exact h1 _ fun e he => he

end

/-- A word whose body satisfies what its rule says follows the rule. -/
theorem completes_of_body (i : Instr) (r : Rule) (body : State → Grp → Res) (F : State → Launch → Env → TRes)
    (hi : ∀ s, exec i s = issueWord r.spec (body s) s)
    (hb : WellFormed i = true → ∀ s l, Issues r.spec s l → r.pre s l (s.executing r.spec l) →
      Body r s l (body s (grpOf r.spec s l)) (F s l)) : Completes i r := by
  intro hwf s l hI hpre
  have h := hb hwf s l hI hpre
  generalize hres : body s (grpOf r.spec s l) = b at h
  have hex : exec i s = .next (finishWord r.spec (grpOf r.spec s l) { b with out := bodyOut r.spec s l b.out }) := by
    rw [hi, issueWord_eq r.spec _ s l hI (by rw [hres]; exact h.bad) (by rw [hres]; exact h.retry), hres]
    rfl
  have hfa : ({ b with out := bodyOut r.spec s l b.out } : Res).faults = [] := h.faults
  rw [← h.base]
  refine ⟨_, b.freeze + b.other, hex, h.frozen, ?_, ?_, ?_, ?_, ?_, ?_, ?_, ?_⟩
  · intro e he hx hoke
    obtain ⟨n, -, hn⟩ := thread?_finishWord r.spec (grpOf r.spec s l) _ hfa (nodup_group r.spec s l) h.clock e he
    have hm := mem_group he
    refine hn.trans ?_
    have hes := mem_executing.2 ⟨he, hx⟩
    have h1 := h.ok e hes hoke
    have h2 := h.resultOf he hx.1
    rw [if_pos hx.2] at h2
    simp only [grpOf_d, h2, h1, Thread.applied, Option.any_some, Option.isSome_none, Bool.not_false, Bool.and_true,
      h.clock, grpOf_s]
    refine congrArg (fun f => Option.map f _) (funext fun u => ?_)
    simp only [Env.after, hm.1]
    cases hE : r.spec.h.e <;> simp [RegW.lands, RegW.pend, WSpec.due, hm.1, hm.2.2.1]
  · intro e he hx x htr
    obtain ⟨n, hns, hn⟩ := thread?_finishWord r.spec (grpOf r.spec s l) _ hfa (nodup_group r.spec s l) h.clock e he
    have hm := mem_group he
    have hes := mem_executing.2 ⟨he, hx⟩
    have h1 := h.trapped e hes x htr
    have h2 := h.resultOf he hx.1
    rw [if_pos hx.2] at h2
    refine ⟨n, hns, hn.trans ?_⟩
    have hva : (grpOf r.spec s l).va = e.va := by
      have := mem_mkEnvs he
      exact this.2.2.2.2.1.symm
    have hl : e.l = l := hm.2.2.2
    simp only [grpOf_d, h2, Thread.applied, h1.1, Option.any_some, Option.isSome_some, Bool.not_true, Bool.and_false,
      Bool.false_eq_true, if_false, h.tvec, h1.2, hva]
    refine congrArg (fun f => Option.map f _) (funext fun u => ?_)
    simp only [Env.trapsTo, Thread.trapEntry, ecauseOf, hl, hm.1, h.clock, WSpec.due, Bool.false_eq_true, if_false,
      Nat.add_zero]
    split <;> simp [Nat.add_right_comm]
  · intro e he hx
    obtain ⟨n, -, hn⟩ := thread?_finishWord r.spec (grpOf r.spec s l) _ hfa (nodup_group r.spec s l) h.clock e he
    have hm := mem_group he
    refine hn.trans ?_
    have h2 := h.resultOf he hx.1
    rw [if_neg (by simp [hx.2])] at h2
    simp only [grpOf_d, h2, Thread.applied, Option.any_none, Bool.not_false, Bool.and_true, grpOf_s]
    refine congrArg (fun f => Option.map f _) (funext fun u => ?_)
    simp only [Env.after, hm.1]
    cases hE : r.spec.h.e <;> simp [WSpec.due]
  · intro e he hx hoke
    have hm := mem_group he
    refine (pend_finishWord r.spec (grpOf r.spec s l) _ hfa e.slot).trans ?_
    have hg : e.guard r.spec.h = true := by
      have := List.find?_some hx.1
      simp only [Bool.and_eq_true] at this
      exact this.2
    have hes := mem_executing.2 ⟨he, hx.2 e he rfl, hg⟩
    have h0 : b.s.warp? s.here e.slot = b.s.warp? s.here e.slot := rfl
    cases hbw : b.s.warp? s.here e.slot with
    | none => simp only [grpOf_d, hbw, Option.map_none]
    | some x =>
      simp only [grpOf_d, hbw, Option.map_some, Option.some.injEq, h.clock]
      rcases h.order with ho | ho
      case inr =>
        rw [h.noWarp ho]
        have h1 := ho _ (List.mem_of_find?_eq_some (h.found e hes))
        simp only [h.ok e hes hoke] at h1
        have h2 : ((r.gives (s.executing r.spec l) e).regs.filter fun q => warpReg q.reg) = [] := by
          rw [List.filter_eq_nil_iff] at h1 ⊢
          exact fun q hq => h1 q.reg (List.mem_map.2 ⟨q, hq, rfl⟩)
        rw [h2]
        rfl
      rw [h.warp ho e.slot fun x hxm hs => hx.2 x hxm hs]
      obtain ⟨rest, hr, hrest⟩ : ∃ rest, ((s.group r.spec l).filter fun x => x.slot == e.slot && x.guard r.spec.h) = e :: rest ∧
          ∀ x ∈ rest, x ∈ s.executing r.spec l ∧ x.slot = e.slot := by
        have h1 : ((s.group r.spec l).filter fun x => x.slot == e.slot && x.guard r.spec.h).head? = some e := by
          rw [List.head?_filter]; exact hx.1
        cases hL : (s.group r.spec l).filter fun x => x.slot == e.slot && x.guard r.spec.h with
        | nil => rw [hL] at h1; simp at h1
        | cons a rest =>
          rw [hL] at h1
          simp only [List.head?_cons, Option.some.injEq] at h1
          subst h1
          refine ⟨rest, rfl, fun x hxr => ?_⟩
          have h3 : x ∈ (s.group r.spec l).filter fun x => x.slot == a.slot && x.guard r.spec.h := by
            rw [hL]; exact List.mem_cons_of_mem _ hxr
          have h4 := List.mem_filter.1 h3
          simp only [Bool.and_eq_true, beq_iff_eq] at h4
          exact ⟨mem_executing.2 ⟨h4.1, hx.2 x h4.1 h4.2.1, h4.2.2⟩, h4.2.1⟩
      have hok := h.ok e hes hoke
      have hrg := h.regs e hes hoke
      rw [hr, List.map_cons, warpGets_of_lead]
      · rw [hok]
        simp only [List.append_cancel_left_eq]
        refine List.map_congr_left fun q _ => ?_
        simp [RegW.lands, RegW.pend, hm.1, hm.2.2.1]
      · rw [hok]
      · intro q hq x hx'
        rw [List.mem_map] at hq
        obtain ⟨e', he', rfl⟩ := hq
        rw [hok]
        exact hrg.2 e' (hrest e' he').1 (hrest e' he').2 x hx'
      · rw [hok]
        exact hrg.1
  · intro sl ln hne
    have h1 := thread?_finishWord_of_not_mem r.spec (grpOf r.spec s l)
      { b with out := bodyOut r.spec s l b.out } hfa h.port.1 sl ln hne
    simp only [grpOf_d, grpOf_port, grpOf_s, h.port.2, WSpec.due, ← Nat.add_assoc] at h1 ⊢
    exact h1
  · intro sl hsk
    refine (pend_finishWord r.spec (grpOf r.spec s l) _ hfa sl).trans ?_
    rcases h.order with ho | ho
    case inr =>
      rw [h.noWarp ho, grpOf_d]
      cases b.s.warp? s.here sl <;> simp
    rw [h.warp ho sl fun x hxm hs => (hsk x hxm hs).1]
    have : ((s.group r.spec l).filter fun e => e.slot == sl && e.guard r.spec.h) = [] := by
      rw [List.filter_eq_nil_iff]
      intro e he hc
      simp only [Bool.and_eq_true, beq_iff_eq] at hc
      rw [(hsk e he hc.1).2] at hc
      exact absurd hc.2 (by simp)
    rw [this, grpOf_d]
    cases b.s.warp? s.here sl <;> simp [warpGets, warpRegs]
  · exact sameOutside_finishWord r.spec (grpOf r.spec s l) _ hfa
  · intro hall
    have hall' : ∀ e ∈ s.executing r.spec l, r.traps (s.executing r.spec l) e = none := by
      intro e he
      have h1 := mem_executing.1 he
      rcases hall e h1.1 with hs | hs
      · exact absurd (h1.2.2.symm.trans hs.2) (by simp)
      · exact hs.2
    refine quiet_finishWord r.spec (grpOf r.spec s l) _ hfa ?_
    intro e he q hq
    have hst : e.stall r.spec.h (r.spec.reads e) = none := by
      rcases hall e he with hs | hs
      · exact hs.1
      · exact hs.1.1
    have h2 := h.resultOf he hst
    rw [h2] at hq
    split at hq
    · rename_i hg
      rw [Option.some.injEq] at hq
      have hes := mem_executing.2 ⟨he, hst, hg⟩
      rw [← hq, h.ok e hes (hall' e hes)]
    · exact absurd hq (by simp)

theorem tvec_of_issues {w : WSpec} {s : State} {l : Launch} (h : Issues w s l) : s.tvec s.here = l.tvec := by
  simp [State.tvec, h.launch]

/-- The results of a body whose threads' results are listed in the group's order. -/
theorem out_of_map {w : WSpec} {s : State} {l : Launch} (F : Env → TRes) :
    let out := (s.executing w l).map fun e => ((e.slot, e.lane), F e)
    (∀ e ∈ s.executing w l, out.find? (fun q => q.1 == (e.slot, e.lane)) = some ((e.slot, e.lane), F e)) ∧
    (∀ q ∈ out, ∃ e ∈ s.executing w l, q.1 = (e.slot, e.lane)) ∧
    ∀ j, (out.filter (·.1.1 == j)).map (·.2) = ((s.executing w l).filter (·.slot == j)).map F := by
  have hsub : ((s.executing w l).map fun e => (e.slot, e.lane)).Nodup :=
    (nodup_group w s l).sublist ((List.filter_sublist ..).map _)
  refine ⟨fun e he => ?_, fun q hq => ?_, fun j => ?_⟩
  · refine find?_of_nodup (q := ((e.slot, e.lane), F e)) ?_ (List.mem_map.2 ⟨e, he, rfl⟩)
    rw [List.map_map]
    exact hsub
  · rw [List.mem_map] at hq
    obtain ⟨e, he, rfl⟩ := hq
    exact ⟨e, he, rfl⟩
  · rw [List.filter_map, List.map_map]
    rfl

/-- A word that acts in each thread by itself. -/
theorem completes_of_perThread (i : Instr) (r : Rule) (f : Env → TRes)
    (hi : ∀ s, exec i s = issueWord r.spec (perThread f) s)
    (hfz : ∀ s es, r.frozen s es 0)
    (hok : ∀ es, ∀ e ∈ es, r.traps es e = none →
      f e = { writes := (r.gives es e).regs, flags := (r.gives es e).flags, pc := (r.gives es e).pc })
    (htr : ∀ es, ∀ e ∈ es, ∀ x, r.traps es e = some x → (f e).trap = some (x.cause, x.info) ∧ (f e).flags = x.flags)
    (hreg : WellFormed i = true → ∃ xs : List Nat, xs.Nodup ∧
      (∀ es e, r.traps es e = none → ((r.gives es e).regs.map (·.reg)).filter warpReg = xs) ∧
      ∀ e, ∀ x ∈ ((f e).writes.map (·.reg)).filter warpReg, x ∈ xs)
    (hb : ∀ s es, r.base s es = s) : Completes i r := by
  refine completes_of_body i r (fun _ => perThread f) (fun _ _ => f) hi fun hwf s l hI _ => ?_
  obtain ⟨xs, hxs, hr1, hr2⟩ := hreg hwf
  have hout : (perThread f (grpOf r.spec s l)).out = (s.executing r.spec l).map fun e => ((e.slot, e.lane), f e) := by
    rw [executing_eq]; rfl
  have ho := out_of_map (w := r.spec) (s := s) (l := l) f
  rw [← hout] at ho
  exact
    { bad := rfl, retry := rfl, faults := rfl, clock := rfl, port := ⟨hI.active, rfl⟩, frozen := hfz _ _
      found := ho.1, only := ho.2.1, order := .inl ho.2.2
      ok := fun e he hn => hok _ e he hn
      trapped := fun e he x hx => htr _ e he x hx
      tvec := tvec_of_issues hI
      regs := by
        intro e he hn
        have h1 := hr1 _ e hn
        exact ⟨by rw [h1]; exact hxs, fun e' _ _ x hx => by rw [h1]; exact hr2 e' x hx⟩
      base := (hb ..).symm }

end Sys2Proof.Machine
end

