-- ==== Sys2Proof/Laws/Memory.lean ====
section
/-! SUPPORT. Memory: every operation keeps the canonical form (log 3), a byte reads back as written, and a write leaves
every other byte alone. -/

namespace Sys2Proof.Machine

open Sys2Proof

/-! ### The canonical form -/

theorem all_put {p : Host.Cell → Bool} {l : List Host.Cell} {a : Nat} {v : BitVec 8} (h : l.all p = true)
    (hv : p (a, v) = true) : (put l a v).all p = true := by
  rw [List.all_eq_true] at h ⊢
  intro q hq
  rcases mem_put hq with rfl | hq
  · exact hv
  · exact h q hq

theorem all_erase {p : Host.Cell → Bool} {l : List Host.Cell} {a : Nat} (h : l.all p = true) :
    (erase l a).all p = true := by
  rw [List.all_eq_true] at h ⊢
  exact fun q hq => h q (mem_erase.1 hq).1

theorem Memory.wf_nil : Memory.wf [] = true := rfl
theorem Memory.wfScratch_nil : Memory.wfScratch [] = true := rfl

/-- Writing a byte of device memory keeps the canonical form. -/
theorem Memories.wf_putDev (m : Memories) (a : Nat) (v : BitVec 8) (h : Memory.wf m.dev = true) :
    Memory.wf (m.putDev a v).dev = true := by
  simp only [Memory.wf, Bool.and_eq_true] at h ⊢
  obtain ⟨h1, h2⟩ := h
  unfold Memories.putDev
  split
  · rename_i ha
    exact ⟨rising_put _ _ h1, all_put h2 (by simp [ha])⟩
  · refine ⟨rising_putD _ _ _ h1, ?_⟩
    simp only [putD]
    split
    · exact all_erase h2
    · exact all_put h2 (by simp_all)

/-- Writing a byte of host memory keeps rising order. -/
theorem Memories.rising_putHost (m : Memories) (a : Nat) (v : BitVec 8) (h : rising m.host = true) :
    rising (m.putHost a v).host = true := rising_put _ _ h

theorem wf_putD_scratch (l : List Host.Cell) (a : Nat) (v : BitVec 8) (h : Memory.wfScratch l = true) :
    Memory.wfScratch (putD l a v 0) = true := by
  simp only [Memory.wfScratch, Bool.and_eq_true] at h ⊢
  refine ⟨rising_putD _ _ _ h.1, ?_⟩
  simp only [putD]
  split
  · exact all_erase h.2
  · exact all_put h.2 (by simp_all)

/-- A fold of byte writes keeps what every one of them keeps. -/
theorem foldl_keeps {α β : Type} (p : α → Prop) (f : α → β → α) (hf : ∀ a b, p a → p (f a b)) (l : List β) (a : α)
    (h : p a) : p (l.foldl f a) := by
  induction l generalizing a with
  | nil => exact h
  | cons b r ih => exact ih _ (hf a b h)

/-- A fold of byte writes keeps the canonical form. -/
theorem Memories.wf_putBytes (m : Memories) (a : Nat) (l : List (BitVec 8 × Nat)) (h : Memory.wf m.dev = true) :
    Memory.wf (l.foldl (fun m (b : BitVec 8 × Nat) => m.putDev (a + b.2) b.1) m).dev = true :=
  foldl_keeps (fun m : Memories => Memory.wf m.dev = true) _ (fun m _ hm => m.wf_putDev _ _ hm) _ _ h

@[simp] theorem Memories.dev_countHbm (m : Memories) (a : Nat) (u : Bool) : (m.countHbm a u).dev = m.dev := rfl
@[simp] theorem Memories.dev_addBad (m : Memories) (u : EccUnit) : (m.addBad u).dev = m.dev := rfl
@[simp] theorem Memories.host_countHbm (m : Memories) (a : Nat) (u : Bool) : (m.countHbm a u).host = m.host := rfl
@[simp] theorem Memories.host_addBad (m : Memories) (u : EccUnit) : (m.addBad u).host = m.host := rfl

/-- Meeting stored check symbols keeps the canonical form. -/
theorem Memories.wf_resolve (m : Memories) (c : Nat × List (BitVec 8)) (h : Memory.wf m.dev = true) :
    Memory.wf (m.resolve c).dev = true := by
  unfold Memories.resolve
  dsimp only
  split
  · exact h
  · split
    · exact Memories.wf_putBytes _ _ _ h
    · exact h
theorem Memories.wf_meet (m : Memories) (a n : Nat) (h : Memory.wf m.dev = true) : Memory.wf (m.meet a n).dev = true :=
  foldl_keeps (fun m : Memories => Memory.wf m.dev = true) _ (fun m c hm => m.wf_resolve c hm) _ _ h
theorem State.wf_meet (s : State) (a n : Nat) (h : Memory.wf s.mem.dev = true) : Memory.wf (s.meet a n).mem.dev = true := by
  unfold State.meet
  split
  · exact h
  · exact s.mem.wf_meet a n h

theorem Memories.wf_write (m : Memories) (a : Nat) (bs : List (BitVec 8)) (h : Memory.wf m.dev = true) :
    Memory.wf (m.write a bs).dev = true := by
  unfold Memories.write
  refine Memories.wf_putBytes _ a _ ?_
  split
  · exact h
  · exact Memories.wf_meet _ _ _ h
theorem State.wf_devWrite (s : State) (a : Nat) (bs : List (BitVec 8)) (h : Memory.wf s.mem.dev = true) :
    Memory.wf (s.devWrite a bs).mem.dev = true := s.mem.wf_write a bs h

theorem Core.wf_scrWrite (c : Core) (o : Nat) (bs : List (BitVec 8)) (h : Memory.wfScratch c.scratch = true) :
    Memory.wfScratch (c.scrWrite o bs).scratch = true :=
  foldl_keeps (fun m : List Host.Cell => Memory.wfScratch m = true) _ (fun m _ hm => wf_putD_scratch m _ _ hm) _ _ h

/-! ### Reading back -/

theorem Memories.devByte_eq (m : Memories) (k : Nat) : m.devByte k = (find? m.dev k).getD (devInit k) := by
  unfold Memories.devByte
  split <;> simp_all

theorem Memories.hostByte_eq (m : Memories) (k : Nat) : m.hostByte k = (find? m.host k).getD (Config.hostInit k) := by
  unfold Memories.hostByte
  split <;> simp_all

theorem Memories.devByte_putDev (m : Memories) (a k : Nat) (v : BitVec 8) :
    (m.putDev a v).devByte k = if k = a then v else m.devByte k := by
  simp only [Memories.devByte_eq, Memories.putDev]
  by_cases hk : k = a
  · subst hk
    by_cases ha : inHbm k
    · simp [ha]
    · by_cases hv : v = 0#8 <;> simp [ha, putD, hv, find?_erase, devInit]
  · by_cases ha : inHbm a
    · simp [ha, hk, find?_put_ne]
    · by_cases hv : v = 0#8 <;> simp [ha, putD, hv, find?_erase, hk, find?_put_ne]

theorem Memories.hostByte_putHost (m : Memories) (a k : Nat) (v : BitVec 8) :
    (m.putHost a v).hostByte k = if k = a then v else m.hostByte k := by
  simp only [Memories.hostByte_eq, Memories.putHost, find?_put]
  by_cases hk : k = a <;> simp [hk]

/-- A fold of byte writes at rising addresses: the written bytes, and every other byte as before. -/
theorem foldl_bytes {α : Type} (get : α → Nat → BitVec 8) (w : α → Nat → BitVec 8 → α)
    (hw : ∀ m a v k, get (w m a v) k = if k = a then v else get m k) (bs : List (BitVec 8)) (a n : Nat) (m : α) (k : Nat) :
    get ((bs.zipIdx n).foldl (fun m (b : BitVec 8 × Nat) => w m (a + b.2) b.1) m) k =
      if a + n ≤ k ∧ k < a + n + bs.length then bs.getD (k - (a + n)) 0 else get m k := by
  induction bs generalizing n m with
  | nil =>
    have : ¬ (a + n ≤ k ∧ k < a + n + 0) := by omega
    simp only [List.zipIdx_nil, List.foldl_nil, List.length_nil, this, if_false]
  | cons b r ih =>
    simp only [List.zipIdx_cons, List.foldl_cons, ih, hw, List.length_cons]
    by_cases h1 : k = a + n
    · subst h1
      simp
    · by_cases h2 : a + (n + 1) ≤ k ∧ k < a + (n + 1) + r.length
      · have h3 : a + n ≤ k ∧ k < a + n + (r.length + 1) := by omega
        have h4 : k - (a + n) = (k - (a + (n + 1))) + 1 := by omega
        simp [h2, h3, h4]
      · have h3 : ¬ (a + n ≤ k ∧ k < a + n + (r.length + 1)) := by omega
        simp [h1, h2, h3]

/-- No half-line with stored check symbols holds any of the `n` bytes at `a` (R526). -/
def Memories.plain (m : Memories) (a n : Nat) : Bool := m.checks.all fun c => !(EccUnit.meets (c.1, 64) a n)

/-- An access that meets no stored check symbols changes nothing by it. -/
theorem Memories.meet_plain (m : Memories) (a n : Nat) (h : m.plain a n = true) : m.meet a n = m := by
  have : (m.checks.filter fun c => EccUnit.meets (c.1, 64) a n) = [] := by
    rw [List.filter_eq_nil_iff]
    intro c hc
    have := List.all_eq_true.1 h c hc
    simpa using this
  simp [Memories.meet, this]

/-- A write that meets no stored check symbols leaves them as they are. -/
theorem Memories.write_plain (m : Memories) (a : Nat) (bs : List (BitVec 8)) (h : m.plain a bs.length = true)
    (hb : bs ≠ []) :
    m.write a bs =
      let m2 := bs.zipIdx.foldl (fun m (b : BitVec 8 × Nat) => m.putDev (a + b.2) b.1) m
      { m2 with bad := stillBad m2.bad a bs.length } := by
  unfold Memories.write
  by_cases hc : m.checks.isEmpty = true
  · simp only [hc, if_true]
  · have hf : (m.checks.filter fun c => !(EccUnit.within (c.1, 64) a bs.length)) = m.checks := by
      rw [List.filter_eq_self]
      intro c hc
      have h1 := List.all_eq_true.1 h c hc
      have h2 := List.length_pos_iff.2 hb
      simp only [EccUnit.meets, EccUnit.within, Bool.not_eq_true', Bool.and_eq_false_iff, decide_eq_false_iff_not] at h1 ⊢
      omega
    have h2 : ({ m with checks := m.checks.filter fun c => !(EccUnit.within (c.1, 64) a bs.length) } : Memories) = m := by
      rw [hf]
    simp only [hc, Bool.false_eq_true, if_false, h2, m.meet_plain a bs.length h]

/-- Bytes of device memory after a write that meets no stored check symbols (R291, R311). -/
theorem State.devByte_devWrite (s : State) (a : Nat) (bs : List (BitVec 8)) (k : Nat) (hp : s.mem.plain a bs.length = true) :
    (s.devWrite a bs).mem.devByte k = if a ≤ k ∧ k < a + bs.length then bs.getD (k - a) 0 else s.mem.devByte k := by
  have h := foldl_bytes Memories.devByte Memories.putDev (fun m a v k => m.devByte_putDev a k v) bs a 0 s.mem k
  by_cases hb : bs = []
  · subst hb
    have : s.mem.write a [] = { s.mem with checks := (s.mem.write a []).checks, bad := (s.mem.write a []).bad } := by
      unfold Memories.write
      dsimp only [List.zipIdx_nil, List.foldl_nil, List.length_nil]
      split
      · rfl
      · rw [Memories.meet_plain]
        rw [Memories.plain, List.all_eq_true]
        intro c hc
        exact List.all_eq_true.1 hp c (List.mem_filter.1 hc).1
    have h2 : ¬ (a ≤ k ∧ k < a + 0) := by omega
    simp only [List.length_nil, if_neg h2]
    show (s.mem.write a []).devByte k = _
    rw [this]
    rfl
  · show (s.mem.write a bs).devByte k = _
    rw [s.mem.write_plain a bs hp hb]
    exact h

/-- Bytes of host memory after a write. -/
theorem State.hostByte_hostWrite (s : State) (a : Nat) (bs : List (BitVec 8)) (k : Nat) :
    (s.hostWrite a bs).mem.hostByte k = if a ≤ k ∧ k < a + bs.length then bs.getD (k - a) 0 else s.mem.hostByte k := by
  have := foldl_bytes Memories.hostByte Memories.putHost (fun m a v k => m.hostByte_putHost a k v) bs a 0 s.mem k
  simpa [State.hostWrite] using this

/-- Bytes of a scratchpad after a write (R292). -/
theorem Core.scrByte_scrWrite (c : Core) (o : Nat) (bs : List (BitVec 8)) (k : Nat) :
    (c.scrWrite o bs).scrByte k = if o ≤ k ∧ k < o + bs.length then bs.getD (k - o) 0 else c.scrByte k := by
  have := foldl_bytes (fun (l : List Host.Cell) k => findD l k 0) (fun l a v => putD l a v 0)
    (fun m a v k => findD_putD m a k v 0) bs o 0 c.scratch k
  simpa [Core.scrWrite, Core.scrByte] using this

/-- Meeting stored check symbols leaves host memory alone. -/
theorem Memories.host_resolve (m : Memories) (c : Nat × List (BitVec 8)) : (m.resolve c).host = m.host := by
  unfold Memories.resolve
  dsimp only
  split
  · rfl
  · split
    · exact foldl_keeps (fun q : Memories => q.host = m.host)
        (fun q (b : BitVec 8 × Nat) => q.putDev (c.1 + b.2) b.1) (fun q b hq => hq) _ _ rfl
    · rfl
theorem Memories.host_meet (m : Memories) (a n : Nat) : (m.meet a n).host = m.host :=
  foldl_keeps (fun q : Memories => q.host = m.host) _ (fun q c hq => (q.host_resolve c).trans hq) _ _ rfl

/-- A write of device memory leaves host memory alone. -/
theorem State.host_devWrite (s : State) (a : Nat) (bs : List (BitVec 8)) : (s.devWrite a bs).mem.host = s.mem.host := by
  show (s.mem.write a bs).host = _
  unfold Memories.write
  refine (foldl_keeps (fun q : Memories => q.host = s.mem.host)
    (fun q (b : BitVec 8 × Nat) => q.putDev (a + b.2) b.1) (fun q b hq => hq) bs.zipIdx _ ?_)
  split
  · rfl
  · exact (Memories.host_meet _ _ _)

/-! ### Byte strings -/

@[simp] theorem leBytes_length (n v : Nat) : (leBytes n v).length = n := by simp [leBytes]

/-- The value of the bytes of a value. -/
theorem leNat_leBytes (n v : Nat) (h : v < 256 ^ n) : leNat (leBytes n v) = v := by
  induction n generalizing v with
  | zero => simp at h; subst h; rfl
  | succ n ih =>
    have h1 : leBytes (n + 1) v = BitVec.ofNat 8 v :: leBytes n (v / 256) := by
      simp only [leBytes, List.range_succ_eq_map, List.map_cons, List.map_map]
      refine congrArg₂ _ (by simp) (List.map_congr_left fun i _ => ?_)
      simp only [Function.comp]
      congr 1
      rw [Nat.mul_succ, Nat.add_comm, Nat.shiftRight_add]
      simp [Nat.shiftRight_eq_div_pow]
    have h2 : v / 256 < 256 ^ n := by rw [Nat.div_lt_iff_lt_mul (by decide)]; simpa [pow_succ] using h
    rw [h1]
    simp only [leNat, List.foldr_cons]
    have := ih _ h2
    simp only [leNat] at this
    rw [this]
    simp
    omega

end Sys2Proof.Machine
end

