-- ==== Sys2Proof/Laws/Words.lean ====
section
/-! SUPPORT. From the shape of a word's meaning to the rule that it follows: one law per shape. -/

namespace Sys2Proof.Machine

open Sys2Proof Sys2Proof.Spec

/-! ### Registers of a word -/

theorem warpReg_of_lt {x : Nat} (h : x < 768) : warpReg x = false := by
  simp only [warpReg, Bool.or_eq_false_iff, Bool.and_eq_false_iff, decide_eq_false_iff_not, beq_eq_false_iff_ne]
  omega

/-- A word that is no block has one element. -/
theorem elems_of_not_block {w : RForm} (h : RForm.isBlock w = false) : elems w = 1 := by
  simp only [RForm.isBlock, Bool.or_eq_false_iff, bne_eq_false_iff_eq] at h
  simp [elems, RForm.h, RForm.wd, h.1, h.2]

/-- The destination registers of a word that passes check 4 of R84: a v block in the grid, or one register. -/
theorem dst_of_opnOk {sp : RSpec} {w : RForm} (h : sp.opnOk w = true) :
    (w.d.toNat < 768 ∧ ∀ i < elems w, dstReg w i < 768) ∨ (768 ≤ w.d.toNat ∧ elems w = 1) := by
  simp only [RSpec.opnOk, Bool.and_eq_true, Bool.or_eq_true] at h
  by_cases hd : w.d.toNat < 768
  · refine .inl ⟨hd, fun i hi => ?_⟩
    simp only [dstReg, hd, if_true, blockReg]
    by_cases hb : RForm.isBlock w = false
    · rw [elems_of_not_block hb] at hi
      have : i = 0 := by omega
      subst this
      simpa using hd
    · have hb' : RForm.isBlock w = true := by simpa using hb
      have h2 := h.1.2
      simp only [hb', Bool.not_true, Bool.false_eq_true, false_or, blockOk, decide_eq_true_eq,
        Bool.and_eq_true] at h2
      obtain ⟨⟨⟨-, h3, h4⟩, -⟩, -⟩ := h2
      have h5 : 0 < RForm.wd w := by simp [RForm.wd]
      have h6 : i % RForm.wd w < RForm.wd w := Nat.mod_lt _ h5
      have h7 : i / RForm.wd w < RForm.h w := by
        rw [Nat.div_lt_iff_lt_mul h5]
        simpa [elems] using hi
      omega
  · refine .inr ⟨by omega, ?_⟩
    by_cases hb : RForm.isBlock w = false
    · exact elems_of_not_block hb
    · have hb' : RForm.isBlock w = true := by simpa using hb
      have h2 := h.1.2
      simp only [hb', Bool.not_true, Bool.false_eq_true, false_or] at h2
      have h3 := h2.1.1.1
      simp only [classOf, beq_iff_eq] at h3
      split at h3
      · rename_i h4; exact absurd h4 hd
      · repeat' split at h3
        all_goals exact absurd h3 (by simp)

/-- The registers of a warp that a block word writes: the same in every thread. -/
theorem warpRegs_block {sp : RSpec} {w : RForm} (h : sp.opnOk w = true) :
    ∃ xs : List Nat, xs.Nodup ∧ ∀ f : Nat → W32, ∀ lat : Nat,
      ((((List.range (elems w)).map fun i => wr32 (dstReg w i) (f i) lat).map (·.reg)).filter warpReg) = xs := by
  refine ⟨(((List.range (elems w)).map (dstReg w)).filter warpReg), ?_, fun f lat => by
    rw [List.map_map]; rfl⟩
  rcases dst_of_opnOk h with ⟨-, hlt⟩ | ⟨-, h1⟩
  · have : ((List.range (elems w)).map (dstReg w)).filter warpReg = [] := by
      rw [List.filter_eq_nil_iff]
      intro x hx
      rw [List.mem_map] at hx
      obtain ⟨i, hi, rfl⟩ := hx
      simp [warpReg_of_lt (hlt i (List.mem_range.1 hi))]
    rw [this]
    exact List.nodup_nil
  · rw [h1]
    simp only [List.range_one, List.map_cons, List.map_nil, List.filter_cons, List.filter_nil]
    split <;> simp

/-- A word that acts in each thread by itself and only gives register results. -/
theorem completes_word (i : Instr) (spec : WSpec) (f : Env → TRes) (g : Env → List RegW)
    (hi : ∀ s, exec i s = issueWord spec (perThread f) s) (hf : ∀ e, f e = { writes := g e })
    (hreg : WellFormed i = true → ∃ xs : List Nat, xs.Nodup ∧ ∀ e, ((g e).map (·.reg)).filter warpReg = xs) :
    Completes i (Spec.word spec g) := by
  refine completes_of_perThread i _ f hi (fun _ _ => rfl) (fun _ e _ _ => hf e)
    (fun _ _ _ _ h => by cases h) (fun hwf => ?_) (fun _ _ => rfl)
  obtain ⟨xs, hn, hx⟩ := hreg hwf
  refine ⟨xs, hn, fun _ e _ => hx e, fun e x hxm => ?_⟩
  rw [hf] at hxm
  rwa [← hx e]

/-- What check 4 of R84 says of a well-formed R-form word. -/
theorem opn_of_wf {i : Instr} {op : Nat} {w : RForm} {sp : RSpec} (hf : i.form = some (.r op w))
    (ho : WordForm.opnOk (.r op w) = sp.opnOk w) (h : WellFormed i = true) : sp.opnOk w = true := by
  simp only [WellFormed, hf, Option.all_some, Bool.and_eq_true] at h
  rw [← ho]; exact h.2.2

/-- A block word whose elements give one 32-bit result each. -/
theorem completes_block (i : Instr) (op : Nat) (w : RForm) (sp : RSpec) (spec : WSpec) (f : Env → TRes)
    (r : Env → Nat → W32) (lat : Nat) (hi : ∀ s, exec i s = issueWord spec (perThread f) s)
    (hf : i.form = some (.r op w)) (ho : WordForm.opnOk (.r op w) = sp.opnOk w)
    (hr : ∀ e, f e = { writes := (List.range (elems w)).map fun k => wr32 (dstReg w k) (r e k) lat }) :
    Completes i (Spec.word spec fun e => (List.range (elems w)).map fun k => wr32 (dstReg w k) (r e k) lat) := by
  refine completes_word i spec f _ hi hr fun hwf => ?_
  obtain ⟨xs, hn, hx⟩ := warpRegs_block (opn_of_wf hf ho hwf)
  exact ⟨xs, hn, fun e => hx _ _⟩

/-! ### Floating-point words -/

/-- The enables of sr.mode stand three bits above the flags of sr.status (R124, R125, R177). -/
theorem fpTrap_eq (e : Env) (fl : W32) : fpTrap e fl =
    if fl &&& ((e.t.mode >>> 1) &&& 0x78#32) = 0 then none
    else some { cause := Cause.fpexc, info := fl.zeroExtend 64, flags := fl } := by
  have h : (fl &&& ((e.t.mode >>> 1) &&& 0x78#32) = 0) ↔ fpTraps e fl = false := by
    have hb : ∀ k, (fl &&& ((e.t.mode >>> 1) &&& 0x78#32)).getLsbD k =
        (fl.getLsbD k && (e.t.mode.getLsbD (1 + k) && (0x78#32).getLsbD k)) := by simp
    have hz : ∀ k, BitVec.getLsbD (0 : W32) k = false := fun k => BitVec.getLsbD_zero
    constructor
    · intro h
      rw [h] at hb
      have h3 := hb 3
      have h4 := hb 4
      have h5 := hb 5
      have h6 := hb 6
      simp only [hz, show (0x78#32).getLsbD 3 = true from rfl,
        show (0x78#32).getLsbD 4 = true from rfl, show (0x78#32).getLsbD 5 = true from rfl,
        show (0x78#32).getLsbD 6 = true from rfl, Bool.and_true, Nat.reduceAdd] at h3 h4 h5 h6
      simp only [fpTraps, List.any_cons, List.any_nil, ← h3, ← h4, ← h5, ← h6, Bool.or_false]
    · intro h
      simp only [fpTraps, List.any_cons, List.any_nil, Bool.or_eq_false_iff] at h
      apply BitVec.eq_of_getLsbD_eq
      intro k hk
      rw [hb, hz]
      by_cases h1 : k = 3 ∨ k = 4 ∨ k = 5 ∨ k = 6
      · rcases h1 with rfl | rfl | rfl | rfl
        · simpa using h.1
        · simpa using h.2.1
        · simpa using h.2.2.1
        · simpa using h.2.2.2.1
      · have : (0x78#32).getLsbD k = false := by
          revert k; decide
        simp [this]
  unfold fpTrap
  cases hc : fpTraps e fl
  · rw [if_neg (by simp), if_pos (h.2 hc)]
  · rw [if_pos rfl, if_neg fun hz => by rw [h.1 hz] at hc; cases hc]; rfl


/-- The result of a word of class 1 in one thread. -/
theorem flagged_eq (rs : List (RegW × W32)) (e : Env) :
    (fpTrap e (flagsOf rs) = none → flagged rs e = { writes := rs.map (·.1), flags := flagsOf rs }) ∧
    ∀ x, fpTrap e (flagsOf rs) = some x →
      flagged rs e = { flags := x.flags, trap := some (x.cause, x.info) } ∧ x.flags = flagsOf rs := by
  rw [fpTrap_eq]
  unfold flagged
  change (_ → (if flagsOf rs &&& _ = 0 then _ else _) = _) ∧ ∀ x, _ → (if flagsOf rs &&& _ = 0 then _ else _) = _ ∧ _
  split
  · exact ⟨fun _ => rfl, fun x h => by cases h⟩
  · refine ⟨fun h => (by cases h), fun x h => ?_⟩
    cases h
    exact ⟨rfl, rfl⟩

/-- A word of class 1 that acts in each thread by itself. -/
theorem completes_floats (i : Instr) (spec : WSpec) (f : Env → TRes) (g : Env → List (RegW × W32))
    (hi : ∀ s, exec i s = issueWord spec.vOnly (perThread f) s) (hf : ∀ e, f e = flagged (g e) e)
    (hreg : WellFormed i = true → ∃ xs : List Nat, xs.Nodup ∧ ∀ e, ((g e).map (·.1.reg)).filter warpReg = xs) :
    Completes i (Spec.floats spec g) := by
  refine completes_of_perThread i _ f hi (fun _ _ => rfl) (fun _ e _ h => ?_) (fun _ e _ x h => ?_) (fun hwf => ?_)
    (fun _ _ => rfl)
  · rw [hf]; exact (flagged_eq (g e) e).1 h
  · rw [hf, ((flagged_eq (g e) e).2 x h).1]; exact ⟨rfl, rfl⟩
  · obtain ⟨xs, hn, hx⟩ := hreg hwf
    refine ⟨xs, hn, fun _ e _ => ?_, fun e x hxm => ?_⟩
    · simpa [Spec.floats, List.map_map, Function.comp_def] using hx e
    · rw [hf] at hxm
      rcases hc : fpTrap e (flagsOf (g e)) with _ | t
      · rw [(flagged_eq (g e) e).1 hc] at hxm
        rw [← hx e]
        simpa [List.map_map, Function.comp_def] using hxm
      · rw [((flagged_eq (g e) e).2 t hc).1] at hxm
        simp at hxm

/-- A block word of class 1. -/
theorem completes_floatBlock (i : Instr) (op : Nat) (w : RForm) (sp : RSpec) (spec : WSpec) (f : Env → TRes)
    (r : Env → Nat → Nat × W32) (lat : Nat) (hi : ∀ s, exec i s = issueWord spec.vOnly (perThread f) s)
    (hf : i.form = some (.r op w)) (ho : WordForm.opnOk (.r op w) = sp.opnOk w)
    (hr : ∀ e, f e = flagged ((List.range (elems w)).map fun k => code (dstReg w k) (r e k) lat) e) :
    Completes i (Spec.floats spec fun e => (List.range (elems w)).map fun k => code (dstReg w k) (r e k) lat) := by
  refine completes_floats i spec f _ hi hr fun hwf => ?_
  obtain ⟨xs, hn, hx⟩ := warpRegs_block (opn_of_wf hf ho hwf)
  refine ⟨xs, hn, fun e => ?_⟩
  rw [← hx (fun k => BitVec.ofNat 32 (r e k).1) lat]
  simp [List.map_map, Function.comp_def, code]

/-! ### Words that change their threads -/

theorem quiet_eachDoes (d : Nat) (f : Env → Thread → Thread) (s : State) (es : List Env) (h : ∀ e ∈ es, e.d = d) :
    Quiet d s (eachDoes f s es) := by
  induction es generalizing s with
  | nil => exact Quiet.refl d s
  | cons e r ih =>
    have hd := h e (List.mem_cons_self ..)
    exact Quiet.trans (hd ▸ quiet_modThread s e.d e.slot e.lane (f e)) (ih _ fun q hq => h q (List.mem_cons_of_mem _ hq))

theorem ports_eachDoes (d : Nat) (f : Env → Thread → Thread) (s : State) (es : List Env) (h : ∀ e ∈ es, e.d = d) :
    ((eachDoes f s es).core d).ports = (s.core d).ports := by
  induction es generalizing s with
  | nil => rfl
  | cons e r ih =>
    have hd := h e (List.mem_cons_self ..)
    subst hd
    exact (ih (s.modThread e.d e.slot e.lane (f e)) fun q hq => h q (List.mem_cons_of_mem _ hq)).trans (ports_modWarp ..)

/-- A word that changes each of its threads by itself, and gives results besides. -/
theorem completes_eachDoes (i : Instr) (r : Rule) (body : Grp → Res) (f : Env → Thread → Thread)
    (sel : List Env → List Env) (F : Env → TRes) (hi : ∀ s, exec i s = issueWord r.spec body s)
    (hbody : ∀ g, (∀ e ∈ g.act, e.d = g.d) → body g =
      { s := eachDoes f g.s (sel g.act), out := g.act.map fun e => ((e.slot, e.lane), F e) })
    (hsel : ∀ es, ∀ e ∈ sel es, e ∈ es)
    (hfz : ∀ s es, r.frozen s es 0)
    (hok : ∀ es, ∀ e ∈ es, r.traps es e = none →
      F e = { writes := (r.gives es e).regs, flags := (r.gives es e).flags, pc := (r.gives es e).pc })
    (htr : ∀ es, ∀ e ∈ es, ∀ x, r.traps es e = some x → (F e).trap = some (x.cause, x.info) ∧ (F e).flags = x.flags)
    (hreg : ∀ e, ((F e).writes.map (·.reg)).filter warpReg = [])
    (hb : ∀ s es, r.base s es = eachDoes f s (sel es)) : Completes i r := by
  refine completes_of_body i r (fun _ => body) (fun _ _ => F) hi fun hwf s l hI _ => ?_
  have hd : ∀ e ∈ s.executing r.spec l, e.d = s.here := fun e he => (mem_group (mem_executing.1 he).1).2.1
  have hb2 := hbody (grpOf r.spec s l) (by rw [← executing_eq, grpOf_d]; exact hd)
  rw [← executing_eq, grpOf_s] at hb2
  have ho := out_of_map (w := r.spec) (s := s) (l := l) F
  have hq := quiet_eachDoes s.here f s (sel (s.executing r.spec l)) fun e he => hd e (hsel _ e he)
  rw [hb2]
  exact
    { bad := rfl, retry := rfl, faults := rfl, clock := hq.clock
      port := by
        have hp : ∀ p, ((eachDoes f s (sel (s.executing r.spec l))).core s.here).port p = (s.core s.here).port p := fun p => by
          simp only [Core.port, ports_eachDoes s.here f s (sel (s.executing r.spec l)) fun e he => hd e (hsel _ e he)]
        rw [hp]
        exact ⟨hI.active, rfl⟩
      frozen := hfz _ _
      found := ho.1, only := ho.2.1, order := .inl ho.2.2
      ok := fun e he hn => hok _ e he hn
      trapped := fun e he x hx => htr _ e he x hx
      tvec := (tvec_of_sameOutside hq.toSameOutside fun k => by simp only [State.launchOf, hq.launches]).trans
        (tvec_of_issues hI)
      regs := by
        intro e he hn
        have h1 := hreg e
        rw [hok _ e he hn] at h1
        exact ⟨by rw [h1]; exact List.nodup_nil, fun e' _ _ x hx => by rw [hreg e'] at hx; cases hx⟩
      base := (hb ..).symm }

/-! ### Words that execute once for their group -/

/-- What the issue of a word relies on after the word's own effect: the clock, the trap vectors and the runs are as before. -/
structure Calm (s t : State) : Prop where
  clock : t.clock = s.clock
  tvec : ∀ d, t.tvec d = s.tvec d
  active : ∀ d p, ((t.core d).port p).active = ((s.core d).port p).active
  faulted : ∀ d p, ((t.core d).port p).faulted = ((s.core d).port p).faulted

theorem Calm.refl (s : State) : Calm s s := ⟨rfl, fun _ => rfl, fun _ _ => rfl, fun _ _ => rfl⟩
theorem Calm.trans {s t u : State} (h : Calm s t) (g : Calm t u) : Calm s u :=
  ⟨g.clock.trans h.clock, fun d => (g.tvec d).trans (h.tvec d), fun d p => (g.active d p).trans (h.active d p),
    fun d p => (g.faulted d p).trans (h.faulted d p)⟩

/-- The run of an issuing word goes on. -/
theorem Calm.port {s t : State} {w : WSpec} {l : Launch} (h : Calm s t) (hI : Issues w s l) :
    ((t.core s.here).port s.cur.2).active = true ∧ ((t.core s.here).port s.cur.2).faulted = s.portNow.faulted :=
  ⟨(h.active ..).trans hI.active, h.faulted ..⟩

/-- A word that executes once for its group (R222). -/
theorem completes_once (i : Instr) (spec : WSpec) (trap : List Env → Env → Option (Nat × W64))
    (next : List Env → Env → State → State) (regs : Env → List RegW) (body : Grp → Res)
    (hi : ∀ s, exec i s = issueWord spec.byFirst body s)
    (h0 : ∀ g, g.first? = none → body g = { s := g.s, out := g.rest [] })
    (ht : ∀ g e x, (∀ q ∈ g.act, q.s = g.s) → g.first? = some e → trap g.act e = some x → body g =
      { s := e.recordOf 1 x g.s, out := g.rest [((e.slot, e.lane), TRes.trapped x.1 x.2)] })
    (hn : ∀ g e, (∀ q ∈ g.act, q.s = g.s) → g.first? = some e → trap g.act e = none → body g =
      { s := next g.act e g.s, out := g.act.map fun q => ((q.slot, q.lane), { writes := regs e }) })
    (hcalm : ∀ es e s, trap es e = none → Calm s (next es e s)) (hrec : ∀ (e : Env) x s, Calm s (e.recordOf 1 x s))
    (hreg : WellFormed i = true → ∀ e, (((regs e).map (·.reg)).filter warpReg).Nodup) :
    Completes i (Spec.once spec trap next regs) := by
  let F : State → Launch → Env → TRes := fun s l e =>
    match executor spec.h (s.executing spec.byFirst l) with
    | none => {}
    | some h =>
      match trap (s.executing spec.byFirst l) h with
      | some x => if (h.slot, h.lane) = (e.slot, e.lane) then TRes.trapped x.1 x.2 else {}
      | none => { writes := regs h }
  refine completes_of_body i _ (fun _ => body) F hi fun hwf s l hI _ => ?_
  have hact : (grpOf spec.byFirst s l).act = s.executing spec.byFirst l := (executing_eq ..).symm
  have hfst : (grpOf spec.byFirst s l).first? = executor spec.h (s.executing spec.byFirst l) := by
    unfold Grp.first? executor; rw [hact]; rfl
  have hs : ∀ q ∈ (grpOf spec.byFirst s l).act, q.s = (grpOf spec.byFirst s l).s := fun q hq =>
    (mem_group (mem_act.1 hq).1).1
  have hnd : ((s.executing spec.byFirst l).map fun e => (e.slot, e.lane)).Nodup :=
    (nodup_group spec.byFirst s l).sublist ((List.filter_sublist ..).map _)
  have ho := out_of_map (w := spec.byFirst) (s := s) (l := l) (F s l)
  change Body _ s l (body (grpOf spec.byFirst s l)) (F s l)
  have hspec : (Spec.once spec trap next regs).spec = spec.byFirst := rfl
  have hmem : ∀ e, executor spec.h (s.executing spec.byFirst l) = some e → e ∈ s.executing spec.byFirst l := by
    intro e he
    unfold executor at he
    obtain ⟨h1, -⟩ := Option.filter_eq_some_iff.1 he
    exact List.mem_of_mem_head? (by simp [h1])
  cases hE : executor spec.h (s.executing spec.byFirst l) with
  | none =>
    have hF : ∀ e, F s l e = {} := fun e => by simp only [F, hE]
    have hrest : (grpOf spec.byFirst s l).rest [] = (s.executing spec.byFirst l).map fun q => ((q.slot, q.lane), F s l q) := by
      unfold Grp.rest
      rw [hact]
      exact List.map_congr_left fun y _ => by rw [hF]; rfl
    rw [h0 _ (hfst.trans hE), grpOf_s, hrest]
    exact
      { bad := rfl, retry := rfl, faults := rfl, clock := rfl, port := ⟨hI.active, rfl⟩, frozen := rfl
        found := ho.1, only := ho.2.1, order := .inl ho.2.2
        ok := fun e _ _ => by rw [hF, hspec]; simp only [Spec.once, hE]
        trapped := fun e _ x hx => by rw [hspec] at hx; simp [Spec.once, hE] at hx
        tvec := tvec_of_issues hI
        regs := fun e _ _ => by
          rw [hspec]
          simp only [Spec.once, hE]
          exact ⟨List.nodup_nil, fun e' _ _ x hx => by rw [hF] at hx; exact hx⟩
        base := by rw [hspec]; simp only [Spec.once, hE] }
  | some e =>
    have hfe := hfst.trans hE
    rcases htr : trap (s.executing spec.byFirst l) e with _ | x
    · have hb := hn _ e hs hfe (by rw [hact]; exact htr)
      rw [hact] at hb
      rw [hb, grpOf_s]
      have hF : F s l = fun _ => { writes := regs e } := by
        funext q
        simp only [F, hE, htr]
      rw [hF] at ho ⊢
      have hc := hcalm (s.executing spec.byFirst l) e s htr
      refine
        { bad := rfl, retry := rfl, faults := rfl, clock := hc.clock, port := hc.port hI, frozen := rfl
          found := ho.1, only := ho.2.1, order := .inl ho.2.2
          ok := fun q hq _ => ?_
          trapped := fun q hq x hx => ?_
          tvec := (hc.tvec _).trans (tvec_of_issues hI)
          regs := fun q hq _ => ?_
          base := ?_ }
      · rw [hspec]
        simp [Spec.once, hE, htr]
      · rw [hspec] at hx hq
        simp only [Spec.once, hE, Option.map_some, Option.some.injEq] at hx
        split at hx
        · rename_i hk
          have : q = e := (List.inj_on_of_nodup_map hnd (hmem e hE) hq hk).symm
          rw [this, htr] at hx
          cases hx
        · cases hx
      · rw [hspec]
        simp only [Spec.once, hE, htr, Option.isSome_none, Bool.false_eq_true, if_false]
        exact ⟨hreg hwf e, fun _ _ _ x hx => hx⟩
      · rw [hspec]
        simp only [Spec.once, hE, htr]
    · have hb := ht _ e x hs hfe (by rw [hact]; exact htr)
      rw [hb, grpOf_s]
      have hFe : F s l e = TRes.trapped x.1 x.2 := by simp only [F, hE, htr, if_true]
      have hFr : ∀ q, (e.slot, e.lane) ≠ (q.slot, q.lane) → F s l q = {} := by
        intro q hq
        simp only [F, hE, htr]
        rw [if_neg hq]
      have hrest : (grpOf spec.byFirst s l).rest [((e.slot, e.lane), TRes.trapped x.1 x.2)] =
          (s.executing spec.byFirst l).map fun q => ((q.slot, q.lane), F s l q) := by
        unfold Grp.rest
        rw [hact]
        refine List.map_congr_left fun y hy => ?_
        by_cases hk : (e.slot, e.lane) = (y.slot, y.lane)
        · have : y = e := (List.inj_on_of_nodup_map hnd (hmem e hE) hy hk).symm
          rw [this, hFe]
          simp
        · rw [hFr y hk]
          rw [List.find?_eq_none.2]
          · rfl
          · intro q hq
            rw [List.mem_singleton.1 hq]
            simpa using hk
      have hc := hrec e x s
      refine
        { bad := rfl, retry := rfl, faults := rfl, clock := hc.clock, port := hc.port hI, frozen := rfl
          found := by rw [hrest]; exact ho.1
          only := by rw [hrest]; exact ho.2.1
          order := .inl (by rw [hrest]; exact ho.2.2)
          ok := fun q hq hno => ?_
          trapped := fun q hq y hy => ?_
          tvec := (hc.tvec _).trans (tvec_of_issues hI)
          regs := fun q hq _ => ?_
          base := ?_ }
      · rw [hspec] at hno hq ⊢
        simp only [Spec.once, hE, Option.map_some, Option.some.injEq, htr] at hno ⊢
        by_cases hk : (e.slot, e.lane) = (q.slot, q.lane)
        · rw [if_pos hk] at hno
          have : q = e := (List.inj_on_of_nodup_map hnd (hmem e hE) hq hk).symm
          rw [this, htr] at hno
          cases hno
        · rw [hFr q hk]
          rfl
      · rw [hspec] at hy hq
        simp only [Spec.once, hE, Option.map_some, Option.some.injEq] at hy
        split at hy
        · rename_i hk
          have : q = e := (List.inj_on_of_nodup_map hnd (hmem e hE) hq hk).symm
          subst this
          rw [htr] at hy
          cases hy
          rw [hFe]
          exact ⟨rfl, rfl⟩
        · cases hy
      · rw [hspec]
        simp only [Spec.once, hE, htr, Option.isSome_some, if_true]
        refine ⟨List.nodup_nil, fun e' he' _ x hx => ?_⟩
        by_cases hk : (e.slot, e.lane) = (e'.slot, e'.lane)
        · have : e' = e := (List.inj_on_of_nodup_map hnd (hmem e hE) he' hk).symm
          rw [this, hFe] at hx; cases hx
        · rw [hFr e' hk] at hx; cases hx
      · rw [hspec]
        simp only [Spec.once, hE, htr]

/-- The fault record of an error disturbs no issue. -/
theorem calm_recordOf (e : Env) (a : Nat) (t : Nat × W64) (s : State) : Calm s (e.recordOf a t s) := by
  unfold Env.recordOf
  split
  · exact ⟨rfl, fun _ => rfl, fun _ _ => rfl, fun _ _ => rfl⟩
  · exact Calm.refl s

/-- An update of a core that keeps its launch and its ports disturbs no issue. -/
theorem calm_modCore (s : State) (d : Nat) (f : Core → Core) (hl : ∀ c, (f c).launch = c.launch)
    (hp : ∀ c, (f c).ports = c.ports) : Calm s (s.modCore d f) where
  active k p := by
    simp only [State.core_modCore]
    split
    · subst_vars; simp only [Core.port, hp]
    · rfl
  faulted k p := by
    simp only [State.core_modCore]
    split
    · subst_vars; simp only [Core.port, hp]
    · rfl
  clock := rfl
  tvec k := by
    simp only [State.tvec, State.coreLaunch, State.core_modCore]
    split
    · subst_vars; rw [hl]; rfl
    · rfl

/-- An operation that enters flight disturbs no issue. -/
theorem calm_issueOp (s : State) (d : Nat) (o : Op) : Calm s (s.issueOp d o) :=
  (calm_modCore s d (fun c => { c with ops := c.ops ++ [o] }) (fun _ => rfl) fun _ => rfl).trans
    ⟨rfl, fun _ => rfl, fun _ _ => rfl, fun _ _ => rfl⟩

/-! ### Words whose group acts on the state -/

/-- What every thread of an issuing group shares with its group. -/
structure Env.Of (e : Env) (g : Grp) : Prop where
  s : e.s = g.s
  d : e.d = g.d
  l : e.l = g.l
  word : e.word = g.word

/-- The group of a word, as the meanings of the word see it. -/
structure Grp.Sound (g : Grp) : Prop where
  envs : ∀ e ∈ g.act, e.Of g
  here : g.d = g.s.here
  keys : (g.act.map fun e => (e.slot, e.lane)).Nodup

theorem sound_grpOf (w : WSpec) (s : State) (l : Launch) : (grpOf w s l).Sound where
  envs e he := by
    have h := mem_group (mem_act.1 he).1
    exact ⟨h.1, h.2.1, h.2.2.2, (mem_mkEnvs (mem_act.1 he).1).2.2.2.2.2.1⟩
  here := rfl
  keys := by
    rw [← executing_eq]
    exact (nodup_group w s l).sublist ((List.filter_sublist ..).map _)

/-- A word whose group acts on the state as its rule says. -/
theorem completes_acts (i : Instr) (spec : WSpec) (f : List Env → State → State × List ((Nat × Nat) × TRes))
    (pre : State → List Env → Prop) (frozen : List Env → Nat → Prop) (body : Grp → Res)
    (hi : ∀ s, exec i s = issueWord spec body s)
    (hb : ∀ g : Grp, g.Sound → pre g.s g.act → (body g).bad = false ∧ (body g).retry = false ∧ (body g).faults = [] ∧
      (body g).s = (f g.act g.s).1 ∧ frozen g.act ((body g).freeze + (body g).other) ∧
      (body g).out = g.act.map fun e => ((e.slot, e.lane), Spec.outcome (f g.act g.s).2 e))
    (hcalm : ∀ g : Grp, g.Sound → pre g.s g.act → Calm g.s (f g.act g.s).1)
    (hplain : ∀ es s e, (Spec.outcome (f es s).2 e).trap = none →
      Spec.outcome (f es s).2 e = { writes := (Spec.outcome (f es s).2 e).writes, flags := (Spec.outcome (f es s).2 e).flags })
    (hreg : WellFormed i = true → ∀ g : Grp, g.Sound → ∀ e ∈ g.act, (Spec.outcome (f g.act g.s).2 e).trap = none →
      (((Spec.outcome (f g.act g.s).2 e).writes.map (·.reg)).filter warpReg).Nodup ∧
      ∀ e' ∈ g.act, e'.slot = e.slot → ∀ x ∈ ((Spec.outcome (f g.act g.s).2 e').writes.map (·.reg)).filter warpReg,
        x ∈ ((Spec.outcome (f g.act g.s).2 e).writes.map (·.reg)).filter warpReg) :
    Completes i (Spec.acts spec f pre frozen) := by
  refine completes_of_body i _ (fun _ => body) (fun s l e => Spec.outcome (f (s.executing spec l) s).2 e) hi
    fun hwf s l hI hp => ?_
  have hg := sound_grpOf spec s l
  have hact : (grpOf spec s l).act = s.executing spec l := (executing_eq ..).symm
  have hes : ∀ e ∈ s.executing spec l, e.s = s := fun e he => (mem_group (mem_executing.1 he).1).1
  obtain ⟨h1, h2, h3, h4, h5, h6⟩ := hb _ hg (by rw [hact]; exact hp)
  have hc := hcalm _ hg (by rw [hact]; exact hp)
  have hr := hreg hwf _ hg
  rw [hact] at h4 h5 h6 hc hr
  rw [grpOf_s] at h4 h6 hc hr
  have ho := out_of_map (w := spec) (s := s) (l := l) fun e => Spec.outcome (f (s.executing spec l) s).2 e
  rw [← h6] at ho
  change Body _ s l (body (grpOf spec s l)) _
  refine
    { bad := h1, retry := h2, faults := h3, clock := by rw [h4]; exact hc.clock, port := by rw [h4]; exact hc.port hI, frozen := h5
      found := ho.1, only := ho.2.1, order := .inl ho.2.2
      ok := fun e he hn => ?_
      trapped := fun e he x hx => ?_
      tvec := by rw [h4]; exact (hc.tvec _).trans (tvec_of_issues hI)
      regs := fun e he hn => ?_
      base := h4 }
  · have hs := hes e he
    change trapOf (Spec.outcome (f (s.executing spec l) e.s).2 e) = none at hn
    rw [hs] at hn
    change _ = ({ writes := (Spec.outcome (f (s.executing spec l) e.s).2 e).writes
                  flags := (Spec.outcome (f (s.executing spec l) e.s).2 e).flags, pc := none } : TRes)
    rw [hs]
    exact hplain _ _ _ (by simpa [trapOf] using hn)
  · have hs := hes e he
    change trapOf (Spec.outcome (f (s.executing spec l) e.s).2 e) = some x at hx
    rw [hs] at hx
    simp only [trapOf, Option.map_eq_some_iff] at hx
    obtain ⟨t, ht, rfl⟩ := hx
    exact ⟨ht, rfl⟩
  · have hs := hes e he
    change trapOf (Spec.outcome (f (s.executing spec l) e.s).2 e) = none at hn
    rw [hs] at hn
    have := hr e he (by simpa [trapOf] using hn)
    change ((List.map _ (Spec.outcome (f (s.executing spec l) e.s).2 e).writes).filter warpReg).Nodup ∧
      ∀ e' ∈ s.executing spec l, e'.slot = e.slot → ∀ x ∈ _, x ∈ (List.map _ (Spec.outcome (f (s.executing spec l) e.s).2 e).writes).filter warpReg
    rw [hs]
    exact this

/-- The threads of `takeTurns` are those it was given. -/
theorem takeTurns_fst (f : Env → State → Spec.Turn) (es : List Env) (s : State) : (takeTurns f es s).2.map (·.1) = es := by
  induction es generalizing s with
  | nil => rfl
  | cons e es ih => simp only [takeTurns, List.map_cons, ih]

/-- What came of a thread in its turn, among the results of all. -/
theorem outcome_turns (r : List (Env × Spec.Turn)) (e : Env) :
    outcome (r.map fun q => ((q.1.slot, q.1.lane), q.2.res)) e =
      ((r.find? fun q => q.1.slot == e.slot && q.1.lane == e.lane).map (·.2.res)).getD {} := by
  unfold outcome
  rw [List.find?_map, Option.map_map]
  rfl

/-- A word whose threads act in turn is a word whose group acts on the state. -/
theorem turns_eq (spec : WSpec) (f : List Env → Env → State → Spec.Turn) (pre : State → List Env → Prop)
    (frozen : List Env → Nat → Prop) (after : List Env → List (Env × Spec.Turn) → State → State) :
    turns spec f pre frozen after = acts spec (fun es s =>
      (after es (takeTurns (f es) es s).2 (takeTurns (f es) es s).1,
       (takeTurns (f es) es s).2.map fun q => ((q.1.slot, q.1.lane), q.2.res))) pre frozen := by
  unfold turns acts turnOf
  congr 1 <;> funext es e <;> rw [outcome_turns]

/-- Turns disturb no issue where no turn does. -/
theorem calm_takeTurns (f : Env → State → Spec.Turn) (h : ∀ e s, Calm s (f e s).s) (es : List Env) (s : State) :
    Calm s (takeTurns f es s).1 := by
  induction es generalizing s with
  | nil => exact Calm.refl s
  | cons e es ih =>
    simp only [takeTurns]
    refine Calm.trans (h e s) (Calm.trans ?_ (ih _))
    split
    · exact calm_modCore _ _ (·.modWarp e.slot (·.modThread e.lane fun t => { t with acqAt := (f e s).s.clock }))
        (fun c => by unfold Core.modWarp; split <;> rfl) fun c => by unfold Core.modWarp; split <;> rfl
    · exact Calm.refl _

end Sys2Proof.Machine
end

