-- ==== Sys2Proof/Tests/Slice0.lean ====
section
/-! SUPPORT. The package's own tests: words that decode, ill-formed terms that are refused, single steps on small states with
results worked out by hand from the manual, and a witness for every statement that has hypotheses. -/

set_option Elab.async false

namespace Sys2Proof.Tests

open Sys2Proof Sys2Proof.Machine Sys2Proof.Spec

/-! ### Helpers: one thread of core 0 that is about to execute a word -/

/-- An R-form word with guard p7, no block and no stall. -/
def rw (d s1 s2 : BitVec 10) (mod : BitVec 9 := 0) : RForm :=
  { e := false, stall := 0, gn := false, gp := 7, d := d, s1 := s1, s2 := s2, eh := 0, ew := 0, mod := mod }
/-- The same word at the end of its run. -/
def rwE (d s1 s2 : BitVec 10) (mod : BitVec 9 := 0) : RForm := { rw d s1 s2 mod with e := true }
def iw (d : BitVec 10) (mod3 : BitVec 3) (imm : BitVec 32) : IForm :=
  { e := true, stall := 0, gn := false, gp := 7, d := d, mod3 := mod3, imm := imm }
def mw (d s1 : BitVec 10) (off : BitVec 16) (mod : BitVec 9) : MForm :=
  { e := false, stall := 0, gn := false, gp := 7, d := d, s1 := s1, off := off, mod := mod }

/-- The launch of the tests: privileged, 768 registers, 256 KiB of scratchpad, on core 0. -/
def tl : Launch := readyLaunch 1

/-- Lane 0 of the warp of a port holds these v and p registers and this sr.mode, and the warp these w and b registers. -/
structure Regs where
  v : List (Nat × BitVec 32) := []
  p : BitVec 8 := 0
  mode : BitVec 32 := 0
  k : List (Nat × BitVec 64) := []
  w : List (Nat × BitVec 64) := []
  b : List (Nat × BitVec 256) := []
  epc : BitVec 64 := 0

/-- One thread runs on a port of core 0 with some registers; the core is otherwise as `f` leaves it. -/
def st (p : PortId) (r : Regs) (f : Core → Core := id) : State :=
  let s := State.reset.fetching 0 p
  { s with
    cur := (0, p)
    cores := s.cores.map fun c => (c.1, f (c.2.modWarp (readySlot p) fun w =>
      { w with
        w := r.w, b := r.b
        threads := w.threads.zipIdx.map fun t =>
          if t.2 = 0 then { t.1 with v := r.v, p := r.p, mode := r.mode, k := r.k, epc := r.epc } else t.1 })) }

/-- The checks that precede a word pass, and a thread executes it. -/
def meets (i : Instr) (w : WSpec) (s : State) : Bool :=
  WellFormed i && s.coreLaunch s.here == some tl && s.portNow.active && decide (s.portNow.count < 24) &&
    w.vregs.all (fun x => decide (x < tl.nregs)) && (!w.ends || w.h.e) && w.roles.contains (portRole s.cur.2) &&
    (!w.priv || tl.priv) && !(s.executing w tl).isEmpty

theorem meets_issues {i : Instr} {w : WSpec} {s : State} (h : meets i w s = true) :
    WellFormed i = true ∧ Issues w s tl ∧ s.executing w tl ≠ [] := by
  simp only [meets, Bool.and_eq_true, beq_iff_eq, decide_eq_true_eq, List.all_eq_true, Bool.or_eq_true, Bool.not_eq_true',
    List.contains_eq_mem, List.isEmpty_eq_false_iff] at h
  obtain ⟨⟨⟨⟨⟨⟨⟨⟨a, b⟩, c⟩, d⟩, e⟩, f⟩, g⟩, p⟩, q⟩ := h
  exact ⟨a, ⟨b, c, d, e, fun h => by simpa [h] using f, g, fun h => by simpa [h] using p⟩, q⟩

/-- The results that a word gives lane 0 and its warp: register and value. -/
def got (i : Instr) (s : State) : Option (List (Nat × Nat)) :=
  match exec i s with
  | .next t => ((t.core 0).warp? (readySlot s.cur.2)).map fun w =>
      ((w.threads.headD (seedThread tl)).pend ++ w.pend).map fun q => (q.reg, q.val.toNat)
  | _ => none
/-- A field of the thread after a word. -/
def left (i : Instr) (s : State) (f : Thread → Nat) : Option Nat :=
  match exec i s with
  | .next t => (t.thread? 0 (readySlot s.cur.2) 0).map f
  | _ => none
/-- What a step leaves, where it answers a next state. -/
def after (i : Instr) (s : State) (f : State → Nat) : Option Nat :=
  match exec i s with
  | .next t => some (f t)
  | _ => none

/-- Every row gives its result. -/
def allGot (s : State) (l : List (Instr × List (Nat × Nat))) : Bool := l.all fun q => got q.1 s == some q.2
/-! ### Decoding: words of the manual's worked cases, one or more of each family (03 R58 to R62) -/

/-- `FADD` with a block, the head fields and MOD of the worked case of 03; `IADD` written out from R59: OP 0x000, D 3, S1 4, S2 5. -/
theorem test_decode_integer :
    decodeTableWord 64 (7 * 2 ^ 45 + 3 * 2 ^ 35 + 4 * 2 ^ 25 + 5 * 2 ^ 15) = some (.iadd (rw 3 4 5)) ∧
    decodeTableWord 64 (0x00B * 2 ^ 49 + 7 * 2 ^ 45 + 833 * 2 ^ 35 + 4 * 2 ^ 25 + 5 * 2 ^ 15 + 2) = some (.icmp (rw 833 4 5 2)) := by
  decide +kernel
/-- `FFMA.RTZ v10:2x4, v20:2x4, w3` is 0x0086_E050_2981_9650 (07, the worked case of R184). -/
theorem test_decode_float :
    decodeTableWord 64 0x0086E05029819650 = some (.ffma { rw 10 20 771 0x050 with eh := 1, ew := 3 }) := by decide +kernel
/-- `RED.ADD v3, v1, p2` (08 R209). -/
theorem test_decode_lane :
    decodeTableWord 64 0x0106E01803A10004 = some (.red (rw 3 1 834 0x004)) := by decide +kernel
/-- NOP, CALL, TRAP and RETT.NEXT (05 R131). -/
theorem test_decode_control :
    decodeTableWord 64 0x8380E00000000000 = some (.nop (rwE 0 0 0)) ∧
    decodeTableWord 64 0x8386F82800000008 = some (.call (iw 773 0 8)) ∧
    decodeTableWord 64 0x8390E0000000002A = some (.trap (iw 0 0 0x2A)) ∧
    decodeTableWord 64 0x8392E00000000001 = some (.rett (rwE 0 0 0 1)) := by decide +kernel
theorem test_decode_matrix :
    decodeTableWord 64 0x0186FAC6C2100007 = some (.mmas (rw 856 865 32 7)) := by decide +kernel
theorem test_decode_scratch :
    decodeTableWord 64 0x0208E03E040021B2 = some (.ats (mw 7 770 16 0x1B2)) := by decide +kernel
theorem test_decode_ring :
    decodeTableWord 64 0x030EE02611850000 = some (.rcom (rw 4 776 778)) := by decide +kernel
/-- Of a paired word, and of a word with an opcode that R81 does not assign. -/
theorem test_decode_other :
    decodeTableWord 64 0x8C000004EA004037 =
      some (.pairedWord { e := true, stall := 1, a := { op := 0x00, d := 0, s := 4, g := 7 }, b := { op := 0x14, d := 2, s := 6, g := 7 } }) ∧
    decodeTableWord 64 0x03FE000000000000 = some (.unassignedOpcode 0x03FE000000000000) := by decide +kernel

/-! ### WellFormed: an ill-formed term for each check of R84 that depends on the word alone -/

theorem test_wellFormed_refuses :
    WellFormed (.iadd (rw 3 4 5 1)) = false ∧                            -- a reserved MOD bit (R83)
    WellFormed (.iabs (rw 3 4 5)) = false ∧                              -- an unused operand field that is not 0 (R83)
    WellFormed (.icmp (rw 833 4 5 6)) = false ∧                          -- a reserved condition code (R164)
    WellFormed (.iadd (rw 3 4 5 0x100)) = false ∧                        -- BC1 without a block (R71)
    WellFormed (.pand { rw 833 834 835 with ew := 1 }) = false ∧         -- a block extent on a word without blocks (R70)
    WellFormed (.icmp (rw 3 4 5)) = false ∧                              -- a destination of the wrong class (R164)
    WellFormed (.iadd { rw 31 4 5 with ew := 1 }) = false ∧              -- a block that leaves the grid (R70)
    WellFormed (.iadd64 (rw 3 4 6)) = false ∧                            -- an odd v register of a 64-bit operand (R172)
    WellFormed (.movi { iw 3 1 0 with e := false }) = false ∧            -- MOVI.X to a register that is no w register (R171)
    WellFormed (.lds (mw 3 10 0 5)) = false ∧                            -- a reserved width (R327)
    WellFormed (.mma (rw 856 864 0 0)) = false ∧ WellFormed (.mmaL (rw 856 864 0 0)) = false ∧  -- the L bit and S2 (R223)
    WellFormed (.mtsr (rw 0 4 0 5)) = false ∧                            -- a read-only system register (R130)
    WellFormed (.pairedWord { e := false, stall := 0, a := { op := 0x00, d := 0, s := 4, g := 7 }
                              b := { op := 0x01, d := 0, s := 6, g := 7 } }) = false ∧          -- two halves, one destination (R65)
    WellFormed (.unassignedOpcode 0) = false ∧                           -- 0 is the opcode of IADD (R81)
    WellFormed (.iadd (rw 3 4 5)) = true := by decide +kernel
/-! ### Classes 0 to 2: single words, by hand from 06, 07 and 08 -/

def sInt : State := st .v0 { v := [(1, 7), (2, 0xFFFFFFFE), (3, 5), (5, 0x804)], p := 2, w := [(769, 0x100000002)] }

theorem test_integer_results : allGot sInt
    [(.iadd (rw 10 1 2), [(10, 5)]), (.isub (rw 10 1 2), [(10, 9)]), (.imul (rw 10 1 2), [(10, 0xFFFFFFF2)]),
     (.imad (rw 3 1 2), [(3, 0xFFFFFFF7)]), (.imulh (rw 10 1 2), [(10, 0xFFFFFFFF)]), (.imulh (rw 10 1 2 0x40), [(10, 6)]),
     (.imin (rw 10 1 2), [(10, 0xFFFFFFFE)]), (.imax (rw 10 1 2), [(10, 7)]), (.iabs (rw 10 2 0), [(10, 2)]),
     (.and (rw 10 1 2), [(10, 6)]), (.or (rw 10 1 2), [(10, 0xFFFFFFFF)]), (.xor (rw 10 1 2), [(10, 0xFFFFFFF9)]),
     (.andn (rw 10 1 2), [(10, 1)]), (.not (rw 10 1 0), [(10, 0xFFFFFFF8)]), (.popc (rw 10 2 0), [(10, 31)]),
     (.clz (rw 10 1 0), [(10, 29)]), (.brev (rw 10 1 0), [(10, 0xE0000000)])] = true := by decide +kernel
theorem test_shift_divide_results : allGot sInt
    [(.shl (rw 10 1 0 0x24), [(10, 0x70)]), (.shr (rw 10 2 0 0x3C), [(10, 0xF)]), (.sar (rw 10 2 0 0x21), [(10, 0xFFFFFFFF)]),
     (.shl (rw 10 1 2), [(10, 0)]), (.rol (rw 10 2 0 0x21), [(10, 0xFFFFFFFD)]), (.fshl (rw 10 1 2 4), [(10, 0x7F)]),
     (.fshr (rw 10 1 2 4), [(10, 0x7FFFFFFF)]), (.bfx (rw 10 2 5), [(10, 0xFFFFFFFF)]), (.bfx (rw 10 2 5 0x40), [(10, 0xFF)]),
     (.bfi (rw 3 1 5), [(3, 0x75)]), (.idiv (rw 10 1 2), [(10, 0xFFFFFFFD)]), (.irem (rw 10 1 2), [(10, 1)]),
     (.idiv (rw 10 1 9), [(10, 0xFFFFFFFF)])] = true := by decide +kernel
theorem test_division_by_zero_flag : left (.idiv (rw 10 1 9)) sInt (·.status.toNat) = some 0x40 := by decide +kernel
theorem test_carry_compare_select : allGot sInt
    [(.iaddc (rw 10 2 2 9), [(10, 0xFFFFFFFC), (833, 1)]), (.icmp (rw 834 2 1 2), [(834, 1)]), (.sel (rw 10 1 2 1), [(10, 7)])] = true := by
  decide +kernel
theorem test_move_predicate_results : allGot sInt
    [(.movi (iw 769 1 0xFFFFFFFF), [(769, 0xFFFFFFFFFFFFFFFF)]), (.movi (iw 3 0 9), [(3, 9)]),
     (.movhi (iw 769 0 5), [(769, 0x500000002)]), (.mov (rw 10 1 0), [(10, 7)]),
     (.iadd64 (rw 10 2 4), [(10, 0xFFFFFFFE), (11, 0x809)]), (.lea (rw 770 769 1 3), [(770, 0x10000003A)]),
     (.pand (rw 834 833 832 1), [(834, 1)]), (.por (rw 834 832 833), [(834, 1)]), (.pxor (rw 834 833 833), [(834, 0)]),
     (.pnot (rw 834 833 0), [(834, 0)]), (.pmov (rw 834 2 0), [(834, 1)]), (.pnot (rw 839 833 0), [])] = true := by decide +kernel

/-- Every word of `IntegerResults` may issue and executes. -/
theorem witness_IntegerResults :
    ([(Instr.iadd (rw 10 1 2), 0x000), (.isub (rw 10 1 2), 0x001), (.imul (rw 10 1 2), 0x003), (.imulh (rw 10 1 2), 0x004),
      (.imin (rw 10 1 2), 0x006), (.imax (rw 10 1 2), 0x007), (.and (rw 10 1 2), 0x00D), (.or (rw 10 1 2), 0x00E),
      (.xor (rw 10 1 2), 0x00F), (.andn (rw 10 1 2), 0x010), (.fshl (rw 10 1 2), 0x016), (.fshr (rw 10 1 2), 0x017),
      (.bfx (rw 10 1 2), 0x018), (.idiv (rw 10 1 2), 0x009), (.irem (rw 10 1 2), 0x00A)].all fun q =>
        meets q.1 (block2 q.2 (rw 10 1 2) 2 fun a _ => a).spec sInt) = true ∧
    ([(Instr.iabs (rw 10 1 0), 0x008), (.not (rw 10 1 0), 0x011), (.popc (rw 10 1 0), 0x01A), (.clz (rw 10 1 0), 0x01B),
      (.brev (rw 10 1 0), 0x01C)].all fun q => meets q.1 (block1 q.2 (rw 10 1 0) 2 id).spec sInt) = true ∧
    ([(Instr.imad (rw 10 1 2), 0x005), (.bfi (rw 10 1 2), 0x019)].all fun q =>
        meets q.1 (block3 q.2 (rw 10 1 2) 4 fun a _ _ => a).spec sInt) = true ∧
    ([(Instr.shl (rw 10 1 0 0x24), 0x012), (.shr (rw 10 1 0 0x24), 0x013), (.sar (rw 10 1 0 0x24), 0x014),
      (.rol (rw 10 1 0 0x24), 0x015)].all fun q => meets q.1 (shiftRule q.2 (rw 10 1 0 0x24) fun a _ => a).spec sInt) = true := by
  decide +kernel
theorem witness_CarryCompareSelectResults :
    meets (.iaddc (rw 10 2 2 9)) (rWord 0x002 (rw 10 2 2 9) [2, 2] [10]) sInt = true ∧
    meets (.icmp (rw 834 2 1 2)) (rWord 0x00B (rw 834 2 1 2) [2, 1] [834]) sInt = true ∧
    meets (.sel (rw 10 1 2 1)) (rWord 0x00C (rw 10 1 2 1) [1, 2, 833] [10]) sInt = true := by decide +kernel
theorem witness_MovePredicateResults :
    meets (.movi (iw 769 1 9)) (iWord 0x01E (iw 769 1 9) [] [769]) sInt = true ∧
    meets (.movhi (iw 769 0 5)) (iWord 0x01F (iw 769 0 5) [769] [769]) sInt = true ∧
    meets (.mov (rw 10 1 0)) (rWord 0x01D (rw 10 1 0) [1] [10]) sInt = true ∧
    meets (.iadd64 (rw 10 2 4)) (rWord 0x020 (rw 10 2 4) [2, 3, 4, 5] [10, 11]) sInt = true ∧
    meets (.lea (rw 770 769 1 3)) (rWord 0x021 (rw 770 769 1 3) [769, 1] [770]) sInt = true ∧
    meets (.pand (rw 834 833 832 1)) (rWord 0x087 (rw 834 833 832 1) [833, 832] [834]) sInt = true ∧
    meets (.por (rw 834 833 832)) (rWord 0x088 (rw 834 833 832) [833, 832] [834]) sInt = true ∧
    meets (.pxor (rw 834 833 832)) (rWord 0x089 (rw 834 833 832) [833, 832] [834]) sInt = true ∧
    meets (.pnot (rw 834 833 0)) (rWord 0x08A (rw 834 833 0) [833] [834]) sInt = true ∧
    meets (.pmov (rw 834 2 0)) (rWord 0x08B (rw 834 2 0) [2] [834]) sInt = true := by decide +kernel

def sFlt : State := st .v0 { v := [(1, 0x3F800000), (2, 0x40000000), (3, 0x3F000000), (4, 0x40800000), (5, 0x7F800000), (6, 0x40003F80)]
                             p := 2, k := [(880, 5)] }

theorem test_float_results : allGot sFlt
    [(.fadd (rw 10 1 2), [(10, 0x40400000)]), (.fsub (rw 10 1 2), [(10, 0xBF800000)]), (.fmul (rw 10 1 2), [(10, 0x40000000)]),
     (.ffma (rw 3 1 2), [(3, 0x40200000)]), (.fmin (rw 10 1 2), [(10, 0x3F800000)]), (.fmax (rw 10 1 2), [(10, 0x40000000)]),
     (.frnd (rw 10 3 0), [(10, 0)]), (.hadd2 (rw 10 6 6), [(10, 0x40804000)]), (.hmul2 (rw 10 6 6), [(10, 0x40803F80)]),
     (.hfma2 (rw 10 6 6), [(10, 0x40803F80)]), (.fcmp (rw 834 1 2 2), [(834, 1)]), (.fclass (rw 10 1 0), [(10, 64)])] = true := by
  decide +kernel
theorem test_special_results : allGot sFlt
    [(.frcp (rw 10 2 0), [(10, 0x3F000000)]), (.fsqrt (rw 10 4 0), [(10, 0x40000000)]), (.frsq (rw 10 1 0), [(10, 0x3F800000)]),
     (.fex2 (rw 10 0 0), [(10, 0x3F800000)]), (.flg2 (rw 10 1 0), [(10, 0)]), (.fsin (rw 10 0 0), [(10, 0)]),
     (.fcos (rw 10 0 0), [(10, 0x3F800000)]), (.ftanh (rw 10 5 0), [(10, 0x3F800000)])] = true := by decide +kernel
/-- CVT from F32 to BF16 (R190: codes 0 and 1); an empty code table expands to 0 (R198); CKACC and CKTEST (R200, R202). -/
theorem test_conversion_results : allGot sFlt
    [(.cvt (rw 10 1 0 1), [(10, 0x3F80)]), (.cbxp (rw 10 1 0), [(10, 0)]), (.ckacc (rw 880 2 0), [(880, 0x40000005)]),
     (.cktest (rw 10 880 881 1), [(10, 1)])] = true := by decide +kernel
/-- FPEXC with TDIVZ (sr.mode bit 7, R124, R177): 1/0 traps, and the destination is not written. -/
theorem test_float_trap : left (.frcp (rw 10 0 0)) (st .v0 { mode := 0x80 }) (·.ecause.toNat) = some (0x30 + 1024) := by decide +kernel

def one2 (w : RForm) (op : Nat) : WSpec := (float2 op w 4 fun _ a _ => (a, 0)).spec
theorem witness_FloatResults :
    ([(Instr.fadd (rw 10 1 2), 0x040), (.fsub (rw 10 1 2), 0x041), (.fmul (rw 10 1 2), 0x042), (.fmin (rw 10 1 2), 0x044),
      (.fmax (rw 10 1 2), 0x045), (.hadd2 (rw 10 1 2), 0x051), (.hmul2 (rw 10 1 2), 0x052)].all fun q =>
        meets q.1 (one2 (rw 10 1 2) q.2) sFlt) = true ∧
    ([(Instr.ffma (rw 10 1 2), 0x043), (.hfma2 (rw 10 1 2), 0x053)].all fun q =>
        meets q.1 (float3 q.2 (rw 10 1 2) 4 fun _ a _ _ => (a, 0)).spec sFlt) = true ∧
    meets (.frnd (rw 10 1 0)) (float1 0x048 (rw 10 1 0) 4 fun _ a => (a, 0)).spec sFlt = true := by decide +kernel
theorem witness_FloatClassSpecialResults :
    meets (.fcmp (rw 834 1 2 2)) { rWord 0x046 (rw 834 1 2 2) [1, 2] [834] with roles := [.v] } sFlt = true ∧
    ([(Instr.fclass (rw 10 1 0), 0x047), (.frcp (rw 10 1 0), 0x049), (.frsq (rw 10 1 0), 0x04A), (.fsqrt (rw 10 1 0), 0x04B),
      (.fex2 (rw 10 1 0), 0x04C), (.flg2 (rw 10 1 0), 0x04D), (.fsin (rw 10 1 0), 0x04E), (.fcos (rw 10 1 0), 0x04F),
      (.ftanh (rw 10 1 0), 0x050)].all fun q => meets q.1 (float1 q.2 (rw 10 1 0) 10 fun _ a => (a, 0)).spec sFlt) = true := by
  decide +kernel
/-- Codes of a negative finite value, of a NaN, and of a value beyond 10. -/
theorem witness_SpecialInputs :
    f32.value 0xBF800000 = .fin true 8388608 (-23) ∧ f32.value 0x7FC00000 = .nan ∧
    f32.value 0x41200000 = .fin false 10485760 (-20) ∧ 0x41200000 ≤ 0x41200000 % 2 ^ 31 := by decide +kernel
theorem witness_ConversionTableResults :
    meets (.cvt (rw 10 1 0 1)) { rWord 0x054 (rw 10 1 0 1) [1] [10] with roles := [.v] } sFlt = true ∧
    meets (.cvtblk (rw 10 1 0)) { rWord 0x055 (rw 10 1 0) [1] [10] with roles := [.v] } sFlt = true ∧
    meets (.unblk (rw 10 1 0)) { rWord 0x056 (rw 10 1 0) [1] [10] with roles := [.v] } sFlt = true ∧
    meets (.cbxp (rw 10 1 0)) (float1 0x057 (rw 10 1 0) 6 fun _ a => (a, 0)).spec sFlt = true ∧
    meets (.cbq (rw 10 1 0)) { rWord 0x058 (rw 10 1 0) [1, 10] [10] with roles := [.v] } sFlt = true ∧
    meets (.ckacc (rw 880 2 0)) { rWord 0x059 (rw 880 2 0) [2, 880] [] with roles := [.v] } sFlt = true ∧
    meets (.cktest (rw 10 880 881 1)) { rWord 0x05A (rw 10 880 881 1) [880, 881] [10] with roles := [.v] } sFlt = true := by
  decide +kernel

theorem test_lane_results : allGot sInt
    [(.shfl (rw 10 1 0 0x10), [(10, 7)]), (.shflp (rw 10 1 0 0x10), [(10, 7)]), (.vote (rw 834 833 0), [(834, 1)]),
     (.red (rw 10 1 839 1), [(10, 7), (833, 1)]), (.scan (rw 10 1 839 0x101), [(10, 0), (833, 1)]),
     (.matchLanes (rw 10 1 0 1), [(10, 1), (833, 1)]), (.bcast (rw 770 1 0), [(770, 7)]), (.lgset (rw 0 0 0 3), [(1024, 3)])] = true := by
  decide +kernel
/-- MFSR of sr.tvec (number 5) and of the lane, MTSR of sr.mode (R123). -/
theorem test_system_results :
    allGot sInt [(.mfsr (rw 770 0 0 5), [(770, 0x400100)]), (.mfsr (rw 10 0 0 9), [(10, 0)])] = true ∧
    left (.mtsr (rw 0 1 0)) sInt (·.mode.toNat) = some 7 := by decide +kernel
/-- v1 := v1 + v5 in the first half and v3 := v3 - v2 in the second (R63, R64). -/
theorem test_paired_results : allGot sInt
    [(.pairedWord { e := false, stall := 0, a := { op := 0, d := 1, s := 5, g := 7 }, b := { op := 1, d := 3, s := 2, g := 7 } },
      [(1, 0x80B), (3, 7)])] = true := by decide +kernel
theorem witness_CrossLaneResults :
    ([(Instr.shfl (rw 10 1 0 0x10), rWord 0x080 (rw 10 1 0 0x10) [1] [10]), (.shflp (rw 10 1 0 0x10), rWord 0x081 (rw 10 1 0 0x10) [1] [10]),
      (.bcast (rw 770 1 0), { rWord 0x08E (rw 770 1 0) [] [] with vregs := [1], reads := fun _ => [1] }),
      (.vote (rw 834 833 0), rWord 0x082 (rw 834 833 0) [833] [834]), (.matchLanes (rw 10 1 0 1), rWord 0x086 (rw 10 1 0 1) [1] [10]),
      (.red (rw 10 1 839 1), rWord 0x083 (rw 10 1 839 1) [1, 839] [10]), (.scan (rw 10 1 839 1), rWord 0x084 (rw 10 1 839 1) [1, 839] [10]),
      (.lgset (rw 0 0 0 3), rWord 0x085 (rw 0 0 0 3) [] [])].all fun q => meets q.1 q.2 sInt) = true := by decide +kernel
theorem witness_SystemWordResults :
    ([(Instr.mfsr (rw 770 0 0 5), rWord 0x08C (rw 770 0 0 5) [] [770]), (.mtsr (rw 0 1 0), rWord 0x08D (rw 0 1 0) [1] []),
      (.snap (rw 0 1 0), rWord 0x1CB (rw 0 1 0) [1] []), (.halt (rw 0 0 0), { rWord 0x1CC (rw 0 0 0) [] [] with priv := true }),
      (.tlbi (rw 0 0 0), { rWord 0x1CD (rw 0 0 0) [] [] with priv := true })].all fun q => meets q.1 q.2 sInt) = true := by decide +kernel
def pw : PForm :=
  { e := false, stall := 0, a := { op := 0, d := 1, s := 5, g := 7 }, b := { op := 12, d := 769, s := 2, g := 1 } }
/-- The first half writes a v register; the second, with guard p1, a w register: the guard is the same in the one lane here. -/
theorem witness_PairedWordResults : meets (.pairedWord pw) (pairedSpec pw) sInt = true ∧ classOf pw.b.d = .w ∧
    (sInt.executing (pairedSpec pw) tl).length = 1 ∧ (sInt.group (pairedSpec pw) tl).all (fun e =>
      e.r32 833 == 1 && (e.stall (pairedSpec pw).h ((pairedSpec pw).reads e)).isNone) = true := by decide +kernel
/-! ### Class 7: control, and class 3: matrix words -/

/-- CALL writes the next word's address, RET goes where w5 says, SLEEP #3 and EXIT leave the run (05 R131 to R136). -/
theorem test_control_results :
    got (.call (iw 773 0 8)) sInt = some [(773, 0x400008)] ∧
    left (.call (iw 773 0 8)) sInt (·.pc.toNat) = some 0x400040 ∧
    left (.ret (rwE 0 769 0)) { sInt with clock := 0 } (·.ecause.toNat) = some (0x13 + 1024) ∧
    left (.sleep (iw 0 0 3)) sInt (·.wake) = some 3 ∧ left (.exit (rwE 0 0 0)) sInt (·.run.code) = some 5 ∧
    left (.trap (iw 0 0 42)) sInt (·.einfo.toNat) = some 42 ∧ left (.bkpt (iw 0 0 42)) sInt (·.pc.toNat) = some 0x400100 := by
  decide +kernel
theorem witness_ControlWordResults :
    ([(Instr.nop (rwE 0 0 0), rWord 0x1C0 (rwE 0 0 0) [] []), (.brx (rwE 0 1 0), { rWord 0x1C2 (rwE 0 1 0) [1] [] with ends := true }),
      (.ret (rwE 0 769 0), { rWord 0x1C4 (rwE 0 769 0) [769] [] with ends := true }),
      (.bra (iw 0 0 8), { iWord 0x1C1 (iw 0 0 8) [] [] with ends := true }),
      (.call (iw 773 0 8), { iWord 0x1C3 (iw 773 0 8) [] [773] with ends := true }),
      (.exit (rwE 0 0 0), { rWord 0x1C5 (rwE 0 0 0) [] [] with ends := true }),
      (.yield (rwE 0 0 0), { rWord 0x1C6 (rwE 0 0 0) [] [] with ends := true }),
      (.sleep (iw 0 0 3), { iWord 0x1C7 (iw 0 0 3) [] [] with ends := true }), (.trap (iw 0 0 42), iWord 0x1C8 (iw 0 0 42) [] []),
      (.bkpt (iw 0 0 42), iWord 0x1CA (iw 0 0 42) [] []),
      (.rett (rwE 0 0 0 1), { rWord 0x1C9 (rwE 0 0 0 1) [] [] with ends := true })].all fun q => meets q.1 q.2 sInt) = true ∧
    (sInt.executing { rWord 0x1C5 (rwE 0 0 0) [] [] with ends := true } tl).all (fun e => e.t.dtraps == []) = true ∧
    ((st .v0 {} fun c => { c with debugHalt := true }).core 0).debugHalt = true := by decide +kernel

/-- The M warp of the tests stands in slot 1. c1 is declared for one signer, lane 0, c2 stands issued; c3 is idle. -/
def mDesc : BitVec 64 := BitVec.ofNat 64 (0x10 * 0 + 63 + 4 * 2 ^ 8 + readySlot .m * 2 ^ 13)
def mCvr : Cvr := { Cvr.idle with st := .declared, desc := mDesc, mask := 1 }
def mBar : BitVec 128 := BitVec.ofNat 128 (2 ^ 64 + 1 * 2 ^ 28 + 1 * 2 ^ 16)
def sMat : State := st .m { v := [(1, 0x2000), (2, 0x1000), (3, 2)], w := [(769, 1), (770, mDesc), (771, 0x400000000000)] } fun c =>
  { c.scrWrite 0x1000 (leBytes 16 mBar.toNat) with
      cvr := [(1, mCvr), (2, { mCvr with st := .issued, buf := some 2 })]
      latch := [(2, { rows := [(0, { flags := 0, elems := [] })], holder := some 2 })] }
def mm : WSpec := matrix 0x0C0 (rw 0 0 0) [.m] []

/-- The bound of an FP32 product with K = 64 is 64 · 32767 · 32767 (R45, R232). -/
theorem test_matrix_results :
    after (.mset (rw 864 769 770)) sMat (fun t => ((t.core 0).cv 0).decl.toNat + ((t.core 0).cv 0).mask.toNat) = some 2 ∧
    after (.mzero (rw 856 0 0)) sMat (fun t => (t.core 0).issueOrder.length) = some 1 ∧
    after (.mma (rw 856 865 16 3)) sMat (fun t => ((t.core 0).ac 0).bound) = some (64 * 32767 * 32767) ∧
    after (.mmaL (rw 856 866 0 0x83)) sMat (fun t => (t.core 0).issueOrder.length) = some 1 := by decide +kernel

/-- MSET passes its checks, MREL finds a register; a first signature that is also the last finds a free buffer. -/
theorem witness_SigningWordResults :
    meets (.mset (rw 864 769 770)) (matrix 0x0C0 (rw 864 769 770) [.m] [769, 770]).byFirst sMat = true ∧
    msetChecks (sMat.core 0) 1 mDesc = none ∧
    meets (.mrel (rw 0 866 0)) (matrix 0x0CD (rw 0 866 0) [.m] []).byFirst sMat = true := by decide +kernel
def mmaSpec (op : Nat) (w : RForm) : WSpec :=
  let regs := fun (c : Core) => (let v := c.cv (w.s1.toNat - 864); if v.st = .idle then 0 else rowRegs (dsFa v.desc) (dsK v.desc))
  { rWord op w [] [] with
      roles := [.m], n := max 1 ((regs (sMat.core sMat.here) + 7) / 8), vregs := [w.s2.toNat]
      reads := fun e =>
        (let k := regs (e.s.core e.d)
         if w.s2.toNat + k ≤ e.l.nregs then (List.range k).map (w.s2.toNat + ·) else []) ++ [768 + mfld w.mod 5 0] }
theorem witness_signing (kind op : Nat) (h : (kind, op) ∈ [(0, 0x0C1), (1, 0x0C2), (2, 0x0C3)]) :
    (signing kind op (rw 856 865 16 3) (mmaSpec op (rw 856 865 16 3))).pre sMat tl
      (sMat.executing (mmaSpec op (rw 856 865 16 3)) tl) := by
  fin_cases h <;> refine ⟨rfl, ?_⟩ <;> decide +kernel
theorem witness_signing_issues :
    meets (.mma (rw 856 865 16 3)) (mmaSpec 0x0C1 (rw 856 865 16 3)) sMat = true ∧
    meets (.mmar (rw 856 865 16 3)) (mmaSpec 0x0C2 (rw 856 865 16 3)) sMat = true ∧
    meets (.mmas (rw 856 865 16 3)) (mmaSpec 0x0C3 (rw 856 865 16 3)) sMat = true := by decide +kernel
theorem witness_LatchedIssueResults :
    meets (.mmaL (rw 856 866 0 0x83)) (matrix 0x0C1 (rw 856 866 0 0x83) [.m] [771]).byFirst sMat = true ∧
    meets (.mmarL (rw 856 866 0 0x83)) (matrix 0x0C2 (rw 856 866 0 0x83) [.m] [771]).byFirst sMat = true ∧
    meets (.mmasL (rw 856 866 0 0x83)) (matrix 0x0C3 (rw 856 866 0 0x83) [.m] [771]).byFirst sMat = true := by decide +kernel

/-- What c1 would issue once its one row has been signed; with a bound at its most, no product of this kind fits. -/
def mReq (kind : Nat) : IssueReq :=
  { d := 0, n := 1, kind := kind, acc := 0, ru := false, bw := 0, sat := false, slot := 1, lane := 0, threads := [(1, 0)], word := 0
    lt := false }
def issued? (q : IssueReq) (s : State) : Option (Nat × BitVec 64) :=
  match issueSigned q s with | .ok _ => none | .error t => some t
def sFull : State := sMat.modCore 0 fun c => c.setAc 0 { Acc.zero with bound := 29488744969157759 }
/-- The clauses of `IssueBoundAndAnchor`: an issue, HEADROOM (0x20), a header that is not one (0x41), a record that is not one (0x25). -/
theorem witness_IssueBoundAndAnchor :
    issued? (mReq 0) sMat = none ∧ issued? (mReq 0) sFull = some (0x20, 0) ∧ (issued? (mReq 1) sMat).map (·.1) = some 0x41 ∧
    (issued? (mReq 2) sMat).map (·.1) = some 0x25 := by decide +kernel
def mtx (op : Nat) (w : RForm) (roles : List Role) (srcs : List Nat) : WSpec := (matrix op w roles srcs).byFirst
theorem witness_MatrixWordResults :
    ([(Instr.mzero (rw 856 0 0), mtx 0x0C4 (rw 856 0 0) [.m] []), (.mldr (rw 856 1 2), mtx 0x0C7 (rw 856 1 2) [.m] [1, 2]),
      (.mstr (rw 856 1 2), mtx 0x0C8 (rw 856 1 2) [.m, .v] [1, 2]), (.macc (rw 856 857 858), mtx 0x0C9 (rw 856 857 858) [.m] []),
      (.mscl (rw 856 857 3), mtx 0x0CA (rw 856 857 3) [.m] [3]), (.mbnd (rw 769 857 0), mtx 0x0CC (rw 769 857 0) [.m] []),
      (.seedscan (rw 0 1 2), mtx 0x0CF (rw 0 1 2) [.m] [1, 2]), (.seedfit (rw 0 1 2), mtx 0x0D0 (rw 0 1 2) [.m] [1, 2]),
      (.seedx (rw 0 769 2), mtx 0x0D1 (rw 0 769 2) [.m] [769, 2])].all fun q => meets q.1 q.2 sMat) = true := by decide +kernel
theorem witness_DrainWordResults :
    ([(Instr.mdrain (rw 856 1 2), mtx 0x0C5 (rw 856 1 2) [.m, .v] [1, 2]), (.mdraina (rw 856 866 2), mtx 0x0C6 (rw 856 866 2) [.m, .v] [2]),
      (.mchk (rw 769 856 2), mtx 0x0CB (rw 769 856 2) [.m, .v] [2]), (.maxsc (rw 769 770 2), mtx 0x0CE (rw 769 770 2) [.m] [770, 2])].all
        fun q => meets q.1 q.2 sMat) = true ∧
    (sMat.core 0).bufChoice ((sMat.core 0).cv 2).buf = .free 0 ∧ intFormat (dsFa mDesc) = false ∧ dsKq mDesc = 4 ∧
    after (.mdraina (rw 856 866 2)) sMat (fun t => (t.core 0).issueOrder.length) = some 1 := by decide +kernel
/-! ### Classes 4 and 5: scratchpads and buffers -/

/-- b0 names the 4 KiB at 0x408000 in FP32, stride 4, with every permission; b1 the same with U32 elements. -/
def bRec (fmt : Nat) : BitVec 256 :=
  BitVec.ofNat 256 (0x408000 + 0x1000 * 2 ^ 64 + 4 * 2 ^ 128 + fmt * 2 ^ 168 + 7 * 2 ^ 176)
/-- An armed barrier object at 0x1000 that waits for one arrival in phase 0, and an armed one at 0x1010 that has moved on to
phase 1; v1 = 0x2000 and v2 = 7 at it, v4 and v5 name the objects, w5 names a slot and the first object. -/
def tObj (phase : Nat) : BitVec 128 := BitVec.ofNat 128 (2 ^ 64 + 2 ^ 28 + 2 ^ 16 + phase)
def cCore (c : Core) : Core :=
  (((c.scrWrite 0x1000 (leBytes 16 (tObj 0).toNat)).scrWrite 0x1010 (leBytes 16 (tObj 1).toNat)).scrWrite 0x2000 [7, 0, 0, 0]).scrWrite
    0x2400 (leBytes 32 (bRec 0).toNat)
def sC : State := st .c { v := [(1, 0x2000), (2, 7), (4, 0x1000), (5, 0x1010), (6, 0x2400), (7, 9), (8, 0x1001)]
                          w := [(769, 0x2000), (770, 0x100000002000), (773, 0x100000002100), (774, 0x100000000010)]
                          b := [(840, bRec 0), (841, bRec 8)] } cCore

theorem test_scratch_results :
    allGot sC [(.lds (mw 10 1 0 2), [(10, 7)]), (.ats (mw 2 1 0 2), [(2, 7)]), (.cass (rw 2 1 7 2), [(2, 7)])] = true ∧
    after (.sts (mw 7 1 1 2)) sC (fun t => ((t.core 0).scrByte 0x2004).toNat) = some 9 ∧
    after (.ats (mw 2 1 0 2)) sC (fun t => ((t.core 0).scrByte 0x2000).toNat) = some 14 ∧
    after (.cass (rw 2 1 7 2)) sC (fun t => ((t.core 0).scrByte 0x2000).toNat) = some 9 ∧
    left (.lds (mw 10 8 0 2)) sC (·.ecause.toNat) = some (0x11 + 1024) := by decide +kernel

/-- The accesses of a word are in place and wait for no engine; no access of its threads is held back (R325, R364, R366). -/
def clear (n z : Nat) (addr : Env → W32) (w : WSpec) (s : State) : Bool :=
  (s.executing w tl).all fun e => inPlace n z addr e && !(accOf n addr e).waits s && !(s.core e.d).hasHeld [(e.slot, e.lane)] s.nextId
def unheld (w : WSpec) (s : State) : Bool :=
  (s.executing w tl).all fun e => !(s.core e.d).hasHeld [(e.slot, e.lane)] s.nextId
/-- The word answers a next state. -/
def completes (i : Instr) (s : State) : Bool := match exec i s with | .next _ => true | _ => false

/-- Each word of `ScratchWordResults` may issue, and its accesses wait for nothing; ATS and CASS here are not .REL words. -/
theorem witness_ScratchWordResults :
    meets (.lds (mw 10 1 0 2)) (mWord 0x100 (mw 10 1 0 2) 1 [1] [10]) sC = true ∧
    clear 4 4 (fun e => e.r32 1) (mWord 0x100 (mw 10 1 0 2) 1 [1] [10]) sC = true ∧
    meets (.sts (mw 7 1 0 2)) (mWord 0x101 (mw 7 1 0 2) 1 [1, 7] []) sC = true ∧
    meets (.ldsb (mw 10 1 0 0)) (mWord 0x102 (mw 10 1 0 0) 1 [1] [10]) sC = true ∧
    meets (.stsb (mw 7 1 0 0)) (mWord 0x103 (mw 7 1 0 0) 1 [1, 7] []) sC = true ∧
    clear 1 1 (fun e => e.r32 1) (mWord 0x103 (mw 7 1 0 0) 1 [1, 7] []) sC = true ∧
    meets (.ats (mw 2 1 0 2)) (mWord 0x104 (mw 2 1 0 2) 1 [1, 2] [2]) sC = true ∧ mfld (mw 2 1 0 2).mod 8 7 = 0 ∧
    meets (.cass (rw 2 1 7 2)) (rWord 0x105 (rw 2 1 7 2) [1, 2, 7] [2]) sC = true ∧ mfld (rw 2 1 7 2).mod 4 3 = 0 := by
  decide +kernel
theorem witness_RemoteScratch :
    ([(Instr.strm (rw 2 1 770 2), { rWord 0x106 (rw 2 1 770 2) [1, 770, 2] [] with roles := [.c] }),
      (.atrm (rw 2 1 770 2), { rWord 0x108 (rw 2 1 770 2) [1, 770, 2] [] with roles := [.c] })].all fun q =>
        meets q.1 q.2 sC && clear 4 4 (fun e => e.r32 1) q.2 sC && completes q.1 sC) = true ∧
    meets (.ldrm (rw 0 773 774)) { rWord 0x107 (rw 0 773 774) [773, 774] [] with roles := [.c] } sC = true ∧
    completes (.ldrm (rw 0 773 774)) sC = true := by decide +kernel

/-- The lines of the lane are present and its bytes good; the record that b0 holds is a valid one (R316, R402). -/
def prepared (q : BufWord) (s : State) (w : WSpec) : Bool :=
  let r := prepares q (s.executing w tl) s
  r.2.all (fun p => p.miss.isNone && !p.bad && p.lanes.all fun y =>
    match y.2 with | .ok va loc => loc.own && !(s.ownedV tl.ptroot.toNat va.toNat (va.toNat + p.z) s.nextId) | _ => false) &&
    !r.2.isEmpty && unheld w s
def bw (kind : BufKind) (d wx : Nat) (opc : Nat := 0) : BufWord :=
  { kind := kind, opc := opc, ord := 0, facq := false, b := if kind = .load ∨ kind = .store then 0 else 1, s1 := 0, d := d, wx := wx }
def bSpec (op : Nat) (q : BufWord) (w : RForm) : WSpec := bufWord op w q
theorem witness_BufferRecordResults :
    meets (.brset (rw 842 6 0)) { rWord 0x140 (rw 842 6 0) [6] [] with roles := [.c] } sC = true ∧
    unheld { rWord 0x140 (rw 842 6 0) [6] [] with roles := [.c] } sC = true ∧ sC.ownedS 0 0x2400 0x2420 sC.nextId = false ∧
    got (.brset (rw 842 6 0)) sC = some [(842, (bRec 0).toNat)] ∧
    meets (.brget (rw 771 840 0)) { rWord 0x141 (rw 771 840 0) [840] [] with roles := [.c] } sC = true ∧
    got (.brget (rw 771 840 0)) sC = some [(771, 0x408000)] ∧ brFmt (bRec 0) ≤ 11 := by decide +kernel
theorem witness_BufferLoadQueueResults :
    meets (.ldb (rw 0 0 773)) (bSpec 0x142 (bw .load 0 773) (rw 0 0 773)) sC = true ∧
    prepared (bw .load 0 773) sC (bSpec 0x142 (bw .load 0 773) (rw 0 0 773)) = true ∧
    meets (.atq (rw 7 0 773 1)) (bSpec 0x146 (bw .queue 7 773) (rw 7 0 773 1)) sC = true ∧
    meets (.pref (rw 0 0 0)) { rWord 0x148 (rw 0 0 0) [] [] with
      roles := [.c], vregs := [0], reads := fun _ => [840, 0] } sC = true := by decide +kernel
theorem witness_BufferDirectResults :
    ([(Instr.stb (rw 7 0 773), 0x143, bw .store 7 773, rw 7 0 773), (.atb (rw 7 0 773 1), 0x144, bw .atomic 7 773, rw 7 0 773 1),
      (.casb (rw 10 0 773 1), 0x145, bw .cas 10 773, rw 10 0 773 1)].all fun x =>
        meets x.1 (bSpec x.2.1 x.2.2.1 x.2.2.2) sC && prepared x.2.2.1 sC (bSpec x.2.1 x.2.2.1 x.2.2.2)) = true := by decide +kernel
/-- STB writes the four bytes of v7 at the base. -/
theorem test_buffer_store :
    after (.stb (rw 7 0 773)) sC (fun t => leNat (t.devRead 0x408000 4)) = some 9 := by decide +kernel

/-! ### Class 5: copies and caches; class 6 -/

/-- A COPY record: 64 bytes of scratchpad from 0x2000 to 0x6000, counted on the object at 0x1000 (R352); a COLL record of
domain 0. A ring of two slots at 0x4000, with barriers in phase 0 (R391). -/
def kCopy : Nat := 0x2000 + 0x6000 * 2 ^ 32 + 64 * 2 ^ 96 + 0x1000 * 2 ^ 160
def kRing : Nat := 0x5000 + 16 * 2 ^ 32 + 2 * 2 ^ 64 + 0x4100 * 2 ^ 128 + 0x4200 * 2 ^ 160
def kCore (c : Core) : Core :=
  [(0x4000, leBytes 64 kRing), (0x4100, leBytes 16 (tObj 0).toNat), (0x4110, leBytes 16 (tObj 0).toNat),
   (0x4200, leBytes 16 (tObj 0).toNat), (0x4210, leBytes 16 (tObj 0).toNat)].foldl (fun c x => c.scrWrite x.1 x.2) (cCore c)
def sK : State :=
  (st .c { v := [(1, 0x2000), (2, 0x10001), (3, 5), (4, 0x1000), (5, 0x1010), (6, 0x4000), (7, 1)]
           w := [(769, 0x2000), (771, 0x100000000000), (773, 0x100000002100), (775, 0x409000), (776, 0x409080)]
           b := [(840, bRec 0), (841, bRec 8)] } kCore).devWrite 0x409000 (leBytes 64 kCopy)

def cacheSpec (op : Nat) (w : RForm) : WSpec :=
  { rWord op w [] [] with roles := [.c], reads := fun _ => [840 + mfld w.mod 3 0, w.s1.toNat, w.s2.toNat] }
theorem witness_CacheCopyWordResults :
    meets (.cflush (rw 0 769 773)) (cacheSpec 0x149 (rw 0 769 773)).byFirst sK = true ∧
    meets (.cinv (rw 0 769 773)) (cacheSpec 0x14A (rw 0 769 773)).byFirst sK = true ∧
    meets (.fence (rw 0 0 0)) (rWord 0x14B (rw 0 0 0) [] []) sK = true ∧ unheld (rWord 0x14B (rw 0 0 0) [] []) sK = true ∧
    (sK.core 0).ops = [] ∧
    meets (.lfence (rw 0 0 0)) (rWord 0x14C (rw 0 0 0) [] []) sK = true ∧ unheld (rWord 0x14C (rw 0 0 0) [] []) sK = true ∧
    meets (.copy (rw 0 775 0)) { rWord 0x147 (rw 0 775 0) [775] [] with roles := [.c] }.byFirst sK = true ∧
    (sK.executing { rWord 0x147 (rw 0 775 0) [775] [] with roles := [.c] }.byFirst tl).map (fun e =>
      match fetches e (e.r64 775) 64 sK with
      | .bytes t bs => (leNat bs == kCopy) && ((copyTrap e (t.core 0) (e.r64 775) (BitVec.ofNat 512 (leNat bs))).isNone) &&
          (cpStreamAddrs e.l (BitVec.ofNat 512 (leNat bs))).isEmpty
      | _ => false) = [true] ∧
    completes (.fence (rw 0 0 0)) sK = true ∧ after (.copy (rw 0 775 0)) sK (fun t => (t.core 0).ops.length) = some 1 := by
  decide +kernel

/-- BINIT expects one arrival (v2); BARV with no bytes completes the phase of 0x1000; BTEST and BWAIT see 0x1010 in phase 1. -/
theorem test_barrier_results :
    after (.binit (rw 0 4 2)) sK (fun t => objRem (t.obj 0 0x1000)) = some 1 ∧
    after (.barv (rw 0 4 8)) sK (fun t => (objPhase (t.obj 0 0x1000)).toNat) = some 1 ∧
    after (.bexp (rw 0 4 3)) sK (fun t => (objPend (t.obj 0 0x1000)).toNat) = some 5 ∧
    after (.binv (rw 0 4 0)) sK (fun t => if objArmed (t.obj 0 0x1000) then 1 else 0) = some 0 ∧
    got (.btest (rw 10 5 8)) sK = some [(10, 1)] ∧ got (.btest (rw 10 4 8)) sK = some [(10, 0)] ∧
    got (.bwait (rwE 834 5 8)) sK = some [(834, 1)] ∧ left (.bwait (rwE 834 4 8)) sK (·.run.code) = some 1 := by decide +kernel
theorem witness_BarrierResults :
    ([(Instr.binit (rw 0 4 2), (rWord 0x180 (rw 0 4 2) [4, 2] []).byFirst), (.barv (rw 0 4 8), rWord 0x181 (rw 0 4 8) [4, 8] []),
      (.bexp (rw 0 4 3), (rWord 0x182 (rw 0 4 3) [4, 3] []).byFirst), (.binv (rw 0 4 0), (rWord 0x185 (rw 0 4 0) [4] []).byFirst),
      (.bwait (rwE 834 5 8), { rWord 0x183 (rwE 834 5 8) [5, 8] [] with ends := true }),
      (.btest (rw 10 5 8), rWord 0x184 (rw 10 5 8) [5, 8] [10])].all fun q => meets q.1 q.2 sK && unheld q.2 sK) = true := by
  decide +kernel
/-- An arrival that the object takes, one that completes its phase, and one that it cannot take. -/
theorem witness_object_changes :
    ((objChange (tObj 0) true 0).toOption.map (·.2), (objChange (tObj 0) false 5).toOption.map (·.2),
      (objChange 0 true 0).toOption.isSome) = (some true, some false, false) ∧
    (match objChange (tObj 0) false 8388608 with | .error c => c == 0x16 | .ok _ => false) = true ∧
    (match objChange 0 true 0 with | .error c => c == 0x41 | .ok _ => false) = true := by decide +kernel

/-- A claim of slot 0, lap 0: its word is 0 but for BASE; RTAKE waits for lap 1. -/
theorem test_ring_results :
    got (.racq (rwE 777 6 0 2)) sK = some [(834, 1), (777, 0x5000)] ∧
    left (.rtake (rwE 777 6 0 2)) sK (·.run.code) = some 1 ∧
    after (.rcom (rw 8 6 779)) sK (fun t => (objPhase (t.obj 0 0x4100)).toNat) = some 1 ∧
    after (.rrel (rw 0 6 779)) sK (fun t => (objPhase (t.obj 0 0x4200)).toNat) = some 1 := by decide +kernel
theorem witness_RingWordResults :
    ([(Instr.racq (rwE 777 6 0 2), { rWord 0x186 (rwE 777 6 0 2) [777, 6] [] with ends := true }),
      (.rtake (rwE 777 6 0 2), { rWord 0x188 (rwE 777 6 0 2) [777, 6] [] with ends := true }),
      (.rcom (rw 8 6 779), rWord 0x187 (rw 8 6 779) [8, 6, 779] []), (.rrel (rw 0 6 779), rWord 0x189 (rw 0 6 779) [6, 779] [])].all
        fun q => meets q.1 q.2 sK && unheld q.2 sK) = true := by decide +kernel

def cOnce (op : Nat) (w : RForm) (srcs : List Nat) : WSpec := { rWord op w srcs [] with roles := [.c] }.byFirst
theorem witness_EventTableWordResults :
    ([(Instr.evpost (rw 0 769 771), cOnce 0x18A (rw 0 769 771) [769, 771]), (.lnch (rw 778 775 771), cOnce 0x18B (rw 778 775 771) [775, 771]),
      (.admitTok (rw 0 3 771), { rWord 0x194 (rw 0 3 771) [3, 771] [] with roles := [.c, .m] }.byFirst),
      (.ctw (rw 0 769 0), rWord 0x18C (rw 0 769 0) [769] []), (.ctswap (rwE 0 0 0), rWord 0x18D (rwE 0 0 0) [] []),
      (.kval (rw 778 769 771), cOnce 0x18E (rw 778 769 771) [769, 771]), (.kvfr (rw 778 769 771), cOnce 0x18F (rw 778 769 771) [769, 771]),
      (.kvsh (rw 778 769 771), cOnce 0x190 (rw 778 769 771) [778, 769, 771]), (.kvmap (rw 778 769 771), cOnce 0x191 (rw 778 769 771) [769, 771]),
      (.ltrd (rw 778 3 771), cOnce 0x193 (rw 778 3 771) [3, 771])].all fun q => meets q.1 q.2 sK && completes q.1 sK) = true ∧
    sK.portNow.swaps = [] := by decide +kernel
/-- The domain that the record of zeros names is not enabled: the COLL ends at once with status 6 (R444). -/
theorem witness_CollectiveWordResults :
    meets (.coll (rw 0 776 0)) { rWord 0x192 (rw 0 776 0) [776] [] with roles := [.c] }.byFirst
      (sK.devWrite 0x409080 (List.replicate 128 0)) = true ∧
    completes (.coll (rw 0 776 0)) (sK.devWrite 0x409080 (List.replicate 128 0)) = true := by decide +kernel

/-! ### Checks, ports and threads -/

/-- The unprivileged launch of 64 registers. -/
def tlUser : Launch := { tl with priv := false, packet := setBits tl.packet 425 416 64 }
def sUser : State := { sInt with launches := [tlUser] }
theorem witness_CheckOrderTraps :
    ([sInt, sUser].all fun s => (s.coreLaunch s.here).isSome && s.portNow.active && decide s.portNow.members.Nodup &&
      decide (s.portNow.count < 24)) = true ∧ portRole sInt.cur.2 ≠ .m ∧ sUser.coreLaunch 0 = some tlUser ∧ tlUser.priv = false ∧
    tlUser.nregs = 64 ∧ classOf 64#10 = .v ∧
    24 ≤ (sInt.modCore 0 fun c => c.setPort .v0 { c.port .v0 with count := 24 }).portNow.count ∧
    portRole sC.cur.2 ≠ .v ∧ portRole sInt.cur.2 ≠ .c ∧ tl.nregs = 768 ∧ (rw 0 0 0).e = false ∧
    ([Instr.fadd (rw 10 1 2), .ltrd (rw 778 3 771), .mov (rw 10 1 0), .exit (rwE 0 0 0)].all WellFormed) = true ∧
    Instr.form (.iadd (rw 3 4 5)) = some (.r 0 (rw 3 4 5)) := by decide +kernel
/-- CHK is set, and p1 and v1 come five cycles from now (R76). -/
def sLate : State := sInt.modThread 0 (readySlot .v0) 0 fun t =>
  { t with mode := 1, pend := [{ reg := 833, val := 1, ready := sInt.clock + 5, rank := 0 }, { reg := 1, val := 1, ready := sInt.clock + 5, rank := 0 }] }
theorem test_stallshort :
    left (.nop { rw 0 0 0 with gp := 1 }) sLate (fun t => t.ecause.toNat + t.einfo.toNat) = some (6 + 1024 + 833 + 5 * 65536) ∧
    left (.mov (rw 10 1 0)) sLate (fun t => t.ecause.toNat + t.einfo.toNat) = some (6 + 1024 + 1 + 5 * 65536) := by decide +kernel
/-- A NOP with a reserved bit, and an ICMP whose destination is a v register, as a step fetches them (R82 to R84, R164). -/
theorem test_refused_words :
    ([0x0380E00000000001, 0x0016E01808028000].map fun w =>
      (match decodeBytes (bytesOfWord w) with | .ok _ => none | .error e => some e,
       match step (State.reset.fetching w .v0) with
        | .next t => (t.thread? 0 2 0).map (·.ecause.toNat)
        | _ => none)) = [(some .resField, some (2 + 1024)), (some .illOpnd, some (3 + 1024))] := by decide +kernel
/-- The word of a run that is too long, a register beyond the launch's, and a privileged word of a user launch. -/
theorem test_check_order :
    left (.nop (rw 0 0 0)) (sInt.modCore 0 fun c => c.setPort .v0 { c.port .v0 with count := 24 }) (·.ecause.toNat) = some (4 + 1024) ∧
    left (.iadd (rw 64 0 0)) sUser (·.ecause.toNat) = some (3 + 1024) ∧ left (.tlbi (rw 0 0 0)) sUser (·.ecause.toNat) = some (7 + 1024) ∧
    left (.mzero (rw 856 0 0)) sInt (·.ecause.toNat) = some (5 + 1024) := by decide +kernel

/-- The V warp of slot 2 at a boundary, its threads 0 and 1 changed by `f`. -/
def sBound (f : Nat → Thread → Thread) : State :=
  { sInt with cores := sInt.cores.map fun c => (c.1, (c.2.setPort .v0 { Port.idle with due := sInt.clock }).modWarp 2 fun w =>
      { w with threads := w.threads.zipIdx.map fun t => f t.2 t.1 }) }
def ready (n : Nat) (t : Thread) : Thread := if n < 2 then { t with pc := 0x400000 + 8 * BitVec.ofNat 64 n } else t
theorem witness_PortBoundaryResults :
    ([ready, fun n t => if n = 1 then { ready n t with waitCtr := 64 } else ready n t, fun n t => { ready n t with yielded := true }].all
      fun f => (sBound f).atBoundary 0 .v0 && (choosePc ((sBound f).cands 0 .v0)).isSome &&
        decide (((sBound f).core 0).warps.map (·.1)).Nodup && completes (.portBoundary 0 .v0) (sBound f)) = true := by decide +kernel
/-- The lowest PC goes first, unless a thread has waited for 64 boundaries (R103, R110). -/
theorem test_port_boundary :
    after (.portBoundary 0 .v0) (sBound ready) (fun t => ((t.core 0).port .v0).pc.toNat) = some 0x400000 ∧
    after (.portBoundary 0 .v0) (sBound fun n t => if n = 1 then { ready n t with waitCtr := 64 } else ready n t)
      (fun t => ((t.core 0).port .v0).pc.toNat) = some 0x400008 := by decide +kernel

def susp (posted : Bool) : Susp :=
  { seq := 7, va := 0x500000, ptepa := 0, pc := 0x400000, access := 0, frame := 0, withdrawn := [], posted := posted }
/-- The V warp as `f` leaves it, no group under way. -/
def sWarp (f : Warp → Warp) : State := { sBound ready with cores := (sBound ready).cores.map fun c => (c.1, c.2.modWarp 2 f) }
def first (f : Thread → Thread) (w : Warp) : Warp := { w with threads := w.threads.zipIdx.map fun t => if t.2 = 0 then f t.1 else t.1 }
def sTrap : State := sWarp (first fun t => { t with dtraps := [{ op := 1, cause := 0x41, info := 0x409000 }] })
def sQuit : State := { sWarp id with cores := (sWarp id).cores.map fun c =>
  (c.1, { c.2 with halting := true, ports := [], ops := [] }) }
theorem witness_ThreadWarpStepResults :
    (let s := sWarp (first fun t => { t with run := .sleeping })
     (s.thread? 0 2 0).map (fun t => decide (t.run = .sleeping ∧ t.wake ≤ s.clock)) = some true ∧
       completes (.sleepExpire 0 2 0) s = true) ∧
    (let s := sWarp fun w => { w with toggles := [0] }
     (s.warp? 0 2).map (·.toggles) = some [0] ∧ completes (.bankToggle 0 2) s = true) ∧
    ((sQuit.core 0).halting && !(sQuit.core 0).halted && (sQuit.core 0).quiet) = true ∧ completes (.coreHalt 0) { sQuit with mgmt :=
      { sQuit.mgmt with snapCtl := 0 } } = true ∧
    ((sTrap.warp? 0 2).bind fun w => (sTrap.thread? 0 2 0).map fun t => sTrap.trapReady 0 2 0 w t && !(t.dtraps.isEmpty)) = some true ∧
    (let s := sWarp fun w => { w with susp := some (susp false) }
     s.alive 0 = true ∧ ((List.range 32).any ((s.core 0).inGroup 2)) = false ∧ (s.core 0).ports.all (fun p => !p.2.active) = true ∧
       (s.popFrame 0).isSome = true ∧ completes (.warpSuspend 0 2) s = true) ∧
    (let s := sWarp fun w => { w with susp := some (susp true) }
     s.answered (susp true) = true ∧ (s.returnFrame (susp true)).isSome = true ∧ completes (.warpRestore 0 2) s = true) := by
  decide +kernel
/-- A deferred trap has DEF and USER of sr.ecause and saves the PC at which the thread would go on (R143, R145). -/
theorem test_deferred_trap : after (.deferredTrapDelivery 0 2 0) { sTrap with mgmt := { sTrap.mgmt with snapCtl := 0 } }
    (fun t => ((t.thread? 0 2 0).map fun t => t.ecause.toNat + t.epc.toNat).getD 0) = some (0x41 + 256 + 1024 + 0x400000) := by
  decide +kernel

/-! ### The plates, the press, and what is in flight -/

/-- Core 0 with one operation at the head of its issue order. -/
def matOp (k : MatKind) : MatOp :=
  { id := 9, entered := (0, 0), slot := 1, lane := 0, threads := [(1, 0)], ownS := [], cost := 0, granted := true, kind := k
    io := { got := [], todo := none, clobber := none } }
def sPlate (k : MatKind) : State := { sMat with clock := 1 }.modCore 0 fun c =>
  { c with acc := [(1, { Acc.zero with res := [(5, 3)] })], issueOrder := [matOp k] }
/-- A product of one U8 row of sixteen 2 with one column at 0x6000, or with an RP9 column or a seed; `io` is what it has read. -/
def xDesc (fb : Nat) : BitVec 64 := BitVec.ofNat 64 (7 * 2 ^ 28 + fb * 2 ^ 24 + readySlot .m * 2 ^ 13 + 2 ^ 8)
def sMma (kind : Nat) (io : Pieces) : State := (sPlate (.mzero 0)).modCore 0 fun c =>
  { c with
      latch := [(3, { rows := [(0, { flags := 0, elems := List.replicate 16 (2, false) })], holder := none })]
      issueOrder := [{ matOp (.mma kind 0 (xDesc 7) 1 3 0x6000 [] [] false [(1, 0)] false) with io := io }] }
def hasRead (n : Nat) (b : BitVec 8) : Pieces :=
  { Pieces.none with got := (List.range n).map fun i => (0x6000 + 16 * i, List.replicate 16 b) }
/-- An MSTR of one element: a header and planes of 11 bytes. -/
def sMstr (todo : Option (List (Nat × List (BitVec 8)))) : State := (sPlate (.mzero 0)).modCore 0 fun c =>
  { c with issueOrder := [{ matOp (.mstr 0 0x6000 0x1000 1 1 0 0) with io := { Pieces.none with todo := todo } }] }
def plateStates : List State :=
  [MatKind.mzero 0, .macc 0 1 1, .mscl 0 1 3, .mldr 0 0x2000 0x1000 0].map sPlate ++
    [sMma 0 Pieces.none, sMma 1 Pieces.none, sMma 0 (hasRead 1 3), sMma 1 (hasRead 12 0), sMma 1 (hasRead 12 0xFF), sMma 2 Pieces.none,
      sMstr none, sMstr (some [(0x6000, [7])])]
def badUnit (s : State) : State := s.modCore 0 fun c => { c with bad := [0x2000, 0x6000] }
theorem witness_PlateResults :
    ((plateStates ++ [badUnit (sMma 0 Pieces.none), badUnit (sPlate (.mldr 0 0x2000 0x1000 0))]).all fun s =>
      match (s.core 0).issueOrder with
      | o :: _ => o.granted && !o.kind.onPress && decide (o.entered.1 < s.clock) && o.ownS.isEmpty && completes (.plateExecute 0) s
      | [] => false) = true ∧
    ([(0, [2, 3])].map (·.1)).Nodup ∧ Pieces.none.unread 0x6000 16 = [0x6000] ∧ (hasRead 1 3).unread 0x6000 16 = [] ∧
    (hasRead 12 0).unread 0x6000 (16 + 11 * 16) = [] ∧ rp9PlanesOk ((hasRead 12 0).bytes 0x6000 (16 + 11 * 16)) 16 = true ∧
    rp9PlanesOk ((hasRead 12 0xFF).bytes 0x6000 (16 + 11 * 16)) 16 = false ∧ Pieces.none.unread 0x6000 0 = [] ∧
    ((badUnit (sMma 0 Pieces.none)).core 0).scrBad 0x6000 16 = true ∧
    (granules 0x6000 (mstrTile ((sMstr none).core 0 |>.ac 0) 1 1 0 0)).length = 2 := by decide +kernel
/-- The injector is armed for core 0: channel 1, element (0, 0), mask 1; or it is not. -/
theorem witness_inject :
    (let s := (sMma 2 Pieces.none).modTower 0 fun w => { w with injector := BitVec.ofNat 64 (2 ^ 63 + 2 ^ 51 + 1) }
     (s.tower (towerOf 0)).injector.getLsbD 63 = true ∧ natBits (s.tower (towerOf 0)).injector.toNat 61 55 = tcidOf 0 ∧
       (s.tower (towerOf 0)).injFrom ≤ 9 ∧ after (.plateExecute 0) s (fun t => ((t.core 0).ac 0).at 1 0 0) = some 1) ∧
    ((sMma 2 Pieces.none).tower 0).injector.getLsbD 63 = false := by decide +kernel
/-- MACC and MSCL work modulo the channel's modulus (R243); an MMA adds the dot product of a row with a column, 16 · 2 · 3, once it
has read the column (R235); the first plane of a tile follows its header of 16 bytes (R37). -/
theorem test_plates :
    after (.plateExecute 0) (sPlate (.macc 0 1 1)) (fun t => ((t.core 0).ac 0).at 0 0 5) = some 6 ∧
    after (.plateExecute 0) (sPlate (.mscl 0 1 (-1))) (fun t => ((t.core 0).ac 0).at 0 0 5) = some (Config.modulus 0 - 3) ∧
    (addProducts [(0, [2, 3])] (fun _ => [[5, 7]]) Acc.zero).at 0 0 0 = 31 % Config.modulus 0 ∧
    after (.plateExecute 0) (sMma 0 (hasRead 1 3)) (fun t => ((t.core 0).ac 0).at 0 0 0) = some 96 ∧
    (mstrTile { Acc.zero with res := [(0, 3)] } 1 1 0 0).getD 16 0 = 3 := by decide +kernel

/-- MDRAIN waits for the press; MCHK is on it, in a tower none of whose cores has finished in this cycle (R262, R267). -/
def sPress (p : Option (Nat × List Nat)) (k : MatKind) : State := (sPlate k).modCore 0 fun c => { c with press := p }
/-- An operation of thread 0 of the C warp. -/
def op (b : OpBody) (f : Op → Op := id) : Op := f
  { id := 5, word := 5, va := 0x400000, slot := 0, lane := 0, threads := [(0, 0)], deferred := false, rel := false, acq := false, parked := none, ownS := []
    ownV := [], clobber := none, xlat := [], body := b }
def sOp (b : OpBody) (f : Op → Op := id) : State := { sC.modCore 0 fun c => { c with ops := [op b f] } with nextId := 20 }
def sSeed (kind : Nat) (begun : Option (W32 × Option (Nat × W64))) (todo : Option (List (Nat × List (BitVec 8)))) : State :=
  sOp (.seed kind 0x2000 0x3000 0 0x1000 begun { Pieces.none with todo := todo })
def done9 : Option (Nat × List Nat) := some (9, [0, 1, 2, 3, 4, 5, 6, 7, 8])
def sDrain (todo : List (Nat × List (BitVec 8))) : State := (sPress done9 (.mdrain 0 0x2000 0x1000 0 0 false 0)).modCore 0 fun c =>
  { c with issueOrder := c.issueOrder.map fun o => { o with io := { o.io with todo := some todo } } }
def sPressCopy : State := sOp (.copy
  { recVa := 0x409000, record := BitVec.ofNat 512 kCopy, bufs := [], streams := [], oobt := false, inp := [], ixs := [], out := none
    copyIx := 0, written := 0, owed := 0, uncorr := none } 0 true) |>.modCore 0 fun c => { c with press := some (5, []), issueOrder := [] }
theorem witness_PressSeedResults :
    (((sPress none (.mdrain 0 0x2000 0x1000 0 0 false 0)).core 0).pressNext 1 == some 9) = true ∧
    completes (.pressOperation 0) (sPress none (.mdrain 0 0x2000 0x1000 0 0 false 0)) = true ∧
    ([sPress done9 (.mchk 0 769 0x1000 [1]), sPress done9 (.mdraina 0 2 0x1000 0 0), sDrain [(0x6000, [1])],
      sDrain [(0x6000, [1]), (0x6010, [2])]].all fun s => decide ((s.core 0).press = done9) && s.eventRoom 0 &&
        decide ((s.tower 0).pressAt = none) && ((s.core 0).issueOrder.map (fun o => (o.id, o.ownS)) == [(9, [])]) &&
        completes (.pressComplete 0) s) = true ∧
    ((sPressCopy.core 0).press = some (5, []) ∧ (sPressCopy.core 0).issueOrder = [] ∧ ((sPressCopy.core 0).op? 5).isSome = true ∧
      sPressCopy.eventRoom 0 = true ∧ completes (.pressComplete 0) sPressCopy = true) ∧
    ([sSeed 0 none none, sSeed 1 none none, sSeed 2 none none, sSeed 2 (some (0, none)) (some [(0x3000, [1]), (0x3010, [2])]),
      sSeed 2 (some (0, none)) (some [(0x3000, [1])]), sSeed 2 (some (0, none)) (some [])].all fun s =>
        ((s.core 0).seedHead.map fun o => (o.id, o.ownS)) == some (5, []) && s.coreLaunch 0 == some tl && completes (.seedExecute 0) s) = true ∧
    ((sOp (.maxsc 0x2000 1 false 777 0x1000 [0])).core 0).op? 5 = some (op (.maxsc 0x2000 1 false 777 0x1000 [0])) ∧
    completes (.maxscComplete 0 5) (sOp (.maxsc 0x2000 1 false 777 0x1000 [0])) = true := by decide +kernel
/-- A correction in channel 3 and an uncorrectable element of core 0 (R267). -/
theorem test_contain : (let t := (sPress none (.mzero 0)).containAll 0 1 0 2 [some 3, none]
    (findD (t.tower 0).corr 3 0, natBits (t.tower 0).contain.toNat 15 12, natBits (t.tower 0).contain.toNat 79 64,
      natBits (t.tower 0).contain.toNat 35 34)) = (1, 3, 1, 2) := by decide +kernel

def lacc (va : Option W64) : LaneAcc :=
  { lane := 0, va := va, loc := va.map fun a => { ty := 0, pa := a.toNat, peer := 0, pport := false }, data := 3, cmp := 0, wr := true }
/-- Each kind of operation with its one lane, and the event that performs it. -/
def laneOps : List (OpBody × Instr) :=
  [(.strm 4 0x1000 [0], .strmLaneWrite 0 5 0), (.atrm 0x2100 0x1000 [(0, 7)], .atrmLaneApply 0 5 0),
   (.atrmHeld 0 false 0x2100 0x1000 [(0, 0x2000, 2)] [], .atrmLaneApply 0 5 0),
   (.atrmHeld 0 false 0x2100 0x1000 [] [(0, 7)], .atrmLaneApply 0 5 0), (.ldrm 0 0x2000 0x2200 0x1000 [0], .ldrmGranule 0 5 0),
   (.bufLoad 4 0x2100 0x1000 false [(0, 6)] [lacc (some 0x408000)], .ldbLaneLand 0 5 0),
   (.bufLoad 4 0x2100 0x1000 false [] [lacc none], .ldbLaneLand 0 5 0),
   (.bufLoad 4 0x2100 0x1000 false [] [lacc (some 0x408000)], .ldbLaneLand 0 5 0),
   (.bufLoad 4 0x2100 0x1000 true [] [lacc (some 0x408000)], .ldbLaneLand 0 5 0),
   (.bufCount 4 none 0x1000 [(0, 0)], .bufferLanePerform 0 5 0),
   (.bufHeld 0 0 0 4 none 0x1000 [lacc none] [], .bufferLanePerform 0 5 0),
   (.bufHeld 1 0 8 4 (some 0x2100) 0x1000 [lacc (some 0x408000)] [], .bufferLanePerform 0 5 0),
   (.bufHeld 2 0 8 4 (some 0x2100) 0x1000 [lacc (some 0x408000)] [], .bufferLanePerform 0 5 0),
   (.bufHeld 1 0 8 4 (some 0x2100) 0x1000 [] [(0, 5)], .bufferLanePerform 0 5 0)]
def sBuf (b : OpBody) : State := (sOp b fun o => { o with rel := true }).devWrite 0x408000 [5, 0, 0, 0]
theorem witness_LaneStepResults :
    (laneOps.all fun x =>
      let s := sBuf x.1
      (((s.core 0).op? 5).map (·.body) == some x.1) && s.mayBegin 0 (op x.1) && !((s.core 0).hasDeferred [(0, 0)] 5) &&
        !((s.core 0).hasHeld [(0, 0)] 5) && !((s.core 0).heldBelow (op x.1) 0) && !((s.core 0).hasUnsent [(0, 0)] 5) &&
        !(s.ownedS 0 0x2000 0x2300 5) && !((s.core 0).scrBad 0x2000 16) && !(s.laneUnperformed 0 5 0) &&
        !(s.ownedV 0x100000 0x408000 0x408004 5) && (storeTrap s 0x2000 0 0x2000 4).isNone && completes x.2 s) = true ∧
    ((sBuf (.bufLoad 4 0x2100 0x1000 true [] [lacc (some 0x408000)])).mayBegin 0 (op (.strm 4 0x1000 [0]))) = true ∧
    (match readAll 0 (op (.strm 4 0x1000 [0])) 4 [lacc (some 0x408000)] (sBuf (.strm 4 0x1000 [0])) with
      | .ok _ l => l == [(0, 5)] | _ => false) = true ∧
    ((badUnit (sBuf (.atrmHeld 0 false 0x2100 0x1000 [(0, 0x2000, 2)] []))).core 0).scrBad 0x2000 4 = true ∧
    completes (.atrmLaneApply 0 5 0) (badUnit (sBuf (.atrmHeld 0 false 0x2100 0x1000 [(0, 0x2000, 2)] []))) = true := by decide +kernel
/-- The held ATB adds 3 to the word of 5, and its old value then goes into its slot; the lane of LDB lands its data (R344, R346). -/
theorem test_held_lane :
    after (.bufferLanePerform 0 5 0) (sBuf (.bufHeld 1 0 8 4 (some 0x2100) 0x1000 [lacc (some 0x408000)] []))
      (fun t => leNat (t.devRead 0x408000 4)) = some 8 ∧
    after (.bufferLanePerform 0 5 0) (sBuf (.bufHeld 1 0 8 4 (some 0x2100) 0x1000 [] [(0, 5)]))
      (fun t => leNat ((t.core 0).scrRead 0x2100 4)) = some 5 ∧
    after (.ldbLaneLand 0 5 0) (sBuf (.bufLoad 4 0x2100 0x1000 false [] [lacc (some 0x408000)]))
      (fun t => leNat ((t.core 0).scrRead 0x2100 4)) = some 5 := by decide +kernel

/-- Domain 0 of two members, this one first; port 0 leads to the other (R434, R436). -/
def dom2 : Domain := { Domain.reset with en := true, n := 2, members := [(0, 1), (1, 2)] }
def sPeer (s : State) : State :=
  { s with fab := { s.fab with domains := [(0, dom2)], links := [(0, { Link.reset with row := BitVec.ofNat 128 (2 + 2 ^ 34 + 2 * 2 ^ 96) })] } }
def peerLane : LaneAcc := { lacc (some 0x408000) with loc := some { ty := 3, pa := 0x8000, peer := 1, pport := false } }
def sAtq : State := sPeer (sOp (.atq 0 0 0 0x2100 0x1000 [peerLane] [] []) fun o => { o with rel := true })
def atqCmd (op addr : Nat) : BitVec 256 := BitVec.ofNat 256 (op + addr * 2 ^ 64 + 3 * 2 ^ 128 + 77 * 2 ^ 224)
def sTarget (c : BitVec 256) : State :=
  let s := (sPeer sC).devWrite 0x408000 [5, 0, 0, 0]
  { s with fab := { s.fab with inbox := [(0, .atqCommand 9 c)] } }
def sReply : State :=
  let s := sPeer (sOp (.atq 0 0 0 0x2100 0x1000 [] [(77, peerLane)] []))
  { s with fab := { s.fab with tags := [(77, 0, 5, 1)] } }
theorem witness_AtomicQueueSteps :
    (!((sAtq.core 0).acqBlocks [(0, 0)] 5) && !((sAtq.core 0).hasHeld [(0, 0)] 5) && !((sAtq.core 0).hasDeferred [(0, 0)] 5) &&
      !(sAtq.ownedS 0 0x2100 0x2104 5) && sAtq.peerOk 1 false && sAtq.atqCredit 0 1 &&
      sAtq.peerReady { ty := 3, pa := 0x8000, peer := 1, pport := false } && completes (.atqSend 0 5 0) sAtq) = true ∧
    ([atqCmd 0 0x408000, atqCmd 0 0x408002].all fun c =>
      ((sTarget c).fab.inbox.find? (fun m => forQueue 9 m.2) == some (0, .atqCommand 9 c)) &&
        ((sTarget c).firstIn 0 == some (.atqCommand 9 c)) && decide (natBits c.toNat 7 0 < 8) && decide (natBits c.toNat 11 10 < 3) &&
        ([(63, 46), (31, 22), (15, 12)].all fun f => natBits c.toNat f.1 f.2 == 0) && completes (.atqApply 9) (sTarget c)) = true ∧
    devValid 0x408000 = true ∧ (sTarget 0).devBad 0x408000 4 = false ∧
    ({ sTarget 0 with mem := { (sTarget 0).mem with bad := [(0x408000, 64)] } } : State).devBad 0x408000 4 = true ∧
    sAtq.fab.tags.find? (·.1 == 3) = none ∧ completes (.atqReply 3 0 0) sAtq = true ∧
    sReply.fab.tags.find? (·.1 == 77) = some (77, 0, 5, 1) ∧ completes (.atqReply 77 0 4) sReply = true ∧
    completes (.atqReply 77 0x50 0) sReply = true := by decide +kernel
/-- The command adds 3 to the word of 5 (R396); the reply lands in the lane's slot, and a refused lane takes 0 (R344). -/
theorem test_atomic_queue :
    after (.atqApply 9) (sTarget (atqCmd 0 0x408000)) (fun t => leNat (t.devRead 0x408000 4)) = some 8 ∧
    after (.atqReply 77 0 4) sReply (fun t => leNat ((t.core 0).scrRead 0x2100 4)) = some 4 ∧
    after (.atqReply 77 0x50 4) sReply (fun t => leNat ((t.core 0).scrRead 0x2100 4)) = some 0 := by decide +kernel

/-! ### Engines, the cadastre, the gate -/

def cmd (r : Nat) (f : CopyCmd → CopyCmd := id) : CopyCmd := f
  { recVa := 0x409000, record := BitVec.ofNat 512 r, bufs := [(0, bRec 0), (1, bRec 8)], streams := [], oobt := false, inp := []
    ixs := [], out := none, copyIx := 0, written := 0, owed := 0, uncorr := none }
def sCp (c : CopyCmd) : State := (sOp (.copy c 0 true)).devWrite 0x408000 (List.replicate 64 0)
/-- A source that is LINEAR in b0; an RP9 source to convert to BF16; a destination stream with an index, of one element. -/
def kLinear : Nat := 0x6000 * 2 ^ 32 + 2 * 2 ^ 64 + 64 * 2 ^ 96 + 0x1000 * 2 ^ 160
def kTile : Nat := 0x2000 + 0x6000 * 2 ^ 32 + 4 * 2 ^ 80 + 2 ^ 96 + 2 ^ 144 + 2 ^ 152 + 0x1000 * 2 ^ 160
def kIndexed : Nat := 0x2000 + 0x3000 * 2 ^ 32 + 2 ^ 66 + 2 ^ 96 + 0x1000 * 2 ^ 160
def stIndexed (off : Nat) : BitVec 512 :=
  BitVec.ofNat 512 (2 * 2 ^ 8 + 2 ^ 16 + 2 ^ 20 + off * 2 ^ 96 + (1 + 2 ^ 16 + 2 ^ 32 + 2 ^ 48) * 2 ^ 128 + 2 ^ 256)
def indexed (off : Nat) (oobt : Bool) : CopyCmd :=
  cmd kIndexed fun c => { c with streams := [(1, stIndexed off)], inp := [1, 2, 3, 4], oobt := oobt }
def copyGoes (s : State) (c : CopyCmd) : Bool :=
  (((s.core 0).op? 5).map (·.body) == some (.copy c 0 true)) && s.mayBegin 0 (op (.copy c 0 true)) && s.eventRoom 0 &&
    !(s.unperformed 0 5) && completes (.copyElement 0 5) s
theorem witness_CopyStepResults :
    ([cmd (kCopy - 0x4000 * 2 ^ 32), cmd kCopy, cmd kLinear, indexed 0 false, indexed 0x2000 false, indexed 0x2000 true,
      cmd kCopy fun c => { c with inp := List.replicate 64 7 }, cmd kTile fun c => { c with inp := List.replicate 27 0 },
      cmd kCopy fun c => { c with out := some (List.replicate 64 7) }, cmd kCopy fun c => { c with out := some [], copyIx := 1 }].all
        fun c => copyGoes (sCp c) c) = true ∧
    copyGoes (badUnit (sCp (cmd kCopy))) (cmd kCopy) = true ∧
    ((badUnit (sCp (cmd kCopy))).core 0).scrBad 0x2000 1 = true ∧
    cpNoop 0 (cmd (kCopy - 0x4000 * 2 ^ 32)) = true ∧ cpNoop 0 (cmd kCopy) = false ∧ cpKind (cmd kLinear).record false = 2 ∧
    cpIndexed (indexed 0 false) true = true ∧ cpOnPress (cmd kTile).record = true ∧
    (indexed 0 false).size false = 4 ∧ (cmd kTile).size false = 27 ∧
    brPlace (bRec 8) true (stIndexAt (stIndexed 0) 0 * 2) 2 = some 0x408000 ∧
    brPlace (bRec 8) true (stIndexAt (stIndexed 0x2000) 0 * 2) 2 = none ∧
    (engineStoreAll (sCp (cmd kCopy fun c => { c with out := some (List.replicate 64 7) })) 0 0 0x6000 (List.replicate 1 7)).2 = none := by
  decide +kernel
/-- A source granule of 16 bytes is read at once; one destination granule is written (R353; log 34). -/
theorem test_copy_piece :
    after (.copyElement 0 5) (sCp (cmd kCopy fun c => { c with out := some (List.replicate 64 7) }))
      (fun t => leNat ((t.core 0).scrRead 0x6000 1)) = some 7 := by decide +kernel

def sEng (b : OpBody) : State :=
  let s := (sOp b).devWrite 0x40A000 (List.replicate 256 0)
  { s with q := { s.q with evtBase := 0x40B000, evtSize := 16 } }
/-- The tag of a line in the L2 and in the L1 of core 0, dirty and pinned, after CFLUSH and CINV (R359). -/
theorem test_cache_words :
    ([false, true].map fun inv =>
      let s0 := (sEng (.cache inv [0x408000] 0x1000)).modCore 0 fun c => { c with l1 := [(0x408000, true)] }
      let s : State := { s0 with mem := { s0.mem with l2 := [(0x408000, 1, true, true)] } }
      match exec (.cacheMaintComplete 0 5) s with
      | .next t => (t.mem.l2.find? (·.1 == 0x408000), (t.core 0).l1)
      | _ => (none, [])) = [(some (0x408000, 1, false, false), [(0x408000, false)]), (none, [])] := by decide +kernel
theorem witness_EngineWordEnds :
    ([(OpBody.ltrd 0 0 777 0x1000 [0], Instr.ltrdRead 0 5), (.cache false [0x408000] 0x1000, .cacheMaintComplete 0 5),
      (.cache true [0x408000] 0x1000, .cacheMaintComplete 0 5),
      (.evpost (BitVec.ofNat 64 (2 ^ 32 + 4)) 7 true 0x1000, .evpostApply 0 5),
      (.evpost 4 7 false 0x1000, .evpostApply 0 5),
      (.evpost (BitVec.ofNat 64 (20 * 2 ^ 32)) 7 false 0x1000, .evpostApply 0 5),
      (.lnch 0x40A000 3 777 0x1000 [0], .lnchEnqueue 0 5)].all fun x =>
        let s := sEng x.1
        (((s.core 0).op? 5).map (·.body) == some x.1) && s.mayBegin 0 (op x.1) && !((op x.1).mustWait 0 s) &&
          (s.coreLaunch 0).isSome && decide ((s.tower 0).events.length + 2 ≤ 256)) = true ∧
    inHbm 0x40B008 = true ∧ ((sEng (.evpost 4 7 false 0x1000)).eventMeet 1).eventBad 1 = false ∧
    (let s := sEng (.evpost (BitVec.ofNat 64 (2 ^ 32 + 4)) 7 true 0x1000)
     let u : State := { s with mem := { s.mem with bad := [(0x40B008, 8)] } }
     (u.eventMeet 1).eventBad 1 = true ∧ completes (.evpostApply 0 5) u = true) ∧
    ([(1, 3), (2, 0), (3, 0), (4, 1), (5, 0), (5, 1), (2, 8), (0, 16)].all fun x =>
      completes (.ltrdRead 0 5) (sPeer (sEng (.ltrd x.1 (BitVec.ofNat 32 x.2) 777 0x1000 [0])))) = true ∧
    completes (.ltrdRead 0 5) (sEng (.ltrd 0 0 777 0x1000 [0])) = true ∧
    completes (.lnchEnqueue 0 5) (sEng (.lnch 0x40A000 3 777 0x1000 [0])) = true ∧
    (match engRead 0 0 (op (.lnch 0x40A000 3 777 0x1000 [0])) 0x40A000 0x40A000 256 (sEng (.lnch 0x40A000 3 777 0x1000 [0])) with
     | .ok _ bs => bs == List.replicate 256 0 | _ => false) = true := by decide +kernel

/-- A cadastre of four blocks with 16 buckets of 8 slots: its tables stand at 0x410000, 0x420000 and 0x430000. -/
def cadRegs (en : Bool) : CadRegs :=
  { en := en, n := 4, bkt := 4, tab := 0x410000, ref := 0x420000, fq := 0x430000, va := 0, free := 4, head := 0 }
def cadOp (kind : Nat) (key old : W64) : OpBody := .cad kind key old 0 false 2 777 0x1000 [0]
/-- The unit holds key 1 in its first place, for block 0, with two references, and key 2 in its first place, for block 1 with one. -/
def sCad (kind : Nat) (key old : W64) : State :=
  let s := sOp (cadOp kind key old)
  let bytes := fun (a n v : Nat) => (leBytes n v).zipIdx.map fun b => (a + b.2, b.1)
  let place := fun (k : W64) => ((cadPlaces (cadRegs true) k).headD 0, k)
  { s with cad := cadRegs true
           mem := { s.mem with dev := (sortBy (·.1) [place 1, place 2]).flatMap (fun x =>
             bytes x.1 16 (2 ^ 63 + x.2.toNat + (x.2.toNat - 1) * 2 ^ 64)) ++ bytes 0x420000 4 (2 + 2 ^ 16) ++ bytes 0x430000 4 0 } }
theorem witness_CadastreResults :
    ((List.range 4).all fun k =>
      let s := sCad k 1 2
      (((s.core 0).op? 5).map (·.body) == some (cadOp k 1 2)) && !((op (cadOp k 1 2)).mustWait 0 s) && s.cad.en &&
        (s.cadLookup 1).isSome && (s.cadLookup 2).isSome && decide (s.cadRef 0 = 2 ∧ s.cadRef 1 = 1)) = true ∧
    (cadRegs false).en = false ∧ completes (.cadastrePerform 0 5) { sCad 0 1 2 with cad := cadRegs false } = true := by decide +kernel
theorem witness_cadastre_reads :
    (((sCad 3 1 2).cadReads 3 1 2).all fun r => inHbm (r.1 + r.2 - 1) && !((sCad 3 1 2).devBad r.1 r.2)) = true := by decide +kernel
theorem test_cadastre : completes (.cadastrePerform 0 5) (sCad 3 1 2) = true := by decide +kernel
/-- A table without a key: the first eight bytes of each place of key 3 are 0. -/
def sEmpty : State :=
  let s := sOp (cadOp 0 3 3)
  let zeros := fun (a : Nat) => (List.range 8).map fun i => (a + i, (0 : BitVec 8))
  { s with cad := cadRegs true
           mem := { s.mem with dev := (sortBy id (cadPlaces (cadRegs true) 3)).flatMap zeros ++ zeros 0x430000 } }
theorem witness_cadastre_empty : sEmpty.cadLookup 3 = none ∧ (sEmpty.cadSlot 3).isSome = true ∧ sEmpty.cad.free ≠ 0 := by decide +kernel

/-! ### Towers, memories, peers and faults -/

def sGate (b : OpBody) (n : Nat) : State :=
  { (sOp b).modTower 0 (fun t => { t with gates := [(n, [(0, 0, 5)])], events := [7], posting := [9] }) with clock := 2000 }
theorem witness_TokenAndRecordSteps :
    findD ((sGate (.adm 1 3 0x1000 false) 1).tower 0).gates 1 [] = [(0, 0, 5)] ∧
    ((sGate (.adm 1 3 0x1000 false) 1).core 0).op? 5 = some (op (.adm 1 3 0x1000 false)) ∧
    3 ≤ findD ((sGate (.adm 1 3 0x1000 false) 1).tower 0).tokens 1 0 ∧
    completes (.admissionGrant 0 1) (sGate (.adm 1 3 0x1000 false) 1) = true ∧
    ((sGate (.copy (cmd kCopy) 8 false) 1).core 0).op? 5 = some (op (.copy (cmd kCopy) 8 false)) ∧
    completes (.admissionGrant 0 1) (sGate (.copy (cmd kCopy) 8 false) 1) = true ∧
    (let s := (sGate (.adm 1 3 0x1000 false) 0).modCore 0 fun c => { c with ops := [] }
     (s.core 0).op? 5 = none ∧ (s.core 0).issueOrder = [] ∧ completes (.admissionGrant 0 0) s = true) ∧
    (let s := (sGate (.adm 1 3 0x1000 false) 0).modCore 0 fun c =>
       { c with ops := [], issueOrder := [{ matOp (.mzero 0) with id := 5, granted := false, cost := 4 }] }
     (s.core 0).op? 5 = none ∧ (s.core 0).issueOrder.find? (·.id == 5) = some { matOp (.mzero 0) with id := 5, granted := false, cost := 4 } ∧
       completes (.admissionGrant 0 0) s = true) ∧
    (sGate (.adm 1 3 0x1000 false) 1).mgmt.tick < 2000 / 1050 ∧
    completes .tokenRefill (sGate (.adm 1 3 0x1000 false) 1) = true ∧
    ((sGate (.adm 1 3 0x1000 false) 1).tower 0).events = [7] ∧
    completes (.eventRecordCopy 0) (sGate (.adm 1 3 0x1000 false) 1) = true ∧
    (let s := sGate (.adm 1 3 0x1000 false) 1
     let u : State := { s with q := { s.q with hev := [(1, 4)] } }
     u.hev 1 = 4 ∧ (u.hev 3 + 2 ^ 64 - u.hev 2) % 2 ^ 32 ≠ 2 ^ 4 ∧ completes (.eventRecordCopy 0) u = true) := by decide +kernel

/-- A line in the L2 and in the L1 of core 0, a lease that is over, writes and reads of a peer that have arrived. -/
def sMem : State :=
  let s := (sPeer sC).modCore 0 fun c => { c with l1 := [(0x408000, false)] }
  { s.devWrite 0x408000 (List.replicate 128 1) with
      mem := { (s.devWrite 0x408000 (List.replicate 128 1)).mem with l2 := [(0x408000, 1, false, false)], leases := [(7, ([], 0), 0)] }
      fab := { s.fab with inbox := [(0, .peerWrite 0x408010 [3, 4]), (1, .peerRead 0x408040)] } }
theorem witness_MemoryAndPeerResults :
    (sMem.cores.all fun c => c.2.ops.isEmpty) = true ∧ sMem.mem.leases = [(7, ([], 0), 0)] ∧ sMem.clock = 0 ∧
    inHbm 0x408000 = true ∧ devValid 0x408000 = true ∧ (sMem.mem.l2.any (·.1 == 0x408000)) = true ∧
    ((sMem.core 0).l1.any (·.1 == 0x408000)) = true ∧ ((sMem.core 0).launch).isSome = true ∧
    sMem.firstIn 0 = some (.peerWrite 0x408010 [3, 4]) ∧ sMem.devPartBad 0x408010 2 = false ∧ sMem.mem.checks = [] ∧
    sMem.firstIn 1 = some (.peerRead 0x408040) ∧
    (((sMem.popIn 1).meet 0x408000 128).devBad 0x408000 128) = false ∧
    (let s : State := { sMem with mem := { sMem.mem with bad := [(0x408000, 64)] } }
     ((s.popIn 1).meet 0x408000 128).devBad 0x408000 128 = true) ∧
    (let s : State := { sMem with mem := { sMem.mem with l2 := [(0x408000, 1, true, false)] } }
     s.mem.l2.find? (·.1 == 0x408000) = some (0x408000, 1, true, false) ∧ completes (.lineMigrate 0x408000 2) s = true) ∧
    (let o := op (.strm 4 0x1000 [0]) fun o => { o with xlat := [((0x8100, true), { ty := 0, pa := 0x408000, peer := 0, pport := false })]
                                                        ownV := [(0x408000, 0x408080)] }
     o.ownsV (128 * 0x8100) (128 * 0x8100 + 128) = true ∧
       after (.lineMigrate 0x408000 2) (sMem.modCore 0 fun c => { c with ops := [o] }) (fun t => (t.mem.l2.headD (0, 0, false, false)).2.1) =
         some 1) ∧
    ([Instr.lineMigrate 0x408000 2, .leaseExpire 7, .memoryError 2 8 true, .memoryError 2 8 false, .memoryError 0 0x408000 true,
      .memoryError 1 0x408000 true, .memoryError 514 0x408000 true, .channelDieFault 0 1 2 3 4 5, .peerWriteApply 0,
      .peerReadServe 1].all fun i => completes i sMem) = true := by decide +kernel
theorem test_peer_write : after (.peerWriteApply 0) sMem (fun t => leNat (t.devRead 0x408010 2)) = some 0x403 ∧
    after (.lineMigrate 0x408000 2) sMem (fun t => (t.mem.l2.headD (0, 0, false, false)).2.1) = some 17 := by decide +kernel

def fault (w : Bool) : FaultRec :=
  { seq := 7, record := 5, written := w, outstanding := true, core := 0, slot := 2, op := none, launch := 1 }
/-- A ring of 16 fault records, one record of which waits; a context pool of one frame of two. -/
def sFault (w : Bool) : State :=
  { sC with q := { sC.q with hfl := [(1, 4)], faults := [fault w] }, ctx := { sC.ctx with base := 0x500000, cap := 2, count := 1 } }
theorem witness_FaultAnswerResults :
    (sFault false).q.faults.find? (fun r => !r.written) = some (fault false) ∧ (sFault false).hfl 1 = 4 ∧
    ((sFault false).hfl 3 + 2 ^ 64 - (sFault false).hfl 2) % 2 ^ 32 ≠ 2 ^ 4 ∧ completes .faultRecordWrite (sFault false) = true ∧
    completes .sync (sFault false) = true ∧ completes (.hflheadWrite 3) (sFault false) = true ∧
    (sFault false).ctx.count ≠ (sFault false).ctx.cap ∧ (0x600000 : W64).toNat % 0x20000 = 0 ∧ 0x500000 + 8 + 8 ≤ hbmEnd ∧
    completes (.ctxadd 0x600000) (sFault false) = true ∧ (0x600001 : W64).toNat % 0x20000 ≠ 0 ∧
    (sFault true).outstanding 3 = none ∧ (sFault true).outstanding 7 = some (fault true) ∧ (sFault true).isPreempted 1 = false ∧
    (sFault true).launchOf 1 = some tl ∧ tl.phase = .running ∧
    ([Instr.resumeAction0 7, .resumeFrameexh 7, .resumeAction0 3].all fun i => completes i (sFault true)) = true := by decide +kernel

/-! ### Queues and launches -/

/-- A queue of two packets in HBM, with the tables of the tests' launch; `extra` are more bits of its descriptor. -/
def qd (extra : Nat) : BitVec 512 := BitVec.ofNat 512 (0x409000 + 0x100000 * 2 ^ 64 + 2 ^ 128 + 2 ^ 136 + extra)
/-- The packet of the tests' launch, its map at 0x408000. -/
def qPacket (ix : Nat) : BitVec 2048 := setBits readyPacket 255 192 (0x408000 + ix)
def sQ (extra : Nat) (launches : List Launch := []) : State :=
  let s := sC.devWrite 0x408000 [0, 0]
  { s with launches := launches, cores := [], nextId := 20, mgmt := { s.mgmt with ready := true, stage := 7 }
           q := { s.q with desc := [(3, qd extra)], evtBase := 0x40B000, evtSize := 16 } }
def sRoomless : State := (sQ (2 ^ 138)).modTower 0 fun t => { t with events := List.replicate 256 0 }
theorem witness_QueueAndSignalResults :
    qdEn ((sQ 0).qdesc 3) = false ∧ descOk (qd 0) = true ∧ completes (.queueEnable 3 (qd 0)) (sQ 0) = true ∧
    descOk 0 = false ∧ qdEn ((sQ (2 ^ 138)).qdesc 3) = true ∧ completes (.queueDisable 3) (sQ (2 ^ 138)) = true ∧
    (sQ 0).mgmt.ready = true ∧ (sRoomless.eventRoom 0, (sQ (2 ^ 138)).eventRoom 0) = (false, true) ∧
    ([(0 : W32), 1, 2, 3].all fun t => completes (.doorbell 3 t) (sQ (2 ^ 138)) && completes (.doorbell 3 t) sRoomless) = true ∧
    (sQ 0).eventPlace 2 = true ∧ ((sQ 0).eventMeet 2).eventBad 2 = false ∧
    (let s : State := { sQ 0 with mem := { (sQ 0).mem with bad := [(0x40B010, 8)] } }
     (s.eventMeet 2).eventBad 2 = true ∧ completes (.evsignal (BitVec.ofNat 64 (2 * 2 ^ 32 + 5))) s = true) ∧
    completes (.evsignal (BitVec.ofNat 64 (2 * 2 ^ 32 + 5))) (sQ 0) = true ∧ ((sQ 0 [tl]).launches.map Launch.key).Nodup ∧ completes (.abort 1) (sQ 0 [tl]) = true := by
  decide +kernel
/-- TAIL may stand up to two slots past HEAD (R378). -/
theorem test_doorbell :
    after (.doorbell 3 2) (sQ (2 ^ 138)) (fun t => qdTail (t.qdesc 3)) = some 2 ∧
    after (.doorbell 3 3) (sQ (2 ^ 138)) (fun t => qdTail (t.qdesc 3)) = some 0 := by decide +kernel

/-- One packet has been written: EN is 1 and TAIL is 1. -/
def sPkt (p : BitVec 2048) : State := (sQ (2 ^ 138 + 2 ^ 224)).devWrite 0x409000 (leBytes 256 p.toNat)
def pkL (p : BitVec 2048) : Launch := newLaunch (sPkt p) 3 ((sPkt p).qdesc 3) p
theorem witness_PacketTakeResults :
    (sPkt (qPacket 0)).mgmt.stage = 7 ∧ (sPkt (qPacket 0)).mgmt.ot ≠ 3 ∧ (sPkt (qPacket 0)).nextQueue = some 3 ∧
    ((sPkt (qPacket 0)).readPacket ((sPkt (qPacket 0)).qdesc 3)).map (·.2) = some (qPacket 0) ∧
    completes .packetTake (sPkt (qPacket 0)) = true ∧ completes .packetTake (sPkt (qPacket 1)) = true ∧
    ({ sPkt (qPacket 0) with mem := { (sPkt (qPacket 0)).mem with bad := [(0x409000, 8)] } } : State).devBad 0x409000 256 = true ∧
    (sPkt (qPacket 0)).eventRoom (pkL (qPacket 0)).lead = true ∧ packetOk (pkL (qPacket 0)) (sPkt (qPacket 0)) = true ∧
    packetOk (pkL (qPacket 1)) (sQ 0) = false ∧ (pkL (qPacket 1)).cev = 0 := by decide +kernel
theorem witness_packet_maps :
    (match readMaps (pkL (qPacket 0)) 20 (sQ 0) with
     | .ok s bs => (dispatchCheck (pkL (qPacket 0)) s bs).isNone | _ => false) = true := by decide +kernel

def at' (p : LaunchPhase) (f : Launch → Launch := id) : Launch := f { tl with phase := p, cores := [0], seededAt := 0 }
/-- Column 0 has 100 °C, or the device is cool: 0 °C everywhere. -/
def sTemp (hot : Bool) (l : Launch) (clock : Nat) : State :=
  let s := sQ 0 [l]
  { s with clock := clock, mgmt := { s.mgmt with sensors := (List.range 64).map fun c =>
      (11 * c, (if hot && c == 0 then 0x640 else 0), if hot then 1050000 else 0) } }
theorem witness_LaunchStartResults :
    (sQ 0 [at' .waitDeps]).launchOf 1 = some (at' .waitDeps) ∧ ((List.range 4).all fun i => ((at' .waitDeps).dep i).1 == 0) = true ∧
    completes (.dependenceMet 1) (sQ 0 [at' .waitDeps]) = true ∧
    (let l := at' .waitDeps fun l => { l with packet := setBits l.packet 563 544 1 }
     let s := (sQ 0 [l]).devWrite 0x40B008 (leBytes 8 (2 ^ 63))
     s.launchOf 1 = some l ∧ l.dep 0 = (1, 0) ∧ s.eventPlace 1 = true ∧ (s.eventEntry 1).getLsbD 63 = true ∧ l.cev = 0 ∧
       l.packet.getLsbD 447 = false ∧ s.eventRoom l.lead = true ∧ (s.eventMeet 1).eventBad 1 = false ∧ completes (.dependenceMet 1) s = true ∧
       let u : State := { s with mem := { s.mem with bad := [(0x40B008, 8)] } }
       (u.eventMeet 1).eventBad 1 = true ∧ completes (.dependenceMet 1) u = true) ∧
    (let l := at' (.waitMap 0)
     let s := sTemp false l 10
     s.launchOf 1 = some l ∧ 0 < l.nmaps ∧ ((List.range 64).all fun c => decide (s.columnTemp c < 16 * (l.thr s 0 : Int))) = true ∧
       completes (.mapChoice 1) s = true) ∧
    (let l := at' (.waitMap 0)
     let s := sTemp true l 1050000
     s.launchOf 1 = some l ∧ 16 * (l.thr s 0 : Int) ≤ s.columnTemp 0 ∧ l.nmaps = 1 ∧ s.eventRoom l.lead = true ∧
       completes (.thermalForced 1) s = true) ∧
    (let l := at' .placed
     let s := sQ 0 [l]
     s.launchOf 1 = some l ∧ s.mgmt.ot ≠ 3 ∧ l.cores.Nodup ∧ (s.core 0).launch = none ∧ completes (.launchSeed 1) s = true) := by
  decide +kernel

def tl2 : Launch := { tl with key := 2, prio := 1, phase := .placed, seededAt := 0 }
def sPre (l : List Launch) : State := { sC with launches := l, q := { sC.q with saveBase := 0x800000, saveSize := 0x400000 } }
def sQuiet (p : LaunchPhase) : State :=
  let s := sPre [{ tl with phase := p }]
  s.modCore 0 fun c => { c with ports := [] }
theorem witness_PreemptionResults :
    (sPre [tl, tl2]).launchOf 2 = some tl2 ∧ tl2.phase = .placed ∧ (sPre [tl, tl2]).victim tl2 = some tl ∧
    (sPre [tl, tl2]).poolUsed + 0x200000 * tl.cores.length ≤ (sPre [tl, tl2]).q.saveSize.toNat ∧
    completes (.preempt 2) (sPre [tl, tl2]) = true ∧
    ((sQuiet .preempting).launchOf 1).map (·.phase) = some .preempting ∧ tl.cores.Nodup ∧ ((sQuiet .preempting).core 0).quiet = true ∧
    (sQuiet .preempting).mem.checks = [] ∧ completes (.preemptSave 1) (sQuiet .preempting) = true ∧
    (let s := (sQuiet .preempted).modCore 0 fun c => { c with launch := none }
     (s.launchOf 1).map (·.phase) = some .preempted ∧ s.mgmt.ot ≠ 3 ∧ tl.heldResume = [] ∧ (s.core 0).launch = none) := by
  decide +kernel
/-- The one core of a pre-empted launch comes back with its C warp. -/
theorem test_resume : after (.launchResume 1)
    ({ sQuiet .preempted with launches := [{ tl with phase := .preempted, saved := [(0, (sQuiet .preempting).core 0)] }] }.modCore 0
      fun _ => Core.reset) (fun t => (t.core 0).warps.length) = some ((sQuiet .preempting).core 0).warps.length := by decide +kernel

def ended (signing : Bool) (c : Core) : Core :=
  { c with ops := [], issueOrder := [], warps := [], cvr := if signing then [(0, { Cvr.idle with st := .signing })] else [] }
def sOver (p : LaunchPhase) (signing : Bool) (f : Launch → Launch := id) : State :=
  (sPre [f { tl with phase := p }]).modCore 0 (ended signing)
theorem witness_LaunchEndResults :
    ((sOver .running false).launchOf 1).map (·.cev) = some 0 ∧ (sOver .running false).eventRoom tl.lead = true ∧
    ((sOver .running false).core 0).over = true ∧ ((sOver .running true).core 0).over = true ∧
    completes (.launchEnd 1) (sOver .running false) = true ∧ completes (.launchEnd 1) (sOver .running true) = true ∧
    (sOver (.ending 9 1) false).framesOf tl = [] ∧ completes (.launchAbort 1) (sOver (.ending 9 1) false) = true ∧
    (let f := fun (l : Launch) => { l with swept := true, report := some (0, 1, 2, 3, 4) }
     (((sOver (.ending 9 1) false f).launchOf 1).map (·.swept)) = some true ∧ ((sOver (.ending 9 1) false f).core 0).over = true ∧
       completes (.launchAbort 1) (sOver (.ending 9 1) false f) = true) := by decide +kernel

/-! ### The host, links and domains -/

def sHost (busy : Bool) (n : BitVec 32) : State :=
  { sC with ctx := { sC.ctx with cap := 2, count := n, base := 0x500000 }, mgmt := { sC.mgmt with busy := busy } }
theorem witness_HostRegisterResults :
    (0x500000 : W64).toNat % 4096 = 0 ∧ inHbm 0x500000 = true ∧ (sHost false 0).ctx.count = 0 ∧ (sHost false 1).ctx.count ≠ 0 ∧
    (sHost false 0).mgmt.busy = false ∧ (sHost true 0).mgmt.busy = true ∧
    (sC.cad.en = false ∧ (∀ d < 8, (sC.domain d).en = false)) ∧ (dom2.en = true ∧ ((sPeer sC).domain 0).en = true) ∧
    qdEn (sC.qdesc 3) = false ∧ qdEn ((sQ (2 ^ 138)).qdesc 3) = true ∧
    ([0x500000, 4, 0].all fun v => completes (.configRegisterWrite 0 0x110500 4 v) (sHost false 0) &&
      completes (.configRegisterWrite 0 0x110500 4 v) (sPeer sC) && completes (.configRegisterWrite 0 0x1000C0 64 v) (sQ (2 ^ 138)) &&
      completes (.configRegisterWrite 0 0x1000C0 64 v) sC) = true ∧
    ([(0, 0x8, 8), (0, 0x110010, 8), (0, 0x110018, 8), (0, 0x110020, 8), (0, 0x110040, 8), (0, 0x110048, 8), (0, 0x110080, 8),
      (0, 0x110088, 8), (0, 0x110100, 4), (0, 0x110110, 4), (0, 0x110208, 4), (0, 0x110210, 4), (0, 0x110308, 4), (0, 0x110310, 4),
      (0, 0x110318, 8), (0, 0x110320, 8), (0, 0x110328, 8), (0, 0x110330, 8), (0, 0x110408, 8), (0, 0x111000, 8), (0, 0x111100, 4),
      (0, 0x130100, 8), (0, 0x130180, 8), (0, 0x1301C0, 8), (0, 0x140000, 8), (0, 0x140008, 8),
      (0, 0x110000, 8), (0, 0x110008, 4), (0, 0x110200, 8), (0, 0x110050, 8), (0, 0x50, 8), (4, 0x1000, 1), (4, 8, 4)].all fun x =>
      completes (.configRegisterWrite x.1 x.2.1 x.2.2 0x500000) (sHost false 0)) = true := by decide +kernel
theorem test_host_register :
    after (.configRegisterWrite 0 0x110200 8 0x500000) (sHost false 0) (fun t => t.ctx.base.toNat) = some 0x500000 ∧
    after (.configRegisterWrite 0 0x110200 8 0x500001) (sHost false 0) (fun t => t.q.cfgIgn.toNat) = some 1 ∧
    after (.configRegisterWrite 0 0x110080 8 0x400000) (sHost false 0) (fun t => t.q.saveBase.toNat) = some 0x400000 ∧
    after (.configRegisterWrite 0 0x110018 8 17) (sHost false 0) (fun t => t.q.cfgIgn.toNat) = some 1 ∧
    after (.configRegisterWrite 4 8 4 0) (sHost true 0) (fun t => if t.mgmt.overrun then 1 else 0) = some 1 := by decide +kernel

/-- The registers that KVEN needs: one block and 16 buckets. -/
def kvOk (c : CadRegs) : Bool :=
  !c.en && decide (1 ≤ c.n.toNat ∧ c.n.toNat ≤ 2 ^ 22 ∧ 4 ≤ c.bkt.toNat ∧ c.bkt.toNat ≤ 24 ∧ c.va.toNat % 65536 = 0 ∧
    c.tab.toNat + 128 * 2 ^ c.bkt.toNat ≤ hbmEnd ∧ c.ref.toNat + 2 * c.n.toNat ≤ hbmEnd ∧ c.fq.toNat + 4 * c.n.toNat ≤ hbmEnd)
theorem witness_WindowAndEnableResults :
    sC.mem.checks = [] ∧ sC.mem.bar2Log = 0 ∧ 8 + [1#8, 2].length ≤ 2 ^ 30 ∧ kvOk (cadRegs false) = true ∧
    completes (.bar2Write 0x408008 [1, 2]) sC = true ∧ completes (.bar2Resize 3) sC = true ∧
    completes .kvenDisable { sC with cad := cadRegs true } = true ∧
    after (.bar2Write 0x408008 [1, 2]) sC (fun t => leNat (t.devRead 0x408008 2)) = some 0x201 := by decide +kernel

/-- Port 3 with a row of a state and a rate, a peer of number 5 at its port 2, and what `f` changes. -/
def row (state rate : Nat) : BitVec 128 := setBits (setBits (setBits Link.reset.row 1 0 state) 29 28 rate) 127 96 5
def sLink (state rate : Nat) (f : Link → Link := id) : State :=
  { (sC.setLink 3 (f { Link.reset with row := row state rate })) with clock := 20000000 }
theorem witness_LinkStateResults :
    rowUp (row 2 0) = true ∧ rowRate (row 2 1) = 1 ∧ rowPeerId (row 2 0) = 5 ∧
    (let s := sLink 2 0
     let u : State := { s with fab := { s.fab with sent := [(3, { launch := 1, op := 5, lane := 0, peer := 5, pport := false, msg := .peerRead 0 })] } }
     completes (.lossOfSignal 3) u = true) ∧
    ([(Instr.lossOfSignal 3, sLink 2 0), (.ackTimeout 3, sLink 2 0 fun l => { l with replay := [.peerRead 0] }),
      (.ackTimeout 3, sLink 2 0 fun l => { l with replay := [.peerRead 0], ackAt := 19999999 }),
      (.retrainTimeout 3, sLink 2 0 fun l => { l with retraining := some 0 }),
      (.replayLimit 3, sLink 2 2 fun l => { l with replayTimes := List.replicate 32 19999999 }),
      (.replayLimit 3, sLink 2 0 fun l => { l with replayTimes := List.replicate 32 19999999 }), (.managementRetrain 3, sLink 2 0),
      (.retrainLock 3 0 0 0, sLink 0 0), (.retrainLock 3 1 7 4, sLink 2 0 fun l => { l with retraining := some 19999999 }),
      (.retrainLock 3 0 0 0, sLink 2 0 fun l => { l with retraining := some 19999999, lower := true }), (.linkClr 3, sLink 2 0),
      (.flitReceive 3 true (.peerRead 0), sLink 0 0), (.flitAck 3 1, sLink 2 0 fun l => { l with replay := [.peerRead 0] }),
      (.flitReceive 3 false (.peerRead 0), sLink 2 0), (.flitReceive 3 true (.peerWrite 0 [1]), sLink 2 0),
      (.flitReceive 3 true (.peerRead 0), sLink 2 0)].all fun x => completes x.1 x.2) = true := by decide +kernel
/-- 32 replays in 1 ms at the lowest rate take the port down; at a higher one it retrains (R432). -/
theorem test_replay_limit :
    after (.replayLimit 3) (sLink 2 2 fun l => { l with replayTimes := List.replicate 32 19999999 }) (fun t => rowState (t.link 3).row) =
      some 0 ∧
    after (.replayLimit 3) (sLink 2 0 fun l => { l with replayTimes := List.replicate 32 19999999 })
      (fun t => (t.link 3).retraining.getD 0) = some 20000000 := by decide +kernel

/-- A device whose DEVID is 1, in a domain of devices 1 and 2 whose one edge joins port 0 of the first to the second. -/
def dOn (f : Domain → Domain) : Domain :=
  f { dom2 with gen := 1, dstate := 2, live := [(0, 1, 0)], trees := deriveTrees 2 [(0, 1, 0)] 8 0 [], t := 1 }
def sDom (x : Domain) (s : State := sC) : State :=
  { (sPeer s).setDomain 0 x with clock := 2000000, fab := { ((sPeer s).setDomain 0 x).fab with devid := 1 } }
def dRound (reports : List (Nat × List (BitVec 128))) : Domain := dOn fun x => { x with round := some 0, reports := reports }
theorem witness_DomainResults :
    (dOn id).trees.length = 1 ∧
    (let x := dOn fun x => { x with en := false }
     (List.range x.n).find? (fun m => x.member m == (sDom x).fab.devid) = some 0 ∧ strictly [1, 2] = true ∧ (sDom x).fab.devid ≠ 0 ∧
       completes (.domainEnable 0) (sDom x) = true ∧ completes (.domainDisable 0) (sDom x) = true) ∧
    (let x := dOn fun x => { x with en := false, members := [(0, 3), (1, 2)] }
     (∀ m < 2, x.member m ≠ (sDom x).fab.devid) ∧ completes (.domainEnable 0) (sDom x) = true) ∧
    completes (.domainDisable 0) (sDom (dOn id)) = true ∧
    (let x := dRound [(0, [])]
     x.en = true ∧ x.round = some 0 ∧ 1 ≠ x.self ∧ completes (.agreementReport 0 1 []) (sDom x) = true ∧ 0 + 1050000 ≤ (sDom x).clock ∧
       completes (.agreementReportTimeout 0) (sDom x) = true) ∧
    (let x := dRound [(0, []), (1, [])]
     (1, []) ∈ x.reports ∧ completes (.agreementReport 0 1 [7]) (sDom x) = true ∧ x.n ≤ x.reports.length ∧ x.wanted = false ∧
       x.early = [] ∧ completes (.agreementCommit 0) (sDom x) = true) := by decide +kernel

/-- An all-reduce of 256 bytes of N32 in one chunk, from b0 to b1, its mark at 0x40A000 (R442). -/
def collRec : List (BitVec 8) :=
  leBytes 128 (0x1000 + 2 ^ 36 + 2 ^ 45 + 256 * 2 ^ 64 + 256 * 2 ^ 96 + 0x40A000 * 2 ^ 128)
def collBody : OpBody := .coll 0 3 0x409000 collRec (bRec 0) (bRec 8) 0x1000 0 true
def coll0 : Coll :=
  { ix := 3, core := 0, op := 5, headers := [(0, clFields collRec, []), (1, clFields collRec, [])], agreed := true, marks := []
    peerMarks := [], partials := [], inputs := [], writing := [], sentUp := [], sentDown := [], doneFrom := [], doneSent := false, stop := none, ended := none
    wrote := false }
/-- The domain at a member, with a COLL as `f` leaves it. -/
def sColl (self : Nat) (f : Coll → List Coll) : State :=
  let s := sDom (dOn fun x => { x with self := self, colls := f coll0, nextColl := 4 }) (sOp collBody)
  let zeros := fun (a n : Nat) => (List.range n).map fun i => (a + i, (0 : BitVec 8))
  { s with mem := { s.mem with dev := s.mem.dev ++ zeros 0x408000 256 } }
theorem witness_CollectiveStepResults :
    (let s := sColl 0 fun _ => []
     (s.domain 0).early = [] ∧ s.collOps 0 = [(0, op collBody)] ∧ s.mayBegin 0 (op collBody) = true ∧ (s.domain 0).coll? 3 = none ∧
       completes (.collHeaderExchange 0 3 0 [] []) s = true) ∧
    (let s := sColl 0 fun c => [{ c with headers := [(0, clFields collRec, [])], agreed := false }]
     ((s.domain 0).coll? 3).isSome = true ∧ (s.domain 0).en = true ∧ (s.domain 0).past = [] ∧ (s.domain 0).round = none ∧
       (clFields collRec != []) = true ∧ completes (.collHeaderExchange 0 3 1 [] []) s = true) ∧
    (let s := sColl 0 fun c => [{ c with headers := [], agreed := false }]
     completes (.collHeaderExchange 0 3 1 [] []) s = true) ∧
    (let s := sColl 0 fun c => [{ c with peerMarks := [(0, [0])], doneFrom := [1] }]
     (s.collMarking 0 3).isSome = true ∧ completes (.markVectorMessage 0 3 0 []) s = true) ∧
    (let s := sColl 0 fun c => [c]
     (s.collCtx 0 3).isSome = true ∧ ((s.domain 0).children 0) = [1] ∧ clAdds collRec = true ∧ clChunks collRec = 1 ∧
       clFmt collRec = 1 ∧ completes (.collChunkMessage 0 3 0 1 true (List.replicate 256 1)) s = true ∧
       completes (.memberStopped 0 3 1) s = true) ∧
    (let s := sColl 1 fun c => [c]
     (s.collCtx 0 3).map (fun k => k.isRoot 0 || !(k.inOrder 0 k.wentUp)) = some false ∧ ((s.domain 0).children 0) = [] ∧
       (s.domain 0).parent 0 = some 0 ∧ completes (.collChunkMessage 0 3 0 1 false []) s = true) ∧
    (let bs := List.replicate 256 (1 : BitVec 8)
     let held := sColl 1 fun c => [{ c with inputs := [(0, bs)] }]
     let piece := (0x408000#64, List.replicate 16 (1 : BitVec 8))
     ((sColl 1 fun c => [c]).collCtx 0 3).map (fun k =>
         (k.isRoot 0, k.takes 0, k.hasInput 0, k.inOrder 0 k.wentUp, k.inOrder 0 k.cameDown)) =
         some (false, true, true, true, true) ∧
       clChunks collRec = 1 ∧ clOp collRec ≠ 1 ∧
       completes (.collChunkMessage 0 3 0 1 false []) held = true ∧ completes (.collChunkMessage 0 3 0 0 false bs) held = true ∧
       ((sColl 1 fun c => [{ c with inputs := [(0, bs)], writing := [(0, [piece], bs)] }]).collCtx 0 3).isSome = true ∧
       completes (.collChunkMessage 0 3 0 1 false []) (sColl 1 fun c => [{ c with inputs := [(0, bs)], writing := [(0, [], bs)] }]) =
         true) ∧
    (let s := sColl 0 fun c => [{ c with marks := [(0, 2)] }]
     (s.collCtx 0 3).map (fun k => collMarks k.r k.c) = some [2] ∧ completes (.collCompletionRound 0 3) s = true) ∧
    (let s := sColl 0 fun c => [{ c with marks := [(0, 2)], doneFrom := [0, 1], doneSent := true }]
     (s.collCtx 0 3).map (fun k => collMarks k.r k.c) = some [2] ∧ completes (.collCompletionRound 0 3) s = true) := by decide +kernel

/-! ### Management, mailbox, the step -/

def sMg (f : Mgmt → Mgmt) (g : Core → Core := id) (launches : List Launch := [tl]) : State :=
  { sC.modCore 0 (fun c => g { c with issueOrder := [], press := none }) with
      launches := launches, clock := 20000000000, mgmt := f { sC.mgmt with stage := 7, ready := true } }
def many (n : Nat) : Mgmt → Mgmt := fun m => { m with retries := List.replicate n (3, 19999999999) }
def sFence (r : BitVec 128) : State := (sMg id).modTower 0 fun t =>
  { t with contain := r, met := [2] }
theorem witness_ManagementStepResults :
    completes (.sensorSample 5 2 7) (sMg id) = true ∧
    ((sMg id).core 0).issueOrder = [] ∧ ((sMg id).core 0).press = none ∧ completes (.riserTimingApply 0 3) (sMg id) = true ∧
    ((sMg id).mgmt.retries.filter fun e => e.1 == 3 && decide ((sMg id).clock < e.2 + 1050000000)).length < 16 ∧
    completes (.riserRepair 0 3) (sMg id) = true ∧
    16 ≤ ((sMg (many 16)).mgmt.retries.filter fun e => e.1 == 3 && decide ((sMg (many 16)).clock < e.2 + 1050000000)).length ∧
    natBits ((sMg (many 16)).riser 0 3).toNat 1 0 < 2 ∧ completes (.riserRepair 0 3) (sMg (many 16)) = true ∧
    (let s := sMg fun m => { many 16 m with risers := [(3, 2)] }
     2 ≤ natBits (s.riser 0 3).toNat 1 0 ∧ completes (.riserRepair 0 3) s = true) ∧
    (let s := sMg (fun m => { m with marked := [0] }) fun c => { c with launch := none }
     0 ∈ s.mgmt.marked ∧ (s.core 0).launch = none ∧ completes (.coreOutOfService 0) s = true) ∧
    completes (.layerClockGating 0 3 true false) (sMg id) = true := by decide +kernel
/-- The 64th correction within one second meets the threshold, and the 63rd does not; a later one leaves it met (R268). -/
theorem test_corrections :
    (let w := fun n => (List.range n).foldl (fun (w : Tower) i => w.correct i 2) (sC.tower 0)
     ((w 64).fenceDue 2, (w 63).fenceDue 2, ((w 64).correct 9000000000 2).fenceDue 2, ((w 63).correct 9000000000 2).fenceDue 2)) =
      (true, false, true, false) := by decide +kernel
theorem witness_fence_steps :
    ((sFence 0xFF00).tower 0).fenceDue 2 = true ∧ ((sFence 0xFF00).tower 0).pressAt = none ∧
    ((sFence 0xFF00).tower 0).contain.getLsbD 7 = false ∧ completes (.channelFenceThreshold 0 2) (sFence 0xFF00) = true ∧
    ((sFence 0x0380).tower 0).contain.getLsbD 7 = true ∧ natBits ((sFence 0x0380).tower 0).contain.toNat 11 8 ≠ 2 ∧
    ((sFence 0x0380).tower 0).secondReported = false ∧ completes (.channelFenceThreshold 0 2) (sFence 0x0380) = true ∧
    (sFence 0x0380).eventRoom 0 = true := by decide +kernel
/-- A loop that is healthy, one of too little flow for 1 s, one that is too warm, one that has been well for 10 s. -/
def wet : Loop := { flow := 100, supply := 0, lowSince := none, goodSince := none }
def lowLoop (n : Nat) : Loop := { wet with flow := 49, lowSince := some (20000000000 - n) }
def goodLoop (n : Nat) : Loop := { wet with goodSince := some (20000000000 - n) }
def sLoop (lost : Bool) (l : Loop) : State := sMg fun m => { m with topLost := lost, ot := if lost then 1 else 0, cooling := (l, wet) }
theorem witness_loop_steps :
    ((sLoop false wet).mgmt.ot, (sLoop false wet).mgmt.topLost, (sLoop true wet).mgmt.ot, (sLoop true wet).mgmt.topLost) =
      (0, false, 1, true) ∧
    ([lowLoop 1050000000, lowLoop 1049999999, { wet with supply := 961 }, { wet with supply := 960 }].map fun l =>
      after (.loopLost true) (sLoop false l) (·.mgmt.ot)) = [some 1, some 0, some 1, some 0] ∧
    ([goodLoop 10500000000, goodLoop 10499999999].map fun l => after (.loopRestored true) (sLoop true l) (·.mgmt.ot)) =
      [some 0, some 1] ∧
    after (.loopLost false) (sMg fun m => { m with topLost := true, ot := 1, cooling := (wet, { wet with supply := 961 }) }) (·.mgmt.ot) =
      some 3 ∧
    (let s := sMg (fun m => { m with ot := 3, shutdownAt := some 0 }) id [{ tl with phase := .ending 14 0 }]
     0 + 1050000 ≤ s.clock ∧ s.launches ≠ [] ∧ (s.core 0).launch = some tl.key ∧ completes .shutdownGraceExpire s = true) ∧
    (let s := sMg (fun m => { m with ot := 3, shutdownAt := some 0 }) id []
     ((List.range 4).all fun k => (s.tower k).events.isEmpty) = true ∧ after .shutdownGraceExpire s (·.mgmt.stage) = some 9) := by
  decide +kernel

/-- Stages of bring-up (whether a stage fails is free), a raised trigger, a served request. -/
theorem witness_SnapshotAndPowerResults :
    (sMg fun m => { m with snapPending := some (3, 7, 5) }).mgmt.snapPending = some (3, 7, 5) ∧
    5 < (sMg fun m => { m with snapPending := some (3, 7, 5) }).clock ∧
    (sMg fun m => { m with snapPending := some (3, 7, 20000000000) }).clock ≤ 20000000000 ∧
    ((List.range 8).all fun k => (sMg fun m => { m with stage := k, ready := false }).mgmt.stage == k &&
      !(sMg fun m => { m with stage := k, ready := false }).mgmt.ready) = true ∧
    completes .powerLoss (sMg id) = true ∧ completes .mailboxComplete (sMg fun m => { m with busy := true, served := true }) = true := by
  decide +kernel

/-- A request with a code, a length and arguments is being served. -/
def sBox (code len : Nat) (a : List (BitVec 8)) (f : Mgmt → Mgmt := id) (g : Core → Core := id) : State :=
  sMg (fun m => f { m with busy := true, served := false, serving := some (code, len, a), recov := false }) g
def dbg (op : Nat) : List (BitVec 8) := leBytes 2 0 ++ [BitVec.ofNat 8 op, 1] ++ List.replicate 8 0
def half (lo : Nat) : List (BitVec 8) := leBytes 8 0x408000 ++ List.replicate 72 (BitVec.ofNat 8 lo)
/-- A request of each clause, with the event that serves it. -/
def boxes : List (Instr × State) :=
  let sensed := fun (m : Mgmt) => { m with sensors := [(57, 3, 9)] }
  let image := fun (m : Mgmt) => { m with snapCtl := 2, snapImage := [(3, 0, [1])] }
  [(.badcmd, sBox 0 0 []), (.badcmd, sBox 11 0 []), (.sensor, sBox 1 2 [5, 2] sensed), (.sensor, sBox 1 2 [64, 2]),
   (.sensor, sBox 1 3 [5, 2, 0]), (.logread, sBox 2 6 [0, 0, 0, 0, 2, 0]), (.riserset, sBox 3 8 [0, 0, 3, 0, 3, 0, 0, 0]),
   (.riserset, sBox 3 8 [0, 0, 3, 0, 0x11, 0, 0, 0]), (.mbFence, sBox 4 2 [1, 15]), (.mbFence, sBox 4 2 [1, 2]),
   (.inject, sBox 5 16 (1 :: List.replicate 15 0)), (.snapctlArm, sBox 7 8 [0, 0, 0, 0, 0, 0, 0, 0]),
   (.snapctlProgen, sBox 7 8 [1, 1, 0, 0, 0, 0, 0, 0]), (.snapctlReadctl, sBox 7 8 [2, 0, 0, 0, 0, 0, 0, 0]),
   (.snapctlReadblock, sBox 7 8 [3, 0, 3, 0, 0, 0, 0, 0] image),
   (.snapctlReadblock, sBox 7 8 [3, 0, 3, 0, 0, 0, 0, 0] fun m => { image m with asleep := [(1, true)] }),
   (.corectlHalt, sBox 8 12 (dbg 0)), (.corectlResume, sBox 8 12 (dbg 1)), (.corectlDebugen, sBox 8 12 (dbg 2)),
   (.corectlReadreg, sBox 8 12 (dbg 3 |>.set 3 0) id fun c => { c with halted := true }),
   (.logread, sBox 2 6 [0, 0, 0, 0, 129, 0]), (.logread, sBox 2 6 [0, 0, 0, 0, 0, 0]), (.riserset, sBox 3 8 [0, 2, 3, 0, 0, 0, 0, 0]),
   (.mbFence, sBox 4 2 [1, 9]), (.inject, sBox 5 16 (4 :: List.replicate 15 0)), (.checkbits, sBox 6 80 (1 :: List.replicate 79 0)),
   (.snapctlArm, sBox 7 8 [4, 0, 0, 0, 0, 0, 0, 0]), (.snapctlReadctl, sBox 7 7 [2]), (.snapctlReadblock, sBox 7 8 [3, 0, 3, 0, 0, 0, 0, 0]),
   (.corectlHalt, sBox 8 12 (dbg 4)), (.corectlHalt, sBox 8 11 (dbg 0)), (.corectlReadreg, sBox 8 12 (dbg 3)),
   (.fwupdate, sBox 9 9 [0, 0, 0, 0, 4, 0, 0, 0, 7]), (.fwupdate, sBox 9 7 []), (.attest, sBox 10 31 []),
   (.fwupdate, sBox 9 9 [0, 0, 0, 0, 0, 0, 0, 0, 7]), (.fwupdate, sBox 9 9 [5, 0, 0, 0, 0, 0, 0, 0, 7])]
theorem witness_MailboxResults :
    (boxes.all fun x => x.2.mgmt.busy && !x.2.mgmt.served && x.2.mgmt.serving.isSome && x.2.mgmt.stage == 7 && !x.2.mgmt.recov &&
      completes x.1 x.2) = true ∧
    (sBox 6 80 (half 0)).mgmt.serving = some (6, 80, half 0) ∧ (half 0).length = 80 ∧ argN (half 0) 0 8 % 64 = 0 ∧
    inHbm (argN (half 0) 0 8) = true ∧ (sBox 10 32 (List.replicate 32 7) fun m => { m with running := some [1] }).mgmt.running = some [1] ∧
    blockLayer 3 0 = 1 := by decide +kernel

/-- The first test vectors of SHA-512 (FIPS 180-4) and of Ed25519 (RFC 8032), which R519 and R520 name. -/
theorem test_digest : (sha512 [0x61, 0x62, 0x63]).take 8 = [0xdd, 0xaf, 0x35, 0xa1, 0x93, 0x61, 0x7a, 0xba] := by decide +kernel
theorem test_signature :
    let secret := bigBytes 32 0x9d61b19deffd5a60ba844af492ec2cc44449c5697b326919703bac031cae7f60
    let public' := bigBytes 32 0xd75a980182b10ab7d54bfed3c964073a0ee172f3daa62325af021a68f707511a
    let sig := bigBytes 32 0xe5564300c360ac729086e2cc806e828a84877f1eb8e5d974d873e06522490155 ++
      bigBytes 32 0x5fb8821590a33bacc61e39701cf9b46bd25bf5f0595bbe24655141438e7a100b
    edPublic secret = public' ∧ edSign secret [] = sig ∧ edVerify public' [] sig = true ∧ edVerify public' [1] sig = false := by
  decide +kernel

/-- A state in which nothing is due but the word of a port: it is fetched, decodes, and is executed. -/
def nopWord : W64 := 0x8380E00000000000
theorem witness_StepRunsDecoded :
    (let s := State.reset.fetching nopWord .v0
     s.agenda = [] ∧ s.dueStep = none ∧ s.dueWord = some (0, .v0) ∧ (s.coreLaunch 0).isSome = true ∧ ((s.core 0).port .v0).issued.isNone = true ∧
       vaOk true (((s.core 0).port .v0).pc) = true ∧ decodeBytes (bytesOfWord nopWord) = .ok (.nop (rwE 0 0 0)) ∧
       (match translateOn { s with cur := (0, .v0) } 0 0x100000 true 0x400000 .exec with
        | (t, .ok p) => p.loc.own && !(t.devBad p.loc.pa 8) && ((t.locRead p.loc 0 8).map (·.2) == some (bytesOfWord nopWord))
        | _ => false) = true) ∧
    encode (.doorbell 3 1) = none := by decide +kernel
/-- The step runs the NOP: the thread is at its boundary with the next PC. -/
theorem test_step : (match step (State.reset.fetching nopWord .v0) with
    | .next t => (t.thread? 0 2 0).map (·.pc.toNat)
    | _ => none) = some 0x400008 := by decide +kernel
/-- A state with bytes in device memory and in a scratchpad that meets the invariant. -/
theorem witness_Inv : Inv sC :=
  ⟨by decide +kernel, by decide +kernel, fun c hc => by
    have h : (sC.cores.all fun c => Memory.wfScratch c.2.scratch) = true := by decide +kernel
    exact List.all_eq_true.mp h c hc, fun l hl c hc => by
    have h : (sC.launches.all fun l => l.saved.isEmpty) = true := by decide +kernel
    simp [List.isEmpty_iff.mp (List.all_eq_true.mp h l hl)] at hc⟩

end Sys2Proof.Tests
end

section
/-! SUPPORT. Class 0, element by element: the functions of the model are the integer formulas of R161, R163 and R166 to R169. -/

namespace Sys2Proof.Spec

open Sys2Proof Sys2Proof.Machine

/-! ### The integers of R161 and the bits of R10 -/

theorem bits_zero (x : Int) : bits x 0 = BitVec.ofInt 32 x := by simp [bits]

theorem bits_natCast (n lo : Nat) : bits n lo = BitVec.ofNat 32 (n / 2 ^ lo) := by
  rw [bits, ← BitVec.ofInt_natCast]
  push_cast
  rfl

theorem ofInt_toNat (a : W32) : BitVec.ofInt 32 a.toNat = a := by
  rw [BitVec.ofInt_natCast, BitVec.ofNat_toNat, BitVec.setWidth_eq]

/-! ### Elements: arithmetic (R161) -/

theorem add_eq_bits (a b : W32) : a + b = bits (a.toNat + b.toNat) 0 := by
  rw [bits_zero, BitVec.ofInt_add, ofInt_toNat, ofInt_toNat]

theorem sub_eq_bits (a b : W32) : a - b = bits (a.toNat - b.toNat) 0 := by
  rw [bits_zero, Int.sub_eq_add_neg, BitVec.ofInt_add, BitVec.ofInt_neg, ofInt_toNat, ofInt_toNat, BitVec.sub_eq_add_neg]

theorem mul_eq_bits (a b : W32) : a * b = bits (a.toNat * b.toNat) 0 := by
  rw [bits_zero, BitVec.ofInt_mul, ofInt_toNat, ofInt_toNat]

theorem mulAdd_eq_bits (a b d : W32) : d + a * b = bits (d.toNat + a.toNat * b.toNat) 0 := by
  rw [bits_zero, BitVec.ofInt_add, BitVec.ofInt_mul, ofInt_toNat, ofInt_toNat, ofInt_toNat]

/-- The upper half of a 64-bit image of an integer. -/
theorem extractLsb'_ofInt_upper (x : Int) : (BitVec.ofInt 64 x).extractLsb' 32 32 = bits x 32 := by
  apply BitVec.eq_of_toNat_eq
  simp only [bits, BitVec.extractLsb'_toNat, BitVec.toNat_ofInt, Nat.shiftRight_eq_div_pow]
  omega

theorem fImulh_eq_bits (u : Bool) (a b : W32) : fImulh u a b = bits (ext u a * ext u b) 32 :=
  extractLsb'_ofInt_upper _

theorem fIabs_eq_bits (a : W32) : fIabs a = bits |a.toInt| 0 := by
  rw [bits_zero, fIabs, Int.abs_eq_natAbs, BitVec.ofInt_natCast]

theorem fImin_eq (u : Bool) (a b : W32) : fImin u a b = if ext u a ≤ ext u b then a else b := rfl
theorem fImax_eq (u : Bool) (a b : W32) : fImax u a b = if ext u b ≤ ext u a then a else b := rfl

/-! ### Elements: counts and reversal (R166) -/

theorem fPopc_eq_countP (a : W32) :
    fPopc a = BitVec.ofNat 32 ((List.range 32).countP fun i => a.toNat.testBit i) := by
  rw [fPopc, ← List.countP_eq_length_filter]
  rfl

theorem fClz_eq (a : W32) : fClz a = if a = 0 then 32 else BitVec.ofNat 32 (31 - Nat.log2 a.toNat) := rfl

/-- A number built from `m` bits, the first at the top, has bit `m - 1 - j` of them as its bit `j`. -/
theorem testBit_foldl_bits (p : Nat → Bool) (m j : Nat) :
    ((List.range m).foldl (fun n i => 2 * n + (if p i then 1 else 0)) 0).testBit j =
      (decide (j < m) && p (m - 1 - j)) := by
  induction m generalizing j with
  | zero => simp
  | succ m ih =>
    have hb : ∀ n : Nat, 2 * n + (if p m then 1 else 0) = Nat.bit (p m) n := fun n => by
      cases p m <;> simp [Nat.bit]
    rw [List.range_succ, List.foldl_append, List.foldl_cons, List.foldl_nil, hb]
    cases j with
    | zero => simp
    | succ j =>
      rw [Nat.testBit_bit_succ, ih]
      simp [Nat.sub_sub, Nat.add_comm]

theorem fBrev_eq_reverse (a : W32) : fBrev a = a.reverse := by
  apply BitVec.eq_of_getLsbD_eq
  intro j hj
  rw [fBrev, BitVec.getLsbD_ofNat, testBit_foldl_bits, BitVec.getLsbD_reverse, BitVec.getMsbD]
  simp [hj]

/-! ### Elements: shifts, funnels and fields (R167 to R169) -/

theorem bits_natCast_mul (n k lo : Nat) : bits (n * 2 ^ k) lo = BitVec.ofNat 32 (n * 2 ^ k / 2 ^ lo) := by
  simpa using bits_natCast (n * 2 ^ k) lo

theorem bits_natCast_div (n k lo : Nat) : bits (n / 2 ^ k) lo = BitVec.ofNat 32 (n / 2 ^ k / 2 ^ lo) := by
  simpa using bits_natCast (n / 2 ^ k) lo

theorem bits_toNat_mul (a : W32) (k : Nat) : bits (a.toNat * 2 ^ k) 0 = a <<< k := by
  apply BitVec.eq_of_toNat_eq
  simp [bits_natCast_mul, Nat.shiftLeft_eq]

theorem bits_toNat_div (a : W32) (k : Nat) : bits (a.toNat / 2 ^ k) 0 = a >>> k := by
  have hlt : a.toNat / 2 ^ k < 2 ^ 32 := lt_of_le_of_lt (Nat.div_le_self _ _) a.isLt
  apply BitVec.eq_of_toNat_eq
  simpa [bits_natCast_div, Nat.shiftRight_eq_div_pow] using Nat.mod_eq_of_lt hlt

theorem fShl_eq_bits (a : W32) (k : Nat) : fShl a k = if 32 ≤ k then 0 else bits (a.toNat * 2 ^ k) 0 := by
  rw [bits_toNat_mul, fShl]

theorem fShr_eq_bits (a : W32) (k : Nat) : fShr a k = if 32 ≤ k then 0 else bits (a.toNat / 2 ^ k) 0 := by
  rw [bits_toNat_div, fShr]

theorem fSar_eq_bits (a : W32) (k : Nat) : fSar a k = bits a.toInt (min k 31) := by
  rw [fSar, BitVec.sshiftRight, Int.shiftRight_eq_div_pow, bits]
  push_cast
  rfl

theorem fRol_eq_bits (a : W32) (k : Nat) :
    fRol a k = bits (a.toNat * 2 ^ (k % 32)) 0 ||| bits (a.toNat / 2 ^ (32 - k % 32)) 0 := by
  rw [bits_toNat_mul, bits_toNat_div, fRol, BitVec.rotateLeft, Nat.mod_mod]
  rfl

/-- The 64-bit concatenation of R168 as an integer. -/
theorem toNat_append_eq (a b : W32) : (a.toNat * 2 ^ 32 + b.toNat : Int) = (a ++ b).toNat := by
  rw [BitVec.toNat_append, ← Nat.shiftLeft_add_eq_or_of_lt b.isLt, Nat.shiftLeft_eq]
  push_cast
  rfl

theorem fFshl_eq_bits (k : Nat) (a b : W32) : fFshl k a b = bits ((a.toNat * 2 ^ 32 + b.toNat) * 2 ^ k) 32 := by
  apply BitVec.eq_of_toNat_eq
  rw [toNat_append_eq, bits_natCast_mul, fFshl, BitVec.extractLsb'_toNat, BitVec.toNat_shiftLeft, Nat.shiftLeft_eq,
    Nat.shiftRight_eq_div_pow, BitVec.toNat_ofNat]
  omega

theorem fFshr_eq_bits (k : Nat) (a b : W32) : fFshr k a b = bits ((a.toNat * 2 ^ 32 + b.toNat) / 2 ^ k) 0 := by
  apply BitVec.eq_of_toNat_eq
  rw [toNat_append_eq, bits_natCast_div, fFshr, BitVec.toNat_setWidth, BitVec.toNat_ushiftRight,
    Nat.shiftRight_eq_div_pow, BitVec.toNat_ofNat, pow_zero, Nat.div_one]

theorem bfPos_eq_pos (b : W32) : bfPos b = pos b := by simp [bfPos, pos, natBits]
theorem bfLen_eq_len (b : W32) : bfLen b = len b := by
  simp [bfLen, len, natBits, bfPos_eq_pos, Nat.shiftRight_eq_div_pow]

/-- A field of `n + 1` bits read as a signed number (R169). -/
theorem toInt_ofNat_field (n f : Nat) (h : f < 2 ^ (n + 1)) :
    (BitVec.ofNat (n + 1) f).toInt = if f < 2 ^ n then (f : Int) else f - 2 ^ (n + 1) := by
  rw [BitVec.toInt_eq_toNat_cond, BitVec.toNat_ofNat, Nat.mod_eq_of_lt h, pow_succ, pow_succ, mul_comm (2 ^ n)]
  simp only [Nat.mul_lt_mul_left (show 0 < 2 by decide)]
  push_cast
  ring_nf

theorem fBfx_eq_bits (u : Bool) (a b : W32) : fBfx u a b =
    let f := a.toNat / 2 ^ pos b % 2 ^ len b
    if len b = 0 then 0 else bits (if u ∨ f < 2 ^ (len b - 1) then (f : Int) else (f : Int) - 2 ^ len b) 0 := by
  dsimp only [fBfx]
  rw [bfPos_eq_pos, bfLen_eq_len, Nat.shiftRight_eq_div_pow]
  have hlt : a.toNat / 2 ^ pos b % 2 ^ len b < 2 ^ len b := Nat.mod_lt _ (Nat.two_pow_pos _)
  generalize a.toNat / 2 ^ pos b % 2 ^ len b = f at hlt
  generalize len b = n at hlt
  cases n with
  | zero => rfl
  | succ n =>
    rw [if_neg n.succ_ne_zero, if_neg n.succ_ne_zero, bits_zero, Nat.add_sub_cancel]
    cases u
    · rw [if_neg Bool.false_ne_true, BitVec.signExtend, toInt_ofNat_field n f hlt]
      simp
    · simp

/-- The mask of BFI: `n` ones from bit `k` on (R169). -/
theorem bits_mask (n k : Nat) : bits ((2 ^ n - 1) * 2 ^ k) 0 = BitVec.ofNat 32 ((2 ^ n - 1) <<< k) := by
  have h := bits_natCast_mul (2 ^ n - 1) k 0
  rw [Nat.cast_sub Nat.one_le_two_pow] at h
  simpa [Nat.shiftLeft_eq] using h

theorem fBfi_eq_bits (a b d : W32) : fBfi a b d =
    let mask := bits ((2 ^ len b - 1) * 2 ^ pos b) 0
    (d &&& ~~~mask) ||| (bits (a.toNat * 2 ^ pos b) 0 &&& mask) := by
  simp only [fBfi, bits_toNat_mul, bits_mask, bfPos_eq_pos, bfLen_eq_len]

/-! ### Elements: division (R163) -/

theorem fIdiv_eq_bits (u : Bool) (a b : W32) :
    fIdiv u a b = if b = 0 then 0xFFFFFFFF else bits (Int.tdiv (ext u a) (ext u b)) 0 := by
  rw [fIdiv, bits_zero]
  cases u
  · rfl
  · simp only [ext, if_true, ← Int.natCast_div, Int.tdiv_eq_ediv_of_nonneg (Int.natCast_nonneg _), BitVec.ofInt_natCast]

theorem fIrem_eq_bits (u : Bool) (a b : W32) :
    fIrem u a b = if b = 0 then a else bits (ext u a - ext u b * Int.tdiv (ext u a) (ext u b)) 0 := by
  rw [fIrem, bits_zero, ← Int.tmod_def]
  cases u
  · rfl
  · simp only [ext, if_true, ← Int.natCast_emod, Int.tmod_eq_emod_of_nonneg (Int.natCast_nonneg _), BitVec.ofInt_natCast]

end Sys2Proof.Spec

end

section
/-! CERTIFICATES. Class 0, word by word: a word follows the rule of its shape where its elements do. -/

namespace Sys2Proof.Machine

open Sys2Proof Sys2Proof.Spec

/-! ### Words of class 0, by the shape of their meaning -/

section
variable {i : Instr} {op : Nat} {w : RForm} {lat : Nat}

/-- A block word with two sources follows its rule where its elements do. -/
theorem completes_binary (sp : RSpec) {f g : W32 → W32 → W32} (hfg : ∀ a b, f a b = g a b)
    (hi : ∀ s, exec i s = issueWord (aluWord op w) (perThread (binary w lat fun _ => f)) s := by intro _; rfl)
    (hf : i.form = some (.r op w) := by rfl) (ho : WordForm.opnOk (.r op w) = sp.opnOk w := by rfl) :
    Completes i (block2 op w lat g) :=
  completes_block i op w sp _ _ _ lat hi hf ho fun e => by simp only [binary, hfg]

/-- A block word with one source. -/
theorem completes_unary (sp : RSpec) {f g : W32 → W32} (hfg : ∀ a, f a = g a)
    (hi : ∀ s, exec i s = issueWord (aluWord1 op w) (perThread (unary w lat fun _ => f)) s := by intro _; rfl)
    (hf : i.form = some (.r op w) := by rfl) (ho : WordForm.opnOk (.r op w) = sp.opnOk w := by rfl) :
    Completes i (block1 op w lat g) :=
  completes_block i op w sp _ _ _ lat hi hf ho fun e => by simp only [unary, hfg]

/-- A block word that also reads its old destination. -/
theorem completes_ternary (sp : RSpec) {f g : W32 → W32 → W32 → W32} (hfg : ∀ a b d, f a b d = g a b d)
    (hi : ∀ s, exec i s = issueWord (aluWord3 op w) (perThread (ternary w lat fun _ => f)) s := by intro _; rfl)
    (hf : i.form = some (.r op w) := by rfl) (ho : WordForm.opnOk (.r op w) = sp.opnOk w := by rfl) :
    Completes i (block3 op w lat g) :=
  completes_block i op w sp _ _ _ lat hi hf ho fun e => by simp only [ternary, hfg]

/-- With I = 1 a shift has no second source (R167). -/
theorem shiftWord_eq (op : Nat) (w : RForm) :
    shiftWord op w = rWord op w (src1Regs w ++ if mbit w.mod 5 then [] else src2Regs w) (dstRegs w) := by
  unfold shiftWord
  split
  · rw [List.append_nil]; rfl
  · rfl

/-- The amount of a shift: MOD[4:0] with I = 1, the register otherwise (R167). -/
theorem shiftAmt_eq (w : RForm) (b : W32) :
    shiftAmt w (if mbit w.mod 5 then 0 else b) = if mbit w.mod 5 then mfld w.mod 4 0 else b.toNat := by
  unfold shiftAmt
  split <;> rfl

/-- A shift of every element. -/
theorem completes_shift {f g : W32 → Nat → W32} (hfg : ∀ a k, f a k = g a k)
    (hi : ∀ s, exec i s = issueWord (shiftWord op w) (perThread (shiftBy w f)) s := by intro _; rfl)
    (hf : i.form = some (.r op w) := by rfl) (ho : WordForm.opnOk (.r op w) = shiftSp.opnOk w := by rfl) :
    Completes i (shiftRule op w g) := by
  simp only [shiftWord_eq] at hi
  exact completes_block i op w shiftSp _ _ _ 2 hi hf ho fun e => by simp only [shiftBy, shiftAmt_eq, hfg]

/-- What IDIV or IREM gives a thread: INTDIV and no result where a divisor is 0 and TDIVI is 1, its results otherwise, with
DIVZ where a divisor is 0 (R158, R163). -/
theorem divide_eq (w : RForm) (f : W32 → W32 → W32) (e : Env) : divide w f e =
    if zeroDivisor w e && e.t.mode.getLsbD 8 then { flags := 0x40, trap := some (0x32, 0) }
    else { writes := (binary w 10 (fun _ => f) e).writes, flags := if zeroDivisor w e then 0x40 else 0 } := rfl

/-- IDIV and IREM. -/
theorem completes_divide (sp : RSpec) {f g : W32 → W32 → W32} (hfg : ∀ a b, f a b = g a b)
    (hi : ∀ s, exec i s = issueWord (aluWord op w) (perThread (divide w f)) s := by intro _; rfl)
    (hf : i.form = some (.r op w) := by rfl) (ho : WordForm.opnOk (.r op w) = sp.opnOk w := by rfl) :
    Completes i (division op w g) := by
  obtain rfl : f = g := funext fun a => funext fun b => hfg a b
  have htraps : ∀ es e, (division op w f).traps es e =
      if zeroDivisor w e && e.t.mode.getLsbD 8 then some { cause := 0x32, info := 0, flags := 0x40 } else none :=
    fun _ _ => rfl
  refine completes_of_perThread i _ (divide w f) hi (fun _ _ => rfl) (fun es e _ hnone => ?_) (fun es e _ x hx => ?_)
    (fun hwf => ?_) fun _ _ => rfl
  · rw [htraps, ite_eq_right_iff] at hnone
    rw [divide_eq, if_neg fun hz => nomatch hnone hz]
    rfl
  · rw [htraps, Option.ite_none_right_eq_some, Option.some.injEq] at hx
    obtain ⟨hz, rfl⟩ := hx
    rw [divide_eq, if_pos hz]
    exact ⟨rfl, rfl⟩
  · obtain ⟨xs, hnodup, hxs⟩ := warpRegs_block (opn_of_wf hf ho hwf)
    refine ⟨xs, hnodup, fun _ e _ => hxs _ _, fun e x hx => ?_⟩
    rw [divide_eq] at hx
    split at hx
    · cases hx
    · rw [← hxs _ _]
      exact hx

end

/-! ### Carry, comparison and selection (R162, R164, R165) -/

/-- A 3-bit modifier field names a predicate. -/
theorem mfld_two_zero_lt (m : BitVec 9) : mfld m 2 0 < 8 := by
  simp only [mfld, natBits]
  omega

theorem warpReg_pred {n : Nat} (h : n < 8) : warpReg (832 + n) = false := by
  simp only [warpReg, Bool.or_eq_false_iff, Bool.and_eq_false_iff, decide_eq_false_iff_not, beq_eq_false_iff_ne]
  omega

/-- The carry of a sum below 2^33 is its bit 32 (R162). -/
theorem carry_eq_testBit {n : Nat} (h : n < 2 ^ 33) : decide (2 ^ 32 ≤ n) = n.testBit 32 := by
  rw [Nat.testBit_eq_decide_div_mod_eq, decide_eq_decide]
  omega

/-- What IADDC gives a thread. -/
theorem addCarry_eq (w : RForm) (e : Env) :
    let cin : Nat := if mbit w.mod 3 then 0 else if e.pred (mfld w.mod 2 0) then 1 else 0
    let sum := (e.r32 w.s1.toNat).toNat + (e.r32 w.s2.toNat).toNat + cin
    addCarry w e = { writes := [wr32 w.d.toNat (bits sum 0) 2, wrP (832 + mfld w.mod 2 0) (sum.testBit 32) 2] } := by
  intro cin sum
  have hcin : cin ≤ 1 := by
    dsimp only [cin]
    repeat' split
    all_goals omega
  have hsum : sum < 2 ^ 33 := by
    have := (e.r32 w.s1.toNat).isLt
    have := (e.r32 w.s2.toNat).isLt
    omega
  rw [← carry_eq_testBit hsum, bits_natCast, pow_zero, Nat.div_one]
  rfl

/-- The condition codes of ICMP (R164). -/
theorem fIcmp_eq_getD {cc : Nat} (h : cc < 6) (u : Bool) (a b : W32) : fIcmp cc u a b =
    [decide (ext u a = ext u b), decide (ext u a ≠ ext u b), decide (ext u a < ext u b), decide (ext u a ≤ ext u b),
      decide (ext u b < ext u a), decide (ext u b ≤ ext u a)].getD cc false := by
  match cc, h with
  | 1, _ => exact decide_not.symm
  | 0, _ | 2, _ | 3, _ | 4, _ | 5, _ => rfl

theorem combine_eq (comb : Nat) (old t : Bool) :
    combine comb old t = if comb = 0 then t else if comb = 1 then old && t else old || t := by
  match comb with
  | 0 | 1 | _ + 2 => rfl

/-- The codes 6 and 7 are no well-formed ICMP (R164). -/
theorem icmp_code_lt {w : RForm} (h : WellFormed (.icmp w) = true) : mfld w.mod 2 0 < 6 := by
  simp only [WellFormed, Instr.form, Option.all_some, Bool.and_eq_true] at h
  obtain ⟨-, ⟨-, hres⟩, -⟩ := h
  change (_ && (decide (mfld w.mod 2 0 < 6) && _)) = true at hres
  simp only [Bool.and_eq_true, decide_eq_true_eq] at hres
  exact hres.2.1

/-- ICMP reads its old destination where it combines (R164). -/
theorem compareWord_eq (w : RForm) : (if mfld w.mod 4 3 = 0 then aluWord 0x00B w else aluWord3 0x00B w) =
    rWord 0x00B w (src1Regs w ++ src2Regs w ++ if mfld w.mod 4 3 = 0 then [] else dstRegs w) (dstRegs w) := by
  split
  · rw [List.append_nil]; rfl
  · rfl

/-! ### The obligations -/

theorem all_nil : All [] := fun _ h => nomatch h
theorem all_cons {i : Instr} {r : Rule} {l : List (Instr × Rule)} (h : Completes i r) (t : All l) : All ((i, r) :: l) :=
  List.forall_mem_cons.2 ⟨h, t⟩

/-- Settles O1: the shape of each word's meaning is that of its rule (block, shift or division), and its element is the integer
formula of R161, R163 and R166 to R169. -/
theorem integerResults : Obligations.IntegerResults := by
  unfold Obligations.IntegerResults
  refine ⟨fun w => ?arithmetic, fun w => ?logic, fun w => ?shifts, fun w => ?divisions⟩
  case arithmetic =>
    exact
      all_cons (completes_binary alu2 add_eq_bits) <|
      all_cons (completes_binary alu2 sub_eq_bits) <|
      all_cons (completes_binary alu2 mul_eq_bits) <|
      all_cons (completes_ternary alu2 mulAdd_eq_bits) <|
      all_cons (completes_binary alu2U (fImulh_eq_bits _)) <|
      all_cons (completes_binary alu2U (fImin_eq _)) <|
      all_cons (completes_binary alu2U (fImax_eq _)) <|
      all_cons (completes_unary alu1 fIabs_eq_bits) all_nil
  case logic =>
    exact
      all_cons (completes_binary alu2 (fun _ _ => rfl)) <|
      all_cons (completes_binary alu2 (fun _ _ => rfl)) <|
      all_cons (completes_binary alu2 (fun _ _ => rfl)) <|
      all_cons (completes_binary alu2 (fun _ _ => rfl)) <|
      all_cons (completes_unary alu1 (fun _ => rfl)) <|
      all_cons (completes_unary alu1 fPopc_eq_countP) <|
      all_cons (completes_unary alu1 fClz_eq) <|
      all_cons (completes_unary alu1 fBrev_eq_reverse) all_nil
  case shifts =>
    exact
      all_cons (completes_shift fShl_eq_bits) <|
      all_cons (completes_shift fShr_eq_bits) <|
      all_cons (completes_shift fSar_eq_bits) <|
      all_cons (completes_shift fRol_eq_bits) <|
      all_cons (completes_binary { alu2 with mask := 0x19F } (fFshl_eq_bits _)) <|
      all_cons (completes_binary { alu2 with mask := 0x19F } (fFshr_eq_bits _)) <|
      all_cons (completes_binary alu2U (fBfx_eq_bits _)) <|
      all_cons (completes_ternary alu2 fBfi_eq_bits) all_nil
  case divisions =>
    exact
      all_cons (completes_divide alu2U (fIdiv_eq_bits _)) <|
      all_cons (completes_divide alu2U (fIrem_eq_bits _)) all_nil

/-- Settles O2: IADDC gives D and pN, ICMP one predicate, SEL a block whose elements share the choice of one predicate. A result
in pN is the thread's own, so D alone can be a register of the warp. -/
theorem carryCompareSelectResults : Obligations.CarryCompareSelectResults := by
  unfold Obligations.CarryCompareSelectResults
  refine fun w => ⟨?iaddc, ?icmp, ?sel⟩
  case iaddc =>
    refine completes_word _ _ (addCarry w) _ (fun _ => rfl) (addCarry_eq w) fun _ =>
      ⟨[w.d.toNat].filter warpReg, (List.nodup_singleton _).filter _, fun e => ?_⟩
    simp [wr32, wrP, List.filter_cons, warpReg_pred (mfld_two_zero_lt w.mod)]
  case icmp =>
    intro hwf
    refine completes_word _ _ (compareInt w) _ (fun s => ?_) (fun e => ?_) (fun _ =>
      ⟨[w.d.toNat].filter warpReg, (List.nodup_singleton _).filter _, fun _ => rfl⟩) hwf
    · rw [← compareWord_eq]; rfl
    · simp only [compareInt, combine_eq, fIcmp_eq_getD (icmp_code_lt hwf)]
  case sel =>
    exact completes_block _ 0x00C w { alu2 with mask := 0x18F } _ _ _ 2 (fun _ => rfl) rfl rfl fun _ => rfl

end Sys2Proof.Machine

end

section
/-! SUPPORT. The special functions at the special inputs: the rows of the table of R187. -/

namespace Sys2Proof.Machine

open Sys2Proof Sys2Proof.Spec

/-! ### The codes of the table -/

theorem f32_value_zero : f32.value 0 = .fin false 0 (-149) := by decide
theorem f32_value_negZero : f32.value 0x80000000 = .fin true 0 (-149) := by decide
theorem f32_value_inf : f32.value 0x7F800000 = .inf false := by decide
theorem f32_value_negInf : f32.value 0xFF800000 = .inf true := by decide
theorem f32_value_one : f32.value 0x3F800000 = .fin false (2 ^ 23) (-23) := by decide

theorem f32_nan : f32.nan = 0x7FC00000 := rfl
theorem f32_maxFin : f32.maxFin = 0x7F7FFFFF := rfl
theorem f32_code (neg : Bool) (mag : Nat) : f32.code neg mag = mag + if neg then 0x80000000 else 0 := rfl

/-- The value of an F32 code by its magnitude (R33). -/
theorem f32_value_eq (a : Nat) : f32.value a =
    if a % 2 ^ 31 ≤ 0x7F7FFFFF then
      if a % 2 ^ 31 / 2 ^ 23 = 0 then .fin (a.testBit 31) (a % 2 ^ 31 % 2 ^ 23) (-149)
      else .fin (a.testBit 31) (2 ^ 23 + a % 2 ^ 31 % 2 ^ 23) (((a % 2 ^ 31 / 2 ^ 23 : Nat) : Int) - 127 - 23)
    else if a % 2 ^ 31 = 0x7F800000 then .inf (a.testBit 31) else .nan := by
  simp [FFmt.value, f32]

/-- Only the two zeros have the significand 0. -/
theorem f32_mag_of_value_zero {a : Nat} {neg : Bool} {e : Int} (h : f32.value a = .fin neg 0 e) : a % 2 ^ 31 = 0 := by
  rw [f32_value_eq] at h
  split_ifs at h <;> injection h <;> omega

/-! ### An exact value keeps its code in every mode (R42) -/

theorem roundShift_exact (mode : Nat) (neg : Bool) {m k : Nat} (h : m % 2 ^ k = 0) :
    roundShift mode neg m k false = (m / 2 ^ k, false) := by
  unfold roundShift
  rw [h, Nat.shiftRight_eq_div_pow]
  match mode with
  | 0 =>
    cases k with
    | zero => simp
    | succ j => simp [pow_succ, (Nat.two_pow_pos j).ne]
  | 1 | 2 | _ + 3 => simp

/-- 2^k·2^(-k) with more bits than a significand has is the code of 1. -/
theorem f32_round_one (mode : Nat) {k : Nat} (hk : 23 < k) :
    f32.round mode false false (2 ^ k) (-(k : Int)) false = (0x3F800000, 0) := by
  have hshift : (-23 + (k : Int)).toNat = k - 23 := by omega
  have hpow : 2 ^ k = 2 ^ 23 * 2 ^ (k - 23) := by rw [← Nat.pow_add]; congr 1; omega
  have hround : roundShift mode false (2 ^ k) (k - 23) false = (2 ^ 23, false) := by
    rw [roundShift_exact _ _ (by rw [hpow, Nat.mul_mod_left]), hpow, Nat.mul_div_cancel _ (by positivity)]
  simp only [FFmt.round, f32, Nat.log2_two_pow]
  simp [hk.not_ge, hshift, hround, FFmt.code, flagIf]

/-! ### The rows

No input of a row reaches the free values of R186 (log 6), so a row without a rounding mode is evaluated. -/

theorem frcpFin_one (mode : Nat) : frcpFin mode false (2 ^ 23) (-23) = (0x3F800000, 0) :=
  f32_round_one mode (k := 60) (by decide)

theorem frcp_row (mode : Nat) : [0, 0x80000000, 0x7F800000, 0xFF800000, 0x3F800000].map (frcp mode) =
    [(0x7F800000, flDIVZ), (0xFF800000, flDIVZ), (0, 0), (0x80000000, 0), (0x3F800000, 0)] := by
  simp only [List.map, frcp, f32_value_zero, f32_value_negZero, f32_value_inf, f32_value_negInf, f32_value_one, frcpFin_one,
    f32_code, f32_maxFin]
  rfl

theorem isqrt_two_pow_104 : isqrt (2 ^ 104) = 2 ^ 52 := by decide +kernel

theorem fsqrtFin_one (mode : Nat) : fsqrtFin mode (2 ^ 23) (-23) = (0x3F800000, 0) := by
  have hsquare : 2 ^ 23 * 2 ^ (-23 - 2 * (-23 / 2) : Int).toNat * 2 ^ 80 = 2 ^ 104 := by decide
  simp only [fsqrtFin, hsquare, isqrt_two_pow_104]
  exact f32_round_one mode (k := 52) (by decide)

theorem fsqrt_row (mode : Nat) : [0, 0x80000000, 0x7F800000, 0xFF800000, 0x3F800000].map (fsqrt mode) =
    [(0, 0), (0x80000000, 0), (0x7F800000, 0), (0x7FC00000, flINV), (0x3F800000, 0)] := by
  simp only [List.map, fsqrt, f32_value_zero, f32_value_negZero, f32_value_inf, f32_value_negInf, f32_value_one, fsqrtFin_one,
    f32_code, f32_maxFin]
  rfl

theorem frsq_row : [0, 0x80000000, 0x7F800000, 0xFF800000, 0x3F800000].map frsq =
    [(0x7F800000, flDIVZ), (0xFF800000, flDIVZ), (0, 0), (0x7FC00000, flINV), (0x3F800000, 0)] := by
  decide +kernel

theorem fex2_row : [0, 0x80000000, 0x7F800000, 0xFF800000, 0x3F800000].map fex2 =
    [(0x3F800000, 0), (0x3F800000, 0), (0x7F800000, 0), (0, 0), (0x40000000, 0)] := by
  decide +kernel

theorem flg2_row : [0, 0x80000000, 0x7F800000, 0xFF800000, 0x3F800000].map flg2 =
    [(0xFF800000, flDIVZ), (0xFF800000, flDIVZ), (0x7F800000, 0), (0x7FC00000, flINV), (0, 0)] := by
  decide +kernel

theorem fsin_row : [0, 0x80000000, 0x7F800000, 0xFF800000].map (fsincos false) =
    [(0, 0), (0x80000000, 0), (0x7FC00000, flINV), (0x7FC00000, flINV)] := by
  decide +kernel

theorem fcos_row : [0, 0x80000000, 0x7F800000, 0xFF800000].map (fsincos true) =
    [(0x3F800000, 0), (0x3F800000, 0), (0x7FC00000, flINV), (0x7FC00000, flINV)] := by
  decide +kernel

theorem ftanh_row : [0, 0x80000000, 0x7F800000, 0xFF800000].map ftanh =
    [(0, 0), (0x80000000, 0), (0x3F800000, 0), (0xBF800000, 0)] := by
  decide +kernel

/-- A negative finite input has no root and no logarithm. -/
theorem special_of_neg (mode : Nat) {a m : Nat} {e : Int} (h : f32.value a = .fin true m e) (hm : m ≠ 0) :
    frsq a = (0x7FC00000, flINV) ∧ fsqrt mode a = (0x7FC00000, flINV) ∧ flg2 a = (0x7FC00000, flINV) := by
  simp [frsq, fsqrt, flg2, h, hm, f32_nan]

theorem special_of_nan (mode : Nat) {a : Nat} (h : f32.value a = .nan) :
    frcp mode a = (0x7FC00000, 0) ∧ frsq a = (0x7FC00000, 0) ∧ fsqrt mode a = (0x7FC00000, 0) ∧ fex2 a = (0x7FC00000, 0) ∧
      flg2 a = (0x7FC00000, 0) ∧ fsincos false a = (0x7FC00000, 0) ∧ fsincos true a = (0x7FC00000, 0) ∧
      ftanh a = (0x7FC00000, 0) := by
  simp [frcp, frsq, fsqrt, fex2, flg2, fsincos, ftanh, h, f32_nan]

/-- FTANH is ±1 from a magnitude of 10 on: no zero lies there. -/
theorem ftanh_of_ten_le {a m : Nat} {e : Int} {neg : Bool} (h : f32.value a = .fin neg m e)
    (hten : 0x41200000 ≤ a % 2 ^ 31) : ftanh a = (if neg then 0xBF800000 else 0x3F800000, 0) := by
  have hm : m ≠ 0 := by
    rintro rfl
    rw [f32_mag_of_value_zero h] at hten
    omega
  simp only [ftanh, h, hm, hten, if_true, if_false]
  cases neg <;> rfl

/-- Settles O6: the rows of the table, NaN and the negative finite inputs, and FTANH from 10 on. -/
theorem specialInputs : Obligations.SpecialInputs := by
  unfold Obligations.SpecialInputs
  intro mode
  exact ⟨frcp_row mode, frsq_row, fsqrt_row mode, fex2_row, flg2_row, fsin_row, fcos_row, ftanh_row, fun _ _ _ =>
    ⟨special_of_neg mode, special_of_nan mode, fun _ => ftanh_of_ten_le⟩⟩

end Sys2Proof.Machine
end

section
/-! CERTIFICATES. Class 1: the comparison, the class mask and the special functions follow their rules. -/

namespace Sys2Proof.Machine

open Sys2Proof Sys2Proof.Spec

/-- A block word of class 1 with one source follows the rule of its element function. -/
theorem completes_funary {i : Instr} {op : Nat} {w : RForm} {lat : Nat} (sp : RSpec) {f : Env → Nat → Nat × W32}
    (hi : ∀ s, exec i s = issueWord (aluWord1 op w).vOnly (perThread (funary w lat f)) s := by intro _; rfl)
    (hf : i.form = some (.r op w) := by rfl) (ho : WordForm.opnOk (.r op w) = sp.opnOk w := by rfl) :
    Completes i (Spec.float1 op w lat f) :=
  completes_floatBlock i op w sp _ _ _ lat hi hf ho fun _ => rfl

/-- The condition codes of FCMP (R183). -/
theorem fcmp_eq_getD {cc : Nat} (h : cc < 8) (x y : Nat) :
    let a := f32.value x
    let b := f32.value y
    let ord := !(a.isNan || b.isNan)
    let lt := a.lt false b
    let gt := b.lt false a
    fcmp cc x y =
      [ord && !lt && !gt, !ord || lt || gt, ord && lt, ord && !gt, ord && gt, ord && !lt, !ord, ord].getD cc false := by
  match cc, h with
  | 1, _ | 6, _ => simp [fcmp]
  | 0, _ | 2, _ | 3, _ | 4, _ | 5, _ | 7, _ => rfl

/-- A comparison reads its old destination where it combines (R164, R183). -/
theorem comparisonWord_eq (op : Nat) (w : RForm) : (if mfld w.mod 4 3 = 0 then aluWord op w else aluWord3 op w) =
    rWord op w (src1Regs w ++ src2Regs w ++ if mfld w.mod 4 3 = 0 then [] else dstRegs w) (dstRegs w) := by
  split
  · rw [List.append_nil]; rfl
  · rfl

/-- Settles O5: FCMP gives one predicate; FCLASS and the special functions give a block, each element by its function. -/
theorem floatClassSpecialResults : Obligations.FloatClassSpecialResults := by
  unfold Obligations.FloatClassSpecialResults
  refine ⟨fun w => all_cons ?fcmp (all_cons ?fclass all_nil), fun w => ?special⟩
  case fcmp =>
    refine completes_word _ _ (compareFloat w) _ (fun s => ?_) (fun e => ?_) fun _ =>
      ⟨[w.d.toNat].filter warpReg, (List.nodup_singleton _).filter _, fun _ => rfl⟩
    · rw [← comparisonWord_eq]; rfl
    · simp only [compareFloat, combine_eq, fcmp_eq_getD (mfld_two_zero_lt w.mod)]
  case fclass => exact completes_funary Machine.float1
  case special =>
    exact
      all_cons (completes_funary float1R) <|
      all_cons (completes_funary Machine.float1) <|
      all_cons (completes_funary float1R) <|
      all_cons (completes_funary Machine.float1) <|
      all_cons (completes_funary Machine.float1) <|
      all_cons (completes_funary Machine.float1) <|
      all_cons (completes_funary Machine.float1) <|
      all_cons (completes_funary Machine.float1) all_nil

end Sys2Proof.Machine
end
